-- ==== Sys2Proof/Word.lean ====
section
/-! DEFINITION. The word type of the hardware (a byte: 00_scope.md R7 `W_DATA` = 8) and two plain containers: four like
things indexed 0..3 (the four pins, the four rows), and one thing per buffer. -/

namespace Sys2Proof

/-- One stored value: "8 data bits" (R7 `W_DATA`). -/
abbrev Byte := BitVec 8

/-- Four like things, numbered 0 to 3: the rows of the phase table, the four pins (R7, R32). -/
structure Quad (α : Type) where
  p0 : α
  p1 : α
  p2 : α
  p3 : α
  deriving DecidableEq, Repr

/-- Element `i` of four. -/
def Quad.get {α : Type} (q : Quad α) (i : Fin 4) : α :=
  match i with
  | 0 => q.p0
  | 1 => q.p1
  | 2 => q.p2
  | 3 => q.p3

/-- The four elements in index order. -/
def Quad.toList {α : Type} (q : Quad α) : List α := [q.p0, q.p1, q.p2, q.p3]

end Sys2Proof
end

