-- ==== Sys2Proof/Syntax.lean ====
section
/-! DEFINITION. The thirteen operations of the hardware (00_scope.md R3, 30_encoding.md R96) as one inductive, with the
names their operands are made of. One constructor per row of spec/opcode_table.json. -/

namespace Sys2Proof

/-- The two agents that execute operations (10_state.md R20): `M` the mainline context, `I` the interrupt context. -/
inductive Agent where
  | M
  | I
  deriving DecidableEq, Repr

/-- The two buffers of a `SerialLink`; `tx` is also the only instance of a bare FIFO (R26, R91 `sel`). -/
inductive BufId where
  | tx
  | rx
  deriving DecidableEq, Repr

/-- `direction`: "enumerated {FORWARD, BACKWARD}" (R30). -/
inductive Direction where
  | forward
  | backward
  deriving DecidableEq, Repr

/-- The three components (R1) an operation can belong to: the `unit` field of R91. -/
inductive Component where
  | rb
  | sl
  | ss
  deriving DecidableEq, Repr

/-- The three interrupt-context operations, each run for a hardware condition (60_exceptions.md R195, R202). -/
inductive Handler where
  | transmitReady
  | receiveReady
  | tick
  deriving DecidableEq, Repr

/-- One thing per buffer. -/
structure ByBuf (α : Type) where
  tx : α
  rx : α
  deriving DecidableEq, Repr

def ByBuf.get {α : Type} (x : ByBuf α) (b : BufId) : α :=
  match b with
  | .tx => x.tx
  | .rx => x.rx

def ByBuf.set {α : Type} (x : ByBuf α) (b : BufId) (v : α) : ByBuf α :=
  match b with
  | .tx => { x with tx := v }
  | .rx => { x with rx := v }

/-- One thing per agent. -/
structure ByAgent (α : Type) where
  m : α
  i : α
  deriving DecidableEq, Repr

def ByAgent.get {α : Type} (x : ByAgent α) (a : Agent) : α :=
  match a with
  | .M => x.m
  | .I => x.i

def ByAgent.set {α : Type} (x : ByAgent α) (a : Agent) (v : α) : ByAgent α :=
  match a with
  | .M => { x with m := v }
  | .I => { x with i := v }

/-- The operations (R3), one constructor per row of the opcode map (R96). An `RB` operation names its issuing agent
(the `ctx` bit of R91) and its buffer (the `sel` bit). `distance` and `speed` are unsigned counts whose widths are the
parameters `W_STEPS` and `W_RATE`; `Instr.operandsOk` checks them. -/
inductive Instr where
  | rbWrite (a : Agent) (b : BufId) (value : Byte)
  | rbRead (a : Agent) (b : BufId)
  | rbIsFull (a : Agent) (b : BufId)
  | rbIsEmpty (a : Agent) (b : BufId)
  | slEnqb (value : Byte)
  | slEnqm (bytes : List Byte)
  | slDeqb
  | slTxrdy
  | slRxrdy (r : Byte)
  | ssStart (distance : Nat) (dir : Direction) (speed : Nat)
  | ssIsfin
  | ssRelease
  | ssTick
  deriving DecidableEq, Repr

end Sys2Proof
end

