-- ==== Sys2Proof/Config.lean ====
section
/-! DEFINITION. The parameters of the model (00_scope.md R7), when a value of them is well formed (R8), and the free
values: opaque constants with no body, so that nothing can be proved from a value of them.

DESIGN CHOICE (log 4): the parameters are plain data, and a value of them stands in State, so that a statement about
every state is a statement about every value of an OPEN parameter. -/

namespace Sys2Proof

/-- A pin reference: "each a hardware address + bit position" (R32); `loc` is an opaque location name. -/
structure PinRef where
  loc : Nat
  bit : Nat
  deriving DecidableEq, Repr

/-- The parameters of R7. `C_TX`, `C_RX`: slots of the two buffers; `W_STEPS`, `W_RATE`, `W_TMR`: widths in bits;
`phaseTable`: row `p`, bit `i` is the level of pin `i` in phase `p`; `pins`: `PIN_LOC`, `PIN_BIT`. -/
structure Params where
  cTx : Nat
  cRx : Nat
  wSteps : Nat
  wRate : Nat
  wTmr : Nat
  maxRate : Nat
  phaseTable : Quad (BitVec 4)
  pins : Quad PinRef
  resetPhase : Fin 4
  resetDirection : Direction
  nestedInterrupts : Bool
  deriving DecidableEq, Repr

/-- The capacity parameter `C` of a buffer. -/
def Params.cap (p : Params) (b : BufId) : Nat :=
  match b with
  | .tx => p.cTx
  | .rx => p.cRx

/-- `W_IDX = ceil(log2 C)` (R7, D5), for `C >= 2`. -/
def Params.idxWidth (p : Params) (b : BufId) : Nat := Nat.log2 (p.cap b - 1) + 1

/-- "every row of PHASE_TABLE has exactly two bits set" (R8). -/
def rowOk (row : BitVec 4) : Bool :=
  ((List.range 4).filter fun i => row.getLsbD i).length == 2

/-- A parameter value is well formed (R8; the range of `MAX_RATE` is R7's). -/
def Params.wf (p : Params) : Bool :=
  decide (2 ≤ p.cTx) && decide (2 ≤ p.cRx)
    && p.phaseTable.toList.all rowOk
    && p.pins.toList.all (fun r => decide (r.bit ≤ 7))
    && decide p.pins.toList.Nodup
    && decide (p.maxRate < 2 ^ p.wRate)

/-- The values the model starts from: the defaults of R7 where it has one (widths 16, the table of D14, `RESET_PHASE`
0, `RESET_DIRECTION` FORWARD, no nesting). DESIGN CHOICE (log 4) for the others: `C_TX = C_RX = 4` and `MAX_RATE = 200`
as in the test vectors, the four pins bits 0 to 3 of one location. No statement rests on these values. -/
def Params.default : Params where
  cTx := 4
  cRx := 4
  wSteps := 16
  wRate := 16
  wTmr := 16
  maxRate := 200
  phaseTable := ⟨0b0011#4, 0b0110#4, 0b1100#4, 0b1001#4⟩
  pins := ⟨⟨0, 0⟩, ⟨0, 1⟩, ⟨0, 2⟩, ⟨0, 3⟩⟩
  resetPhase := 0
  resetDirection := .forward
  nestedInterrupts := false

namespace Config

/-- `period_of_rate` (R7, R169): "uninterpreted total function" of the clamped rate (log 5); its range is made `W_TMR`
bits where it is used. -/
opaque periodOfRate : Nat → Nat

/-- Free value: what slot `i` of buffer `b` holds after reset number `epoch` (R39, D6, U3; log 6). -/
opaque slotDraw : Nat → BufId → Nat → BitVec 8

/-- Free value: what the I/O byte at a location holds after reset (R39, D9, U5; log 7). -/
opaque ioDraw : Nat → Nat → BitVec 8

/-- Free value: `tickPeriod` after reset (R39, D9, U4; log 8). -/
opaque tickPeriodDraw : Nat → Nat

/-- Free value: `TXREG` after reset (R28 names no value; log 9). -/
opaque txRegDraw : Nat → BitVec 8

/-- Free value: what the caller's error slot holds after reset (R39 "caller's"; log 11). -/
opaque errSlotDraw : Nat → Agent → BitVec 2

end Config

end Sys2Proof
end

