-- ==== Sys2Proof/WellFormed.lean ====
section
/-! DEFINITION. When an operation's operands are in range (an operation of the hardware), and when it has an encoding
(a command of the byte stream of 30_encoding.md). -/

namespace Sys2Proof

/-- The operands are of their widths: `distance` is `W_STEPS` bits and `targetSpeed` is `W_RATE` bits (R161); a message
is any finite sequence (R141) and every other operand is a byte or an enumeration. -/
def Instr.operandsOk (p : Params) : Instr → Bool
  | .ssStart distance _ speed => decide (distance < 2 ^ p.wSteps) && decide (speed < 2 ^ p.wRate)
  | .rbWrite _ _ _ => true
  | .rbRead _ _ => true
  | .rbIsFull _ _ => true
  | .rbIsEmpty _ _ => true
  | .slEnqb _ => true
  | .slEnqm _ => true
  | .slDeqb => true
  | .slTxrdy => true
  | .slRxrdy _ => true
  | .ssIsfin => true
  | .ssRelease => true
  | .ssTick => true

/-- The operation has a byte form: a message has at most 255 bytes (R92, R98), and "the byte format requires W_STEPS
and W_RATE to be multiples of 8" (R92; only format `S` has operands of these widths). -/
def Instr.encodable (p : Params) : Instr → Bool
  | .slEnqm bytes => decide (bytes.length ≤ 255)
  | .ssStart distance _ speed =>
    decide (distance < 2 ^ p.wSteps) && decide (speed < 2 ^ p.wRate)
      && decide (p.wSteps % 8 = 0) && decide (p.wRate % 8 = 0)
  | .rbWrite _ _ _ => true
  | .rbRead _ _ => true
  | .rbIsFull _ _ => true
  | .rbIsEmpty _ _ => true
  | .slEnqb _ => true
  | .slDeqb => true
  | .slTxrdy => true
  | .slRxrdy _ => true
  | .ssIsfin => true
  | .ssRelease => true
  | .ssTick => true

end Sys2Proof
end

