-- ==== Sys2Proof/Decode.lean ====
section
/-! DEFINITION. The decoder of the command encoding (30_encoding.md R91 to R98), total on any bytes and rejecting by
name, and after it the encoder, written from the same table. -/

namespace Sys2Proof

/-- Why a byte sequence is no command: each is an `IllegalCommand` of R97. -/
inductive DecodeError where
  /-- no byte at all: nothing to decode -/
  | empty
  /-- `unit == 11` -/
  | reservedUnit
  /-- `z == 1` -/
  | reservedBit
  /-- `sel == 1` outside `RB` -/
  | reservedSelect
  /-- an `fn` the unit and context do not use -/
  | unusedFunction
  /-- an `SS.START` whose `dir` byte is not 0 or 1 -/
  | badDirection
  /-- the stream ends in the middle of the command -/
  | truncated
  /-- `W_STEPS` or `W_RATE` is no multiple of 8, so format `S` has no byte form (R92) -/
  | noByteForm
  deriving DecidableEq, Repr

/-- What an opcode byte alone says (R92: "told apart by the opcode byte alone"). -/
inductive Opcode where
  | rbWrite (a : Agent) (b : BufId)
  | rbRead (a : Agent) (b : BufId)
  | rbIsFull (a : Agent) (b : BufId)
  | rbIsEmpty (a : Agent) (b : BufId)
  | slEnqb
  | slEnqm
  | slDeqb
  | slTxrdy
  | slRxrdy
  | ssStart
  | ssIsfin
  | ssRelease
  | ssTick
  deriving DecidableEq, Repr

/-! ## The fields of the opcode byte (R91) -/

def fieldUnit (x : Byte) : Nat := (x.extractLsb' 6 2).toNat
def fieldCtx (x : Byte) : Bool := x.getLsbD 5
def fieldZ (x : Byte) : Bool := x.getLsbD 4
def fieldSel (x : Byte) : Bool := x.getLsbD 3
def fieldFn (x : Byte) : Nat := (x.extractLsb' 0 3).toNat

/-- `RB`: the agent that issues the operation, 0 = `M`, 1 = `I` (R91 `ctx`). -/
def agentOfBit (bit : Bool) : Agent := if bit then .I else .M

/-- `RB`: buffer select, 0 = `tx`, 1 = `rx` (R91 `sel`). -/
def bufOfBit (bit : Bool) : BufId := if bit then .rx else .tx

/-- The opcode map (R96), field by field, with the illegal bytes of R97. -/
def opcodeOf (x : Byte) : Except DecodeError Opcode :=
  if fieldZ x then .error .reservedBit
  else match fieldUnit x with
    | 0 =>
      match fieldFn x with
      | 0 => .ok (.rbWrite (agentOfBit (fieldCtx x)) (bufOfBit (fieldSel x)))
      | 1 => .ok (.rbRead (agentOfBit (fieldCtx x)) (bufOfBit (fieldSel x)))
      | 2 => .ok (.rbIsFull (agentOfBit (fieldCtx x)) (bufOfBit (fieldSel x)))
      | 3 => .ok (.rbIsEmpty (agentOfBit (fieldCtx x)) (bufOfBit (fieldSel x)))
      | _ => .error .unusedFunction
    | 1 =>
      if fieldSel x then .error .reservedSelect
      else match fieldCtx x, fieldFn x with
        | false, 0 => .ok .slEnqb
        | false, 1 => .ok .slEnqm
        | false, 2 => .ok .slDeqb
        | true, 0 => .ok .slTxrdy
        | true, 1 => .ok .slRxrdy
        | _, _ => .error .unusedFunction
    | 2 =>
      if fieldSel x then .error .reservedSelect
      else match fieldCtx x, fieldFn x with
        | false, 0 => .ok .ssStart
        | false, 1 => .ok .ssIsfin
        | false, 2 => .ok .ssRelease
        | true, 0 => .ok .ssTick
        | _, _ => .error .unusedFunction
    | _ => .error .reservedUnit

/-! ## Operands (R93 to R95) -/

/-- A little-endian value: the first byte is bits 7:0 (R94). -/
def leValue : List Byte → Nat
  | [] => 0
  | b :: bs => b.toNat + 256 * leValue bs

/-- The `n` low bytes of a value, little-endian (R94). -/
def leBytes : Nat → Nat → List Byte
  | 0, _ => []
  | n + 1, v => BitVec.ofNat 8 v :: leBytes n (v / 256)

/-- The first `n` bytes and the rest, or none when the stream ends before (R97 "fewer operand bytes"). -/
def takeBytes : Nat → List Byte → Option (List Byte × List Byte)
  | 0, bs => some ([], bs)
  | _ + 1, [] => none
  | n + 1, b :: bs =>
    match takeBytes n bs with
    | none => none
    | some (front, rest) => some (b :: front, rest)

/-- The `dir` byte (R95): `0x00` FORWARD, `0x01` BACKWARD, nothing else. -/
def directionOfByte (x : Byte) : Option Direction :=
  if x = 0x00#8 then some .forward
  else if x = 0x01#8 then some .backward
  else none

/-- Format `B`: one operand byte (R92). -/
def decodeB (mk : Byte → Instr) (bs : List Byte) : Except DecodeError (Instr × List Byte) :=
  match bs with
  | [] => .error .truncated
  | v :: rest => .ok (mk v, rest)

/-- Format `M`: a length byte and that many data bytes (R92, R98). -/
def decodeM (mk : List Byte → Instr) (bs : List Byte) : Except DecodeError (Instr × List Byte) :=
  match bs with
  | [] => .error .truncated
  | n :: bs1 =>
    match takeBytes n.toNat bs1 with
    | none => .error .truncated
    | some (data, rest) => .ok (mk data, rest)

/-- Format `S`: `distance`, `dir`, `speed` (R92, R94, R95). -/
def decodeS (p : Params) (mk : Nat → Direction → Nat → Instr) (bs : List Byte) :
    Except DecodeError (Instr × List Byte) :=
  if p.wSteps % 8 = 0 ∧ p.wRate % 8 = 0 then
    match takeBytes (p.wSteps / 8) bs with
    | none => .error .truncated
    | some (_, []) => .error .truncated
    | some (dist, d :: bs1) =>
      match takeBytes (p.wRate / 8) bs1 with
      | none => .error .truncated
      | some (speed, rest) =>
        match directionOfByte d with
        | none => .error .badDirection
        | some dir => .ok (mk (leValue dist) dir (leValue speed), rest)
  else .error .noByteForm

/-- One command from the front of a stream, and the rest of the stream (R90, R98). -/
def decode (p : Params) (bs : List Byte) : Except DecodeError (Instr × List Byte) :=
  match bs with
  | [] => .error .empty
  | x :: rest =>
    match opcodeOf x with
    | .error e => .error e
    | .ok (.rbWrite a b) => decodeB (.rbWrite a b) rest
    | .ok (.rbRead a b) => .ok (.rbRead a b, rest)
    | .ok (.rbIsFull a b) => .ok (.rbIsFull a b, rest)
    | .ok (.rbIsEmpty a b) => .ok (.rbIsEmpty a b, rest)
    | .ok .slEnqb => decodeB .slEnqb rest
    | .ok .slEnqm => decodeM .slEnqm rest
    | .ok .slDeqb => .ok (.slDeqb, rest)
    | .ok .slTxrdy => .ok (.slTxrdy, rest)
    | .ok .slRxrdy => decodeB .slRxrdy rest
    | .ok .ssStart => decodeS p .ssStart rest
    | .ok .ssIsfin => .ok (.ssIsfin, rest)
    | .ok .ssRelease => .ok (.ssRelease, rest)
    | .ok .ssTick => .ok (.ssTick, rest)

/-! ## The encoder -/

/-- An `RB` opcode byte `00a0s0ff` (R96). -/
def rbOpcode (a : Agent) (b : BufId) (fn : Byte) : Byte :=
  (match a with | .M => 0x00#8 | .I => 0x20#8) ||| (match b with | .tx => 0x00#8 | .rx => 0x08#8) ||| fn

/-- The `dir` byte of a direction (R95). -/
def directionByte : Direction → Byte
  | .forward => 0x00#8
  | .backward => 0x01#8

/-- The opcode byte of an operation (R96). -/
def opcodeByte : Instr → Byte
  | .rbWrite a b _ => rbOpcode a b 0x00#8
  | .rbRead a b => rbOpcode a b 0x01#8
  | .rbIsFull a b => rbOpcode a b 0x02#8
  | .rbIsEmpty a b => rbOpcode a b 0x03#8
  | .slEnqb _ => 0x40#8
  | .slEnqm _ => 0x41#8
  | .slDeqb => 0x42#8
  | .slTxrdy => 0x60#8
  | .slRxrdy _ => 0x61#8
  | .ssStart _ _ _ => 0x80#8
  | .ssIsfin => 0x81#8
  | .ssRelease => 0x82#8
  | .ssTick => 0xA0#8

/-- The operand bytes after the opcode byte (R92 to R95). -/
def operandBytes (p : Params) : Instr → List Byte
  | .rbWrite _ _ v => [v]
  | .slEnqb v => [v]
  | .slRxrdy r => [r]
  | .slEnqm bytes => BitVec.ofNat 8 bytes.length :: bytes
  | .ssStart distance dir speed =>
    leBytes (p.wSteps / 8) distance ++ directionByte dir :: leBytes (p.wRate / 8) speed
  | .rbRead _ _ => []
  | .rbIsFull _ _ => []
  | .rbIsEmpty _ _ => []
  | .slDeqb => []
  | .slTxrdy => []
  | .ssIsfin => []
  | .ssRelease => []
  | .ssTick => []

/-- The bytes of a command. -/
def encode (p : Params) (i : Instr) : List Byte := opcodeByte i :: operandBytes p i

/-! ## The opcode table as data (R96, spec/opcode_table.json) -/

structure OpcodeRow where
  mnemonic : String
  pattern : Byte
  mask : Byte
  deriving DecidableEq, Repr

/-- The thirteen rows of R96: mnemonic, match, mask. -/
def opcodeRows : List OpcodeRow :=
  [⟨"RB.WRITE", 0x00#8, 0xD7#8⟩, ⟨"RB.READ", 0x01#8, 0xD7#8⟩, ⟨"RB.ISFULL", 0x02#8, 0xD7#8⟩,
   ⟨"RB.ISEMPTY", 0x03#8, 0xD7#8⟩]
  ++ [⟨"SL.ENQB", 0x40#8, 0xFF#8⟩, ⟨"SL.ENQM", 0x41#8, 0xFF#8⟩, ⟨"SL.DEQB", 0x42#8, 0xFF#8⟩,
   ⟨"SL.TXRDY", 0x60#8, 0xFF#8⟩, ⟨"SL.RXRDY", 0x61#8, 0xFF#8⟩]
  ++ [⟨"SS.START", 0x80#8, 0xFF#8⟩, ⟨"SS.ISFIN", 0x81#8, 0xFF#8⟩, ⟨"SS.RELEASE", 0x82#8, 0xFF#8⟩,
   ⟨"SS.TICK", 0xA0#8, 0xFF#8⟩]

/-- "A byte x selects a row when x & mask == match" (R96). -/
def OpcodeRow.selects (row : OpcodeRow) (x : Byte) : Bool := x &&& row.mask == row.pattern

/-- The row an operation stands in. -/
def Instr.mnemonic : Instr → String
  | .rbWrite _ _ _ => "RB.WRITE"
  | .rbRead _ _ => "RB.READ"
  | .rbIsFull _ _ => "RB.ISFULL"
  | .rbIsEmpty _ _ => "RB.ISEMPTY"
  | .slEnqb _ => "SL.ENQB"
  | .slEnqm _ => "SL.ENQM"
  | .slDeqb => "SL.DEQB"
  | .slTxrdy => "SL.TXRDY"
  | .slRxrdy _ => "SL.RXRDY"
  | .ssStart _ _ _ => "SS.START"
  | .ssIsfin => "SS.ISFIN"
  | .ssRelease => "SS.RELEASE"
  | .ssTick => "SS.TICK"

/-! ## An instruction word as the opcode table numbers its bits -/

/-- The length of the command that starts with opcode byte `x` and next byte `n`: "the decoder finds the length from
the opcode byte and, for SL.ENQM, from the length byte that follows it" (R98). An illegal opcode byte stands alone. -/
def commandLength (p : Params) (x n : Byte) : Nat :=
  match opcodeOf x with
  | .error _ => 1
  | .ok (.rbWrite _ _) => 2
  | .ok .slEnqb => 2
  | .ok .slRxrdy => 2
  | .ok .slEnqm => 2 + n.toNat
  | .ok .ssStart => 2 + p.wSteps / 8 + p.wRate / 8
  | .ok (.rbRead _ _) => 1
  | .ok (.rbIsFull _ _) => 1
  | .ok (.rbIsEmpty _ _) => 1
  | .ok .slDeqb => 1
  | .ok .slTxrdy => 1
  | .ok .ssIsfin => 1
  | .ok .ssRelease => 1
  | .ok .ssTick => 1

/-- The bytes of the command a word of `nbits` bits stands for: the first byte is the word's low bits, and every bit
above `nbits` is 0, up to the command's length (log 25). -/
def tableWordBytes (p : Params) (nbits w : Nat) : List Byte :=
  leBytes (commandLength p (BitVec.ofNat 8 (w % 2 ^ nbits)) (BitVec.ofNat 8 (w % 2 ^ nbits / 256))) (w % 2 ^ nbits)

/-- The instruction the decoder reads from a word of the opcode table, with the default widths of R7 (log 25). -/
def decodeTableWord (nbits w : Nat) : Option Instr :=
  match decode Params.default (tableWordBytes Params.default nbits w) with
  | .ok (i, _) => some i
  | .error _ => none

end Sys2Proof
end

