-- ==== Sys2Proof/Machine/State.lean ====
section
/-! DEFINITION. The state of the machine as plain data (10_state.md), the reasons a step can stop, and the state after
reset (R39). Fields that the spec does not give the hardware are marked MODEL. -/

namespace Sys2Proof.Machine

/-- One of the two addressed spaces of R60, `RING(b)` or `IO`: a partial map from addresses to bytes (R61), as a list of
cells with strictly rising addresses. An address that is not listed does not exist in the space (log 7). -/
abbrev Memory := List Host.Cell

/-- The canonical form: addresses strictly rising. There is no byte an unlisted address reads as. -/
def Memory.wf (m : Memory) : Bool :=
  match m with
  | [] => true
  | (a, _) :: rest => rest.all (fun cell => decide (a < cell.1)) && Memory.wf rest

/-- A space with the given addresses, each holding a draw. -/
def Memory.drawn (addrs : List Nat) (draw : Nat → Byte) : Memory := addrs.map fun a => (a, draw a)

/-- One `RingBuffer` instance: storage, write index, read index, and nothing else (R21). The indices are natural
numbers with a range invariant (D5; log 12). -/
structure Ring where
  slots : Memory
  head : Nat
  tail : Nat
  deriving DecidableEq, Repr

/-- The three status values of R12, R191 (code 3 does not exist: U11). -/
inductive Status where
  | ok
  | overflow
  | underflow
  deriving DecidableEq, Repr

/-- What an operation yields to its issuer (R101). -/
inductive Reply where
  /-- `RB.WRITE` -/
  | status (st : Status)
  /-- `RB.READ` -/
  | statusByte (st : Status) (v : Byte)
  /-- `RB.ISFULL`, `RB.ISEMPTY`, `SS.ISFIN` -/
  | bit (b : Bool)
  /-- `SL.ENQB`, `SL.ENQM` -/
  | err (e : Bool)
  /-- `SL.DEQB` -/
  | errByte (e : Bool) (v : Byte)
  deriving DecidableEq, Repr

/-! ## Operations in progress: the next micro-step and the local values (R11, R70, R200)

Each type names the labelled lines of one pseudocode; a constructor is the micro-step to come and holds the locals that
are live there. -/

/-- `write` (R121): `h`, `t` are the indices sampled at W1. -/
inductive WriteAt where
  | w1
  | w2 (h t : Nat)
  | w3 (h : Nat)
  | w4 (h : Nat)
  deriving DecidableEq, Repr

/-- `read` (R123): `t`, `h` are the indices sampled at Q1, `v` the byte loaded at Q3. -/
inductive ReadAt where
  | q1
  | q2 (t h : Nat)
  | q3 (t : Nat)
  | q4 (t : Nat) (v : Byte)
  deriving DecidableEq, Repr

/-- `enqueueByte` (R140). -/
inductive EnqAt where
  | write (pos : WriteAt)
  | a1
  deriving DecidableEq, Repr

/-- One byte of `enqueueMessage` (R141): `e` is the result of L2. -/
inductive MsgAt where
  | l1
  | l2 (pos : EnqAt)
  | l3 (e : Bool)
  deriving DecidableEq, Repr

/-- `onTransmitReady` (R143): `v` is the byte read at X2. -/
inductive TxAt where
  | x1
  | x2 (pos : ReadAt)
  | x3 (v : Byte)
  | x4
  deriving DecidableEq, Repr

/-- `onReceiveReady` (R144): `r` is the byte read from `RCREG` at V1. -/
inductive RxAt where
  | v1
  | v2 (r : Byte)
  | v3 (r : Byte) (pos : WriteAt)
  deriving DecidableEq, Repr

/-- `startMotion` (R161). -/
inductive StartAt where
  | s1
  | s2
  | s3
  | s4
  | s5
  | s6
  deriving DecidableEq, Repr

/-- `onTick` (R165). -/
inductive TickAt where
  | t1
  | t2 (i : Fin 4)
  | t3
  | t4
  deriving DecidableEq, Repr

/-- An operation in progress. `slEnqm` holds the bytes not yet queued, the current one first, and `e_out`;
`ssRelease i` is at micro-step `Zi` (R164). -/
inductive Activity where
  | rbWrite (b : BufId) (value : Byte) (pos : WriteAt)
  | rbRead (b : BufId) (pos : ReadAt)
  | rbIsFull (b : BufId)
  | rbIsEmpty (b : BufId)
  | slEnqb (value : Byte) (pos : EnqAt)
  | slEnqm (todo : List Byte) (eOut : Bool) (pos : MsgAt)
  | slDeqb (pos : ReadAt)
  | slTxrdy (pos : TxAt)
  | slRxrdy (pos : RxAt)
  | ssStart (distance : Nat) (dir : Direction) (speed : Nat) (pos : StartAt)
  | ssIsfin
  | ssRelease (i : Fin 4)
  | ssTick (pos : TickAt)
  deriving DecidableEq, Repr

/-- What happens next outside the block's own micro-steps: the choices of the environment, of the host and of the
scheduler (log 1). -/
inductive Event where
  /-- the initialisation collaborator has run (R226) -/
  | init
  /-- the host issues a mainline operation, agent `I` issues an `RB` operation, or the environment raises the
  condition of an interrupt-context operation: the operation begins, micro-steps follow one at a time -/
  | start (i : Instr)
  /-- the agent performs its next micro-step (R70) -/
  | advance (a : Agent)
  /-- an edge of `wclk` of buffer `b` with `w_req` and `w_data` (R40) -/
  | wclk (b : BufId) (wReq : Bool) (wData : Byte)
  /-- an edge of `rclk` of buffer `b` with `r_req` (R40) -/
  | rclk (b : BufId) (rReq : Bool)
  /-- the reset input `rst` (R40, R220) -/
  | rst
  deriving DecidableEq, Repr

/-- MODEL. Which agent has issued the writes, and which the reads, of each buffer so far (R102). -/
structure Roles where
  producer : ByBuf (Option Agent)
  consumer : ByBuf (Option Agent)
  deriving DecidableEq, Repr

/-- The outputs of the optional port list of R40, as of the last edge of each clock. -/
structure Ports where
  wFull : Bool
  wOvf : Bool
  rData : Byte
  rEmpty : Bool
  rUdf : Bool
  deriving DecidableEq, Repr

/-- The state of the machine. INVENTORY.md '## State' names the rule behind each field. -/
structure State where
  /-- the parameters of R7; no step writes them -/
  cfg : Params
  /-- MODEL: which draw the unspecified reset values are; no statement rests on it (log 6) -/
  epoch : Nat
  /-- `InitDone` (R226) -/
  initDone : Bool
  /-- `slot`, `head`, `tail` of `tx` and `rx` (R21, R26) -/
  rings : ByBuf Ring
  txArmed : Bool
  /-- `TXREG` (R28) -/
  txReg : Byte
  /-- `RCREG` (R28): the received byte presented and not yet consumed -/
  rcReg : Option Byte
  currentPhase : Fin 4
  direction : Direction
  previousDirection : Direction
  remainingSteps : Nat
  tickPeriod : Nat
  timerArmed : Bool
  /-- `TMR`, last value written (R34); none: "nothing has been written" (R39) -/
  tmr : Option Nat
  /-- the `IO` space (R61) -/
  io : Memory
  /-- `tx_out` (R33 (a)) -/
  txOut : List Byte
  /-- `tmr_out` (R33 (c)) -/
  tmrOut : List Nat
  /-- the levels of the four pins after each micro-step that writes one (R33 (b)) -/
  pinOut : List (BitVec 4)
  /-- results returned to the issuing agents, in order (R33 (e), R101) -/
  replies : List (Agent × Reply)
  /-- the caller's error slot, one per agent (R192; log 11) -/
  errSlot : ByAgent (BitVec 2)
  /-- the operation agent `M` is in (R71 (d)) -/
  main : Option Activity
  /-- the operations agent `I` is in, innermost first (R71, R73) -/
  irq : List Activity
  /-- the port outputs of each buffer (R40) -/
  ports : ByBuf Ports
  /-- MODEL (R102; log 13) -/
  roles : Roles
  /-- MODEL: an `RB.WRITE` on `tx` has been issued (R233; log 14) -/
  directWriteTx : Bool
  /-- MODEL: an `RB.READ` on `tx` has been issued (log 14) -/
  directReadTx : Bool
  /-- MODEL: `w_1, w_2, ...` of R127, per buffer (log 15) -/
  accepted : ByBuf (List Byte)
  /-- MODEL: `r_1, r_2, ...` of R127, per buffer (log 15) -/
  delivered : ByBuf (List Byte)
  /-- MODEL: the events to come (log 1) -/
  agenda : List Event
  /-- MODEL: the rest of the command stream (R90; R24: the test harness's; log 2) -/
  stream : List Byte
  deriving DecidableEq, Repr

/-- Why the machine stops with a fault. The hardware has no fault (R190): each of these is raised only in a state that
no run from reset reaches (log 23). Safe: the model stops where it has no meaning to give. -/
inductive Fault where
  /-- raised by a slot access outside `RING(b)`, which R64 says cannot occur; safe -/
  | ringIndex (b : BufId) (i : Nat)
  /-- raised by a pin access to a location that is not in the `IO` map (R61); safe -/
  | ioAbsent (loc : Nat)
  /-- raised by V1 of `onReceiveReady` when no byte was presented, which U14 says cannot occur; safe -/
  | rcregEmpty
  deriving DecidableEq, Repr

/-- Why the machine gives a step no meaning. Each is a run the spec itself leaves without meaning; all are safe. -/
inductive Refusal where
  /-- answered by exec for an operation that is not modelled yet; safe -/
  | notModelled (mnemonic : String)
  /-- answered by every step when the parameters are malformed: "The model refuses a configuration that is not
  well-formed" (R8; log 26); safe -/
  | badConfig
  /-- answered for a `startMotion` whose operands do not fit their widths (R161), which no command encodes (log 26); safe -/
  | operandRange
  /-- answered for an operation before `InitDone` (R226, U13); safe -/
  | initNotDone
  /-- answered when a mainline operation is issued while another is in progress (R71 (d), R205); safe -/
  | mainlineBusy
  /-- answered when a mainline operation is issued inside an interrupt-context operation (R71 (c)); safe -/
  | mainlineInsideHandler
  /-- answered when a whole interrupt-context operation is executed inside one it may not nest in (R73, U16); safe -/
  | interruptBusy
  /-- answered for an operation that breaks SPSC on a buffer (R102, R230, U1); safe -/
  | spscViolation
  /-- answered when agent `M` is to advance while agent `I` is in an operation (R71 (b)); safe -/
  | mainlinePreempted
  /-- answered when an agent is to advance that is in no operation; safe -/
  | nothingInProgress (a : Agent)
  /-- answered for an illegal command in the stream: `IllegalCommand`, which stops the stream (R97, R194; log 24); safe -/
  | illegalCommand (why : DecodeError)
  deriving DecidableEq, Repr

/-- A location added to a rising list of locations. -/
def insertLoc (a : Nat) : List Nat → List Nat
  | [] => [a]
  | x :: rest => if a < x then a :: x :: rest else if a = x then x :: rest else x :: insertLoc a rest

/-- The locations of the four pins in rising order, each once: the addresses of the `IO` map (R61). -/
def pinLocs (p : Params) : List Nat := p.pins.toList.foldr (fun r acc => insertLoc r.loc acc) []

/-- A buffer after reset: both indices 0, every slot a draw (R39, D6, D7). -/
def Ring.reset (p : Params) (epoch : Nat) (b : BufId) : Ring where
  slots := Memory.drawn (List.range (p.cap b)) (Config.slotDraw epoch b)
  head := 0
  tail := 0

/-- The state after reset number `epoch` with parameters `p` (R39, R220, R222). -/
def State.initial (p : Params) (epoch : Nat) : State where
  cfg := p
  epoch := epoch
  initDone := false
  rings := ⟨Ring.reset p epoch .tx, Ring.reset p epoch .rx⟩
  txArmed := false
  txReg := Config.txRegDraw epoch
  rcReg := none
  currentPhase := p.resetPhase
  direction := p.resetDirection
  previousDirection := p.resetDirection
  remainingSteps := 0
  tickPeriod := Config.tickPeriodDraw epoch % 2 ^ p.wTmr
  timerArmed := false
  tmr := none
  io := Memory.drawn (pinLocs p) (Config.ioDraw epoch)
  txOut := []
  tmrOut := []
  pinOut := []
  replies := []
  errSlot := ⟨Config.errSlotDraw epoch .M, Config.errSlotDraw epoch .I⟩
  main := none
  irq := []
  ports := ⟨⟨false, false, 0, true, false⟩, ⟨false, false, 0, true, false⟩⟩
  roles := ⟨⟨none, none⟩, ⟨none, none⟩⟩
  directWriteTx := false
  directReadTx := false
  accepted := ⟨[], []⟩
  delivered := ⟨[], []⟩
  agenda := []
  stream := []

/-- The machine right after reset, with the parameter values of `Params.default` (log 4). -/
def State.reset : State := State.initial Params.default 0

end Sys2Proof.Machine
end

