-- ==== Sys2Proof/Machine/Operands.lean ====
section
/-! DEFINITION. The arithmetic of 00_scope.md R10, the operand forms of the operations (R93 to R95, R169), and the
effective addresses of the two addressed spaces (20_memory.md R67, R68). -/

namespace Sys2Proof.Machine

/-! ## Arithmetic (R10, R166) -/

/-- `inc_C(i) = (i + 1) mod C`. -/
def incC (c i : Nat) : Nat := (i + 1) % c

/-- `next4(p) = (p + 1) mod 4`. -/
def next4 (p : Fin 4) : Fin 4 :=
  match p with
  | 0 => 1
  | 1 => 2
  | 2 => 3
  | 3 => 0

/-- `prev4(p) = (p + 3) mod 4`. -/
def prev4 (p : Fin 4) : Fin 4 :=
  match p with
  | 0 => 3
  | 1 => 0
  | 2 => 1
  | 3 => 2

/-- `dec_sat(n)`: `n - 1` when `n > 0`, else 0 (C1). -/
def decSat (n : Nat) : Nat := if 0 < n then n - 1 else 0

/-- One phase in a direction: `next4` forward, `prev4` backward (R161 S5, R165 T3). -/
def stepPhase (d : Direction) (p : Fin 4) : Fin 4 :=
  match d with
  | .forward => next4 p
  | .backward => prev4 p

/-! ## Operands -/

/-- `r = min(targetSpeed, MAX_RATE)` (R161 S3, R169). -/
def clampRate (p : Params) (speed : Nat) : Nat := if speed ≤ p.maxRate then speed else p.maxRate

/-- `period_of_rate(r)`, a `W_TMR`-bit value (R7, R169; log 5). -/
def periodOfRate (p : Params) (r : Nat) : Nat := Config.periodOfRate r % 2 ^ p.wTmr

/-! ## Which agent, component and context an operation belongs to (R96, R202) -/

/-- The issuing agent of an operation. -/
def issuer : Instr → Agent
  | .rbWrite a _ _ => a
  | .rbRead a _ => a
  | .rbIsFull a _ => a
  | .rbIsEmpty a _ => a
  | .slEnqb _ => .M
  | .slEnqm _ => .M
  | .slDeqb => .M
  | .slTxrdy => .I
  | .slRxrdy _ => .I
  | .ssStart _ _ _ => .M
  | .ssIsfin => .M
  | .ssRelease => .M
  | .ssTick => .I

/-- The component of an operation (R91 `unit`). -/
def componentOf : Instr → Component
  | .rbWrite _ _ _ => .rb
  | .rbRead _ _ => .rb
  | .rbIsFull _ _ => .rb
  | .rbIsEmpty _ _ => .rb
  | .slEnqb _ => .sl
  | .slEnqm _ => .sl
  | .slDeqb => .sl
  | .slTxrdy => .sl
  | .slRxrdy _ => .sl
  | .ssStart _ _ _ => .ss
  | .ssIsfin => .ss
  | .ssRelease => .ss
  | .ssTick => .ss

/-- The interrupt-context operation an operation is, none for the others (R195, R202). -/
def handlerOf : Instr → Option Handler
  | .slTxrdy => some .transmitReady
  | .slRxrdy _ => some .receiveReady
  | .ssTick => some .tick
  | .rbWrite _ _ _ => none
  | .rbRead _ _ => none
  | .rbIsFull _ _ => none
  | .rbIsEmpty _ _ => none
  | .slEnqb _ => none
  | .slEnqm _ => none
  | .slDeqb => none
  | .ssStart _ _ _ => none
  | .ssIsfin => none
  | .ssRelease => none

/-- The interrupt-context operation an operation in progress is. -/
def Activity.handler : Activity → Option Handler
  | .slTxrdy _ => some .transmitReady
  | .slRxrdy _ => some .receiveReady
  | .ssTick _ => some .tick
  | .rbWrite _ _ _ => none
  | .rbRead _ _ => none
  | .rbIsFull _ => none
  | .rbIsEmpty _ => none
  | .slEnqb _ _ => none
  | .slEnqm _ _ _ => none
  | .slDeqb _ => none
  | .ssStart _ _ _ _ => none
  | .ssIsfin => none
  | .ssRelease _ => none

/-- The operation is on the buffers of a `SerialLink`: its own operations, and the `RB` operations on `rx`, which only a
`SerialLink` has (R26, R91 `sel`). -/
def usesLink : Instr → Bool
  | .rbWrite _ b _ => b == .rx
  | .rbRead _ b => b == .rx
  | .rbIsFull _ b => b == .rx
  | .rbIsEmpty _ b => b == .rx
  | .slEnqb _ => true
  | .slEnqm _ => true
  | .slDeqb => true
  | .slTxrdy => true
  | .slRxrdy _ => true
  | .ssStart _ _ _ => false
  | .ssIsfin => false
  | .ssRelease => false
  | .ssTick => false

/-- The component of an operation in progress. -/
def Activity.component : Activity → Component
  | .rbWrite _ _ _ => .rb
  | .rbRead _ _ => .rb
  | .rbIsFull _ => .rb
  | .rbIsEmpty _ => .rb
  | .slEnqb _ _ => .sl
  | .slEnqm _ _ _ => .sl
  | .slDeqb _ => .sl
  | .slTxrdy _ => .sl
  | .slRxrdy _ => .sl
  | .ssStart _ _ _ _ => .ss
  | .ssIsfin => .ss
  | .ssRelease _ => .ss
  | .ssTick _ => .ss

/-! ## Effective addresses -/

/-- The slot a `write` stores to: `RING(b) + head[b]` (R68). -/
def Ring.writeIndex (r : Ring) : Nat := r.head

/-- The slot a `read` loads from: `RING(b) + tail[b]` (R68). -/
def Ring.readIndex (r : Ring) : Nat := r.tail

/-- The mask of a pin's bit in its byte: `1 << PIN_BIT[i]` (R67). -/
def pinMask (r : PinRef) : Byte := 1#8 <<< r.bit

/-- The byte after `set_pin` (`level` true) or `clear_pin` (R67). -/
def pinByte (r : PinRef) (level : Bool) (v : Byte) : Byte :=
  if level then v ||| pinMask r else v &&& ~~~ pinMask r

end Sys2Proof.Machine
end

