-- ==== Sys2Proof/Machine/Flags.lean ====
section
/-! DEFINITION. The status conditions of the hardware (10_state.md R36): full and empty, the resident bytes, finished,
the enables the dispatcher gate reads, the named states of the sequencer, and the numeric status codes. None of them is
stored; each is computed from State. -/

namespace Sys2Proof.Machine

/-- `empty(b) = (head[b] == tail[b])` (R23). -/
def Ring.empty (r : Ring) : Bool := r.head == r.tail

/-- `full(b) = (inc_C(head[b]) == tail[b])` (R23). -/
def Ring.full (c : Nat) (r : Ring) : Bool := incC c r.head == r.tail

/-- The number of bytes from index `t` up to index `h` in a ring of `c` slots: `(h - t) mod C` (R22). -/
def distC (c h t : Nat) : Nat := (h + c - t) % c

/-- `count = (head - tail) mod C` (R22). -/
def Ring.count (c : Nat) (r : Ring) : Nat := distC c r.head r.tail

/-- Free slots: at most `C - 1` bytes are ever resident (R22). -/
def Ring.room (c : Nat) (r : Ring) : Nat := c - 1 - r.count c

/-- `finished`: `remainingSteps == 0` (R36, R163). -/
def State.finished (s : State) : Bool := s.remainingSteps == 0

/-- The four states of R37, R168: `draining` and `arming` are the two exceptional combinations of R31. -/
inductive SeqMode where
  | idle
  | running
  | draining
  | arming
  deriving DecidableEq, Repr

/-- The classification of R37. -/
def State.seqMode (s : State) : SeqMode :=
  match s.finished, s.timerArmed with
  | true, false => .idle
  | false, true => .running
  | true, true => .draining
  | false, false => .arming

/-- The enable of an operation's condition (R195, R196): `txArmed` for transmit-ready, `timerArmed` for a tick;
receive-ready has none, and no other operation passes the gate. -/
def gateOpen (i : Instr) (s : State) : Bool :=
  match i with
  | .slTxrdy => s.txArmed
  | .ssTick => s.timerArmed
  | .slRxrdy _ => true
  | .rbWrite _ _ _ => true
  | .rbRead _ _ => true
  | .rbIsFull _ _ => true
  | .rbIsEmpty _ _ => true
  | .slEnqb _ => true
  | .slEnqm _ => true
  | .slDeqb => true
  | .ssStart _ _ _ => true
  | .ssIsfin => true
  | .ssRelease => true

/-- `OK` = 0, `OVERFLOW` = 1, `UNDERFLOW` = 2 in 2 bits (R191). -/
def Status.code : Status → BitVec 2
  | .ok => 0#2
  | .overflow => 1#2
  | .underflow => 2#2

/-- `SerialLink` narrows a failure to the one code 1 (R191). -/
def errCode : BitVec 2 := 1#2

end Sys2Proof.Machine
end

