-- ==== Sys2Proof/Machine/Ops.lean ====
section
/-! DEFINITION. The named operations the meanings are made of: the two addressed spaces, the two halves of a
`RingBuffer`, the pins, results and error reports (the hardware's whole exception mechanism: 60_exceptions.md R190 to
R193), the dispatcher gate and the entry of an operation (R196, R200), and the admission of a run (R226, R71, R102). -/

namespace Sys2Proof.Machine

/-! ## The addressed spaces (20_memory.md R60, R61; R11 `MemRead`, `MemWrite` with n = 1) -/

/-- `MemRead(a, 1)`: the byte at an address; none where the address does not exist in the space. -/
def Memory.read (m : Memory) (a : Nat) : Option Byte :=
  match m with
  | [] => none
  | (k, v) :: rest => if k = a then some v else Memory.read rest a

/-- `MemWrite(a, 1, v)`: the space with one byte replaced; none where the address does not exist. -/
def Memory.write (m : Memory) (a : Nat) (v : Byte) : Option Memory :=
  match m with
  | [] => none
  | (k, w) :: rest =>
    if k = a then some ((k, v) :: rest)
    else match Memory.write rest a v with
      | none => none
      | some rest' => some ((k, w) :: rest')

/-! ## The buffers (10_state.md R21, R26) -/

/-- Buffer `b`. -/
def State.ring (s : State) (b : BufId) : Ring := s.rings.get b

/-- The capacity parameter of buffer `b`. -/
def State.cap (s : State) (b : BufId) : Nat := s.cfg.cap b

/-- Buffer `b` replaced. -/
def State.setRing (s : State) (b : BufId) (r : Ring) : State := { s with rings := s.rings.set b r }

/-- `full(b)` (R23). -/
def State.isFull (s : State) (b : BufId) : Bool := (s.ring b).full (s.cap b)

/-- `empty(b)` (R23). -/
def State.isEmpty (s : State) (b : BufId) : Bool := (s.ring b).empty

/-- The bytes in slots `t`, `t + 1`, ... (mod `c`), `n` of them; a slot that does not exist contributes nothing. -/
def Ring.bytesFrom (r : Ring) (c t : Nat) : Nat → List Byte
  | 0 => []
  | n + 1 => (Memory.read r.slots t).toList ++ Ring.bytesFrom r c (incC c t) n

/-- The resident bytes, oldest first: `slot[(tail + k) mod C]` for `k = 0 .. count - 1` (R22). -/
def Ring.contents (c : Nat) (r : Ring) : List Byte := r.bytesFrom c r.tail (r.count c)

/-- Micro-step W3: `MemWrite(RING(b) + h, 1, value)` (R121). -/
def State.storeSlot (s : State) (b : BufId) (h : Nat) (v : Byte) : Except Fault State :=
  match Memory.write (s.ring b).slots h v with
  | none => .error (.ringIndex b h)
  | some slots => .ok (s.setRing b { s.ring b with slots := slots })

/-- Micro-step W4: `head[b] <- inc_C(h)` (R121); the value becomes the next of `w_1, w_2, ...` (R127). -/
def State.publishHead (s : State) (b : BufId) (h : Nat) (v : Byte) : State :=
  { s.setRing b { s.ring b with head := incC (s.cap b) h } with
    accepted := s.accepted.set b (s.accepted.get b ++ [v]) }

/-- Micro-step Q3: `v <- MemRead(RING(b) + t, 1)` (R123). -/
def State.loadSlot (s : State) (b : BufId) (t : Nat) : Except Fault Byte :=
  match Memory.read (s.ring b).slots t with
  | none => .error (.ringIndex b t)
  | some v => .ok v

/-- Micro-step Q4: `tail[b] <- inc_C(t)` (R123); the byte becomes the next of `r_1, r_2, ...` (R127). -/
def State.releaseTail (s : State) (b : BufId) (t : Nat) (v : Byte) : State :=
  { s.setRing b { s.ring b with tail := incC (s.cap b) t } with
    delivered := s.delivered.set b (s.delivered.get b ++ [v]) }

/-- `write(buf, value)` with nothing between its micro-steps (R121). The result says whether it overflowed. -/
def State.writeBuf (s : State) (b : BufId) (v : Byte) : Except Fault (Bool × State) :=
  if s.isFull b then .ok (true, s)
  else match s.storeSlot b (s.ring b).writeIndex v with
    | .error f => .error f
    | .ok s1 => .ok (false, s1.publishHead b (s.ring b).writeIndex v)

/-- `read(buf)` with nothing between its micro-steps (R123). The result is the byte, none on underflow. -/
def State.readBuf (s : State) (b : BufId) : Except Fault (Option Byte × State) :=
  if s.isEmpty b then .ok (none, s)
  else match s.loadSlot b (s.ring b).readIndex with
    | .error f => .error f
    | .ok v => .ok (some v, s.releaseTail b (s.ring b).readIndex v)

/-! ## Results and error reports (R101, R190 to R193)

The hardware has no trap: raising a condition ends the operation and reports it to its caller, changes no state of the
hardware and transfers control nowhere. -/

/-- An operation returns a result to its issuer. -/
def State.reply (s : State) (a : Agent) (r : Reply) : State := { s with replies := s.replies ++ [(a, r)] }

/-- `raise <Condition>`: on failure the caller's error slot is written with the code, on success it is not written
(R192). -/
def State.raise (s : State) (a : Agent) (code : BitVec 2) : State := { s with errSlot := s.errSlot.set a code }

/-- The end of `RB.WRITE`: status `OK` or `OVERFLOW`. -/
def State.returnWrite (s : State) (a : Agent) (overflowed : Bool) : State :=
  if overflowed then (s.raise a Status.overflow.code).reply a (.status .overflow)
  else s.reply a (.status .ok)

/-- The end of `RB.READ`: `(OK, v)`, or `(UNDERFLOW, 0x00)` with the zero sentinel. -/
def State.returnRead (s : State) (a : Agent) (r : Option Byte) : State :=
  match r with
  | none => (s.raise a Status.underflow.code).reply a (.statusByte .underflow 0#8)
  | some v => s.reply a (.statusByte .ok v)

/-- A `SerialLink` failure is recorded in the error slot (R191, R192). -/
def State.recordErr (s : State) (a : Agent) (e : Bool) : State := if e then s.raise a errCode else s

/-- The end of `SL.ENQB`: the `err` bit. -/
def State.returnErr (s : State) (a : Agent) (e : Bool) : State := (s.recordErr a e).reply a (.err e)

/-- The end of `SL.DEQB`: `(err, byte)`, the byte 0 when `err == 1`. -/
def State.returnDeq (s : State) (a : Agent) (r : Option Byte) : State :=
  match r with
  | none => (s.recordErr a true).reply a (.errByte true 0#8)
  | some v => s.reply a (.errByte false v)

/-! ## The serial client (R140, R143, R144) -/

/-- A1: `txArmed <- 1` (idempotent, R27). -/
def State.armTx (s : State) : State := { s with txArmed := true }

/-- X4: `txArmed <- 0`. -/
def State.disarmTx (s : State) : State := { s with txArmed := false }

/-- X3: `TXREG <- v; emit TX(v)`. -/
def State.transmit (s : State) (v : Byte) : State := { s with txReg := v, txOut := s.txOut ++ [v] }

/-- The environment presents a received byte in `RCREG` (R29 (b)). -/
def State.presentByte (s : State) (r : Byte) : State := { s with rcReg := some r }

/-- V1: `r <- RCREG`, which consumes the byte (R65, D26). -/
def State.consumeRcreg (s : State) : Except Fault (Byte × State) :=
  match s.rcReg with
  | none => .error .rcregEmpty
  | some r => .ok (r, { s with rcReg := none })

/-- `enqueueByte(b)` with nothing between its micro-steps (R140): write first, arm second, arm only on success. -/
def State.enqueueByte (s : State) (v : Byte) : Except Fault (Bool × State) :=
  match s.writeBuf .tx v with
  | .error f => .error f
  | .ok (true, s1) => .ok (true, s1)
  | .ok (false, s1) => .ok (false, s1.armTx)

/-! ## The pins (R32, R67) -/

/-- The level of pin `i`: `io[PIN_LOC[i]][PIN_BIT[i]]` (R61); false where the location does not exist (log 28). -/
def State.pinLevel (s : State) (i : Fin 4) : Bool :=
  match Memory.read s.io (s.cfg.pins.get i).loc with
  | none => false
  | some v => v.getLsbD (s.cfg.pins.get i).bit

/-- The four pin levels, pin `i` in bit `i`. -/
def State.pinLevels (s : State) : BitVec 4 :=
  BitVec.ofBool (s.pinLevel 3) ++ BitVec.ofBool (s.pinLevel 2)
    ++ BitVec.ofBool (s.pinLevel 1) ++ BitVec.ofBool (s.pinLevel 0)

/-- The levels of the pins become observable (R33 (b)). -/
def State.showPins (s : State) : State := { s with pinOut := s.pinOut ++ [s.pinLevels] }

/-- `set_pin(i)` or `clear_pin(i)`: a read and a write of one byte, one micro-step (R67). -/
def State.writePin (s : State) (i : Fin 4) (level : Bool) : Except Fault State :=
  match Memory.read s.io (s.cfg.pins.get i).loc with
  | none => .error (.ioAbsent (s.cfg.pins.get i).loc)
  | some v =>
    match Memory.write s.io (s.cfg.pins.get i).loc (pinByte (s.cfg.pins.get i) level v) with
    | none => .error (.ioAbsent (s.cfg.pins.get i).loc)
    | some io => .ok ({ s with io := io }).showPins

/-- Pins written one after the other, each to its bit of `row`. -/
def State.writePins (s : State) (row : BitVec 4) : List (Fin 4) → Except Fault State
  | [] => .ok s
  | i :: rest =>
    match s.writePin i (row.getLsbD i.val) with
    | .error f => .error f
    | .ok s1 => s1.writePins row rest

/-- The order in which `onTick` and `release` write the pins: 0, 1, 2, 3 (D15). -/
def pinOrder : List (Fin 4) := [0, 1, 2, 3]

/-! ## The sequencer (R161, R165) -/

/-- A write of `TMR` (R34), recorded in `tmr_out` (R65). -/
def State.writeTmr (s : State) (v : Nat) : State := { s with tmr := some v, tmrOut := s.tmrOut ++ [v] }

/-- S1: `previousDirection <- direction`. -/
def State.startS1 (s : State) : State := { s with previousDirection := s.direction }

/-- S2: `remainingSteps <- distance`. -/
def State.startS2 (s : State) (distance : Nat) : State := { s with remainingSteps := distance }

/-- S3: clamp, convert, `tickPeriod`, `TMR <- tickPeriod`. -/
def State.startS3 (s : State) (speed : Nat) : State :=
  { s with tickPeriod := periodOfRate s.cfg (clampRate s.cfg speed) }.writeTmr
    (periodOfRate s.cfg (clampRate s.cfg speed))

/-- S4: `direction <- dir`. -/
def State.startS4 (s : State) (dir : Direction) : State := { s with direction := dir }

/-- S5: on a reversal, nudge `currentPhase` one phase in the new direction. -/
def State.startS5 (s : State) (dir : Direction) : State :=
  if dir ≠ s.previousDirection then { s with currentPhase := stepPhase dir s.currentPhase } else s

/-- S6: `timerArmed <- 1`, unconditionally (R162 (a)). -/
def State.startS6 (s : State) : State := { s with timerArmed := true }

/-- T1: `TMR <- tickPeriod`. -/
def State.tickT1 (s : State) : State := s.writeTmr s.tickPeriod

/-- The row `onTick` asserts: `PHASE_TABLE[currentPhase]`. -/
def State.phaseRow (s : State) : BitVec 4 := s.cfg.phaseTable.get s.currentPhase

/-- T3: advance `currentPhase` in the current direction. -/
def State.tickT3 (s : State) : State := { s with currentPhase := stepPhase s.direction s.currentPhase }

/-- T4: `remainingSteps <- dec_sat(remainingSteps)`; disarm when the result is 0. -/
def State.tickT4 (s : State) : State :=
  { s with
    remainingSteps := decSat s.remainingSteps
    timerArmed := if decSat s.remainingSteps = 0 then false else s.timerArmed }

/-! ## Admission: which runs have a meaning -/

/-- An operation of the bare `RingBuffer` in progress. -/
def Activity.isRb (x : Activity) : Bool := x.component == .rb

/-- The free interleaving of R72 holds between operations of the bare FIFO; every other pair is under R71 (log 16). -/
def State.freeFifo (s : State) : Bool := s.irq.all Activity.isRb

/-- A handler may begin between two micro-steps of another: `NESTED_INTERRUPTS` holds, the innermost operation, which it
interrupts, is a handler of another component, and no invocation of itself is in progress (R73; log 17). -/
def mayNest (s : State) (i : Instr) : Bool :=
  s.cfg.nestedInterrupts && (handlerOf i).isSome
    && s.irq.head?.all (fun x => x.component != componentOf i)
    && s.irq.all (fun x => x.handler.isSome && x.handler != handlerOf i)

/-- Operation `i` may begin now. Mainline: `M` is in no operation (R71 (d)) and not preempted (R71 (c)), or both sides
are bare FIFO operations (R72). Agent `I`: it is in no operation, or may nest. -/
def mayBegin (s : State) (i : Instr) : Bool :=
  match issuer i with
  | .M => s.main.isNone && (s.irq.isEmpty || (componentOf i == .rb && s.freeFifo))
  | .I => s.irq.isEmpty || mayNest s i

/-- Why `i` may not begin now. -/
def whyNotBegin (s : State) (i : Instr) : Refusal :=
  match issuer i with
  | .M => if s.main.isSome then .mainlineBusy else .mainlineInsideHandler
  | .I => .interruptBusy

/-- `M` may perform its next micro-step: `I` is in no operation (R71 (b)), or both are in bare FIFO operations
(R72). -/
def mainMayAdvance (s : State) (x : Activity) : Bool := s.irq.isEmpty || (x.isRb && s.freeFifo)

/-- An agent may hold a role that nobody or itself holds. -/
def roleFree (held : Option Agent) (a : Agent) : Bool :=
  match held with
  | none => true
  | some a' => a' == a

/-- The roles of a `SerialLink`: P(tx) = M, Q(tx) = I, P(rx) = I, Q(rx) = M (R25, R102). -/
def linkRoles : Roles := ⟨⟨some .M, some .I⟩, ⟨some .I, some .M⟩⟩

/-- Whether the roles held so far let the two buffers be those of a `SerialLink`. -/
def Roles.linkable (r : Roles) : Bool :=
  roleFree r.producer.tx .M && roleFree r.producer.rx .I && roleFree r.consumer.tx .I && roleFree r.consumer.rx .M

/-- The roles once the two buffers are those of a `SerialLink`, none where a wrong agent holds one already. -/
def Roles.link (r : Roles) : Option Roles := if r.linkable then some linkRoles else none

/-- The roles after `i` is issued, or none where it breaks SPSC (R102; log 13). On `tx`, which may be the only instance of
a bare FIFO (R91), an `RB.WRITE` makes its agent the producer and an `RB.READ` the consumer. The buffer `rx` is a
`SerialLink`'s (R26), so an operation on it, like every `SerialLink` operation, fixes all four roles, and `RB.WRITE@M rx`
and `RB.READ@I rx` always break them. -/
def claimRoles (r : Roles) (i : Instr) : Option Roles :=
  match i with
  | .rbWrite a .tx _ => if roleFree r.producer.tx a then some { r with producer := r.producer.set .tx (some a) } else none
  | .rbWrite .M .rx _ => none
  | .rbWrite .I .rx _ => r.link
  | .rbRead a .tx => if roleFree r.consumer.tx a then some { r with consumer := r.consumer.set .tx (some a) } else none
  | .rbRead .M .rx => r.link
  | .rbRead .I .rx => none
  | .rbIsFull _ .tx => some r
  | .rbIsFull _ .rx => r.link
  | .rbIsEmpty _ .tx => some r
  | .rbIsEmpty _ .rx => r.link
  | .slEnqb _ => r.link
  | .slEnqm _ => r.link
  | .slDeqb => r.link
  | .slTxrdy => r.link
  | .slRxrdy _ => r.link
  | .ssStart _ _ _ => some r
  | .ssIsfin => some r
  | .ssRelease => some r
  | .ssTick => some r

/-- `RB.WRITE` on `tx` (R233). -/
def writesTxDirectly : Instr → Bool
  | .rbWrite _ .tx _ => true
  | .rbWrite _ .rx _ => false
  | .rbRead _ _ => false
  | .rbIsFull _ _ => false
  | .rbIsEmpty _ _ => false
  | .slEnqb _ => false
  | .slEnqm _ => false
  | .slDeqb => false
  | .slTxrdy => false
  | .slRxrdy _ => false
  | .ssStart _ _ _ => false
  | .ssIsfin => false
  | .ssRelease => false
  | .ssTick => false

/-- `RB.READ` on `tx`. -/
def readsTxDirectly : Instr → Bool
  | .rbRead _ .tx => true
  | .rbRead _ .rx => false
  | .rbWrite _ _ _ => false
  | .rbIsFull _ _ => false
  | .rbIsEmpty _ _ => false
  | .slEnqb _ => false
  | .slEnqm _ => false
  | .slDeqb => false
  | .slTxrdy => false
  | .slRxrdy _ => false
  | .ssStart _ _ _ => false
  | .ssIsfin => false
  | .ssRelease => false
  | .ssTick => false

/-- The first half of admission, evaluated before the gate: the parameters are well formed (R8), the operands fit, the
context is free. -/
def admitContext (s : State) (i : Instr) : Except Refusal Unit :=
  if !s.cfg.wf then .error .badConfig
  else if !i.operandsOk s.cfg then .error .operandRange
  else if !mayBegin s i then .error (whyNotBegin s i)
  else .ok ()

/-- The state in which an admitted operation runs: its roles are taken, and a direct access of `tx` is remembered. -/
def State.withRoles (s : State) (i : Instr) (roles : Roles) : State :=
  { s with
    roles := roles
    directWriteTx := s.directWriteTx || writesTxDirectly i
    directReadTx := s.directReadTx || readsTxDirectly i }

/-- The second half: `InitDone` for an operation that its gate delivers (R226; log 31), and SPSC for every operation
that is issued or condition that is raised (R102). -/
def admitRun (s : State) (i : Instr) : Except Refusal State :=
  if gateOpen i s && !s.initDone then .error .initNotDone
  else match claimRoles s.roles i with
    | none => .error .spscViolation
    | some roles => .ok (s.withRoles i roles)

/-- The outcome of an operation's effect. -/
def outcomeOf (r : Except Fault State) : Host.Outcome State Fault Refusal :=
  match r with
  | .error f => .fault f
  | .ok s => .next s

/-- The dispatcher gate and the entry of an operation (R196, R200), shared by every operation. A condition raised with
its enable at 0 is not delivered: no operation runs and nothing changes but the model's record of roles (log 13, log 31).
Otherwise `body` runs in the admitted state; the entry itself saves nothing and changes no enable (R200). -/
def issue (s : State) (i : Instr) (body : State → Except Fault State) : Host.Outcome State Fault Refusal :=
  match admitContext s i with
  | .error r => .refused r
  | .ok _ =>
    match admitRun s i with
    | .error r => .refused r
    | .ok s1 => if gateOpen i s then outcomeOf (body s1) else .next s1

/-- Agent `I` enters an operation (R200): the operation it was in, if any, keeps its locals below. -/
def State.enterInterrupt (s : State) (x : Activity) : State := { s with irq := x :: s.irq }

/-- Agent `I` returns from the innermost operation (R201): there is nothing to restore. -/
def State.leaveInterrupt (s : State) : State := { s with irq := s.irq.tail }

/-- Agent `M` begins an operation. -/
def State.enterMain (s : State) (x : Activity) : State := { s with main := some x }

/-- Agent `M` returns from its operation. -/
def State.leaveMain (s : State) : State := { s with main := none }

end Sys2Proof.Machine
end

