-- ==== Sys2Proof/Machine/RingBuffer.lean ====
section
/-! DEFINITION. The meanings of the four `RingBuffer` operations (40_ringbuffer.md), each the atomic effect of its
pseudocode (R120). -/

namespace Sys2Proof.Machine

/-- `RB.WRITE` (R121, R122). -/
def execRbWrite (a : Agent) (b : BufId) (value : Byte) (s : State) : Host.Outcome State Fault Refusal :=
  issue s (.rbWrite a b value) fun s1 =>
    match s1.writeBuf b value with
    | .error f => .error f
    | .ok (overflowed, s2) => .ok (s2.returnWrite a overflowed)

/-- `RB.READ` (R123, R124). -/
def execRbRead (a : Agent) (b : BufId) (s : State) : Host.Outcome State Fault Refusal :=
  issue s (.rbRead a b) fun s1 =>
    match s1.readBuf b with
    | .error f => .error f
    | .ok (r, s2) => .ok (s2.returnRead a r)

/-- `RB.ISFULL` (R125): F1. -/
def execRbIsFull (a : Agent) (b : BufId) (s : State) : Host.Outcome State Fault Refusal :=
  issue s (.rbIsFull a b) fun s1 => .ok (s1.reply a (.bit (s1.isFull b)))

/-- `RB.ISEMPTY` (R126): E1. -/
def execRbIsEmpty (a : Agent) (b : BufId) (s : State) : Host.Outcome State Fault Refusal :=
  issue s (.rbIsEmpty a b) fun s1 => .ok (s1.reply a (.bit (s1.isEmpty b)))

end Sys2Proof.Machine
end

