-- ==== Sys2Proof/Machine/SerialLink.lean ====
section
/-! DEFINITION. The meanings of the five `SerialLink` operations (41_seriallink.md), each the atomic effect of its
pseudocode (R120). -/

namespace Sys2Proof.Machine

/-- `SL.ENQB` (R140). -/
def execSlEnqb (value : Byte) (s : State) : Host.Outcome State Fault Refusal :=
  issue s (.slEnqb value) fun s1 =>
    match s1.enqueueByte value with
    | .error f => .error f
    | .ok (e, s2) => .ok (s2.returnErr .M e)

/-- The loop of `enqueueMessage` (R141) from the byte at the front on, with `e_out` so far. Where `tx` is full the
operation is held at L1: it stays in progress with the bytes not yet queued, and polls (log 19). -/
def State.enqueueBytes (s : State) (eOut : Bool) : List Byte → Except Fault State
  | [] => .ok (s.reply .M (.err eOut))
  | b :: rest =>
    if s.isFull .tx then .ok (s.enterMain (.slEnqm (b :: rest) eOut .l1))
    else match s.enqueueByte b with
      | .error f => .error f
      | .ok (e, s1) => (s1.recordErr .M e).enqueueBytes (eOut || e) rest

/-- `SL.ENQM` (R141). -/
def execSlEnqm (bytes : List Byte) (s : State) : Host.Outcome State Fault Refusal :=
  issue s (.slEnqm bytes) fun s1 => s1.enqueueBytes false bytes

/-- `SL.DEQB` (R142). -/
def execSlDeqb (s : State) : Host.Outcome State Fault Refusal :=
  issue s .slDeqb fun s1 =>
    match s1.readBuf .rx with
    | .error f => .error f
    | .ok (r, s2) => .ok (s2.returnDeq .M r)

/-- `onTransmitReady` once it is delivered (R143): at X3 a read that found nothing would transmit the sentinel 0, which
X1 excludes (log 33). -/
def State.onTransmitReady (s : State) : Except Fault State :=
  if s.isEmpty .tx then .ok s.disarmTx
  else match s.readBuf .tx with
    | .error f => .error f
    | .ok (r, s1) => .ok (s1.transmit (r.getD 0#8))

/-- `SL.TXRDY` (R143), through the gate (R196). -/
def execSlTxrdy (s : State) : Host.Outcome State Fault Refusal :=
  issue s .slTxrdy fun s1 => s1.onTransmitReady

/-- `onReceiveReady` (R144): the byte in `RCREG` is consumed on both paths, and dropped without a trace when `rx` is
full. -/
def State.onReceiveReady (s : State) : Except Fault State :=
  match s.consumeRcreg with
  | .error f => .error f
  | .ok (r, s1) =>
    if s1.isFull .rx then .ok s1
    else match s1.writeBuf .rx r with
      | .error f => .error f
      | .ok (_, s2) => .ok s2

/-- `SL.RXRDY r` (R144): the environment presents `r`, and one `onReceiveReady` consumes it (R29 (b)). -/
def execSlRxrdy (r : Byte) (s : State) : Host.Outcome State Fault Refusal :=
  issue s (.slRxrdy r) fun s1 => (s1.presentByte r).onReceiveReady

end Sys2Proof.Machine
end

