-- ==== Sys2Proof/Machine/StepSequencer.lean ====
section
/-! DEFINITION. The meanings of the four `StepSequencer` operations (42_stepsequencer.md), each the atomic effect of its
pseudocode (R120). -/

namespace Sys2Proof.Machine

/-- `startMotion` (R161): S1 to S6. -/
def State.startMotion (s : State) (distance : Nat) (dir : Direction) (speed : Nat) : State :=
  (((((s.startS1).startS2 distance).startS3 speed).startS4 dir).startS5 dir).startS6

/-- `SS.START` (R161, R162). -/
def execSsStart (distance : Nat) (dir : Direction) (speed : Nat) (s : State) : Host.Outcome State Fault Refusal :=
  issue s (.ssStart distance dir speed) fun s1 => .ok (s1.startMotion distance dir speed)

/-- `SS.ISFIN` (R163): I1. -/
def execSsIsfin (s : State) : Host.Outcome State Fault Refusal :=
  issue s .ssIsfin fun s1 => .ok (s1.reply .M (.bit s1.finished))

/-- `SS.RELEASE` (R164): Z0 to Z3 clear the four pins. -/
def execSsRelease (s : State) : Host.Outcome State Fault Refusal :=
  issue s .ssRelease fun s1 => s1.writePins 0#4 pinOrder

/-- `onTick` once it is delivered (R165): T1, T2.0 to T2.3, T3, T4. It has no guard of its own (R173, R239). -/
def State.onTick (s : State) : Except Fault State :=
  match s.tickT1.writePins s.tickT1.phaseRow pinOrder with
  | .error f => .error f
  | .ok s1 => .ok s1.tickT3.tickT4

/-- `SS.TICK` (R165), through the gate (R196). -/
def execSsTick (s : State) : Host.Outcome State Fault Refusal :=
  issue s .ssTick fun s1 => s1.onTick

end Sys2Proof.Machine
end

