-- ==== Sys2Proof/Machine/Dispatch.lean ====
section
/-! DEFINITION. The meaning of each operation, one arm per row of the opcode map (30_encoding.md R96). -/

namespace Sys2Proof.Machine

def exec (i : Instr) (s : State) : Host.Outcome State Fault Refusal :=
  match i with
  | .rbWrite a b value => Sys2Proof.Machine.execRbWrite a b value s
  | .rbRead a b => Sys2Proof.Machine.execRbRead a b s
  | .rbIsFull a b => Sys2Proof.Machine.execRbIsFull a b s
  | .rbIsEmpty a b => Sys2Proof.Machine.execRbIsEmpty a b s
  | .slEnqb value => Sys2Proof.Machine.execSlEnqb value s
  | .slEnqm bytes => Sys2Proof.Machine.execSlEnqm bytes s
  | .slDeqb => Sys2Proof.Machine.execSlDeqb s
  | .slTxrdy => Sys2Proof.Machine.execSlTxrdy s
  | .slRxrdy r => Sys2Proof.Machine.execSlRxrdy r s
  | .ssStart distance dir speed => Sys2Proof.Machine.execSsStart distance dir speed s
  | .ssIsfin => Sys2Proof.Machine.execSsIsfin s
  | .ssRelease => Sys2Proof.Machine.execSsRelease s
  | .ssTick => Sys2Proof.Machine.execSsTick s

end Sys2Proof.Machine
end

