-- ==== Sys2Proof/Machine/Micro.lean ====
section
/-! DEFINITION. The micro-steps of the thirteen operations: one labelled line of pseudocode at a time, each atomic
(20_memory.md R70). The labels and locals are those of `Activity`. -/

namespace Sys2Proof.Machine

/-- After a micro-step the operation goes on at a position, or has ended with a result. -/
inductive Progress (α β : Type) where
  | going (pos : α)
  | done (result : β)
  deriving DecidableEq, Repr

/-- W1 to W4 of `write` (R121). The result says whether it overflowed. -/
def microWrite (s : State) (b : BufId) (v : Byte) (pos : WriteAt) : Except Fault (State × Progress WriteAt Bool) :=
  match pos with
  | .w1 => .ok (s, .going (.w2 (s.ring b).head (s.ring b).tail))
  | .w2 h t => if incC (s.cap b) h = t then .ok (s, .done true) else .ok (s, .going (.w3 h))
  | .w3 h =>
    match s.storeSlot b h v with
    | .error f => .error f
    | .ok s1 => .ok (s1, .going (.w4 h))
  | .w4 h => .ok (s.publishHead b h v, .done false)

/-- Q1 to Q4 of `read` (R123). The result is the byte, none on underflow. -/
def microRead (s : State) (b : BufId) (pos : ReadAt) : Except Fault (State × Progress ReadAt (Option Byte)) :=
  match pos with
  | .q1 => .ok (s, .going (.q2 (s.ring b).tail (s.ring b).head))
  | .q2 t h => if h = t then .ok (s, .done none) else .ok (s, .going (.q3 t))
  | .q3 t =>
    match s.loadSlot b t with
    | .error f => .error f
    | .ok v => .ok (s, .going (.q4 t v))
  | .q4 t v => .ok (s.releaseTail b t v, .done (some v))

/-- W1 to W4 and A1 of `enqueueByte` (R140). The result is `err`. -/
def microEnqb (s : State) (v : Byte) (pos : EnqAt) : Except Fault (State × Progress EnqAt Bool) :=
  match pos with
  | .write w =>
    match microWrite s .tx v w with
    | .error f => .error f
    | .ok (s1, .going w') => .ok (s1, .going (.write w'))
    | .ok (s1, .done true) => .ok (s1, .done true)
    | .ok (s1, .done false) => .ok (s1, .going .a1)
  | .a1 => .ok (s.armTx, .done false)

/-- L1, L2 and L3 of `enqueueMessage` for the byte at the front of `todo` (R141). L1 is one poll F1. The result is
`e_out`. -/
def microEnqm (s : State) (todo : List Byte) (eOut : Bool) (pos : MsgAt) :
    Except Fault (State × Progress (List Byte × Bool × MsgAt) Bool) :=
  match todo with
  | [] => .ok (s, .done eOut)
  | b :: rest =>
    match pos with
    | .l1 =>
      if s.isFull .tx then .ok (s, .going (b :: rest, eOut, .l1))
      else .ok (s, .going (b :: rest, eOut, .l2 (.write .w1)))
    | .l2 e =>
      match microEnqb s b e with
      | .error f => .error f
      | .ok (s1, .going e') => .ok (s1, .going (b :: rest, eOut, .l2 e'))
      | .ok (s1, .done err) => .ok (s1, .going (b :: rest, eOut, .l3 err))
    | .l3 err =>
      match rest with
      | [] => .ok (s.recordErr .M err, .done (eOut || err))
      | b' :: rest' => .ok (s.recordErr .M err, .going (b' :: rest', eOut || err, .l1))

/-- X1 to X4 of `onTransmitReady` (R143). -/
def microTxrdy (s : State) (pos : TxAt) : Except Fault (State × Progress TxAt Unit) :=
  match pos with
  | .x1 => if s.isEmpty .tx then .ok (s, .going .x4) else .ok (s, .going (.x2 .q1))
  | .x2 q =>
    match microRead s .tx q with
    | .error f => .error f
    | .ok (s1, .going q') => .ok (s1, .going (.x2 q'))
    | .ok (s1, .done r) => .ok (s1, .going (.x3 (r.getD 0#8)))
  | .x3 v => .ok (s.transmit v, .done ())
  | .x4 => .ok (s.disarmTx, .done ())

/-- V1 to V3 of `onReceiveReady` (R144). -/
def microRxrdy (s : State) (pos : RxAt) : Except Fault (State × Progress RxAt Unit) :=
  match pos with
  | .v1 =>
    match s.consumeRcreg with
    | .error f => .error f
    | .ok (r, s1) => .ok (s1, .going (.v2 r))
  | .v2 r => if s.isFull .rx then .ok (s, .done ()) else .ok (s, .going (.v3 r .w1))
  | .v3 r w =>
    match microWrite s .rx r w with
    | .error f => .error f
    | .ok (s1, .going w') => .ok (s1, .going (.v3 r w'))
    | .ok (s1, .done _) => .ok (s1, .done ())

/-- S1 to S6 of `startMotion` (R161). -/
def microStart (s : State) (distance : Nat) (dir : Direction) (speed : Nat) (pos : StartAt) :
    State × Progress StartAt Unit :=
  match pos with
  | .s1 => (s.startS1, .going .s2)
  | .s2 => (s.startS2 distance, .going .s3)
  | .s3 => (s.startS3 speed, .going .s4)
  | .s4 => (s.startS4 dir, .going .s5)
  | .s5 => (s.startS5 dir, .going .s6)
  | .s6 => (s.startS6, .done ())

/-- The pin after pin `i` in the order of D15, none after the last. -/
def nextPin (i : Fin 4) : Option (Fin 4) :=
  match i with
  | 0 => some 1
  | 1 => some 2
  | 2 => some 3
  | 3 => none

/-- T1, T2.0 to T2.3, T3 and T4 of `onTick` (R165). -/
def microTick (s : State) (pos : TickAt) : Except Fault (State × Progress TickAt Unit) :=
  match pos with
  | .t1 => .ok (s.tickT1, .going (.t2 0))
  | .t2 i =>
    match s.writePin i (s.phaseRow.getLsbD i.val) with
    | .error f => .error f
    | .ok s1 =>
      match nextPin i with
      | some i' => .ok (s1, .going (.t2 i'))
      | none => .ok (s1, .going .t3)
  | .t3 => .ok (s.tickT3, .going .t4)
  | .t4 => .ok (s.tickT4, .done ())

/-- One micro-step of an operation of agent `a`: the state after it, and the operation where it goes on. A result is
returned by the micro-step that ends the operation (log 21). -/
def microStep (s : State) (a : Agent) (x : Activity) : Except Fault (State × Option Activity) :=
  match x with
  | .rbWrite b v pos =>
    match microWrite s b v pos with
    | .error f => .error f
    | .ok (s1, .going pos') => .ok (s1, some (.rbWrite b v pos'))
    | .ok (s1, .done overflowed) => .ok (s1.returnWrite a overflowed, none)
  | .rbRead b pos =>
    match microRead s b pos with
    | .error f => .error f
    | .ok (s1, .going pos') => .ok (s1, some (.rbRead b pos'))
    | .ok (s1, .done r) => .ok (s1.returnRead a r, none)
  | .rbIsFull b => .ok (s.reply a (.bit (s.isFull b)), none)
  | .rbIsEmpty b => .ok (s.reply a (.bit (s.isEmpty b)), none)
  | .slEnqb v pos =>
    match microEnqb s v pos with
    | .error f => .error f
    | .ok (s1, .going pos') => .ok (s1, some (.slEnqb v pos'))
    | .ok (s1, .done e) => .ok (s1.returnErr a e, none)
  | .slEnqm todo eOut pos =>
    match microEnqm s todo eOut pos with
    | .error f => .error f
    | .ok (s1, .going (todo', eOut', pos')) => .ok (s1, some (.slEnqm todo' eOut' pos'))
    | .ok (s1, .done e) => .ok (s1.reply a (.err e), none)
  | .slDeqb pos =>
    match microRead s .rx pos with
    | .error f => .error f
    | .ok (s1, .going pos') => .ok (s1, some (.slDeqb pos'))
    | .ok (s1, .done r) => .ok (s1.returnDeq a r, none)
  | .slTxrdy pos =>
    match microTxrdy s pos with
    | .error f => .error f
    | .ok (s1, .going pos') => .ok (s1, some (.slTxrdy pos'))
    | .ok (s1, .done _) => .ok (s1, none)
  | .slRxrdy pos =>
    match microRxrdy s pos with
    | .error f => .error f
    | .ok (s1, .going pos') => .ok (s1, some (.slRxrdy pos'))
    | .ok (s1, .done _) => .ok (s1, none)
  | .ssStart distance dir speed pos =>
    match microStart s distance dir speed pos with
    | (s1, .going pos') => .ok (s1, some (.ssStart distance dir speed pos'))
    | (s1, .done _) => .ok (s1, none)
  | .ssIsfin => .ok (s.reply a (.bit s.finished), none)
  | .ssRelease i =>
    match s.writePin i false with
    | .error f => .error f
    | .ok s1 =>
      match nextPin i with
      | some i' => .ok (s1, some (.ssRelease i'))
      | none => .ok (s1, none)
  | .ssTick pos =>
    match microTick s pos with
    | .error f => .error f
    | .ok (s1, .going pos') => .ok (s1, some (.ssTick pos'))
    | .ok (s1, .done _) => .ok (s1, none)

/-- Agent `a` enters an operation at its first micro-step. -/
def State.enter (s : State) (a : Agent) (x : Activity) : State :=
  match a with
  | .M => s.enterMain x
  | .I => s.enterInterrupt x

/-- An operation begins at micro-step grain, in the state it was admitted in. A message of no bytes has no micro-step:
it returns at once (R141 (a)). `SL.RXRDY r` presents `r` in `RCREG`. -/
def beginOp (s : State) (i : Instr) : State :=
  match i with
  | .rbWrite a b v => s.enter a (.rbWrite b v .w1)
  | .rbRead a b => s.enter a (.rbRead b .q1)
  | .rbIsFull a b => s.enter a (.rbIsFull b)
  | .rbIsEmpty a b => s.enter a (.rbIsEmpty b)
  | .slEnqb v => s.enter .M (.slEnqb v (.write .w1))
  | .slEnqm [] => s.reply .M (.err false)
  | .slEnqm (b :: rest) => s.enter .M (.slEnqm (b :: rest) false .l1)
  | .slDeqb => s.enter .M (.slDeqb .q1)
  | .slTxrdy => s.enter .I (.slTxrdy .x1)
  | .slRxrdy r => (s.presentByte r).enter .I (.slRxrdy .v1)
  | .ssStart distance dir speed => s.enter .M (.ssStart distance dir speed .s1)
  | .ssIsfin => s.enter .M .ssIsfin
  | .ssRelease => s.enter .M (.ssRelease 0)
  | .ssTick => s.enter .I (.ssTick .t1)

end Sys2Proof.Machine
end

