-- ==== Sys2Proof/Machine/Schedule.lean ====
section
/-! DEFINITION. What one step of the machine does: the events of the agenda (micro-steps of the two agents under
20_memory.md R70 to R73, conditions through the gate of 60_exceptions.md R196, initialisation, ports, reset), the
operations in progress, and the command stream (30_encoding.md R90). -/

namespace Sys2Proof.Machine

/-- Agent `M` performs one micro-step. -/
def advanceMain (s : State) : Host.Outcome State Fault Refusal :=
  match s.main with
  | none => .refused (.nothingInProgress .M)
  | some x =>
    if mainMayAdvance s x then
      match microStep s .M x with
      | .error f => .fault f
      | .ok (s1, none) => .next s1.leaveMain
      | .ok (s1, some x') => .next (s1.enterMain x')
    else .refused .mainlinePreempted

/-- Agent `I` performs one micro-step of its innermost operation. -/
def advanceIrq (s : State) : Host.Outcome State Fault Refusal :=
  match s.irq with
  | [] => .refused (.nothingInProgress .I)
  | x :: _ =>
    match microStep s .I x with
    | .error f => .fault f
    | .ok (s1, none) => .next s1.leaveInterrupt
    | .ok (s1, some x') => .next (s1.leaveInterrupt.enterInterrupt x')

/-- An agent performs its next micro-step. -/
def advance (s : State) (a : Agent) : Host.Outcome State Fault Refusal :=
  match a with
  | .M => advanceMain s
  | .I => advanceIrq s

/-- An operation of agent `I` that may not begin yet waits until the operations of `I` in progress have ended: a
condition raised during a handler "is served after the handler, or nested" (R201; log 18). -/
def mustWait (s : State) (i : Instr) : Bool := issuer i == .I && !mayBegin s i

/-- The output ports of a buffer as of an edge (R40). -/
def State.setPorts (s : State) (b : BufId) (p : Ports) : State := { s with ports := s.ports.set b p }

/-- An edge of `wclk` samples `full(b)` and the status of the request. -/
def State.samplePortW (s : State) (b : BufId) (wReq : Bool) : State :=
  s.setPorts b { s.ports.get b with wFull := s.isFull b, wOvf := wReq && s.isFull b }

/-- An edge of `rclk` samples `empty(b)`, the byte at `tail` and the status of the request; the byte is the sentinel 0
on underflow and stays as it was without a request. -/
def State.samplePortR (s : State) (b : BufId) (rReq : Bool) : State :=
  s.setPorts b { s.ports.get b with
    rEmpty := s.isEmpty b
    rUdf := rReq && s.isEmpty b
    rData :=
      if rReq then
        (if s.isEmpty b then 0#8 else ((Memory.read (s.ring b).slots (s.ring b).readIndex).getD 0#8))
      else (s.ports.get b).rData }

/-- The producer and the consumer of a buffer in `SerialLink`'s assignment (R25), which the ports take (log 22). -/
def portProducer (b : BufId) : Agent := (linkRoles.producer.get b).getD .M
def portConsumer (b : BufId) : Agent := (linkRoles.consumer.get b).getD .M

/-- An edge of `wclk`: "a request on w_req is one write" (R40). -/
def portWrite (s : State) (b : BufId) (wReq : Bool) (wData : Byte) : Host.Outcome State Fault Refusal :=
  if wReq then Sys2Proof.Machine.execRbWrite (portProducer b) b wData (s.samplePortW b true)
  else .next (s.samplePortW b false)

/-- An edge of `rclk`: "a request on r_req one read" (R40). -/
def portRead (s : State) (b : BufId) (rReq : Bool) : Host.Outcome State Fault Refusal :=
  if rReq then Sys2Proof.Machine.execRbRead (portConsumer b) b (s.samplePortR b true)
  else .next (s.samplePortR b false)

/-- A reset starts a new run from the reset state (R220, R221), with new draws; the events and the stream still to
come are not the hardware's (log 27). -/
def State.restart (s : State) : State :=
  { State.initial s.cfg (s.epoch + 1) with agenda := s.agenda, stream := s.stream }

/-- One event; `s` is the state with the event taken off the agenda. -/
def handleEvent (s : State) (ev : Event) : Host.Outcome State Fault Refusal :=
  match ev with
  | .init => .next { s with initDone := true }
  | .start i =>
    if mustWait s i then advanceIrq { s with agenda := .start i :: s.agenda }
    else issue s i fun s1 => .ok (beginOp s1 i)
  | .advance a => advance s a
  | .wclk b wReq wData => portWrite s b wReq wData
  | .rclk b rReq => portRead s b rReq
  | .rst => .next s.restart

/-- The next command of the stream, as one whole operation (R90). An illegal one raises `IllegalCommand`: nothing
changes and the stream stops (R97, R194; log 24). After the last command nothing happens any more (R247; log 20). -/
def runCommand (s : State) : Host.Outcome State Fault Refusal :=
  match s.stream with
  | [] => .next s
  | x :: bytes =>
    match decode s.cfg (x :: bytes) with
    | .error e => .refused (.illegalCommand e)
    | .ok (i, rest) => exec i { s with stream := rest }

/-- What the next step is: an event of the agenda; without one, the operations in progress go on, the interrupt context
first (R71 (b)); without any, the next command (log 2). -/
def stepOnce (s : State) : Host.Outcome State Fault Refusal :=
  match s.agenda with
  | ev :: rest => handleEvent { s with agenda := rest } ev
  | [] =>
    match s.irq, s.main with
    | _ :: _, _ => advanceIrq s
    | [], some _ => advanceMain s
    | [], none => runCommand s

/-- The state in which the very next step runs the one command at the front of `bytes`: the initialisation is done
(R226), no operation is in progress, no event is to come. -/
def State.placeStream (s : State) (bytes : List Byte) : State :=
  { s with initDone := true, main := none, irq := [], agenda := [], stream := bytes }

end Sys2Proof.Machine
end

