-- ==== Sys2Proof/Machine/Step.lean ====
section
/-! DEFINITION. One step of the machine, and the placing of one instruction word. -/

namespace Sys2Proof.Machine

/-- One step. A malformed configuration is refused (00_scope.md R8). -/
def step (s : State) : Host.Outcome State Fault Refusal :=
  if s.cfg.wf then stepOnce s else .refused .badConfig

/-- `s` with one instruction word, numbered as spec/opcode_table.json numbers its bits, placed as the command stream
(log 3: a program is loaded from outside the machine). -/
def State.withFetchWord (s : State) (nbits w : Nat) : State := s.placeStream (tableWordBytes s.cfg nbits w)

end Sys2Proof.Machine
end

