-- ==== Sys2Proof/Safety.lean ====
section
/-! DEFINITION. What counts as a safe run, in the terms the statements use: the well-formed state, when an operation is
ready to run, and the invariants of the spec (10_state.md R22, R31; 40_ringbuffer.md R127 to R130; 41_seriallink.md R145,
R146), each as a predicate of one state, with the positions of the operations in progress taken into account. -/

namespace Sys2Proof.Machine

/-! ## Well-formed states -/

/-- A buffer's storage is slots `0 .. C-1`, and `0 <= head, tail < C` (R21, R22). -/
def Ring.wf (c : Nat) (r : Ring) : Bool :=
  decide (r.slots.map (fun cell => cell.1) = List.range c) && decide (r.head < c) && decide (r.tail < c)

/-- The operands an operation in progress still holds are of their widths (R161). -/
def Activity.operandsOk (p : Params) (x : Activity) : Bool :=
  match x with
  | .ssStart distance _ speed _ => decide (distance < 2 ^ p.wSteps) && decide (speed < 2 ^ p.wRate)
  | .rbWrite _ _ _ => true
  | .rbRead _ _ => true
  | .rbIsFull _ => true
  | .rbIsEmpty _ => true
  | .slEnqb _ _ => true
  | .slEnqm _ _ _ => true
  | .slDeqb _ => true
  | .slTxrdy _ => true
  | .slRxrdy _ => true
  | .ssIsfin => true
  | .ssRelease _ => true
  | .ssTick _ => true

/-- The location of pin `i` is in the `IO` map (R61, R227). -/
def State.pinBound (s : State) (i : Fin 4) : Bool := (Memory.read s.io (s.cfg.pins.get i).loc).isSome

/-- Every field is in the range the spec gives it: the parameters are well formed (R8), the buffers are (R22), the `IO`
map is in canonical form and holds the four pins (R61), and every count and period fits its width (R7, R30, R34). -/
def State.wf (s : State) : Bool :=
  s.cfg.wf
    && (s.ring .tx).wf (s.cap .tx) && (s.ring .rx).wf (s.cap .rx)
    && Memory.wf s.io && pinOrder.all s.pinBound
    && decide (s.remainingSteps < 2 ^ s.cfg.wSteps) && decide (s.tickPeriod < 2 ^ s.cfg.wTmr)
    && s.tmr.all (fun v => decide (v < 2 ^ s.cfg.wTmr)) && s.tmrOut.all (fun v => decide (v < 2 ^ s.cfg.wTmr))
    && s.main.all (Activity.operandsOk s.cfg) && s.irq.all (Activity.operandsOk s.cfg)

/-- Operation `i` is ready to run in `s`: the state is well formed, the operands fit, the initialisation is done
(R226), the context admits it (R71 to R73) and it keeps SPSC (R102). -/
abbrev Ready (s : State) (i : Instr) : Prop :=
  s.wf = true ∧ i.operandsOk s.cfg = true ∧ s.initDone = true ∧ mayBegin s i = true
    ∧ (claimRoles s.roles i).isSome = true

/-- The state an operation that is ready runs in. -/
def State.admitted (s : State) (i : Instr) : State := s.withRoles i ((claimRoles s.roles i).getD s.roles)

/-- No operation is in progress and no event is to come: the next step takes the next command. -/
abbrev Idle (s : State) : Prop := s.main = none ∧ s.irq = [] ∧ s.agenda = []

/-- A free-running model is quiescent when no mainline operation is in progress and both enables are 0 (R247, D24). -/
abbrev Quiescent (s : State) : Prop := s.main = none ∧ s.txArmed = false ∧ s.timerArmed = false

/-! ## Operations in progress -/

/-- An operation agent `M` may be in: not a handler (R202). -/
def Activity.ofMain : Activity → Bool
  | .slTxrdy _ => false
  | .slRxrdy _ => false
  | .ssTick _ => false
  | .rbWrite _ _ _ => true
  | .rbRead _ _ => true
  | .rbIsFull _ => true
  | .rbIsEmpty _ => true
  | .slEnqb _ _ => true
  | .slEnqm _ _ _ => true
  | .slDeqb _ => true
  | .ssStart _ _ _ _ => true
  | .ssIsfin => true
  | .ssRelease _ => true

/-- An operation agent `I` may be in: a handler or a bare FIFO operation (R202). -/
def Activity.ofIrq (x : Activity) : Bool := x.isRb || !x.ofMain

/-- Each operation is of another component than the one it interrupted (R73); innermost first. -/
def componentsAlternate : List Activity → Bool
  | [] => true
  | x :: rest => rest.head?.all (fun y => x.component != y.component) && componentsAlternate rest

/-- What agent `I` is in: nothing, one operation, or nested handlers, no two of one kind, each inside one of another
component (R73). -/
def irqShapeOk (xs : List Activity) : Bool :=
  decide (xs.length ≤ 1)
    || (xs.all (fun x => x.handler.isSome) && decide (xs.map Activity.handler).Nodup && componentsAlternate xs)

/-- The contexts of the operations in progress (R71, R73, R202). -/
def State.contextsOk (s : State) : Bool :=
  s.main.all Activity.ofMain && s.irq.all Activity.ofIrq && irqShapeOk s.irq

/-- An operation in progress of agent `a` holds the roles it needs (R25, R102). -/
def rolesHeld (roles : Roles) (a : Agent) (x : Activity) : Bool :=
  match x with
  | .rbWrite b _ _ => roles.producer.get b == some a
  | .rbRead b _ => roles.consumer.get b == some a
  | .rbIsFull _ => true
  | .rbIsEmpty _ => true
  | .slEnqb _ _ => roles == linkRoles
  | .slEnqm _ _ _ => roles == linkRoles
  | .slDeqb _ => roles == linkRoles
  | .slTxrdy _ => roles == linkRoles
  | .slRxrdy _ => roles == linkRoles
  | .ssStart _ _ _ _ => true
  | .ssIsfin => true
  | .ssRelease _ => true
  | .ssTick _ => true

/-- SPSC: every operation in progress holds its roles. -/
def State.rolesOk (s : State) : Bool :=
  s.main.all (rolesHeld s.roles .M) && s.irq.all (rolesHeld s.roles .I)

/-- The `write` an operation is in the middle of: buffer, value, position. -/
def Activity.writing : Activity → Option (BufId × Byte × WriteAt)
  | .rbWrite b v pos => some (b, v, pos)
  | .slEnqb v (.write pos) => some (.tx, v, pos)
  | .slEnqb _ .a1 => none
  | .slEnqm (v :: _) _ (.l2 (.write pos)) => some (.tx, v, pos)
  | .slEnqm _ _ _ => none
  | .slRxrdy (.v3 r pos) => some (.rx, r, pos)
  | .slRxrdy _ => none
  | .rbRead _ _ => none
  | .rbIsFull _ => none
  | .rbIsEmpty _ => none
  | .slDeqb _ => none
  | .slTxrdy _ => none
  | .ssStart _ _ _ _ => none
  | .ssIsfin => none
  | .ssRelease _ => none
  | .ssTick _ => none

/-- The `read` an operation is in the middle of: buffer, position. -/
def Activity.reading : Activity → Option (BufId × ReadAt)
  | .rbRead b pos => some (b, pos)
  | .slDeqb pos => some (.rx, pos)
  | .slTxrdy (.x2 pos) => some (.tx, pos)
  | .slTxrdy _ => none
  | .rbWrite _ _ _ => none
  | .rbIsFull _ => none
  | .rbIsEmpty _ => none
  | .slEnqb _ _ => none
  | .slEnqm _ _ _ => none
  | .slRxrdy _ => none
  | .ssStart _ _ _ _ => none
  | .ssIsfin => none
  | .ssRelease _ => none
  | .ssTick _ => none

/-! ## The FIFO under every interleaving (R127 to R130) -/

/-- The locals of a `write` in progress are still true of the buffer: `h` is `head`; a sampled `tail` shows at least as
many resident bytes as there are; past W2 the buffer is not full; past W3 the slot holds the value. -/
def writePosOk (c : Nat) (r : Ring) (v : Byte) : WriteAt → Bool
  | .w1 => true
  | .w2 h t => (h == r.head) && decide (t < c) && decide (r.count c ≤ distC c h t)
  | .w3 h => (h == r.head) && !r.full c
  | .w4 h => (h == r.head) && !r.full c && (Memory.read r.slots h == some v)

/-- The locals of a `read` in progress are still true of the buffer: `t` is `tail`; a sampled `head` shows at most as
many resident bytes as there are; past Q2 the buffer is not empty; past Q3 `v` is the byte at `tail`. -/
def readPosOk (c : Nat) (r : Ring) : ReadAt → Bool
  | .q1 => true
  | .q2 t h => (t == r.tail) && decide (h < c) && decide (distC c h t ≤ r.count c)
  | .q3 t => (t == r.tail) && !r.empty
  | .q4 t v => (t == r.tail) && !r.empty && (Memory.read r.slots t == some v)

/-- The locals of an operation in progress are true of the buffer it works on. -/
def State.localsOk (s : State) (x : Activity) : Bool :=
  (match x.writing with
   | none => true
   | some (b, v, pos) => writePosOk (s.cap b) (s.ring b) v pos)
  && (match x.reading with
   | none => true
   | some (b, pos) => readPosOk (s.cap b) (s.ring b) pos)

/-- `w_1, w_2, ...` is `r_1, r_2, ...` followed by the resident bytes (R127). -/
def State.fifoOrder (s : State) (b : BufId) : Bool :=
  s.accepted.get b == s.delivered.get b ++ (s.ring b).contents (s.cap b)

/-- FIFO order on both buffers, with the locals of every operation in progress. -/
def State.fifoOk (s : State) : Bool :=
  s.fifoOrder .tx && s.fifoOrder .rx && s.main.all s.localsOk && s.irq.all s.localsOk

/-- A byte is in `RCREG` when `onReceiveReady` is about to read it (U14). -/
def State.rcregOk (s : State) : Bool := !s.irq.contains (.slRxrdy .v1) || s.rcReg.isSome

/-- The invariant of the machine that the other invariants build on: well formed, contexts, SPSC, FIFO order, `RCREG`. -/
abbrev Good (s : State) : Prop :=
  s.wf = true ∧ s.contextsOk = true ∧ s.rolesOk = true ∧ s.fifoOk = true ∧ s.rcregOk = true

/-! ## The serial client (R141, R143 to R146) -/

/-- A `write` that a "not full" test preceded cannot overflow (R130): before W2 the buffer is not full, and at W2 the
sampled indices say so. -/
def cannotOverflow (c : Nat) (r : Ring) : WriteAt → Bool
  | .w1 => !r.full c
  | .w2 h t => decide (incC c h ≠ t)
  | .w3 _ => true
  | .w4 _ => true

/-- A `read` that a "not empty" test preceded cannot underflow (R130). -/
def cannotUnderflow (r : Ring) : ReadAt → Bool
  | .q1 => !r.empty
  | .q2 t h => decide (h ≠ t)
  | .q3 _ => true
  | .q4 _ _ => true

/-- The tests inside `enqueueMessage`, `onTransmitReady` and `onReceiveReady` still hold: no byte of a message
overflows (R141 (b)), X2 does not underflow (R143), V3 does not overflow (R144). -/
def State.testsHold (s : State) (x : Activity) : Bool :=
  match x with
  | .slEnqm [] _ _ => false
  | .slEnqm (_ :: _) eOut .l1 => !eOut
  | .slEnqm (_ :: _) eOut (.l2 (.write pos)) => !eOut && cannotOverflow (s.cap .tx) (s.ring .tx) pos
  | .slEnqm (_ :: _) eOut (.l2 .a1) => !eOut
  | .slEnqm (_ :: _) eOut (.l3 e) => !eOut && !e
  | .slTxrdy (.x2 pos) => cannotUnderflow (s.ring .tx) pos
  | .slTxrdy .x4 => s.isEmpty .tx
  | .slRxrdy (.v3 _ pos) => cannotOverflow (s.cap .rx) (s.ring .rx) pos
  | .slTxrdy .x1 => true
  | .slTxrdy (.x3 _) => true
  | .slRxrdy .v1 => true
  | .slRxrdy (.v2 _) => true
  | .slEnqb _ _ => true
  | .slDeqb _ => true
  | .rbWrite _ _ _ => true
  | .rbRead _ _ => true
  | .rbIsFull _ => true
  | .rbIsEmpty _ => true
  | .ssStart _ _ _ _ => true
  | .ssIsfin => true
  | .ssRelease _ => true
  | .ssTick _ => true

/-- The tests of every operation in progress still hold. -/
def State.testsOk (s : State) : Bool := s.main.all s.testsHold && s.irq.all s.testsHold

/-- The mainline is between micro-steps W4 and A1 of an `enqueueByte` (R145). -/
def armWindow : Option Activity → Bool
  | some (.slEnqb _ .a1) => true
  | some (.slEnqm _ _ (.l2 .a1)) => true
  | _ => false

/-- An operation in progress is a direct `RB.WRITE`, respectively `RB.READ`, on `tx`. -/
def Activity.writesTx : Activity → Bool
  | .rbWrite .tx _ _ => true
  | _ => false
def Activity.readsTx : Activity → Bool
  | .rbRead .tx _ => true
  | _ => false

/-- The arm/disarm invariant (R145): with no direct `RB.WRITE` on `tx`, outside the window W4..A1, `not empty(tx)`
implies `txArmed == 1`. -/
def State.armOk (s : State) : Bool :=
  s.directWriteTx ||
    ((s.isEmpty .tx || s.txArmed || armWindow s.main)
      && s.main.all (fun x => !x.writesTx) && s.irq.all (fun x => !x.writesTx))

/-- The byte `onTransmitReady` has read and not yet written to `TXREG` (between X2 and X3). -/
def inFlight : List Activity → List Byte
  | [] => []
  | .slTxrdy (.x3 v) :: rest => v :: inFlight rest
  | _ :: rest => inFlight rest

/-- Transmit order (R146): with no direct `RB.READ` on `tx`, the bytes read from `tx` are `tx_out` and the byte in
flight. -/
def State.txOrderOk (s : State) : Bool :=
  s.directReadTx ||
    ((s.delivered.tx == s.txOut ++ inFlight s.irq)
      && s.main.all (fun x => !x.readsTx) && s.irq.all (fun x => !x.readsTx))

/-! ## The sequencer (R31) -/

/-- The mainline is between micro-steps S2 and S6 of a `startMotion` (R31 (b)). -/
def startWindow : Option Activity → Bool
  | some (.ssStart _ _ _ .s3) => true
  | some (.ssStart _ _ _ .s4) => true
  | some (.ssStart _ _ _ .s5) => true
  | some (.ssStart _ _ _ .s6) => true
  | _ => false

/-- Steps are left only while the timer is armed, but for the window S2..S6 of a `startMotion` (R31). -/
def State.seqOk (s : State) : Bool := s.finished || s.timerArmed || startWindow s.main

/-! ## What the environment and the callers observe -/

/-- The results agent `a` has received, in order (R33 (e)). -/
def State.repliesTo (s : State) (a : Agent) : List Reply :=
  (s.replies.filter fun r => r.1 == a).map fun r => r.2

/-- The code a failing result puts in the caller's error slot, none for success (R191, R192). -/
def Reply.failCode : Reply → Option (BitVec 2)
  | .status .ok => none
  | .status .overflow => some 1#2
  | .status .underflow => some 2#2
  | .statusByte .ok _ => none
  | .statusByte .overflow _ => some 1#2
  | .statusByte .underflow _ => some 2#2
  | .bit _ => none
  | .err false => none
  | .err true => some 1#2
  | .errByte false _ => none
  | .errByte true _ => some 1#2

/-- The other agent. -/
def otherAgent : Agent → Agent
  | .M => .I
  | .I => .M

/-- Pin levels while pins below `k` have their level of `new` and the others that of `old` (R167: the patterns between
T2.0 and T2.3). -/
def mixPins (old new : BitVec 4) (k : Nat) : BitVec 4 :=
  BitVec.ofBool (if 3 < k then new.getLsbD 3 else old.getLsbD 3)
    ++ BitVec.ofBool (if 2 < k then new.getLsbD 2 else old.getLsbD 2)
    ++ BitVec.ofBool (if 1 < k then new.getLsbD 1 else old.getLsbD 1)
    ++ BitVec.ofBool (if 0 < k then new.getLsbD 0 else old.getLsbD 0)

/-- `io` is the `IO` map of `s` with the four pins at `row`, and `seen` the levels observed on the way: pin 0 first, and
so on (D15). No location appears or disappears, a location of no pin keeps its byte, and a bit that is no pin keeps its
value (R32, R67). -/
abbrev PinsWritten (s : State) (io : Memory) (seen : List (BitVec 4)) (row : BitVec 4) : Prop :=
  ({ s with io := io } : State).pinLevels = row
    ∧ seen = [mixPins s.pinLevels row 1, mixPins s.pinLevels row 2, mixPins s.pinLevels row 3, row]
    ∧ io.map (fun cell => cell.1) = s.io.map (fun cell => cell.1)
    ∧ (∀ loc, (∀ i, (s.cfg.pins.get i).loc ≠ loc) → Memory.read io loc = Memory.read s.io loc)
    ∧ (∀ loc bit, (∀ i, s.cfg.pins.get i ≠ ⟨loc, bit⟩) →
        (Memory.read io loc).map (fun v => v.getLsbD bit) = (Memory.read s.io loc).map (fun v => v.getLsbD bit))

/-- `slots` is the storage of `r` with one slot replaced: every other slot reads as before (R121). -/
abbrev SlotStored (r : Ring) (h : Nat) (v : Byte) (slots : Memory) : Prop :=
  slots.map (fun cell => cell.1) = r.slots.map (fun cell => cell.1)
    ∧ ∀ j, Memory.read slots j = if j = h then some v else Memory.read r.slots j

/-- `slots` is the storage of `r` with the bytes stored from index `h` on (mod `c`): every other slot reads as
before. -/
abbrev BytesStored (c : Nat) (r : Ring) (h : Nat) (bytes : List Byte) (slots : Memory) : Prop :=
  slots.map (fun cell => cell.1) = r.slots.map (fun cell => cell.1)
    ∧ (∀ k, k < bytes.length → Memory.read slots ((h + k) % c) = bytes[k]?)
    ∧ ∀ j, (∀ k, k < bytes.length → j ≠ (h + k) % c) → Memory.read slots j = Memory.read r.slots j

/-- The state of `SerialLink` and of the bare buffers is the same in both states (R21, R26, R28, R33). -/
abbrev SameSerial (s t : State) : Prop :=
  t.rings = s.rings ∧ t.txArmed = s.txArmed ∧ t.txReg = s.txReg ∧ t.rcReg = s.rcReg ∧ t.txOut = s.txOut
    ∧ t.accepted = s.accepted ∧ t.delivered = s.delivered

/-- The state of `StepSequencer`, its timer register and the whole `IO` space are the same (R30, R32, R34). -/
abbrev SameSequencer (s t : State) : Prop :=
  t.currentPhase = s.currentPhase ∧ t.direction = s.direction ∧ t.previousDirection = s.previousDirection
    ∧ t.remainingSteps = s.remainingSteps ∧ t.tickPeriod = s.tickPeriod ∧ t.timerArmed = s.timerArmed
    ∧ t.tmr = s.tmr ∧ t.tmrOut = s.tmrOut ∧ t.io = s.io ∧ t.pinOut = s.pinOut

/-- The parameters, the initialisation, the ports and what is still to come are the same. -/
abbrev SameSurroundings (s t : State) : Prop :=
  t.cfg = s.cfg ∧ t.epoch = s.epoch ∧ t.initDone = s.initDone ∧ t.ports = s.ports ∧ t.agenda = s.agenda
    ∧ t.stream = s.stream

/-- The state with `n` whole ticks raised one after the other, each through the gate (R174). -/
def runTicks : Nat → State → Host.Outcome State Fault Refusal
  | 0, s => .next s
  | n + 1, s =>
    match exec .ssTick s with
    | .next t => runTicks n t
    | .fault f => .fault f
    | .refused r => .refused r

end Sys2Proof.Machine
end

