-- ==== Sys2Proof/Certificates/Slice0/Obligations.lean ====
section
/-! DEFINITION. The statements for the provers, taken from the numbered rules of spec/. Each is about every state that
meets its hypotheses, so about every value of the OPEN parameters, and every free value. -/

open Sys2Proof Sys2Proof.Machine

/-! ## The command encoding -/

/-- 30_encoding.md R92 to R96: decoding the bytes of an operation that has a byte form gives it back, with every operand
at every value the encoding admits, and leaves the rest of the stream. -/
def Obligations.DecodeOfEncodeIsTheOperation : Prop :=
  ∀ (p : Params) (i : Instr) (rest : List Byte), i.encodable p = true →
    decode p (encode p i ++ rest) = .ok (i, rest)

/-- R91 to R98: a command has no other bytes: what decodes to an operation is its encoding followed by the rest, and
the operation has a byte form. -/
def Obligations.EncodeOfDecodeIsTheBytes : Prop :=
  ∀ (p : Params) (bytes rest : List Byte) (i : Instr), decode p bytes = .ok (i, rest) →
    i.encodable p = true ∧ encode p i ++ rest = bytes

/-- R96: a byte is an opcode exactly when it selects a row of the map, the rows are disjoint, and there are thirteen. -/
def Obligations.OpcodesAreTheRowsOfTheMap : Prop :=
  opcodeRows.length = 13
    ∧ (∀ x : Byte, (∃ op, opcodeOf x = .ok op) ↔ ∃ row ∈ opcodeRows, row.selects x = true)
    ∧ ∀ (x : Byte) (r r' : OpcodeRow), r ∈ opcodeRows → r' ∈ opcodeRows → r.selects x = true → r'.selects x = true → r = r'

/-- 95_test_vectors.md V-EN-1: words written out from R96 decode to their operations. -/
def Obligations.WrittenOutWordsDecode : Prop :=
  decode Params.default [0x00#8, 0x41#8] = .ok (.rbWrite .M .tx 0x41#8, [])
    ∧ decode Params.default [0x28#8, 0xFF#8] = .ok (.rbWrite .I .rx 0xFF#8, [])
    ∧ decode Params.default [0x21#8] = .ok (.rbRead .I .tx, [])
    ∧ decode Params.default [0x41#8, 0x02#8, 0x48#8, 0x69#8] = .ok (.slEnqm [0x48#8, 0x69#8], [])
    ∧ decode Params.default [0x80#8, 0x03#8, 0x00#8, 0x01#8, 0x2C#8, 0x01#8] = .ok (.ssStart 3 .backward 300, [])
    ∧ decode Params.default [0xA0#8] = .ok (.ssTick, [])

/-- R97, R194: where the next bytes of the stream are no command, the step is refused as an illegal command, by the
reason's name (that a refusal is what marks the stream refused is the model's choice: log 24). -/
def Obligations.IllegalCommandIsRefused : Prop :=
  ∀ (s : State) (e : DecodeError), s.cfg.wf = true → Idle s → s.stream ≠ [] → decode s.cfg s.stream = .error e →
    step s = .refused (.illegalCommand e)

/-! ## One step -/

/-- R90: with no event and no operation in progress, a step takes the next command of the stream and is exec of it
in the state past that command (that events and operations in progress come before the stream is the model's choice:
log 2). -/
def Obligations.StepRunsTheNextCommand : Prop :=
  ∀ (s : State) (i : Instr) (rest : List Byte), s.cfg.wf = true → Idle s → i.encodable s.cfg = true →
    s.stream = encode s.cfg i ++ rest → step s = exec i { s with stream := rest }

/-- The placed word of the opcode table is what the very next step runs, and nothing of it is left (the model's own
loading: log 3). -/
def Obligations.PlacedWordIsWhatStepRuns : Prop :=
  ∀ (s : State) (nbits w : Nat) (i : Instr), s.cfg = Params.default → decodeTableWord nbits w = some i →
    step (s.withFetchWord nbits w)
      = exec i { s with initDone := true, main := none, irq := [], agenda := [], stream := [] }

/-- 20_memory.md R71 (b): agent M has no micro-step while agent I is in an operation, unless both are in operations of
the bare FIFO (R72). -/
def Obligations.MainlineIsHeldDuringAnInterruptOperation : Prop :=
  ∀ (s : State) (x y : Activity) (xs : List Activity) (rest : List Event), s.cfg.wf = true →
    s.agenda = .advance .M :: rest → s.main = some x → s.irq = y :: xs → (x.isRb = false ∨ y.isRb = false) →
    step s = .refused .mainlinePreempted

/-- R71 (c), (d): a mainline operation never begins while another is in progress, nor inside an interrupt-context
operation (bare FIFO operations aside, R72): neither as a whole operation nor as an event of a schedule. -/
def Obligations.MainlineBeginsOnlyWhenFree : Prop :=
  ∀ (s : State) (i : Instr) (rest : List Event), s.cfg.wf = true → i.operandsOk s.cfg = true → issuer i = .M →
    (∀ x, s.main = some x →
        exec i s = .refused .mainlineBusy ∧ (s.agenda = .start i :: rest → step s = .refused .mainlineBusy))
      ∧ (∀ y ys, s.main = none → s.irq = y :: ys → (componentOf i ≠ .rb ∨ y.isRb = false) →
          exec i s = .refused .mainlineInsideHandler
            ∧ (s.agenda = .start i :: rest → step s = .refused .mainlineInsideHandler))

/-- 60_exceptions.md R201, 20_memory.md R73: a condition raised during a handler it may not nest in is served after the
handler: the step is the handler's next micro-step, and the event stays (this order of the two is the model's choice:
log 18). With `NESTED_INTERRUPTS`, a handler that is ready nests in a handler of another component, unless an invocation
of itself is in progress, however many handlers are (log 17): it is entered at its first micro-step, X1, V1 or T1, a
received byte is presented in `RCREG`, and beyond its admission nothing else changes. -/
def Obligations.RaiseDuringAHandlerWaits : Prop :=
  ∀ (s : State) (i : Instr) (x : Activity) (xs : List Activity) (rest : List Event), s.cfg.wf = true →
    s.agenda = .start i :: rest → s.irq = x :: xs →
    (issuer i = .I → mayNest s i = false → step s = advanceIrq s)
    ∧ (s.cfg.nestedInterrupts = true → handlerOf i ≠ none → componentOf i ≠ x.component →
        (∀ y ∈ s.irq, y.handler ≠ none ∧ y.handler ≠ handlerOf i) →
        s.initDone = true → gateOpen i s = true → (claimRoles s.roles i).isSome = true →
        (i = .slTxrdy → step s = .next
          { State.admitted { s with agenda := rest } .slTxrdy with irq := .slTxrdy .x1 :: s.irq })
        ∧ (∀ r, i = .slRxrdy r → step s = .next
          { State.admitted { s with agenda := rest } (.slRxrdy r) with
            rcReg := some r, irq := .slRxrdy .v1 :: s.irq })
        ∧ (i = .ssTick → step s = .next
          { State.admitted { s with agenda := rest } .ssTick with irq := .ssTick .t1 :: s.irq }))

/-- R73: with `NESTED_INTERRUPTS = false` at most one interrupt-context operation is in progress, whatever is raised. -/
def Obligations.StepKeepsOneHandlerAtATime : Prop :=
  ∀ s t : State, s.cfg.nestedInterrupts = false → s.irq.length ≤ 1 → step s = .next t →
    t.cfg.nestedInterrupts = false ∧ t.irq.length ≤ 1

/-- R226, U13: an operation that its gate delivers before `InitDone` is refused, as a whole operation and as an event of
a schedule. -/
def Obligations.OperationBeforeInitIsRefused : Prop :=
  ∀ (s : State) (i : Instr) (rest : List Event), s.cfg.wf = true → i.operandsOk s.cfg = true → mayBegin s i = true →
    gateOpen i s = true → s.initDone = false →
    exec i s = .refused .initNotDone ∧ (s.agenda = .start i :: rest → step s = .refused .initNotDone)

/-- 30_encoding.md R102, 10_state.md R25, R26: all writes of a buffer are by one agent and all reads by one agent, and on
the two buffers of a `SerialLink` the four agents are fixed; an operation that breaks this is refused, as a whole operation
and as an event. `RB.WRITE@M rx` and `RB.READ@I rx` always break it, because `rx` is a `SerialLink`'s. What is claimed: an
`RB.WRITE` makes its agent the buffer's writer, an `RB.READ` its reader, and every operation on the buffers of a
`SerialLink` (its five, delivered or not, and the `RB` operations on `rx`) fixes all four agents of R25. Remembering the
agents in the state is the model's choice: log 13. -/
def Obligations.BreakingSpscIsRefused : Prop :=
  ∀ s : State, s.cfg.wf = true → s.initDone = true →
    (∀ (a : Agent) (b : BufId) (v : Byte),
      (mayBegin s (.rbWrite a b v) = true →
          (s.roles.producer.get b = some (otherAgent a) ∨ (a = .M ∧ b = .rx)) →
        exec (.rbWrite a b v) s = .refused .spscViolation
          ∧ ∀ rest, s.agenda = .start (.rbWrite a b v) :: rest → step s = .refused .spscViolation)
      ∧ (mayBegin s (.rbRead a b) = true →
          (s.roles.consumer.get b = some (otherAgent a) ∨ (a = .I ∧ b = .rx)) →
        exec (.rbRead a b) s = .refused .spscViolation
          ∧ ∀ rest, s.agenda = .start (.rbRead a b) :: rest → step s = .refused .spscViolation)
      ∧ (∀ t, exec (.rbWrite a b v) s = .next t → t.roles.producer.get b = some a)
      ∧ (∀ t, exec (.rbRead a b) s = .next t → t.roles.consumer.get b = some a))
    ∧ ∀ i : Instr, usesLink i = true →
      (mayBegin s i = true →
        (s.roles.producer.tx = some .I ∨ s.roles.consumer.tx = some .M ∨ s.roles.producer.rx = some .M
          ∨ s.roles.consumer.rx = some .I) →
        exec i s = .refused .spscViolation
          ∧ ∀ rest, s.agenda = .start i :: rest → step s = .refused .spscViolation)
      ∧ (∀ t, exec i s = .next t → t.roles = linkRoles)

/-! ## The buffers -/

/-- 10_state.md R22, R23: in a well-formed buffer at most `C - 1` bytes are resident, full is `C - 1` of them, empty is
none, and a buffer is never full and empty at once. -/
def Obligations.FullAndEmptyAreTheEndsOfTheCount : Prop :=
  ∀ (c : Nat) (r : Ring), 2 ≤ c → r.wf c = true →
    r.count c ≤ c - 1 ∧ (r.full c = true ↔ r.count c = c - 1) ∧ (r.empty = true ↔ r.count c = 0)
      ∧ ¬ (r.full c = true ∧ r.empty = true)

/-- 40_ringbuffer.md R121, R122 (a): `write` on a buffer that is not full stores the value at `head`, advances `head`
mod `C`, returns OK, and changes nothing else; every other slot reads as before. On a full buffer it returns OVERFLOW,
writes the error slot, and leaves head, tail and every slot unchanged. -/
def Obligations.RbWriteStoresAtHeadOrOverflows : Prop :=
  ∀ (s : State) (a : Agent) (b : BufId) (v : Byte), Ready s (.rbWrite a b v) →
    (s.isFull b = false → ∃ slots, SlotStored (s.ring b) (s.ring b).head v slots
      ∧ exec (.rbWrite a b v) s = .next
          { s.admitted (.rbWrite a b v) with
            rings := s.rings.set b ⟨slots, ((s.ring b).head + 1) % s.cap b, (s.ring b).tail⟩
            accepted := s.accepted.set b (s.accepted.get b ++ [v])
            replies := s.replies ++ [(a, .status .ok)] })
    ∧ (s.isFull b = true → exec (.rbWrite a b v) s = .next
          { s.admitted (.rbWrite a b v) with
            errSlot := s.errSlot.set a 1#2
            replies := s.replies ++ [(a, .status .overflow)] })

/-- R123, R124: `read` returns the byte at `tail` with OK and advances `tail` mod `C`, or on an empty buffer
UNDERFLOW with the zero sentinel; no slot is written. -/
def Obligations.RbReadTakesTheByteAtTail : Prop :=
  ∀ (s : State) (a : Agent) (b : BufId), Ready s (.rbRead a b) →
    (s.isEmpty b = false → ∃ v, Memory.read (s.ring b).slots (s.ring b).tail = some v
      ∧ exec (.rbRead a b) s = .next
          { s.admitted (.rbRead a b) with
            rings := s.rings.set b ⟨(s.ring b).slots, (s.ring b).head, ((s.ring b).tail + 1) % s.cap b⟩
            delivered := s.delivered.set b (s.delivered.get b ++ [v])
            replies := s.replies ++ [(a, .statusByte .ok v)] })
    ∧ (s.isEmpty b = true → exec (.rbRead a b) s = .next
          { s.admitted (.rbRead a b) with
            errSlot := s.errSlot.set a 2#2
            replies := s.replies ++ [(a, .statusByte .underflow 0#8)] })

/-- R125, R126: the predicates return full and empty as the indices say, and write no state of the hardware. (On `rx` the
model's record of roles is fixed as by every operation on a `SerialLink`'s buffers: log 13.) -/
def Obligations.RbPredicatesOnlyAnswer : Prop :=
  ∀ (s : State) (a : Agent) (b : BufId),
    (Ready s (.rbIsFull a b) → exec (.rbIsFull a b) s = .next
      { s with
        roles := if b = .rx then linkRoles else s.roles
        replies := s.replies ++ [(a, .bit (decide (((s.ring b).head + 1) % s.cap b = (s.ring b).tail)))] })
    ∧ (Ready s (.rbIsEmpty a b) → exec (.rbIsEmpty a b) s = .next
      { s with
        roles := if b = .rx then linkRoles else s.roles
        replies := s.replies ++ [(a, .bit (decide ((s.ring b).head = (s.ring b).tail)))] })

/-! ## The serial client -/

/-- 41_seriallink.md R140: `enqueueByte` on a `tx` that is not full is a `write` followed by arming, returns err = 0,
and changes nothing else; on overflow it surfaces the error without arming anything. -/
def Obligations.EnqbQueuesAndArmsOrFails : Prop :=
  ∀ (s : State) (v : Byte), Ready s (.slEnqb v) →
    (s.isFull .tx = false → ∃ slots, SlotStored (s.ring .tx) (s.ring .tx).head v slots
      ∧ exec (.slEnqb v) s = .next
          { s.admitted (.slEnqb v) with
            rings := s.rings.set .tx ⟨slots, ((s.ring .tx).head + 1) % s.cap .tx, (s.ring .tx).tail⟩
            txArmed := true
            accepted := s.accepted.set .tx (s.accepted.tx ++ [v])
            replies := s.replies ++ [(.M, .err false)] })
    ∧ (s.isFull .tx = true → exec (.slEnqb v) s = .next
          { s.admitted (.slEnqb v) with
            errSlot := s.errSlot.set .M 1#2
            replies := s.replies ++ [(.M, .err true)] })

/-- R141: a message that fits the free space is queued whole, in order, arms unless it is empty, and returns 0. -/
def Obligations.EnqmQueuesAMessageThatFits : Prop :=
  ∀ (s : State) (bytes : List Byte), Ready s (.slEnqm bytes) → bytes.length ≤ (s.ring .tx).room (s.cap .tx) →
    ∃ slots, BytesStored (s.cap .tx) (s.ring .tx) (s.ring .tx).head bytes slots
      ∧ exec (.slEnqm bytes) s = .next
          { s.admitted (.slEnqm bytes) with
            rings := s.rings.set .tx
              ⟨slots, ((s.ring .tx).head + bytes.length) % s.cap .tx, (s.ring .tx).tail⟩
            txArmed := s.txArmed || !bytes.isEmpty
            accepted := s.accepted.set .tx (s.accepted.tx ++ bytes)
            replies := s.replies ++ [(.M, .err false)] }

/-- R141: a longer message fills the free space and is then held at L1 with the bytes left; it has returned nothing,
failed nothing and skipped nothing (that the held operation stays in progress in the state is the model's choice:
log 19). -/
def Obligations.EnqmIsHeldOnAFullBuffer : Prop :=
  ∀ (s : State) (bytes : List Byte) (n : Nat), Ready s (.slEnqm bytes) → n = (s.ring .tx).room (s.cap .tx) →
    n < bytes.length →
    ∃ slots, BytesStored (s.cap .tx) (s.ring .tx) (s.ring .tx).head (bytes.take n) slots
      ∧ exec (.slEnqm bytes) s = .next
          { s.admitted (.slEnqm bytes) with
            rings := s.rings.set .tx ⟨slots, ((s.ring .tx).head + n) % s.cap .tx, (s.ring .tx).tail⟩
            txArmed := s.txArmed || decide (0 < n)
            accepted := s.accepted.set .tx (s.accepted.tx ++ bytes.take n)
            main := some (.slEnqm (bytes.drop n) false .l1) }

/-- R141 (e): splitting a message into two consecutive calls gives the same state, but for the second call's result. -/
def Obligations.EnqmSplitsIntoTwoCalls : Prop :=
  ∀ (s : State) (xs ys : List Byte), Ready s (.slEnqm (xs ++ ys)) →
    (xs ++ ys).length ≤ (s.ring .tx).room (s.cap .tx) →
    ∃ t u, exec (.slEnqm (xs ++ ys)) s = .next t ∧ exec (.slEnqm xs) s = .next u
      ∧ exec (.slEnqm ys) u = .next { t with replies := t.replies ++ [(.M, .err false)] }

/-- R141: while `tx` is full a held message only polls, and a poll changes nothing; once `tx` is not full the next
micro-step goes on to queue the byte. -/
def Obligations.HeldMessagePollsUntilThereIsRoom : Prop :=
  ∀ (s : State) (b : Byte) (rest : List Byte) (e : Bool), s.cfg.wf = true → s.agenda = [] → s.irq = [] →
    s.main = some (.slEnqm (b :: rest) e .l1) →
    (s.isFull .tx = true → step s = .next s)
      ∧ (s.isFull .tx = false → step s = .next { s with main := some (.slEnqm (b :: rest) e (.l2 (.write .w1))) })

/-- R142: `dequeueByte` returns the byte at the tail of `rx`, or (1, 0x00) when there is none, and never waits. -/
def Obligations.DeqbTakesAByteOfRx : Prop :=
  ∀ s : State, Ready s .slDeqb →
    (s.isEmpty .rx = false → ∃ v, Memory.read (s.ring .rx).slots (s.ring .rx).tail = some v
      ∧ exec .slDeqb s = .next
          { s.admitted .slDeqb with
            rings := s.rings.set .rx
              ⟨(s.ring .rx).slots, (s.ring .rx).head, ((s.ring .rx).tail + 1) % s.cap .rx⟩
            delivered := s.delivered.set .rx (s.delivered.rx ++ [v])
            replies := s.replies ++ [(.M, .errByte false v)] })
    ∧ (s.isEmpty .rx = true → exec .slDeqb s = .next
          { s.admitted .slDeqb with
            errSlot := s.errSlot.set .M 1#2
            replies := s.replies ++ [(.M, .errByte true 0#8)] })

/-- R143: a delivered `onTransmitReady` pops exactly one byte to `TXREG` when `tx` is non-empty and leaves the interrupt
armed; on an empty `tx` it only disarms. -/
def Obligations.TxrdyTransmitsOrDisarms : Prop :=
  ∀ s : State, Ready s .slTxrdy → s.txArmed = true →
    (s.isEmpty .tx = false → ∃ v, Memory.read (s.ring .tx).slots (s.ring .tx).tail = some v
      ∧ exec .slTxrdy s = .next
          { s.admitted .slTxrdy with
            rings := s.rings.set .tx
              ⟨(s.ring .tx).slots, (s.ring .tx).head, ((s.ring .tx).tail + 1) % s.cap .tx⟩
            delivered := s.delivered.set .tx (s.delivered.tx ++ [v])
            txReg := v
            txOut := s.txOut ++ [v] })
    ∧ (s.isEmpty .tx = true → exec .slTxrdy s = .next { s.admitted .slTxrdy with txArmed := false })

/-- 60_exceptions.md R196: transmit-ready raised with `txArmed == 0`, and a tick raised with `timerArmed == 0`, are not
delivered: no state of the hardware changes, and no operation begins; as an event of a schedule the condition is only taken
off it. (Transmit-ready is a `SerialLink`'s, so the model's record of roles is fixed, log 13, and is as it was where a
`SerialLink` operation was issued before.) -/
def Obligations.ClosedGateDeliversNothing : Prop :=
  ∀ (s : State) (rest : List Event), s.wf = true →
    (mayBegin s .slTxrdy = true → s.txArmed = false → s.roles.linkable = true →
        exec .slTxrdy s = .next { s with roles := linkRoles }
          ∧ (s.agenda = .start .slTxrdy :: rest → step s = .next { s with roles := linkRoles, agenda := rest }))
      ∧ (mayBegin s .ssTick = true → s.timerArmed = false →
        exec .ssTick s = .next s
          ∧ (s.agenda = .start .ssTick :: rest → step s = .next { s with agenda := rest }))

/-- R144: `onReceiveReady` always runs and consumes the received byte on both paths; it stores it when `rx` is not full,
and drops it without a trace when `rx` is full. -/
def Obligations.RxrdyStoresOrDrops : Prop :=
  ∀ (s : State) (r : Byte), Ready s (.slRxrdy r) →
    (s.isFull .rx = false → ∃ slots, SlotStored (s.ring .rx) (s.ring .rx).head r slots
      ∧ exec (.slRxrdy r) s = .next
          { s.admitted (.slRxrdy r) with
            rings := s.rings.set .rx ⟨slots, ((s.ring .rx).head + 1) % s.cap .rx, (s.ring .rx).tail⟩
            accepted := s.accepted.set .rx (s.accepted.rx ++ [r])
            rcReg := none })
    ∧ (s.isFull .rx = true → exec (.slRxrdy r) s = .next { s.admitted (.slRxrdy r) with rcReg := none })

/-- R148: the source's own end-to-end check from the reset state, for every value of the parameters. -/
def Obligations.EnqueueDrainDisarmFromReset : Prop :=
  ∀ (p : Params) (epoch : Nat) (v : Byte), p.wf = true →
    ∃ s1 s2 s3,
      exec (.slEnqb v) { State.initial p epoch with initDone := true } = .next s1
      ∧ s1.txArmed = true ∧ (s1.ring .tx).contents p.cTx = [v]
      ∧ exec .slTxrdy s1 = .next s2
      ∧ s2.txOut = [v] ∧ s2.isEmpty .tx = true ∧ s2.txArmed = true
      ∧ exec .slTxrdy s2 = .next s3
      ∧ s3.txArmed = false ∧ s3.txOut = [v] ∧ (s3.ring .tx).tail = (s2.ring .tx).tail
      ∧ exec .slTxrdy s3 = .next s3

/-! ## The sequencer -/

/-- 42_stepsequencer.md R166: `next4` and `prev4` are +1 and -1 mod 4 and inverse to each other. -/
def Obligations.PhaseArithmeticIsModFour : Prop :=
  (∀ p : Fin 4, (next4 p).val = (p.val + 1) % 4 ∧ (prev4 p).val = (p.val + 3) % 4
    ∧ next4 (prev4 p) = p ∧ prev4 (next4 p) = p)
  ∧ next4 0 = 1 ∧ next4 1 = 2 ∧ next4 2 = 3 ∧ next4 3 = 0
  ∧ prev4 0 = 3 ∧ prev4 1 = 0 ∧ prev4 2 = 1 ∧ prev4 3 = 2

/-- R161, R162, R169: `startMotion` records the old direction, sets the count, clamps and converts the speed, reloads
`TMR`, sets the direction, nudges `currentPhase` on a reversal only, arms the timer whatever the distance, and changes
nothing else. -/
def Obligations.StartMotionSetsTheMotion : Prop :=
  ∀ (s : State) (distance : Nat) (dir : Direction) (speed period : Nat), Ready s (.ssStart distance dir speed) →
    period = periodOfRate s.cfg (min speed s.cfg.maxRate) →
    exec (.ssStart distance dir speed) s = .next
      { s.admitted (.ssStart distance dir speed) with
        previousDirection := s.direction
        remainingSteps := distance
        tickPeriod := period
        tmr := some period
        tmrOut := s.tmrOut ++ [period]
        direction := dir
        currentPhase :=
          if dir = s.direction then s.currentPhase
          else match dir with
            | .forward => next4 s.currentPhase
            | .backward => prev4 s.currentPhase
        timerArmed := true }

/-- R163: `isFinished` returns true iff `remainingSteps == 0`, and writes nothing. -/
def Obligations.IsFinishedOnlyAnswers : Prop :=
  ∀ s : State, Ready s .ssIsfin →
    exec .ssIsfin s = .next { s with replies := s.replies ++ [(.M, .bit (decide (s.remainingSteps = 0)))] }

/-- R164: `release` clears the four pins in index order, whatever the motion state, and changes nothing else; the other
bits of the pin bytes keep their values (R67). -/
def Obligations.ReleaseClearsTheFourPins : Prop :=
  ∀ s : State, Ready s .ssRelease →
    ∃ io seen, PinsWritten s io seen 0#4
      ∧ exec .ssRelease s = .next { s.admitted .ssRelease with io := io, pinOut := s.pinOut ++ seen }

/-- R165, R167: a delivered `onTick` reloads `TMR`, makes the four pins the row of `currentPhase`, advances
`currentPhase` in the current direction, decrements the count (saturating at 0), disarms exactly when the count is then
0, and changes nothing else. -/
def Obligations.TickAssertsTheRowAndCountsDown : Prop :=
  ∀ s : State, Ready s .ssTick → s.timerArmed = true →
    ∃ io seen, PinsWritten s io seen (s.cfg.phaseTable.get s.currentPhase)
      ∧ exec .ssTick s = .next
          { s.admitted .ssTick with
            tmr := some s.tickPeriod
            tmrOut := s.tmrOut ++ [s.tickPeriod]
            io := io
            pinOut := s.pinOut ++ seen
            currentPhase :=
              match s.direction with
              | .forward => next4 s.currentPhase
              | .backward => prev4 s.currentPhase
            remainingSteps := s.remainingSteps - 1
            timerArmed := decide (1 < s.remainingSteps) }

/-- R167, R8: after every delivered tick exactly two pins are high and two low. -/
def Obligations.TwoPinsAreHighAfterATick : Prop :=
  ∀ s t : State, Ready s .ssTick → s.timerArmed = true → exec .ssTick s = .next t → rowOk t.pinLevels = true

/-- R173: a tick with the timer disarmed. Through the gate nothing changes; performed anyway on a finished motion,
`onTick` reloads `TMR`, asserts the row, advances `currentPhase`, and leaves count 0 and the timer disarmed. -/
def Obligations.TickWithTheTimerDisarmed : Prop :=
  ∀ s : State, s.wf = true → s.timerArmed = false →
    (mayBegin s .ssTick = true → exec .ssTick s = .next s)
    ∧ (s.remainingSteps = 0 → ∃ t, s.onTick = .ok t ∧ t.tmr = some s.tickPeriod ∧ t.tmrOut = s.tmrOut ++ [s.tickPeriod]
      ∧ t.pinLevels = s.cfg.phaseTable.get s.currentPhase
      ∧ t.currentPhase = stepPhase s.direction s.currentPhase ∧ t.remainingSteps = 0 ∧ t.timerArmed = false)

/-- R171: the source's four-tick check, from any phase with no reversal: the four rows once each in cyclic table order,
the count 0, the timer disarmed, `currentPhase` back where it was, five equal entries of `tmr_out`, and a fifth tick
that is a no-op. -/
def Obligations.FourTicksAssertEachRowOnce : Prop :=
  ∀ (s : State) (speed : Nat), Ready s (.ssStart 4 .forward speed) → s.irq = [] → s.direction = .forward →
    ∃ s0 s1 s2 s3 s4,
      exec (.ssStart 4 .forward speed) s = .next s0
      ∧ exec .ssTick s0 = .next s1 ∧ s1.pinLevels = s.cfg.phaseTable.get s.currentPhase
      ∧ exec .ssTick s1 = .next s2 ∧ s2.pinLevels = s.cfg.phaseTable.get (next4 s.currentPhase)
      ∧ exec .ssTick s2 = .next s3 ∧ s3.pinLevels = s.cfg.phaseTable.get (next4 (next4 s.currentPhase))
      ∧ exec .ssTick s3 = .next s4 ∧ s4.pinLevels = s.cfg.phaseTable.get (next4 (next4 (next4 s.currentPhase)))
      ∧ s4.remainingSteps = 0 ∧ s4.timerArmed = false ∧ s4.currentPhase = s.currentPhase
      ∧ s4.tmrOut = s.tmrOut ++ List.replicate 5 (periodOfRate s.cfg (min speed s.cfg.maxRate))
      ∧ exec .ssTick s4 = .next s4

/-- R170, R172: a reversal after two forward ticks, which assert the rows of the phase it starts from and of the next
one. The second call moves `currentPhase` back by one, and its first tick
asserts the row already on the pins and leaves `currentPhase` one further back. -/
def Obligations.ReversalReassertsTheRowOnThePins : Prop :=
  ∀ (s : State) (d1 d2 v1 v2 : Nat), Ready s (.ssStart d1 .forward v1) → 2 ≤ d1 →
    Instr.operandsOk s.cfg (.ssStart d2 .backward v2) = true → s.irq = [] → s.direction = .forward →
    ∃ s0 s1 s2 s3 s4,
      exec (.ssStart d1 .forward v1) s = .next s0
      ∧ exec .ssTick s0 = .next s1 ∧ s1.pinLevels = s.cfg.phaseTable.get s.currentPhase
      ∧ exec .ssTick s1 = .next s2 ∧ s2.pinLevels = s.cfg.phaseTable.get (next4 s.currentPhase)
      ∧ s2.currentPhase = next4 (next4 s.currentPhase)
      ∧ exec (.ssStart d2 .backward v2) s2 = .next s3
      ∧ s3.currentPhase = next4 s.currentPhase ∧ s3.previousDirection = .forward
      ∧ exec .ssTick s3 = .next s4
      ∧ s4.pinLevels = s2.pinLevels ∧ s4.currentPhase = s.currentPhase

/-- R162 (a): a zero-distance motion arms the timer, is finished at once, and moves the motor by one tick, which
disarms. -/
def Obligations.ZeroDistanceGivesOneTick : Prop :=
  ∀ (s : State) (dir : Direction) (speed : Nat), Ready s (.ssStart 0 dir speed) → s.irq = [] →
    ∃ s0 s1, exec (.ssStart 0 dir speed) s = .next s0 ∧ s0.seqMode = .draining ∧ s0.finished = true
      ∧ exec .ssTick s0 = .next s1 ∧ s1.pinLevels = s.cfg.phaseTable.get s0.currentPhase
      ∧ s1.currentPhase = stepPhase dir s0.currentPhase ∧ s1.remainingSteps = 0 ∧ s1.seqMode = .idle
      ∧ exec .ssTick s1 = .next s1

/-- R168: the state machine of the sequencer, for whole operations, with the two transient states at the micro-steps S2
and S6 that enter and leave them. -/
def Obligations.SequencerStateMachine : Prop :=
  (∀ (s t : State) (d : Nat) (dir : Direction) (v : Nat), exec (.ssStart d dir v) s = .next t →
      t.seqMode = if d = 0 then .draining else .running)
  ∧ (∀ s t : State, exec .ssTick s = .next t →
      (s.seqMode = .idle → t = s)
      ∧ (s.seqMode = .running → t.seqMode = if 1 < s.remainingSteps then .running else .idle)
      ∧ (s.seqMode = .draining → t.seqMode = .idle))
  ∧ (∀ s t : State, exec .ssIsfin s = .next t ∨ exec .ssRelease s = .next t → t.seqMode = s.seqMode)
  ∧ (∀ (s : State) (d : Nat),
      (s.seqMode = .idle → 0 < d → (s.startS2 d).seqMode = .arming)
      ∧ (s.seqMode = .running → d = 0 → (s.startS2 d).seqMode = .draining)
      ∧ (s.seqMode = .draining → 0 < d → (s.startS2 d).seqMode = .running)
      ∧ (s.seqMode = .arming → s.startS6.seqMode = .running))

/-- R174: a motion of `d > 0` started from IDLE and undisturbed consists of exactly `d` ticks: after `k <= d` of them
`d - k` steps are left and the timer is armed exactly while some are; after `d` the sequencer is IDLE and further ticks
change nothing. -/
def Obligations.MotionIsExactlyItsDistanceInTicks : Prop :=
  ∀ (s : State) (d : Nat) (dir : Direction) (speed : Nat), Ready s (.ssStart d dir speed) → 0 < d → s.irq = [] →
    s.seqMode = .idle →
    ∃ s0, exec (.ssStart d dir speed) s = .next s0
      ∧ (∀ k, k ≤ d → ∃ t, runTicks k s0 = .next t ∧ t.remainingSteps = d - k ∧ (t.timerArmed = true ↔ k < d))
      ∧ ∀ k, d ≤ k → ∃ t, runTicks k s0 = .next t ∧ runTicks d s0 = .next t ∧ t.seqMode = .idle

/-- R161, R165 (95_test_vectors.md Part 4, 7): `remainingSteps` never increases in a step, except at S2 of a
`startMotion`, which sets it to the distance: at that micro-step of the mainline, or in the step that runs the whole
command from the stream. The premise `contextsOk` is kept by every step: StepKeepsFifoOrder. -/
def Obligations.StepsIncreaseOnlyAtS2 : Prop :=
  ∀ s t : State, s.contextsOk = true → step s = .next t →
    t.remainingSteps ≤ s.remainingSteps
      ∨ (∃ d dir v, s.main = some (.ssStart d dir v .s2) ∧ t.main = some (.ssStart d dir v .s3)
          ∧ t.remainingSteps = d)
      ∨ (Idle s ∧ ∃ d dir v rest, decode s.cfg s.stream = .ok (.ssStart d dir v, rest)
          ∧ t.stream = rest ∧ t.remainingSteps = d)

/-! ## What operations leave alone -/

/-- R6, R26, R73, R120: an operation of the buffers or of `SerialLink` that answers a next state leaves the sequencer,
its timer and every pin byte alone, and what surrounds the block; only a message held on a full `tx` leaves an operation
in progress. -/
def Obligations.FifoOperationsKeepTheSequencer : Prop :=
  ∀ (i : Instr) (s t : State), componentOf i ≠ .ss → exec i s = .next t →
    SameSequencer s t ∧ SameSurroundings s t ∧ t.irq = s.irq
      ∧ (t.main = s.main ∨ ∃ bytes rest, i = .slEnqm bytes ∧ t.main = some (.slEnqm rest false .l1))

/-- R73, R164, R165: an operation of the sequencer that answers a next state leaves both buffers, `txArmed`, the serial
registers and `tx_out` alone, and the error slots: "the stepper sequencer has no error channel at all" (R190). -/
def Obligations.SequencerOperationsKeepTheSerialLink : Prop :=
  ∀ (i : Instr) (s t : State), componentOf i = .ss → exec i s = .next t →
    SameSerial s t ∧ SameSurroundings s t ∧ t.errSlot = s.errSlot ∧ t.main = s.main ∧ t.irq = s.irq

/-- R26, R79: an operation on one buffer leaves the other alone; `SerialLink`'s transmit operations touch `tx` only and
its receive operations `rx` only, and neither touches the other's enable, register or output. -/
def Obligations.TheTwoChannelsAreIndependent : Prop :=
  ∀ s t : State,
    (∀ a b v, exec (.rbWrite a b v) s = .next t ∨ exec (.rbRead a b) s = .next t →
      (∀ b', b' ≠ b → t.ring b' = s.ring b') ∧ t.txArmed = s.txArmed ∧ t.txReg = s.txReg ∧ t.txOut = s.txOut
        ∧ t.rcReg = s.rcReg)
    ∧ (∀ v bytes, exec (.slEnqb v) s = .next t ∨ exec (.slEnqm bytes) s = .next t ∨ exec .slTxrdy s = .next t →
      t.rings.rx = s.rings.rx ∧ t.rcReg = s.rcReg ∧ t.accepted.rx = s.accepted.rx ∧ t.delivered.rx = s.delivered.rx)
    ∧ (∀ r, exec .slDeqb s = .next t ∨ exec (.slRxrdy r) s = .next t →
      t.rings.tx = s.rings.tx ∧ t.txArmed = s.txArmed ∧ t.txReg = s.txReg ∧ t.txOut = s.txOut
        ∧ t.accepted.tx = s.accepted.tx ∧ t.delivered.tx = s.delivered.tx)

/-- R192: of the operations that can fail, each returns one result to its issuer and writes the issuer's error slot with
the result's code on failure, and not at all on success; only a message that is held has returned nothing yet
(one slot per agent, and the held message in progress at L1, are the model's choice: log 11, log 19). -/
def Obligations.ErrorSlotIsWrittenOnFailureOnly : Prop :=
  ∀ (i : Instr) (s t : State),
    (∃ a b v, i = .rbWrite a b v) ∨ (∃ a b, i = .rbRead a b) ∨ (∃ v, i = .slEnqb v) ∨ (∃ bs, i = .slEnqm bs)
      ∨ i = .slDeqb →
    exec i s = .next t →
    (∃ r, t.replies = s.replies ++ [(issuer i, r)]
        ∧ t.errSlot = match Reply.failCode r with
          | none => s.errSlot
          | some code => s.errSlot.set (issuer i) code)
      ∨ (∃ bs rest, i = .slEnqm bs ∧ t.main = some (.slEnqm rest false .l1)
          ∧ t.replies = s.replies ∧ t.errSlot = s.errSlot)

/-- R199: the three handlers touch pairwise disjoint state, so any two of them give the same final state in either
order. -/
def Obligations.HandlersCommute : Prop :=
  ∀ (i j : Instr) (s t u : State), i ∈ [.slTxrdy, .ssTick] ∨ (∃ r, i = .slRxrdy r) →
    j ∈ [.slTxrdy, .ssTick] ∨ (∃ r, j = .slRxrdy r) → i.mnemonic ≠ j.mnemonic →
    exec i s = .next t → exec j t = .next u →
    ∃ t', exec j s = .next t' ∧ exec i t' = .next u

/-- R40, R121, R123: an edge of `wclk` with a request is one `write` of the producer's agent, whose overflow shows on
`w_ovf`, and an edge of `rclk` with a request is one `read` of the consumer's, whose byte shows on `r_data`: the step is
exec of it in the state with the ports sampled. An edge without a request samples the ports and changes nothing else.
The agents, the moment of sampling and what the ports keep are the model's choice: log 22. -/
def Obligations.PortRequestsAreWritesAndReads : Prop :=
  portProducer .tx = .M ∧ portConsumer .tx = .I ∧ portProducer .rx = .I ∧ portConsumer .rx = .M
  ∧ ∀ (s : State) (b : BufId) (v : Byte) (rest : List Event), s.wf = true →
    (s.agenda = .wclk b true v :: rest →
      step s = exec (.rbWrite (portProducer b) b v)
        { s with
          agenda := rest
          ports := s.ports.set b { s.ports.get b with wFull := s.isFull b, wOvf := s.isFull b } }
      ∧ ∀ t, step s = .next t →
        (t.ports.get b).wFull = s.isFull b ∧ (t.ports.get b).wOvf = s.isFull b
        ∧ (s.isFull b = true → t.rings = s.rings ∧ t.accepted = s.accepted)
        ∧ (s.isFull b = false → t.accepted.get b = s.accepted.get b ++ [v]
          ∧ ∃ slots, SlotStored (s.ring b) (s.ring b).head v slots
            ∧ t.rings = s.rings.set b ⟨slots, ((s.ring b).head + 1) % s.cap b, (s.ring b).tail⟩))
    ∧ (s.agenda = .wclk b false v :: rest →
      step s = .next { s with
        agenda := rest
        ports := s.ports.set b { s.ports.get b with wFull := s.isFull b, wOvf := false } })
    ∧ (s.agenda = .rclk b true :: rest →
      (∃ byte, (s.isEmpty b = true → byte = 0#8)
        ∧ (s.isEmpty b = false → Memory.read (s.ring b).slots (s.ring b).tail = some byte)
        ∧ step s = exec (.rbRead (portConsumer b) b)
          { s with
            agenda := rest
            ports := s.ports.set b
              { s.ports.get b with rEmpty := s.isEmpty b, rUdf := s.isEmpty b, rData := byte } })
      ∧ ∀ t, step s = .next t →
        (t.ports.get b).rEmpty = s.isEmpty b ∧ (t.ports.get b).rUdf = s.isEmpty b
        ∧ (s.isEmpty b = true → (t.ports.get b).rData = 0#8 ∧ t.rings = s.rings ∧ t.delivered = s.delivered)
        ∧ (s.isEmpty b = false → t.delivered.get b = s.delivered.get b ++ [(t.ports.get b).rData]
          ∧ t.rings = s.rings.set b
            ⟨(s.ring b).slots, (s.ring b).head, ((s.ring b).tail + 1) % s.cap b⟩))
    ∧ (s.agenda = .rclk b false :: rest →
      step s = .next { s with
        agenda := rest
        ports := s.ports.set b { s.ports.get b with rEmpty := s.isEmpty b, rUdf := false } })

/-! ## Reset -/

/-- 10_state.md R39, 70_reset_and_hazards.md R222: the values the spec gives for reset, for every value of the
parameters, whatever the free values are. -/
def Obligations.ResetLeavesTheSpecifiedValues : Prop :=
  ∀ (p : Params) (epoch : Nat) (s : State), s = State.initial p epoch → p.wf = true →
    (∀ b, (s.ring b).head = 0 ∧ (s.ring b).tail = 0 ∧ s.isEmpty b = true ∧ s.isFull b = false
      ∧ (s.ring b).contents (p.cap b) = [])
    ∧ s.txArmed = false ∧ s.timerArmed = false ∧ s.remainingSteps = 0 ∧ s.seqMode = .idle
    ∧ s.currentPhase = p.resetPhase ∧ s.direction = p.resetDirection ∧ s.previousDirection = p.resetDirection
    ∧ s.tmr = none ∧ s.txOut = [] ∧ s.tmrOut = []

/-- R39: every invariant holds at reset, for every value of the parameters, every schedule and every command stream; in
particular in `State.reset`. -/
def Obligations.InvariantsHoldAtReset : Prop :=
  (∀ (p : Params) (epoch : Nat) (agenda : List Event) (stream : List Byte) (s : State), p.wf = true →
    s = { State.initial p epoch with agenda := agenda, stream := stream } →
    Good s ∧ s.testsOk = true ∧ s.armOk = true ∧ s.txOrderOk = true ∧ s.seqOk = true)
  ∧ Good State.reset

/-- 00_scope.md R8: well-formed parameters meet every condition of R8's list. With malformed ones every operation and
every step is refused (that all are, and that a `MAX_RATE` outside R7's range is malformed as well, is the model's
reading: log 26). -/
def Obligations.MalformedParametersAreRefused : Prop :=
  (∀ p : Params, p.wf = true →
      2 ≤ p.cTx ∧ 2 ≤ p.cRx
        ∧ (∀ i, ((List.range 4).filter fun k => (p.phaseTable.get i).getLsbD k).length = 2)
        ∧ (∀ i, (p.pins.get i).bit ≤ 7)
        ∧ ∀ i j, p.pins.get i = p.pins.get j → i = j)
  ∧ ∀ (s : State) (i : Instr), s.cfg.wf = false → exec i s = .refused .badConfig ∧ step s = .refused .badConfig

/-- R220, R221: the reset input starts a new run from the reset state, whatever was in progress. The model's choice: the
events and the stream still to come are kept (log 27), `InitDone` is 0 again (log 3, log 27), and the draws are those of
the next reset number (log 6). -/
def Obligations.ResetEventStartsANewRun : Prop :=
  ∀ (s : State) (rest : List Event), s.cfg.wf = true → s.agenda = .rst :: rest →
    step s = .next { State.initial s.cfg (s.epoch + 1) with agenda := rest, stream := s.stream }

/-! ## Invariants that every step keeps -/

/-- R22, R61, R8: every step keeps the state well formed: indices in `0 .. C-1`, every slot there, the `IO` map in
canonical form with the four pins, counts and periods in their widths; and no step changes a parameter (R38). -/
def Obligations.StepKeepsTheStateWellFormed : Prop :=
  ∀ s t : State, s.wf = true → step s = .next t → t.wf = true ∧ t.cfg = s.cfg

/-- R22, R71, R102, R127 to R129: every step, under every interleaving the spec admits, keeps the contexts, SPSC, FIFO
order on both buffers, and the truth of the local values of every operation in progress. -/
def Obligations.StepKeepsFifoOrder : Prop :=
  ∀ s t : State, Good s → step s = .next t → Good t

/-- R130, R141 (b), R143, R144: every step keeps the tests that `enqueueMessage`, `onTransmitReady` and
`onReceiveReady` rely on true until they are used. -/
def Obligations.StepKeepsTheTestsTrue : Prop :=
  ∀ s t : State, Good s → s.testsOk = true → step s = .next t → t.testsOk = true

/-- R145: with no direct `RB.WRITE` on `tx`, every step keeps "not empty(tx) implies txArmed == 1" outside the window
W4..A1. -/
def Obligations.StepKeepsTheArmInvariant : Prop :=
  ∀ s t : State, Good s → s.testsOk = true → s.armOk = true → step s = .next t → t.armOk = true

/-- R146: with no direct `RB.READ` on `tx`, every step keeps the bytes read from `tx` equal to `tx_out` and the byte in
flight. -/
def Obligations.StepKeepsTransmitOrder : Prop :=
  ∀ s t : State, Good s → s.testsOk = true → s.txOrderOk = true → step s = .next t → t.txOrderOk = true

/-- R31: every step keeps "steps are left only while the timer is armed", outside the window S2..S6. The premise
`contextsOk` (no mainline operation in the interrupt context) is kept by every step: StepKeepsFifoOrder. -/
def Obligations.StepKeepsTheSequencerInvariant : Prop :=
  ∀ s t : State, s.contextsOk = true → s.seqOk = true → step s = .next t → t.seqOk = true

/-- R190: nothing in this hardware is fatal: from a state that meets the invariant no step ends in a fault. -/
def Obligations.NoStepFaults : Prop :=
  ∀ (s : State) (f : Fault), Good s → step s ≠ .fault f

/-! ## Headline results -/

/-- R127: in every run from reset, under every schedule and every command stream, the bytes read from a buffer are the
bytes written to it, in order, and at most `C - 1` are resident; and R146: with no direct access of `tx`, `tx_out` is a
prefix of the bytes accepted, in order. -/
def Obligations.EveryRunIsFirstInFirstOut : Prop :=
  ∀ (p : Params) (epoch k : Nat) (agenda : List Event) (stream : List Byte) (t : State), p.wf = true →
    Host.Core.run Sys2Proof.core k { State.initial p epoch with agenda := agenda, stream := stream } = .next t →
    (∀ b, t.accepted.get b = t.delivered.get b ++ (t.ring b).contents (p.cap b)
        ∧ (t.ring b).count (p.cap b) ≤ p.cap b - 1)
      ∧ (t.directReadTx = false → ∃ later, t.accepted.tx = t.txOut ++ later)

/-- R128: one `write` of one agent and one `read` of the other on one buffer, in any interleaving of their micro-steps
that runs both to their ends, give the buffers, the results and the error slots of the two whole operations in one of
the two orders. -/
def Obligations.WriteAndReadLinearise : Prop :=
  ∀ (s t : State) (b : BufId) (a : Agent) (v : Byte) (order : List Agent), Good s → Idle s →
    Host.Core.run Sys2Proof.core (order.length + 2)
        { s with agenda := .start (.rbWrite a b v) :: .start (.rbRead (otherAgent a) b) :: order.map .advance }
      = .next t →
    t.main = none → t.irq = [] →
    ∃ u w,
      ((exec (.rbWrite a b v) s = .next u ∧ exec (.rbRead (otherAgent a) b) u = .next w)
        ∨ (exec (.rbRead (otherAgent a) b) s = .next u ∧ exec (.rbWrite a b v) u = .next w))
      ∧ t.rings = w.rings ∧ t.accepted = w.accepted ∧ t.delivered = w.delivered ∧ t.errSlot = w.errSlot
      ∧ ∀ a', t.repliesTo a' = w.repliesTo a'

/-- R120, R200, R201: the meaning of every operation is its micro-steps run with nothing between them: where exec
answers a next state, starting the operation and advancing its agent often enough reaches that very state. For a message
that is held, it is the state in which it is held, which is the model's choice (log 19). -/
def Obligations.MeaningIsItsMicroSteps : Prop :=
  ∀ (i : Instr) (s t : State), s.agenda = [] → exec i s = .next t →
    ∃ k, Host.Core.run Sys2Proof.core (k + 1)
      { s with agenda := .start i :: List.replicate k (.advance (issuer i)) } = .next t
end

