-- ==== Sys2Proof/Laws/State.lean ====
section
/-! SUPPORT. One lemma per field per update of State, so that no later proof unfolds a record update; and what the
containers of Word.lean and Syntax.lean read after a write. -/

namespace Sys2Proof

variable {α : Type}

@[simp] theorem ByBuf.get_tx (x : ByBuf α) : x.get .tx = x.tx := rfl
@[simp] theorem ByBuf.get_rx (x : ByBuf α) : x.get .rx = x.rx := rfl
@[simp] theorem ByBuf.get_set_same (x : ByBuf α) (b : BufId) (v : α) : (x.set b v).get b = v := by
  cases b <;> rfl
theorem ByBuf.get_set_other (x : ByBuf α) {b b' : BufId} (v : α) (h : b' ≠ b) : (x.set b v).get b' = x.get b' := by
  cases b <;> cases b' <;> first | rfl | exact absurd rfl h
@[simp] theorem ByBuf.set_tx_rx (x : ByBuf α) (v : α) : (x.set .tx v).rx = x.rx := rfl
@[simp] theorem ByBuf.set_rx_tx (x : ByBuf α) (v : α) : (x.set .rx v).tx = x.tx := rfl
@[simp] theorem ByBuf.set_tx_tx (x : ByBuf α) (v : α) : (x.set .tx v).tx = v := rfl
@[simp] theorem ByBuf.set_rx_rx (x : ByBuf α) (v : α) : (x.set .rx v).rx = v := rfl
@[simp] theorem ByBuf.set_set (x : ByBuf α) (b : BufId) (v w : α) : (x.set b v).set b w = x.set b w := by
  cases b <;> rfl
@[simp] theorem ByBuf.set_get (x : ByBuf α) (b : BufId) : x.set b (x.get b) = x := by
  cases b <;> rfl
@[simp] theorem ByAgent.get_set_same (x : ByAgent α) (a : Agent) (v : α) : (x.set a v).get a = v := by
  cases a <;> rfl
theorem ByAgent.get_set_other (x : ByAgent α) {a a' : Agent} (v : α) (h : a' ≠ a) : (x.set a v).get a' = x.get a' := by
  cases a <;> cases a' <;> first | rfl | exact absurd rfl h

namespace Machine

variable (s : State)

@[simp] theorem State.ring_setRing_same (b : BufId) (r : Ring) : (s.setRing b r).ring b = r := by
  cases b <;> rfl
theorem State.ring_setRing_other {b b' : BufId} (r : Ring) (h : b' ≠ b) : (s.setRing b r).ring b' = s.ring b' := by
  cases b <;> cases b' <;> first | rfl | exact absurd rfl h

/-! ## setRing -/

@[simp] theorem State.setRing_cfg (b : BufId) (r : Ring) : (s.setRing b r).cfg = s.cfg := rfl
@[simp] theorem State.setRing_epoch (b : BufId) (r : Ring) : (s.setRing b r).epoch = s.epoch := rfl
@[simp] theorem State.setRing_initDone (b : BufId) (r : Ring) : (s.setRing b r).initDone = s.initDone := rfl
@[simp] theorem State.setRing_rings (b : BufId) (r : Ring) : (s.setRing b r).rings = s.rings.set b r := rfl
@[simp] theorem State.setRing_txArmed (b : BufId) (r : Ring) : (s.setRing b r).txArmed = s.txArmed := rfl
@[simp] theorem State.setRing_txReg (b : BufId) (r : Ring) : (s.setRing b r).txReg = s.txReg := rfl
@[simp] theorem State.setRing_rcReg (b : BufId) (r : Ring) : (s.setRing b r).rcReg = s.rcReg := rfl
@[simp] theorem State.setRing_currentPhase (b : BufId) (r : Ring) : (s.setRing b r).currentPhase = s.currentPhase := rfl
@[simp] theorem State.setRing_direction (b : BufId) (r : Ring) : (s.setRing b r).direction = s.direction := rfl
@[simp] theorem State.setRing_previousDirection (b : BufId) (r : Ring) : (s.setRing b r).previousDirection = s.previousDirection := rfl
@[simp] theorem State.setRing_remainingSteps (b : BufId) (r : Ring) : (s.setRing b r).remainingSteps = s.remainingSteps := rfl
@[simp] theorem State.setRing_tickPeriod (b : BufId) (r : Ring) : (s.setRing b r).tickPeriod = s.tickPeriod := rfl
@[simp] theorem State.setRing_timerArmed (b : BufId) (r : Ring) : (s.setRing b r).timerArmed = s.timerArmed := rfl
@[simp] theorem State.setRing_tmr (b : BufId) (r : Ring) : (s.setRing b r).tmr = s.tmr := rfl
@[simp] theorem State.setRing_io (b : BufId) (r : Ring) : (s.setRing b r).io = s.io := rfl
@[simp] theorem State.setRing_txOut (b : BufId) (r : Ring) : (s.setRing b r).txOut = s.txOut := rfl
@[simp] theorem State.setRing_tmrOut (b : BufId) (r : Ring) : (s.setRing b r).tmrOut = s.tmrOut := rfl
@[simp] theorem State.setRing_pinOut (b : BufId) (r : Ring) : (s.setRing b r).pinOut = s.pinOut := rfl
@[simp] theorem State.setRing_replies (b : BufId) (r : Ring) : (s.setRing b r).replies = s.replies := rfl
@[simp] theorem State.setRing_errSlot (b : BufId) (r : Ring) : (s.setRing b r).errSlot = s.errSlot := rfl
@[simp] theorem State.setRing_main (b : BufId) (r : Ring) : (s.setRing b r).main = s.main := rfl
@[simp] theorem State.setRing_irq (b : BufId) (r : Ring) : (s.setRing b r).irq = s.irq := rfl
@[simp] theorem State.setRing_ports (b : BufId) (r : Ring) : (s.setRing b r).ports = s.ports := rfl
@[simp] theorem State.setRing_roles (b : BufId) (r : Ring) : (s.setRing b r).roles = s.roles := rfl
@[simp] theorem State.setRing_directWriteTx (b : BufId) (r : Ring) : (s.setRing b r).directWriteTx = s.directWriteTx := rfl
@[simp] theorem State.setRing_directReadTx (b : BufId) (r : Ring) : (s.setRing b r).directReadTx = s.directReadTx := rfl
@[simp] theorem State.setRing_accepted (b : BufId) (r : Ring) : (s.setRing b r).accepted = s.accepted := rfl
@[simp] theorem State.setRing_delivered (b : BufId) (r : Ring) : (s.setRing b r).delivered = s.delivered := rfl
@[simp] theorem State.setRing_agenda (b : BufId) (r : Ring) : (s.setRing b r).agenda = s.agenda := rfl
@[simp] theorem State.setRing_stream (b : BufId) (r : Ring) : (s.setRing b r).stream = s.stream := rfl

/-! ## publishHead -/

@[simp] theorem State.publishHead_cfg (b : BufId) (h : Nat) (v : Byte) : (s.publishHead b h v).cfg = s.cfg := rfl
@[simp] theorem State.publishHead_epoch (b : BufId) (h : Nat) (v : Byte) : (s.publishHead b h v).epoch = s.epoch := rfl
@[simp] theorem State.publishHead_initDone (b : BufId) (h : Nat) (v : Byte) : (s.publishHead b h v).initDone = s.initDone := rfl
@[simp] theorem State.publishHead_rings (b : BufId) (h : Nat) (v : Byte) : (s.publishHead b h v).rings = s.rings.set b { s.ring b with head := incC (s.cap b) h } := rfl
@[simp] theorem State.publishHead_txArmed (b : BufId) (h : Nat) (v : Byte) : (s.publishHead b h v).txArmed = s.txArmed := rfl
@[simp] theorem State.publishHead_txReg (b : BufId) (h : Nat) (v : Byte) : (s.publishHead b h v).txReg = s.txReg := rfl
@[simp] theorem State.publishHead_rcReg (b : BufId) (h : Nat) (v : Byte) : (s.publishHead b h v).rcReg = s.rcReg := rfl
@[simp] theorem State.publishHead_currentPhase (b : BufId) (h : Nat) (v : Byte) : (s.publishHead b h v).currentPhase = s.currentPhase := rfl
@[simp] theorem State.publishHead_direction (b : BufId) (h : Nat) (v : Byte) : (s.publishHead b h v).direction = s.direction := rfl
@[simp] theorem State.publishHead_previousDirection (b : BufId) (h : Nat) (v : Byte) : (s.publishHead b h v).previousDirection = s.previousDirection := rfl
@[simp] theorem State.publishHead_remainingSteps (b : BufId) (h : Nat) (v : Byte) : (s.publishHead b h v).remainingSteps = s.remainingSteps := rfl
@[simp] theorem State.publishHead_tickPeriod (b : BufId) (h : Nat) (v : Byte) : (s.publishHead b h v).tickPeriod = s.tickPeriod := rfl
@[simp] theorem State.publishHead_timerArmed (b : BufId) (h : Nat) (v : Byte) : (s.publishHead b h v).timerArmed = s.timerArmed := rfl
@[simp] theorem State.publishHead_tmr (b : BufId) (h : Nat) (v : Byte) : (s.publishHead b h v).tmr = s.tmr := rfl
@[simp] theorem State.publishHead_io (b : BufId) (h : Nat) (v : Byte) : (s.publishHead b h v).io = s.io := rfl
@[simp] theorem State.publishHead_txOut (b : BufId) (h : Nat) (v : Byte) : (s.publishHead b h v).txOut = s.txOut := rfl
@[simp] theorem State.publishHead_tmrOut (b : BufId) (h : Nat) (v : Byte) : (s.publishHead b h v).tmrOut = s.tmrOut := rfl
@[simp] theorem State.publishHead_pinOut (b : BufId) (h : Nat) (v : Byte) : (s.publishHead b h v).pinOut = s.pinOut := rfl
@[simp] theorem State.publishHead_replies (b : BufId) (h : Nat) (v : Byte) : (s.publishHead b h v).replies = s.replies := rfl
@[simp] theorem State.publishHead_errSlot (b : BufId) (h : Nat) (v : Byte) : (s.publishHead b h v).errSlot = s.errSlot := rfl
@[simp] theorem State.publishHead_main (b : BufId) (h : Nat) (v : Byte) : (s.publishHead b h v).main = s.main := rfl
@[simp] theorem State.publishHead_irq (b : BufId) (h : Nat) (v : Byte) : (s.publishHead b h v).irq = s.irq := rfl
@[simp] theorem State.publishHead_ports (b : BufId) (h : Nat) (v : Byte) : (s.publishHead b h v).ports = s.ports := rfl
@[simp] theorem State.publishHead_roles (b : BufId) (h : Nat) (v : Byte) : (s.publishHead b h v).roles = s.roles := rfl
@[simp] theorem State.publishHead_directWriteTx (b : BufId) (h : Nat) (v : Byte) : (s.publishHead b h v).directWriteTx = s.directWriteTx := rfl
@[simp] theorem State.publishHead_directReadTx (b : BufId) (h : Nat) (v : Byte) : (s.publishHead b h v).directReadTx = s.directReadTx := rfl
@[simp] theorem State.publishHead_accepted (b : BufId) (h : Nat) (v : Byte) : (s.publishHead b h v).accepted = s.accepted.set b (s.accepted.get b ++ [v]) := rfl
@[simp] theorem State.publishHead_delivered (b : BufId) (h : Nat) (v : Byte) : (s.publishHead b h v).delivered = s.delivered := rfl
@[simp] theorem State.publishHead_agenda (b : BufId) (h : Nat) (v : Byte) : (s.publishHead b h v).agenda = s.agenda := rfl
@[simp] theorem State.publishHead_stream (b : BufId) (h : Nat) (v : Byte) : (s.publishHead b h v).stream = s.stream := rfl

/-! ## releaseTail -/

@[simp] theorem State.releaseTail_cfg (b : BufId) (t : Nat) (v : Byte) : (s.releaseTail b t v).cfg = s.cfg := rfl
@[simp] theorem State.releaseTail_epoch (b : BufId) (t : Nat) (v : Byte) : (s.releaseTail b t v).epoch = s.epoch := rfl
@[simp] theorem State.releaseTail_initDone (b : BufId) (t : Nat) (v : Byte) : (s.releaseTail b t v).initDone = s.initDone := rfl
@[simp] theorem State.releaseTail_rings (b : BufId) (t : Nat) (v : Byte) : (s.releaseTail b t v).rings = s.rings.set b { s.ring b with tail := incC (s.cap b) t } := rfl
@[simp] theorem State.releaseTail_txArmed (b : BufId) (t : Nat) (v : Byte) : (s.releaseTail b t v).txArmed = s.txArmed := rfl
@[simp] theorem State.releaseTail_txReg (b : BufId) (t : Nat) (v : Byte) : (s.releaseTail b t v).txReg = s.txReg := rfl
@[simp] theorem State.releaseTail_rcReg (b : BufId) (t : Nat) (v : Byte) : (s.releaseTail b t v).rcReg = s.rcReg := rfl
@[simp] theorem State.releaseTail_currentPhase (b : BufId) (t : Nat) (v : Byte) : (s.releaseTail b t v).currentPhase = s.currentPhase := rfl
@[simp] theorem State.releaseTail_direction (b : BufId) (t : Nat) (v : Byte) : (s.releaseTail b t v).direction = s.direction := rfl
@[simp] theorem State.releaseTail_previousDirection (b : BufId) (t : Nat) (v : Byte) : (s.releaseTail b t v).previousDirection = s.previousDirection := rfl
@[simp] theorem State.releaseTail_remainingSteps (b : BufId) (t : Nat) (v : Byte) : (s.releaseTail b t v).remainingSteps = s.remainingSteps := rfl
@[simp] theorem State.releaseTail_tickPeriod (b : BufId) (t : Nat) (v : Byte) : (s.releaseTail b t v).tickPeriod = s.tickPeriod := rfl
@[simp] theorem State.releaseTail_timerArmed (b : BufId) (t : Nat) (v : Byte) : (s.releaseTail b t v).timerArmed = s.timerArmed := rfl
@[simp] theorem State.releaseTail_tmr (b : BufId) (t : Nat) (v : Byte) : (s.releaseTail b t v).tmr = s.tmr := rfl
@[simp] theorem State.releaseTail_io (b : BufId) (t : Nat) (v : Byte) : (s.releaseTail b t v).io = s.io := rfl
@[simp] theorem State.releaseTail_txOut (b : BufId) (t : Nat) (v : Byte) : (s.releaseTail b t v).txOut = s.txOut := rfl
@[simp] theorem State.releaseTail_tmrOut (b : BufId) (t : Nat) (v : Byte) : (s.releaseTail b t v).tmrOut = s.tmrOut := rfl
@[simp] theorem State.releaseTail_pinOut (b : BufId) (t : Nat) (v : Byte) : (s.releaseTail b t v).pinOut = s.pinOut := rfl
@[simp] theorem State.releaseTail_replies (b : BufId) (t : Nat) (v : Byte) : (s.releaseTail b t v).replies = s.replies := rfl
@[simp] theorem State.releaseTail_errSlot (b : BufId) (t : Nat) (v : Byte) : (s.releaseTail b t v).errSlot = s.errSlot := rfl
@[simp] theorem State.releaseTail_main (b : BufId) (t : Nat) (v : Byte) : (s.releaseTail b t v).main = s.main := rfl
@[simp] theorem State.releaseTail_irq (b : BufId) (t : Nat) (v : Byte) : (s.releaseTail b t v).irq = s.irq := rfl
@[simp] theorem State.releaseTail_ports (b : BufId) (t : Nat) (v : Byte) : (s.releaseTail b t v).ports = s.ports := rfl
@[simp] theorem State.releaseTail_roles (b : BufId) (t : Nat) (v : Byte) : (s.releaseTail b t v).roles = s.roles := rfl
@[simp] theorem State.releaseTail_directWriteTx (b : BufId) (t : Nat) (v : Byte) : (s.releaseTail b t v).directWriteTx = s.directWriteTx := rfl
@[simp] theorem State.releaseTail_directReadTx (b : BufId) (t : Nat) (v : Byte) : (s.releaseTail b t v).directReadTx = s.directReadTx := rfl
@[simp] theorem State.releaseTail_accepted (b : BufId) (t : Nat) (v : Byte) : (s.releaseTail b t v).accepted = s.accepted := rfl
@[simp] theorem State.releaseTail_delivered (b : BufId) (t : Nat) (v : Byte) : (s.releaseTail b t v).delivered = s.delivered.set b (s.delivered.get b ++ [v]) := rfl
@[simp] theorem State.releaseTail_agenda (b : BufId) (t : Nat) (v : Byte) : (s.releaseTail b t v).agenda = s.agenda := rfl
@[simp] theorem State.releaseTail_stream (b : BufId) (t : Nat) (v : Byte) : (s.releaseTail b t v).stream = s.stream := rfl

/-! ## reply -/

@[simp] theorem State.reply_cfg (a : Agent) (r : Reply) : (s.reply a r).cfg = s.cfg := rfl
@[simp] theorem State.reply_epoch (a : Agent) (r : Reply) : (s.reply a r).epoch = s.epoch := rfl
@[simp] theorem State.reply_initDone (a : Agent) (r : Reply) : (s.reply a r).initDone = s.initDone := rfl
@[simp] theorem State.reply_rings (a : Agent) (r : Reply) : (s.reply a r).rings = s.rings := rfl
@[simp] theorem State.reply_txArmed (a : Agent) (r : Reply) : (s.reply a r).txArmed = s.txArmed := rfl
@[simp] theorem State.reply_txReg (a : Agent) (r : Reply) : (s.reply a r).txReg = s.txReg := rfl
@[simp] theorem State.reply_rcReg (a : Agent) (r : Reply) : (s.reply a r).rcReg = s.rcReg := rfl
@[simp] theorem State.reply_currentPhase (a : Agent) (r : Reply) : (s.reply a r).currentPhase = s.currentPhase := rfl
@[simp] theorem State.reply_direction (a : Agent) (r : Reply) : (s.reply a r).direction = s.direction := rfl
@[simp] theorem State.reply_previousDirection (a : Agent) (r : Reply) : (s.reply a r).previousDirection = s.previousDirection := rfl
@[simp] theorem State.reply_remainingSteps (a : Agent) (r : Reply) : (s.reply a r).remainingSteps = s.remainingSteps := rfl
@[simp] theorem State.reply_tickPeriod (a : Agent) (r : Reply) : (s.reply a r).tickPeriod = s.tickPeriod := rfl
@[simp] theorem State.reply_timerArmed (a : Agent) (r : Reply) : (s.reply a r).timerArmed = s.timerArmed := rfl
@[simp] theorem State.reply_tmr (a : Agent) (r : Reply) : (s.reply a r).tmr = s.tmr := rfl
@[simp] theorem State.reply_io (a : Agent) (r : Reply) : (s.reply a r).io = s.io := rfl
@[simp] theorem State.reply_txOut (a : Agent) (r : Reply) : (s.reply a r).txOut = s.txOut := rfl
@[simp] theorem State.reply_tmrOut (a : Agent) (r : Reply) : (s.reply a r).tmrOut = s.tmrOut := rfl
@[simp] theorem State.reply_pinOut (a : Agent) (r : Reply) : (s.reply a r).pinOut = s.pinOut := rfl
@[simp] theorem State.reply_replies (a : Agent) (r : Reply) : (s.reply a r).replies = s.replies ++ [(a, r)] := rfl
@[simp] theorem State.reply_errSlot (a : Agent) (r : Reply) : (s.reply a r).errSlot = s.errSlot := rfl
@[simp] theorem State.reply_main (a : Agent) (r : Reply) : (s.reply a r).main = s.main := rfl
@[simp] theorem State.reply_irq (a : Agent) (r : Reply) : (s.reply a r).irq = s.irq := rfl
@[simp] theorem State.reply_ports (a : Agent) (r : Reply) : (s.reply a r).ports = s.ports := rfl
@[simp] theorem State.reply_roles (a : Agent) (r : Reply) : (s.reply a r).roles = s.roles := rfl
@[simp] theorem State.reply_directWriteTx (a : Agent) (r : Reply) : (s.reply a r).directWriteTx = s.directWriteTx := rfl
@[simp] theorem State.reply_directReadTx (a : Agent) (r : Reply) : (s.reply a r).directReadTx = s.directReadTx := rfl
@[simp] theorem State.reply_accepted (a : Agent) (r : Reply) : (s.reply a r).accepted = s.accepted := rfl
@[simp] theorem State.reply_delivered (a : Agent) (r : Reply) : (s.reply a r).delivered = s.delivered := rfl
@[simp] theorem State.reply_agenda (a : Agent) (r : Reply) : (s.reply a r).agenda = s.agenda := rfl
@[simp] theorem State.reply_stream (a : Agent) (r : Reply) : (s.reply a r).stream = s.stream := rfl

/-! ## raise -/

@[simp] theorem State.raise_cfg (a : Agent) (code : BitVec 2) : (s.raise a code).cfg = s.cfg := rfl
@[simp] theorem State.raise_epoch (a : Agent) (code : BitVec 2) : (s.raise a code).epoch = s.epoch := rfl
@[simp] theorem State.raise_initDone (a : Agent) (code : BitVec 2) : (s.raise a code).initDone = s.initDone := rfl
@[simp] theorem State.raise_rings (a : Agent) (code : BitVec 2) : (s.raise a code).rings = s.rings := rfl
@[simp] theorem State.raise_txArmed (a : Agent) (code : BitVec 2) : (s.raise a code).txArmed = s.txArmed := rfl
@[simp] theorem State.raise_txReg (a : Agent) (code : BitVec 2) : (s.raise a code).txReg = s.txReg := rfl
@[simp] theorem State.raise_rcReg (a : Agent) (code : BitVec 2) : (s.raise a code).rcReg = s.rcReg := rfl
@[simp] theorem State.raise_currentPhase (a : Agent) (code : BitVec 2) : (s.raise a code).currentPhase = s.currentPhase := rfl
@[simp] theorem State.raise_direction (a : Agent) (code : BitVec 2) : (s.raise a code).direction = s.direction := rfl
@[simp] theorem State.raise_previousDirection (a : Agent) (code : BitVec 2) : (s.raise a code).previousDirection = s.previousDirection := rfl
@[simp] theorem State.raise_remainingSteps (a : Agent) (code : BitVec 2) : (s.raise a code).remainingSteps = s.remainingSteps := rfl
@[simp] theorem State.raise_tickPeriod (a : Agent) (code : BitVec 2) : (s.raise a code).tickPeriod = s.tickPeriod := rfl
@[simp] theorem State.raise_timerArmed (a : Agent) (code : BitVec 2) : (s.raise a code).timerArmed = s.timerArmed := rfl
@[simp] theorem State.raise_tmr (a : Agent) (code : BitVec 2) : (s.raise a code).tmr = s.tmr := rfl
@[simp] theorem State.raise_io (a : Agent) (code : BitVec 2) : (s.raise a code).io = s.io := rfl
@[simp] theorem State.raise_txOut (a : Agent) (code : BitVec 2) : (s.raise a code).txOut = s.txOut := rfl
@[simp] theorem State.raise_tmrOut (a : Agent) (code : BitVec 2) : (s.raise a code).tmrOut = s.tmrOut := rfl
@[simp] theorem State.raise_pinOut (a : Agent) (code : BitVec 2) : (s.raise a code).pinOut = s.pinOut := rfl
@[simp] theorem State.raise_replies (a : Agent) (code : BitVec 2) : (s.raise a code).replies = s.replies := rfl
@[simp] theorem State.raise_errSlot (a : Agent) (code : BitVec 2) : (s.raise a code).errSlot = s.errSlot.set a code := rfl
@[simp] theorem State.raise_main (a : Agent) (code : BitVec 2) : (s.raise a code).main = s.main := rfl
@[simp] theorem State.raise_irq (a : Agent) (code : BitVec 2) : (s.raise a code).irq = s.irq := rfl
@[simp] theorem State.raise_ports (a : Agent) (code : BitVec 2) : (s.raise a code).ports = s.ports := rfl
@[simp] theorem State.raise_roles (a : Agent) (code : BitVec 2) : (s.raise a code).roles = s.roles := rfl
@[simp] theorem State.raise_directWriteTx (a : Agent) (code : BitVec 2) : (s.raise a code).directWriteTx = s.directWriteTx := rfl
@[simp] theorem State.raise_directReadTx (a : Agent) (code : BitVec 2) : (s.raise a code).directReadTx = s.directReadTx := rfl
@[simp] theorem State.raise_accepted (a : Agent) (code : BitVec 2) : (s.raise a code).accepted = s.accepted := rfl
@[simp] theorem State.raise_delivered (a : Agent) (code : BitVec 2) : (s.raise a code).delivered = s.delivered := rfl
@[simp] theorem State.raise_agenda (a : Agent) (code : BitVec 2) : (s.raise a code).agenda = s.agenda := rfl
@[simp] theorem State.raise_stream (a : Agent) (code : BitVec 2) : (s.raise a code).stream = s.stream := rfl

/-! ## armTx -/

@[simp] theorem State.armTx_cfg : (s.armTx).cfg = s.cfg := rfl
@[simp] theorem State.armTx_epoch : (s.armTx).epoch = s.epoch := rfl
@[simp] theorem State.armTx_initDone : (s.armTx).initDone = s.initDone := rfl
@[simp] theorem State.armTx_rings : (s.armTx).rings = s.rings := rfl
@[simp] theorem State.armTx_txArmed : (s.armTx).txArmed = true := rfl
@[simp] theorem State.armTx_txReg : (s.armTx).txReg = s.txReg := rfl
@[simp] theorem State.armTx_rcReg : (s.armTx).rcReg = s.rcReg := rfl
@[simp] theorem State.armTx_currentPhase : (s.armTx).currentPhase = s.currentPhase := rfl
@[simp] theorem State.armTx_direction : (s.armTx).direction = s.direction := rfl
@[simp] theorem State.armTx_previousDirection : (s.armTx).previousDirection = s.previousDirection := rfl
@[simp] theorem State.armTx_remainingSteps : (s.armTx).remainingSteps = s.remainingSteps := rfl
@[simp] theorem State.armTx_tickPeriod : (s.armTx).tickPeriod = s.tickPeriod := rfl
@[simp] theorem State.armTx_timerArmed : (s.armTx).timerArmed = s.timerArmed := rfl
@[simp] theorem State.armTx_tmr : (s.armTx).tmr = s.tmr := rfl
@[simp] theorem State.armTx_io : (s.armTx).io = s.io := rfl
@[simp] theorem State.armTx_txOut : (s.armTx).txOut = s.txOut := rfl
@[simp] theorem State.armTx_tmrOut : (s.armTx).tmrOut = s.tmrOut := rfl
@[simp] theorem State.armTx_pinOut : (s.armTx).pinOut = s.pinOut := rfl
@[simp] theorem State.armTx_replies : (s.armTx).replies = s.replies := rfl
@[simp] theorem State.armTx_errSlot : (s.armTx).errSlot = s.errSlot := rfl
@[simp] theorem State.armTx_main : (s.armTx).main = s.main := rfl
@[simp] theorem State.armTx_irq : (s.armTx).irq = s.irq := rfl
@[simp] theorem State.armTx_ports : (s.armTx).ports = s.ports := rfl
@[simp] theorem State.armTx_roles : (s.armTx).roles = s.roles := rfl
@[simp] theorem State.armTx_directWriteTx : (s.armTx).directWriteTx = s.directWriteTx := rfl
@[simp] theorem State.armTx_directReadTx : (s.armTx).directReadTx = s.directReadTx := rfl
@[simp] theorem State.armTx_accepted : (s.armTx).accepted = s.accepted := rfl
@[simp] theorem State.armTx_delivered : (s.armTx).delivered = s.delivered := rfl
@[simp] theorem State.armTx_agenda : (s.armTx).agenda = s.agenda := rfl
@[simp] theorem State.armTx_stream : (s.armTx).stream = s.stream := rfl

/-! ## disarmTx -/

@[simp] theorem State.disarmTx_cfg : (s.disarmTx).cfg = s.cfg := rfl
@[simp] theorem State.disarmTx_epoch : (s.disarmTx).epoch = s.epoch := rfl
@[simp] theorem State.disarmTx_initDone : (s.disarmTx).initDone = s.initDone := rfl
@[simp] theorem State.disarmTx_rings : (s.disarmTx).rings = s.rings := rfl
@[simp] theorem State.disarmTx_txArmed : (s.disarmTx).txArmed = false := rfl
@[simp] theorem State.disarmTx_txReg : (s.disarmTx).txReg = s.txReg := rfl
@[simp] theorem State.disarmTx_rcReg : (s.disarmTx).rcReg = s.rcReg := rfl
@[simp] theorem State.disarmTx_currentPhase : (s.disarmTx).currentPhase = s.currentPhase := rfl
@[simp] theorem State.disarmTx_direction : (s.disarmTx).direction = s.direction := rfl
@[simp] theorem State.disarmTx_previousDirection : (s.disarmTx).previousDirection = s.previousDirection := rfl
@[simp] theorem State.disarmTx_remainingSteps : (s.disarmTx).remainingSteps = s.remainingSteps := rfl
@[simp] theorem State.disarmTx_tickPeriod : (s.disarmTx).tickPeriod = s.tickPeriod := rfl
@[simp] theorem State.disarmTx_timerArmed : (s.disarmTx).timerArmed = s.timerArmed := rfl
@[simp] theorem State.disarmTx_tmr : (s.disarmTx).tmr = s.tmr := rfl
@[simp] theorem State.disarmTx_io : (s.disarmTx).io = s.io := rfl
@[simp] theorem State.disarmTx_txOut : (s.disarmTx).txOut = s.txOut := rfl
@[simp] theorem State.disarmTx_tmrOut : (s.disarmTx).tmrOut = s.tmrOut := rfl
@[simp] theorem State.disarmTx_pinOut : (s.disarmTx).pinOut = s.pinOut := rfl
@[simp] theorem State.disarmTx_replies : (s.disarmTx).replies = s.replies := rfl
@[simp] theorem State.disarmTx_errSlot : (s.disarmTx).errSlot = s.errSlot := rfl
@[simp] theorem State.disarmTx_main : (s.disarmTx).main = s.main := rfl
@[simp] theorem State.disarmTx_irq : (s.disarmTx).irq = s.irq := rfl
@[simp] theorem State.disarmTx_ports : (s.disarmTx).ports = s.ports := rfl
@[simp] theorem State.disarmTx_roles : (s.disarmTx).roles = s.roles := rfl
@[simp] theorem State.disarmTx_directWriteTx : (s.disarmTx).directWriteTx = s.directWriteTx := rfl
@[simp] theorem State.disarmTx_directReadTx : (s.disarmTx).directReadTx = s.directReadTx := rfl
@[simp] theorem State.disarmTx_accepted : (s.disarmTx).accepted = s.accepted := rfl
@[simp] theorem State.disarmTx_delivered : (s.disarmTx).delivered = s.delivered := rfl
@[simp] theorem State.disarmTx_agenda : (s.disarmTx).agenda = s.agenda := rfl
@[simp] theorem State.disarmTx_stream : (s.disarmTx).stream = s.stream := rfl

/-! ## transmit -/

@[simp] theorem State.transmit_cfg (v : Byte) : (s.transmit v).cfg = s.cfg := rfl
@[simp] theorem State.transmit_epoch (v : Byte) : (s.transmit v).epoch = s.epoch := rfl
@[simp] theorem State.transmit_initDone (v : Byte) : (s.transmit v).initDone = s.initDone := rfl
@[simp] theorem State.transmit_rings (v : Byte) : (s.transmit v).rings = s.rings := rfl
@[simp] theorem State.transmit_txArmed (v : Byte) : (s.transmit v).txArmed = s.txArmed := rfl
@[simp] theorem State.transmit_txReg (v : Byte) : (s.transmit v).txReg = v := rfl
@[simp] theorem State.transmit_rcReg (v : Byte) : (s.transmit v).rcReg = s.rcReg := rfl
@[simp] theorem State.transmit_currentPhase (v : Byte) : (s.transmit v).currentPhase = s.currentPhase := rfl
@[simp] theorem State.transmit_direction (v : Byte) : (s.transmit v).direction = s.direction := rfl
@[simp] theorem State.transmit_previousDirection (v : Byte) : (s.transmit v).previousDirection = s.previousDirection := rfl
@[simp] theorem State.transmit_remainingSteps (v : Byte) : (s.transmit v).remainingSteps = s.remainingSteps := rfl
@[simp] theorem State.transmit_tickPeriod (v : Byte) : (s.transmit v).tickPeriod = s.tickPeriod := rfl
@[simp] theorem State.transmit_timerArmed (v : Byte) : (s.transmit v).timerArmed = s.timerArmed := rfl
@[simp] theorem State.transmit_tmr (v : Byte) : (s.transmit v).tmr = s.tmr := rfl
@[simp] theorem State.transmit_io (v : Byte) : (s.transmit v).io = s.io := rfl
@[simp] theorem State.transmit_txOut (v : Byte) : (s.transmit v).txOut = s.txOut ++ [v] := rfl
@[simp] theorem State.transmit_tmrOut (v : Byte) : (s.transmit v).tmrOut = s.tmrOut := rfl
@[simp] theorem State.transmit_pinOut (v : Byte) : (s.transmit v).pinOut = s.pinOut := rfl
@[simp] theorem State.transmit_replies (v : Byte) : (s.transmit v).replies = s.replies := rfl
@[simp] theorem State.transmit_errSlot (v : Byte) : (s.transmit v).errSlot = s.errSlot := rfl
@[simp] theorem State.transmit_main (v : Byte) : (s.transmit v).main = s.main := rfl
@[simp] theorem State.transmit_irq (v : Byte) : (s.transmit v).irq = s.irq := rfl
@[simp] theorem State.transmit_ports (v : Byte) : (s.transmit v).ports = s.ports := rfl
@[simp] theorem State.transmit_roles (v : Byte) : (s.transmit v).roles = s.roles := rfl
@[simp] theorem State.transmit_directWriteTx (v : Byte) : (s.transmit v).directWriteTx = s.directWriteTx := rfl
@[simp] theorem State.transmit_directReadTx (v : Byte) : (s.transmit v).directReadTx = s.directReadTx := rfl
@[simp] theorem State.transmit_accepted (v : Byte) : (s.transmit v).accepted = s.accepted := rfl
@[simp] theorem State.transmit_delivered (v : Byte) : (s.transmit v).delivered = s.delivered := rfl
@[simp] theorem State.transmit_agenda (v : Byte) : (s.transmit v).agenda = s.agenda := rfl
@[simp] theorem State.transmit_stream (v : Byte) : (s.transmit v).stream = s.stream := rfl

/-! ## presentByte -/

@[simp] theorem State.presentByte_cfg (r : Byte) : (s.presentByte r).cfg = s.cfg := rfl
@[simp] theorem State.presentByte_epoch (r : Byte) : (s.presentByte r).epoch = s.epoch := rfl
@[simp] theorem State.presentByte_initDone (r : Byte) : (s.presentByte r).initDone = s.initDone := rfl
@[simp] theorem State.presentByte_rings (r : Byte) : (s.presentByte r).rings = s.rings := rfl
@[simp] theorem State.presentByte_txArmed (r : Byte) : (s.presentByte r).txArmed = s.txArmed := rfl
@[simp] theorem State.presentByte_txReg (r : Byte) : (s.presentByte r).txReg = s.txReg := rfl
@[simp] theorem State.presentByte_rcReg (r : Byte) : (s.presentByte r).rcReg = some r := rfl
@[simp] theorem State.presentByte_currentPhase (r : Byte) : (s.presentByte r).currentPhase = s.currentPhase := rfl
@[simp] theorem State.presentByte_direction (r : Byte) : (s.presentByte r).direction = s.direction := rfl
@[simp] theorem State.presentByte_previousDirection (r : Byte) : (s.presentByte r).previousDirection = s.previousDirection := rfl
@[simp] theorem State.presentByte_remainingSteps (r : Byte) : (s.presentByte r).remainingSteps = s.remainingSteps := rfl
@[simp] theorem State.presentByte_tickPeriod (r : Byte) : (s.presentByte r).tickPeriod = s.tickPeriod := rfl
@[simp] theorem State.presentByte_timerArmed (r : Byte) : (s.presentByte r).timerArmed = s.timerArmed := rfl
@[simp] theorem State.presentByte_tmr (r : Byte) : (s.presentByte r).tmr = s.tmr := rfl
@[simp] theorem State.presentByte_io (r : Byte) : (s.presentByte r).io = s.io := rfl
@[simp] theorem State.presentByte_txOut (r : Byte) : (s.presentByte r).txOut = s.txOut := rfl
@[simp] theorem State.presentByte_tmrOut (r : Byte) : (s.presentByte r).tmrOut = s.tmrOut := rfl
@[simp] theorem State.presentByte_pinOut (r : Byte) : (s.presentByte r).pinOut = s.pinOut := rfl
@[simp] theorem State.presentByte_replies (r : Byte) : (s.presentByte r).replies = s.replies := rfl
@[simp] theorem State.presentByte_errSlot (r : Byte) : (s.presentByte r).errSlot = s.errSlot := rfl
@[simp] theorem State.presentByte_main (r : Byte) : (s.presentByte r).main = s.main := rfl
@[simp] theorem State.presentByte_irq (r : Byte) : (s.presentByte r).irq = s.irq := rfl
@[simp] theorem State.presentByte_ports (r : Byte) : (s.presentByte r).ports = s.ports := rfl
@[simp] theorem State.presentByte_roles (r : Byte) : (s.presentByte r).roles = s.roles := rfl
@[simp] theorem State.presentByte_directWriteTx (r : Byte) : (s.presentByte r).directWriteTx = s.directWriteTx := rfl
@[simp] theorem State.presentByte_directReadTx (r : Byte) : (s.presentByte r).directReadTx = s.directReadTx := rfl
@[simp] theorem State.presentByte_accepted (r : Byte) : (s.presentByte r).accepted = s.accepted := rfl
@[simp] theorem State.presentByte_delivered (r : Byte) : (s.presentByte r).delivered = s.delivered := rfl
@[simp] theorem State.presentByte_agenda (r : Byte) : (s.presentByte r).agenda = s.agenda := rfl
@[simp] theorem State.presentByte_stream (r : Byte) : (s.presentByte r).stream = s.stream := rfl

/-! ## showPins -/

@[simp] theorem State.showPins_cfg : (s.showPins).cfg = s.cfg := rfl
@[simp] theorem State.showPins_epoch : (s.showPins).epoch = s.epoch := rfl
@[simp] theorem State.showPins_initDone : (s.showPins).initDone = s.initDone := rfl
@[simp] theorem State.showPins_rings : (s.showPins).rings = s.rings := rfl
@[simp] theorem State.showPins_txArmed : (s.showPins).txArmed = s.txArmed := rfl
@[simp] theorem State.showPins_txReg : (s.showPins).txReg = s.txReg := rfl
@[simp] theorem State.showPins_rcReg : (s.showPins).rcReg = s.rcReg := rfl
@[simp] theorem State.showPins_currentPhase : (s.showPins).currentPhase = s.currentPhase := rfl
@[simp] theorem State.showPins_direction : (s.showPins).direction = s.direction := rfl
@[simp] theorem State.showPins_previousDirection : (s.showPins).previousDirection = s.previousDirection := rfl
@[simp] theorem State.showPins_remainingSteps : (s.showPins).remainingSteps = s.remainingSteps := rfl
@[simp] theorem State.showPins_tickPeriod : (s.showPins).tickPeriod = s.tickPeriod := rfl
@[simp] theorem State.showPins_timerArmed : (s.showPins).timerArmed = s.timerArmed := rfl
@[simp] theorem State.showPins_tmr : (s.showPins).tmr = s.tmr := rfl
@[simp] theorem State.showPins_io : (s.showPins).io = s.io := rfl
@[simp] theorem State.showPins_txOut : (s.showPins).txOut = s.txOut := rfl
@[simp] theorem State.showPins_tmrOut : (s.showPins).tmrOut = s.tmrOut := rfl
@[simp] theorem State.showPins_pinOut : (s.showPins).pinOut = s.pinOut ++ [s.pinLevels] := rfl
@[simp] theorem State.showPins_replies : (s.showPins).replies = s.replies := rfl
@[simp] theorem State.showPins_errSlot : (s.showPins).errSlot = s.errSlot := rfl
@[simp] theorem State.showPins_main : (s.showPins).main = s.main := rfl
@[simp] theorem State.showPins_irq : (s.showPins).irq = s.irq := rfl
@[simp] theorem State.showPins_ports : (s.showPins).ports = s.ports := rfl
@[simp] theorem State.showPins_roles : (s.showPins).roles = s.roles := rfl
@[simp] theorem State.showPins_directWriteTx : (s.showPins).directWriteTx = s.directWriteTx := rfl
@[simp] theorem State.showPins_directReadTx : (s.showPins).directReadTx = s.directReadTx := rfl
@[simp] theorem State.showPins_accepted : (s.showPins).accepted = s.accepted := rfl
@[simp] theorem State.showPins_delivered : (s.showPins).delivered = s.delivered := rfl
@[simp] theorem State.showPins_agenda : (s.showPins).agenda = s.agenda := rfl
@[simp] theorem State.showPins_stream : (s.showPins).stream = s.stream := rfl

/-! ## writeTmr -/

@[simp] theorem State.writeTmr_cfg (v : Nat) : (s.writeTmr v).cfg = s.cfg := rfl
@[simp] theorem State.writeTmr_epoch (v : Nat) : (s.writeTmr v).epoch = s.epoch := rfl
@[simp] theorem State.writeTmr_initDone (v : Nat) : (s.writeTmr v).initDone = s.initDone := rfl
@[simp] theorem State.writeTmr_rings (v : Nat) : (s.writeTmr v).rings = s.rings := rfl
@[simp] theorem State.writeTmr_txArmed (v : Nat) : (s.writeTmr v).txArmed = s.txArmed := rfl
@[simp] theorem State.writeTmr_txReg (v : Nat) : (s.writeTmr v).txReg = s.txReg := rfl
@[simp] theorem State.writeTmr_rcReg (v : Nat) : (s.writeTmr v).rcReg = s.rcReg := rfl
@[simp] theorem State.writeTmr_currentPhase (v : Nat) : (s.writeTmr v).currentPhase = s.currentPhase := rfl
@[simp] theorem State.writeTmr_direction (v : Nat) : (s.writeTmr v).direction = s.direction := rfl
@[simp] theorem State.writeTmr_previousDirection (v : Nat) : (s.writeTmr v).previousDirection = s.previousDirection := rfl
@[simp] theorem State.writeTmr_remainingSteps (v : Nat) : (s.writeTmr v).remainingSteps = s.remainingSteps := rfl
@[simp] theorem State.writeTmr_tickPeriod (v : Nat) : (s.writeTmr v).tickPeriod = s.tickPeriod := rfl
@[simp] theorem State.writeTmr_timerArmed (v : Nat) : (s.writeTmr v).timerArmed = s.timerArmed := rfl
@[simp] theorem State.writeTmr_tmr (v : Nat) : (s.writeTmr v).tmr = some v := rfl
@[simp] theorem State.writeTmr_io (v : Nat) : (s.writeTmr v).io = s.io := rfl
@[simp] theorem State.writeTmr_txOut (v : Nat) : (s.writeTmr v).txOut = s.txOut := rfl
@[simp] theorem State.writeTmr_tmrOut (v : Nat) : (s.writeTmr v).tmrOut = s.tmrOut ++ [v] := rfl
@[simp] theorem State.writeTmr_pinOut (v : Nat) : (s.writeTmr v).pinOut = s.pinOut := rfl
@[simp] theorem State.writeTmr_replies (v : Nat) : (s.writeTmr v).replies = s.replies := rfl
@[simp] theorem State.writeTmr_errSlot (v : Nat) : (s.writeTmr v).errSlot = s.errSlot := rfl
@[simp] theorem State.writeTmr_main (v : Nat) : (s.writeTmr v).main = s.main := rfl
@[simp] theorem State.writeTmr_irq (v : Nat) : (s.writeTmr v).irq = s.irq := rfl
@[simp] theorem State.writeTmr_ports (v : Nat) : (s.writeTmr v).ports = s.ports := rfl
@[simp] theorem State.writeTmr_roles (v : Nat) : (s.writeTmr v).roles = s.roles := rfl
@[simp] theorem State.writeTmr_directWriteTx (v : Nat) : (s.writeTmr v).directWriteTx = s.directWriteTx := rfl
@[simp] theorem State.writeTmr_directReadTx (v : Nat) : (s.writeTmr v).directReadTx = s.directReadTx := rfl
@[simp] theorem State.writeTmr_accepted (v : Nat) : (s.writeTmr v).accepted = s.accepted := rfl
@[simp] theorem State.writeTmr_delivered (v : Nat) : (s.writeTmr v).delivered = s.delivered := rfl
@[simp] theorem State.writeTmr_agenda (v : Nat) : (s.writeTmr v).agenda = s.agenda := rfl
@[simp] theorem State.writeTmr_stream (v : Nat) : (s.writeTmr v).stream = s.stream := rfl

/-! ## startS1 -/

@[simp] theorem State.startS1_cfg : (s.startS1).cfg = s.cfg := rfl
@[simp] theorem State.startS1_epoch : (s.startS1).epoch = s.epoch := rfl
@[simp] theorem State.startS1_initDone : (s.startS1).initDone = s.initDone := rfl
@[simp] theorem State.startS1_rings : (s.startS1).rings = s.rings := rfl
@[simp] theorem State.startS1_txArmed : (s.startS1).txArmed = s.txArmed := rfl
@[simp] theorem State.startS1_txReg : (s.startS1).txReg = s.txReg := rfl
@[simp] theorem State.startS1_rcReg : (s.startS1).rcReg = s.rcReg := rfl
@[simp] theorem State.startS1_currentPhase : (s.startS1).currentPhase = s.currentPhase := rfl
@[simp] theorem State.startS1_direction : (s.startS1).direction = s.direction := rfl
@[simp] theorem State.startS1_previousDirection : (s.startS1).previousDirection = s.direction := rfl
@[simp] theorem State.startS1_remainingSteps : (s.startS1).remainingSteps = s.remainingSteps := rfl
@[simp] theorem State.startS1_tickPeriod : (s.startS1).tickPeriod = s.tickPeriod := rfl
@[simp] theorem State.startS1_timerArmed : (s.startS1).timerArmed = s.timerArmed := rfl
@[simp] theorem State.startS1_tmr : (s.startS1).tmr = s.tmr := rfl
@[simp] theorem State.startS1_io : (s.startS1).io = s.io := rfl
@[simp] theorem State.startS1_txOut : (s.startS1).txOut = s.txOut := rfl
@[simp] theorem State.startS1_tmrOut : (s.startS1).tmrOut = s.tmrOut := rfl
@[simp] theorem State.startS1_pinOut : (s.startS1).pinOut = s.pinOut := rfl
@[simp] theorem State.startS1_replies : (s.startS1).replies = s.replies := rfl
@[simp] theorem State.startS1_errSlot : (s.startS1).errSlot = s.errSlot := rfl
@[simp] theorem State.startS1_main : (s.startS1).main = s.main := rfl
@[simp] theorem State.startS1_irq : (s.startS1).irq = s.irq := rfl
@[simp] theorem State.startS1_ports : (s.startS1).ports = s.ports := rfl
@[simp] theorem State.startS1_roles : (s.startS1).roles = s.roles := rfl
@[simp] theorem State.startS1_directWriteTx : (s.startS1).directWriteTx = s.directWriteTx := rfl
@[simp] theorem State.startS1_directReadTx : (s.startS1).directReadTx = s.directReadTx := rfl
@[simp] theorem State.startS1_accepted : (s.startS1).accepted = s.accepted := rfl
@[simp] theorem State.startS1_delivered : (s.startS1).delivered = s.delivered := rfl
@[simp] theorem State.startS1_agenda : (s.startS1).agenda = s.agenda := rfl
@[simp] theorem State.startS1_stream : (s.startS1).stream = s.stream := rfl

/-! ## startS2 -/

@[simp] theorem State.startS2_cfg (distance : Nat) : (s.startS2 distance).cfg = s.cfg := rfl
@[simp] theorem State.startS2_epoch (distance : Nat) : (s.startS2 distance).epoch = s.epoch := rfl
@[simp] theorem State.startS2_initDone (distance : Nat) : (s.startS2 distance).initDone = s.initDone := rfl
@[simp] theorem State.startS2_rings (distance : Nat) : (s.startS2 distance).rings = s.rings := rfl
@[simp] theorem State.startS2_txArmed (distance : Nat) : (s.startS2 distance).txArmed = s.txArmed := rfl
@[simp] theorem State.startS2_txReg (distance : Nat) : (s.startS2 distance).txReg = s.txReg := rfl
@[simp] theorem State.startS2_rcReg (distance : Nat) : (s.startS2 distance).rcReg = s.rcReg := rfl
@[simp] theorem State.startS2_currentPhase (distance : Nat) : (s.startS2 distance).currentPhase = s.currentPhase := rfl
@[simp] theorem State.startS2_direction (distance : Nat) : (s.startS2 distance).direction = s.direction := rfl
@[simp] theorem State.startS2_previousDirection (distance : Nat) : (s.startS2 distance).previousDirection = s.previousDirection := rfl
@[simp] theorem State.startS2_remainingSteps (distance : Nat) : (s.startS2 distance).remainingSteps = distance := rfl
@[simp] theorem State.startS2_tickPeriod (distance : Nat) : (s.startS2 distance).tickPeriod = s.tickPeriod := rfl
@[simp] theorem State.startS2_timerArmed (distance : Nat) : (s.startS2 distance).timerArmed = s.timerArmed := rfl
@[simp] theorem State.startS2_tmr (distance : Nat) : (s.startS2 distance).tmr = s.tmr := rfl
@[simp] theorem State.startS2_io (distance : Nat) : (s.startS2 distance).io = s.io := rfl
@[simp] theorem State.startS2_txOut (distance : Nat) : (s.startS2 distance).txOut = s.txOut := rfl
@[simp] theorem State.startS2_tmrOut (distance : Nat) : (s.startS2 distance).tmrOut = s.tmrOut := rfl
@[simp] theorem State.startS2_pinOut (distance : Nat) : (s.startS2 distance).pinOut = s.pinOut := rfl
@[simp] theorem State.startS2_replies (distance : Nat) : (s.startS2 distance).replies = s.replies := rfl
@[simp] theorem State.startS2_errSlot (distance : Nat) : (s.startS2 distance).errSlot = s.errSlot := rfl
@[simp] theorem State.startS2_main (distance : Nat) : (s.startS2 distance).main = s.main := rfl
@[simp] theorem State.startS2_irq (distance : Nat) : (s.startS2 distance).irq = s.irq := rfl
@[simp] theorem State.startS2_ports (distance : Nat) : (s.startS2 distance).ports = s.ports := rfl
@[simp] theorem State.startS2_roles (distance : Nat) : (s.startS2 distance).roles = s.roles := rfl
@[simp] theorem State.startS2_directWriteTx (distance : Nat) : (s.startS2 distance).directWriteTx = s.directWriteTx := rfl
@[simp] theorem State.startS2_directReadTx (distance : Nat) : (s.startS2 distance).directReadTx = s.directReadTx := rfl
@[simp] theorem State.startS2_accepted (distance : Nat) : (s.startS2 distance).accepted = s.accepted := rfl
@[simp] theorem State.startS2_delivered (distance : Nat) : (s.startS2 distance).delivered = s.delivered := rfl
@[simp] theorem State.startS2_agenda (distance : Nat) : (s.startS2 distance).agenda = s.agenda := rfl
@[simp] theorem State.startS2_stream (distance : Nat) : (s.startS2 distance).stream = s.stream := rfl

/-! ## startS3 -/

@[simp] theorem State.startS3_cfg (speed : Nat) : (s.startS3 speed).cfg = s.cfg := rfl
@[simp] theorem State.startS3_epoch (speed : Nat) : (s.startS3 speed).epoch = s.epoch := rfl
@[simp] theorem State.startS3_initDone (speed : Nat) : (s.startS3 speed).initDone = s.initDone := rfl
@[simp] theorem State.startS3_rings (speed : Nat) : (s.startS3 speed).rings = s.rings := rfl
@[simp] theorem State.startS3_txArmed (speed : Nat) : (s.startS3 speed).txArmed = s.txArmed := rfl
@[simp] theorem State.startS3_txReg (speed : Nat) : (s.startS3 speed).txReg = s.txReg := rfl
@[simp] theorem State.startS3_rcReg (speed : Nat) : (s.startS3 speed).rcReg = s.rcReg := rfl
@[simp] theorem State.startS3_currentPhase (speed : Nat) : (s.startS3 speed).currentPhase = s.currentPhase := rfl
@[simp] theorem State.startS3_direction (speed : Nat) : (s.startS3 speed).direction = s.direction := rfl
@[simp] theorem State.startS3_previousDirection (speed : Nat) : (s.startS3 speed).previousDirection = s.previousDirection := rfl
@[simp] theorem State.startS3_remainingSteps (speed : Nat) : (s.startS3 speed).remainingSteps = s.remainingSteps := rfl
@[simp] theorem State.startS3_tickPeriod (speed : Nat) : (s.startS3 speed).tickPeriod = periodOfRate s.cfg (clampRate s.cfg speed) := rfl
@[simp] theorem State.startS3_timerArmed (speed : Nat) : (s.startS3 speed).timerArmed = s.timerArmed := rfl
@[simp] theorem State.startS3_tmr (speed : Nat) : (s.startS3 speed).tmr = some (periodOfRate s.cfg (clampRate s.cfg speed)) := rfl
@[simp] theorem State.startS3_io (speed : Nat) : (s.startS3 speed).io = s.io := rfl
@[simp] theorem State.startS3_txOut (speed : Nat) : (s.startS3 speed).txOut = s.txOut := rfl
@[simp] theorem State.startS3_tmrOut (speed : Nat) : (s.startS3 speed).tmrOut = s.tmrOut ++ [periodOfRate s.cfg (clampRate s.cfg speed)] := rfl
@[simp] theorem State.startS3_pinOut (speed : Nat) : (s.startS3 speed).pinOut = s.pinOut := rfl
@[simp] theorem State.startS3_replies (speed : Nat) : (s.startS3 speed).replies = s.replies := rfl
@[simp] theorem State.startS3_errSlot (speed : Nat) : (s.startS3 speed).errSlot = s.errSlot := rfl
@[simp] theorem State.startS3_main (speed : Nat) : (s.startS3 speed).main = s.main := rfl
@[simp] theorem State.startS3_irq (speed : Nat) : (s.startS3 speed).irq = s.irq := rfl
@[simp] theorem State.startS3_ports (speed : Nat) : (s.startS3 speed).ports = s.ports := rfl
@[simp] theorem State.startS3_roles (speed : Nat) : (s.startS3 speed).roles = s.roles := rfl
@[simp] theorem State.startS3_directWriteTx (speed : Nat) : (s.startS3 speed).directWriteTx = s.directWriteTx := rfl
@[simp] theorem State.startS3_directReadTx (speed : Nat) : (s.startS3 speed).directReadTx = s.directReadTx := rfl
@[simp] theorem State.startS3_accepted (speed : Nat) : (s.startS3 speed).accepted = s.accepted := rfl
@[simp] theorem State.startS3_delivered (speed : Nat) : (s.startS3 speed).delivered = s.delivered := rfl
@[simp] theorem State.startS3_agenda (speed : Nat) : (s.startS3 speed).agenda = s.agenda := rfl
@[simp] theorem State.startS3_stream (speed : Nat) : (s.startS3 speed).stream = s.stream := rfl

/-! ## startS4 -/

@[simp] theorem State.startS4_cfg (dir : Direction) : (s.startS4 dir).cfg = s.cfg := rfl
@[simp] theorem State.startS4_epoch (dir : Direction) : (s.startS4 dir).epoch = s.epoch := rfl
@[simp] theorem State.startS4_initDone (dir : Direction) : (s.startS4 dir).initDone = s.initDone := rfl
@[simp] theorem State.startS4_rings (dir : Direction) : (s.startS4 dir).rings = s.rings := rfl
@[simp] theorem State.startS4_txArmed (dir : Direction) : (s.startS4 dir).txArmed = s.txArmed := rfl
@[simp] theorem State.startS4_txReg (dir : Direction) : (s.startS4 dir).txReg = s.txReg := rfl
@[simp] theorem State.startS4_rcReg (dir : Direction) : (s.startS4 dir).rcReg = s.rcReg := rfl
@[simp] theorem State.startS4_currentPhase (dir : Direction) : (s.startS4 dir).currentPhase = s.currentPhase := rfl
@[simp] theorem State.startS4_direction (dir : Direction) : (s.startS4 dir).direction = dir := rfl
@[simp] theorem State.startS4_previousDirection (dir : Direction) : (s.startS4 dir).previousDirection = s.previousDirection := rfl
@[simp] theorem State.startS4_remainingSteps (dir : Direction) : (s.startS4 dir).remainingSteps = s.remainingSteps := rfl
@[simp] theorem State.startS4_tickPeriod (dir : Direction) : (s.startS4 dir).tickPeriod = s.tickPeriod := rfl
@[simp] theorem State.startS4_timerArmed (dir : Direction) : (s.startS4 dir).timerArmed = s.timerArmed := rfl
@[simp] theorem State.startS4_tmr (dir : Direction) : (s.startS4 dir).tmr = s.tmr := rfl
@[simp] theorem State.startS4_io (dir : Direction) : (s.startS4 dir).io = s.io := rfl
@[simp] theorem State.startS4_txOut (dir : Direction) : (s.startS4 dir).txOut = s.txOut := rfl
@[simp] theorem State.startS4_tmrOut (dir : Direction) : (s.startS4 dir).tmrOut = s.tmrOut := rfl
@[simp] theorem State.startS4_pinOut (dir : Direction) : (s.startS4 dir).pinOut = s.pinOut := rfl
@[simp] theorem State.startS4_replies (dir : Direction) : (s.startS4 dir).replies = s.replies := rfl
@[simp] theorem State.startS4_errSlot (dir : Direction) : (s.startS4 dir).errSlot = s.errSlot := rfl
@[simp] theorem State.startS4_main (dir : Direction) : (s.startS4 dir).main = s.main := rfl
@[simp] theorem State.startS4_irq (dir : Direction) : (s.startS4 dir).irq = s.irq := rfl
@[simp] theorem State.startS4_ports (dir : Direction) : (s.startS4 dir).ports = s.ports := rfl
@[simp] theorem State.startS4_roles (dir : Direction) : (s.startS4 dir).roles = s.roles := rfl
@[simp] theorem State.startS4_directWriteTx (dir : Direction) : (s.startS4 dir).directWriteTx = s.directWriteTx := rfl
@[simp] theorem State.startS4_directReadTx (dir : Direction) : (s.startS4 dir).directReadTx = s.directReadTx := rfl
@[simp] theorem State.startS4_accepted (dir : Direction) : (s.startS4 dir).accepted = s.accepted := rfl
@[simp] theorem State.startS4_delivered (dir : Direction) : (s.startS4 dir).delivered = s.delivered := rfl
@[simp] theorem State.startS4_agenda (dir : Direction) : (s.startS4 dir).agenda = s.agenda := rfl
@[simp] theorem State.startS4_stream (dir : Direction) : (s.startS4 dir).stream = s.stream := rfl

/-! ## startS6 -/

@[simp] theorem State.startS6_cfg : (s.startS6).cfg = s.cfg := rfl
@[simp] theorem State.startS6_epoch : (s.startS6).epoch = s.epoch := rfl
@[simp] theorem State.startS6_initDone : (s.startS6).initDone = s.initDone := rfl
@[simp] theorem State.startS6_rings : (s.startS6).rings = s.rings := rfl
@[simp] theorem State.startS6_txArmed : (s.startS6).txArmed = s.txArmed := rfl
@[simp] theorem State.startS6_txReg : (s.startS6).txReg = s.txReg := rfl
@[simp] theorem State.startS6_rcReg : (s.startS6).rcReg = s.rcReg := rfl
@[simp] theorem State.startS6_currentPhase : (s.startS6).currentPhase = s.currentPhase := rfl
@[simp] theorem State.startS6_direction : (s.startS6).direction = s.direction := rfl
@[simp] theorem State.startS6_previousDirection : (s.startS6).previousDirection = s.previousDirection := rfl
@[simp] theorem State.startS6_remainingSteps : (s.startS6).remainingSteps = s.remainingSteps := rfl
@[simp] theorem State.startS6_tickPeriod : (s.startS6).tickPeriod = s.tickPeriod := rfl
@[simp] theorem State.startS6_timerArmed : (s.startS6).timerArmed = true := rfl
@[simp] theorem State.startS6_tmr : (s.startS6).tmr = s.tmr := rfl
@[simp] theorem State.startS6_io : (s.startS6).io = s.io := rfl
@[simp] theorem State.startS6_txOut : (s.startS6).txOut = s.txOut := rfl
@[simp] theorem State.startS6_tmrOut : (s.startS6).tmrOut = s.tmrOut := rfl
@[simp] theorem State.startS6_pinOut : (s.startS6).pinOut = s.pinOut := rfl
@[simp] theorem State.startS6_replies : (s.startS6).replies = s.replies := rfl
@[simp] theorem State.startS6_errSlot : (s.startS6).errSlot = s.errSlot := rfl
@[simp] theorem State.startS6_main : (s.startS6).main = s.main := rfl
@[simp] theorem State.startS6_irq : (s.startS6).irq = s.irq := rfl
@[simp] theorem State.startS6_ports : (s.startS6).ports = s.ports := rfl
@[simp] theorem State.startS6_roles : (s.startS6).roles = s.roles := rfl
@[simp] theorem State.startS6_directWriteTx : (s.startS6).directWriteTx = s.directWriteTx := rfl
@[simp] theorem State.startS6_directReadTx : (s.startS6).directReadTx = s.directReadTx := rfl
@[simp] theorem State.startS6_accepted : (s.startS6).accepted = s.accepted := rfl
@[simp] theorem State.startS6_delivered : (s.startS6).delivered = s.delivered := rfl
@[simp] theorem State.startS6_agenda : (s.startS6).agenda = s.agenda := rfl
@[simp] theorem State.startS6_stream : (s.startS6).stream = s.stream := rfl

/-! ## tickT1 -/

@[simp] theorem State.tickT1_cfg : (s.tickT1).cfg = s.cfg := rfl
@[simp] theorem State.tickT1_epoch : (s.tickT1).epoch = s.epoch := rfl
@[simp] theorem State.tickT1_initDone : (s.tickT1).initDone = s.initDone := rfl
@[simp] theorem State.tickT1_rings : (s.tickT1).rings = s.rings := rfl
@[simp] theorem State.tickT1_txArmed : (s.tickT1).txArmed = s.txArmed := rfl
@[simp] theorem State.tickT1_txReg : (s.tickT1).txReg = s.txReg := rfl
@[simp] theorem State.tickT1_rcReg : (s.tickT1).rcReg = s.rcReg := rfl
@[simp] theorem State.tickT1_currentPhase : (s.tickT1).currentPhase = s.currentPhase := rfl
@[simp] theorem State.tickT1_direction : (s.tickT1).direction = s.direction := rfl
@[simp] theorem State.tickT1_previousDirection : (s.tickT1).previousDirection = s.previousDirection := rfl
@[simp] theorem State.tickT1_remainingSteps : (s.tickT1).remainingSteps = s.remainingSteps := rfl
@[simp] theorem State.tickT1_tickPeriod : (s.tickT1).tickPeriod = s.tickPeriod := rfl
@[simp] theorem State.tickT1_timerArmed : (s.tickT1).timerArmed = s.timerArmed := rfl
@[simp] theorem State.tickT1_tmr : (s.tickT1).tmr = some s.tickPeriod := rfl
@[simp] theorem State.tickT1_io : (s.tickT1).io = s.io := rfl
@[simp] theorem State.tickT1_txOut : (s.tickT1).txOut = s.txOut := rfl
@[simp] theorem State.tickT1_tmrOut : (s.tickT1).tmrOut = s.tmrOut ++ [s.tickPeriod] := rfl
@[simp] theorem State.tickT1_pinOut : (s.tickT1).pinOut = s.pinOut := rfl
@[simp] theorem State.tickT1_replies : (s.tickT1).replies = s.replies := rfl
@[simp] theorem State.tickT1_errSlot : (s.tickT1).errSlot = s.errSlot := rfl
@[simp] theorem State.tickT1_main : (s.tickT1).main = s.main := rfl
@[simp] theorem State.tickT1_irq : (s.tickT1).irq = s.irq := rfl
@[simp] theorem State.tickT1_ports : (s.tickT1).ports = s.ports := rfl
@[simp] theorem State.tickT1_roles : (s.tickT1).roles = s.roles := rfl
@[simp] theorem State.tickT1_directWriteTx : (s.tickT1).directWriteTx = s.directWriteTx := rfl
@[simp] theorem State.tickT1_directReadTx : (s.tickT1).directReadTx = s.directReadTx := rfl
@[simp] theorem State.tickT1_accepted : (s.tickT1).accepted = s.accepted := rfl
@[simp] theorem State.tickT1_delivered : (s.tickT1).delivered = s.delivered := rfl
@[simp] theorem State.tickT1_agenda : (s.tickT1).agenda = s.agenda := rfl
@[simp] theorem State.tickT1_stream : (s.tickT1).stream = s.stream := rfl

/-! ## tickT3 -/

@[simp] theorem State.tickT3_cfg : (s.tickT3).cfg = s.cfg := rfl
@[simp] theorem State.tickT3_epoch : (s.tickT3).epoch = s.epoch := rfl
@[simp] theorem State.tickT3_initDone : (s.tickT3).initDone = s.initDone := rfl
@[simp] theorem State.tickT3_rings : (s.tickT3).rings = s.rings := rfl
@[simp] theorem State.tickT3_txArmed : (s.tickT3).txArmed = s.txArmed := rfl
@[simp] theorem State.tickT3_txReg : (s.tickT3).txReg = s.txReg := rfl
@[simp] theorem State.tickT3_rcReg : (s.tickT3).rcReg = s.rcReg := rfl
@[simp] theorem State.tickT3_currentPhase : (s.tickT3).currentPhase = stepPhase s.direction s.currentPhase := rfl
@[simp] theorem State.tickT3_direction : (s.tickT3).direction = s.direction := rfl
@[simp] theorem State.tickT3_previousDirection : (s.tickT3).previousDirection = s.previousDirection := rfl
@[simp] theorem State.tickT3_remainingSteps : (s.tickT3).remainingSteps = s.remainingSteps := rfl
@[simp] theorem State.tickT3_tickPeriod : (s.tickT3).tickPeriod = s.tickPeriod := rfl
@[simp] theorem State.tickT3_timerArmed : (s.tickT3).timerArmed = s.timerArmed := rfl
@[simp] theorem State.tickT3_tmr : (s.tickT3).tmr = s.tmr := rfl
@[simp] theorem State.tickT3_io : (s.tickT3).io = s.io := rfl
@[simp] theorem State.tickT3_txOut : (s.tickT3).txOut = s.txOut := rfl
@[simp] theorem State.tickT3_tmrOut : (s.tickT3).tmrOut = s.tmrOut := rfl
@[simp] theorem State.tickT3_pinOut : (s.tickT3).pinOut = s.pinOut := rfl
@[simp] theorem State.tickT3_replies : (s.tickT3).replies = s.replies := rfl
@[simp] theorem State.tickT3_errSlot : (s.tickT3).errSlot = s.errSlot := rfl
@[simp] theorem State.tickT3_main : (s.tickT3).main = s.main := rfl
@[simp] theorem State.tickT3_irq : (s.tickT3).irq = s.irq := rfl
@[simp] theorem State.tickT3_ports : (s.tickT3).ports = s.ports := rfl
@[simp] theorem State.tickT3_roles : (s.tickT3).roles = s.roles := rfl
@[simp] theorem State.tickT3_directWriteTx : (s.tickT3).directWriteTx = s.directWriteTx := rfl
@[simp] theorem State.tickT3_directReadTx : (s.tickT3).directReadTx = s.directReadTx := rfl
@[simp] theorem State.tickT3_accepted : (s.tickT3).accepted = s.accepted := rfl
@[simp] theorem State.tickT3_delivered : (s.tickT3).delivered = s.delivered := rfl
@[simp] theorem State.tickT3_agenda : (s.tickT3).agenda = s.agenda := rfl
@[simp] theorem State.tickT3_stream : (s.tickT3).stream = s.stream := rfl

/-! ## tickT4 -/

@[simp] theorem State.tickT4_cfg : (s.tickT4).cfg = s.cfg := rfl
@[simp] theorem State.tickT4_epoch : (s.tickT4).epoch = s.epoch := rfl
@[simp] theorem State.tickT4_initDone : (s.tickT4).initDone = s.initDone := rfl
@[simp] theorem State.tickT4_rings : (s.tickT4).rings = s.rings := rfl
@[simp] theorem State.tickT4_txArmed : (s.tickT4).txArmed = s.txArmed := rfl
@[simp] theorem State.tickT4_txReg : (s.tickT4).txReg = s.txReg := rfl
@[simp] theorem State.tickT4_rcReg : (s.tickT4).rcReg = s.rcReg := rfl
@[simp] theorem State.tickT4_currentPhase : (s.tickT4).currentPhase = s.currentPhase := rfl
@[simp] theorem State.tickT4_direction : (s.tickT4).direction = s.direction := rfl
@[simp] theorem State.tickT4_previousDirection : (s.tickT4).previousDirection = s.previousDirection := rfl
@[simp] theorem State.tickT4_remainingSteps : (s.tickT4).remainingSteps = decSat s.remainingSteps := rfl
@[simp] theorem State.tickT4_tickPeriod : (s.tickT4).tickPeriod = s.tickPeriod := rfl
@[simp] theorem State.tickT4_timerArmed : (s.tickT4).timerArmed = if decSat s.remainingSteps = 0 then false else s.timerArmed := rfl
@[simp] theorem State.tickT4_tmr : (s.tickT4).tmr = s.tmr := rfl
@[simp] theorem State.tickT4_io : (s.tickT4).io = s.io := rfl
@[simp] theorem State.tickT4_txOut : (s.tickT4).txOut = s.txOut := rfl
@[simp] theorem State.tickT4_tmrOut : (s.tickT4).tmrOut = s.tmrOut := rfl
@[simp] theorem State.tickT4_pinOut : (s.tickT4).pinOut = s.pinOut := rfl
@[simp] theorem State.tickT4_replies : (s.tickT4).replies = s.replies := rfl
@[simp] theorem State.tickT4_errSlot : (s.tickT4).errSlot = s.errSlot := rfl
@[simp] theorem State.tickT4_main : (s.tickT4).main = s.main := rfl
@[simp] theorem State.tickT4_irq : (s.tickT4).irq = s.irq := rfl
@[simp] theorem State.tickT4_ports : (s.tickT4).ports = s.ports := rfl
@[simp] theorem State.tickT4_roles : (s.tickT4).roles = s.roles := rfl
@[simp] theorem State.tickT4_directWriteTx : (s.tickT4).directWriteTx = s.directWriteTx := rfl
@[simp] theorem State.tickT4_directReadTx : (s.tickT4).directReadTx = s.directReadTx := rfl
@[simp] theorem State.tickT4_accepted : (s.tickT4).accepted = s.accepted := rfl
@[simp] theorem State.tickT4_delivered : (s.tickT4).delivered = s.delivered := rfl
@[simp] theorem State.tickT4_agenda : (s.tickT4).agenda = s.agenda := rfl
@[simp] theorem State.tickT4_stream : (s.tickT4).stream = s.stream := rfl

/-! ## withRoles -/

@[simp] theorem State.withRoles_cfg (i : Instr) (roles : Roles) : (s.withRoles i roles).cfg = s.cfg := rfl
@[simp] theorem State.withRoles_epoch (i : Instr) (roles : Roles) : (s.withRoles i roles).epoch = s.epoch := rfl
@[simp] theorem State.withRoles_initDone (i : Instr) (roles : Roles) : (s.withRoles i roles).initDone = s.initDone := rfl
@[simp] theorem State.withRoles_rings (i : Instr) (roles : Roles) : (s.withRoles i roles).rings = s.rings := rfl
@[simp] theorem State.withRoles_txArmed (i : Instr) (roles : Roles) : (s.withRoles i roles).txArmed = s.txArmed := rfl
@[simp] theorem State.withRoles_txReg (i : Instr) (roles : Roles) : (s.withRoles i roles).txReg = s.txReg := rfl
@[simp] theorem State.withRoles_rcReg (i : Instr) (roles : Roles) : (s.withRoles i roles).rcReg = s.rcReg := rfl
@[simp] theorem State.withRoles_currentPhase (i : Instr) (roles : Roles) : (s.withRoles i roles).currentPhase = s.currentPhase := rfl
@[simp] theorem State.withRoles_direction (i : Instr) (roles : Roles) : (s.withRoles i roles).direction = s.direction := rfl
@[simp] theorem State.withRoles_previousDirection (i : Instr) (roles : Roles) : (s.withRoles i roles).previousDirection = s.previousDirection := rfl
@[simp] theorem State.withRoles_remainingSteps (i : Instr) (roles : Roles) : (s.withRoles i roles).remainingSteps = s.remainingSteps := rfl
@[simp] theorem State.withRoles_tickPeriod (i : Instr) (roles : Roles) : (s.withRoles i roles).tickPeriod = s.tickPeriod := rfl
@[simp] theorem State.withRoles_timerArmed (i : Instr) (roles : Roles) : (s.withRoles i roles).timerArmed = s.timerArmed := rfl
@[simp] theorem State.withRoles_tmr (i : Instr) (roles : Roles) : (s.withRoles i roles).tmr = s.tmr := rfl
@[simp] theorem State.withRoles_io (i : Instr) (roles : Roles) : (s.withRoles i roles).io = s.io := rfl
@[simp] theorem State.withRoles_txOut (i : Instr) (roles : Roles) : (s.withRoles i roles).txOut = s.txOut := rfl
@[simp] theorem State.withRoles_tmrOut (i : Instr) (roles : Roles) : (s.withRoles i roles).tmrOut = s.tmrOut := rfl
@[simp] theorem State.withRoles_pinOut (i : Instr) (roles : Roles) : (s.withRoles i roles).pinOut = s.pinOut := rfl
@[simp] theorem State.withRoles_replies (i : Instr) (roles : Roles) : (s.withRoles i roles).replies = s.replies := rfl
@[simp] theorem State.withRoles_errSlot (i : Instr) (roles : Roles) : (s.withRoles i roles).errSlot = s.errSlot := rfl
@[simp] theorem State.withRoles_main (i : Instr) (roles : Roles) : (s.withRoles i roles).main = s.main := rfl
@[simp] theorem State.withRoles_irq (i : Instr) (roles : Roles) : (s.withRoles i roles).irq = s.irq := rfl
@[simp] theorem State.withRoles_ports (i : Instr) (roles : Roles) : (s.withRoles i roles).ports = s.ports := rfl
@[simp] theorem State.withRoles_roles (i : Instr) (roles : Roles) : (s.withRoles i roles).roles = roles := rfl
@[simp] theorem State.withRoles_directWriteTx (i : Instr) (roles : Roles) : (s.withRoles i roles).directWriteTx = (s.directWriteTx || writesTxDirectly i) := rfl
@[simp] theorem State.withRoles_directReadTx (i : Instr) (roles : Roles) : (s.withRoles i roles).directReadTx = (s.directReadTx || readsTxDirectly i) := rfl
@[simp] theorem State.withRoles_accepted (i : Instr) (roles : Roles) : (s.withRoles i roles).accepted = s.accepted := rfl
@[simp] theorem State.withRoles_delivered (i : Instr) (roles : Roles) : (s.withRoles i roles).delivered = s.delivered := rfl
@[simp] theorem State.withRoles_agenda (i : Instr) (roles : Roles) : (s.withRoles i roles).agenda = s.agenda := rfl
@[simp] theorem State.withRoles_stream (i : Instr) (roles : Roles) : (s.withRoles i roles).stream = s.stream := rfl

/-! ## enterInterrupt -/

@[simp] theorem State.enterInterrupt_cfg (x : Activity) : (s.enterInterrupt x).cfg = s.cfg := rfl
@[simp] theorem State.enterInterrupt_epoch (x : Activity) : (s.enterInterrupt x).epoch = s.epoch := rfl
@[simp] theorem State.enterInterrupt_initDone (x : Activity) : (s.enterInterrupt x).initDone = s.initDone := rfl
@[simp] theorem State.enterInterrupt_rings (x : Activity) : (s.enterInterrupt x).rings = s.rings := rfl
@[simp] theorem State.enterInterrupt_txArmed (x : Activity) : (s.enterInterrupt x).txArmed = s.txArmed := rfl
@[simp] theorem State.enterInterrupt_txReg (x : Activity) : (s.enterInterrupt x).txReg = s.txReg := rfl
@[simp] theorem State.enterInterrupt_rcReg (x : Activity) : (s.enterInterrupt x).rcReg = s.rcReg := rfl
@[simp] theorem State.enterInterrupt_currentPhase (x : Activity) : (s.enterInterrupt x).currentPhase = s.currentPhase := rfl
@[simp] theorem State.enterInterrupt_direction (x : Activity) : (s.enterInterrupt x).direction = s.direction := rfl
@[simp] theorem State.enterInterrupt_previousDirection (x : Activity) : (s.enterInterrupt x).previousDirection = s.previousDirection := rfl
@[simp] theorem State.enterInterrupt_remainingSteps (x : Activity) : (s.enterInterrupt x).remainingSteps = s.remainingSteps := rfl
@[simp] theorem State.enterInterrupt_tickPeriod (x : Activity) : (s.enterInterrupt x).tickPeriod = s.tickPeriod := rfl
@[simp] theorem State.enterInterrupt_timerArmed (x : Activity) : (s.enterInterrupt x).timerArmed = s.timerArmed := rfl
@[simp] theorem State.enterInterrupt_tmr (x : Activity) : (s.enterInterrupt x).tmr = s.tmr := rfl
@[simp] theorem State.enterInterrupt_io (x : Activity) : (s.enterInterrupt x).io = s.io := rfl
@[simp] theorem State.enterInterrupt_txOut (x : Activity) : (s.enterInterrupt x).txOut = s.txOut := rfl
@[simp] theorem State.enterInterrupt_tmrOut (x : Activity) : (s.enterInterrupt x).tmrOut = s.tmrOut := rfl
@[simp] theorem State.enterInterrupt_pinOut (x : Activity) : (s.enterInterrupt x).pinOut = s.pinOut := rfl
@[simp] theorem State.enterInterrupt_replies (x : Activity) : (s.enterInterrupt x).replies = s.replies := rfl
@[simp] theorem State.enterInterrupt_errSlot (x : Activity) : (s.enterInterrupt x).errSlot = s.errSlot := rfl
@[simp] theorem State.enterInterrupt_main (x : Activity) : (s.enterInterrupt x).main = s.main := rfl
@[simp] theorem State.enterInterrupt_irq (x : Activity) : (s.enterInterrupt x).irq = x :: s.irq := rfl
@[simp] theorem State.enterInterrupt_ports (x : Activity) : (s.enterInterrupt x).ports = s.ports := rfl
@[simp] theorem State.enterInterrupt_roles (x : Activity) : (s.enterInterrupt x).roles = s.roles := rfl
@[simp] theorem State.enterInterrupt_directWriteTx (x : Activity) : (s.enterInterrupt x).directWriteTx = s.directWriteTx := rfl
@[simp] theorem State.enterInterrupt_directReadTx (x : Activity) : (s.enterInterrupt x).directReadTx = s.directReadTx := rfl
@[simp] theorem State.enterInterrupt_accepted (x : Activity) : (s.enterInterrupt x).accepted = s.accepted := rfl
@[simp] theorem State.enterInterrupt_delivered (x : Activity) : (s.enterInterrupt x).delivered = s.delivered := rfl
@[simp] theorem State.enterInterrupt_agenda (x : Activity) : (s.enterInterrupt x).agenda = s.agenda := rfl
@[simp] theorem State.enterInterrupt_stream (x : Activity) : (s.enterInterrupt x).stream = s.stream := rfl

/-! ## leaveInterrupt -/

@[simp] theorem State.leaveInterrupt_cfg : (s.leaveInterrupt).cfg = s.cfg := rfl
@[simp] theorem State.leaveInterrupt_epoch : (s.leaveInterrupt).epoch = s.epoch := rfl
@[simp] theorem State.leaveInterrupt_initDone : (s.leaveInterrupt).initDone = s.initDone := rfl
@[simp] theorem State.leaveInterrupt_rings : (s.leaveInterrupt).rings = s.rings := rfl
@[simp] theorem State.leaveInterrupt_txArmed : (s.leaveInterrupt).txArmed = s.txArmed := rfl
@[simp] theorem State.leaveInterrupt_txReg : (s.leaveInterrupt).txReg = s.txReg := rfl
@[simp] theorem State.leaveInterrupt_rcReg : (s.leaveInterrupt).rcReg = s.rcReg := rfl
@[simp] theorem State.leaveInterrupt_currentPhase : (s.leaveInterrupt).currentPhase = s.currentPhase := rfl
@[simp] theorem State.leaveInterrupt_direction : (s.leaveInterrupt).direction = s.direction := rfl
@[simp] theorem State.leaveInterrupt_previousDirection : (s.leaveInterrupt).previousDirection = s.previousDirection := rfl
@[simp] theorem State.leaveInterrupt_remainingSteps : (s.leaveInterrupt).remainingSteps = s.remainingSteps := rfl
@[simp] theorem State.leaveInterrupt_tickPeriod : (s.leaveInterrupt).tickPeriod = s.tickPeriod := rfl
@[simp] theorem State.leaveInterrupt_timerArmed : (s.leaveInterrupt).timerArmed = s.timerArmed := rfl
@[simp] theorem State.leaveInterrupt_tmr : (s.leaveInterrupt).tmr = s.tmr := rfl
@[simp] theorem State.leaveInterrupt_io : (s.leaveInterrupt).io = s.io := rfl
@[simp] theorem State.leaveInterrupt_txOut : (s.leaveInterrupt).txOut = s.txOut := rfl
@[simp] theorem State.leaveInterrupt_tmrOut : (s.leaveInterrupt).tmrOut = s.tmrOut := rfl
@[simp] theorem State.leaveInterrupt_pinOut : (s.leaveInterrupt).pinOut = s.pinOut := rfl
@[simp] theorem State.leaveInterrupt_replies : (s.leaveInterrupt).replies = s.replies := rfl
@[simp] theorem State.leaveInterrupt_errSlot : (s.leaveInterrupt).errSlot = s.errSlot := rfl
@[simp] theorem State.leaveInterrupt_main : (s.leaveInterrupt).main = s.main := rfl
@[simp] theorem State.leaveInterrupt_irq : (s.leaveInterrupt).irq = s.irq.tail := rfl
@[simp] theorem State.leaveInterrupt_ports : (s.leaveInterrupt).ports = s.ports := rfl
@[simp] theorem State.leaveInterrupt_roles : (s.leaveInterrupt).roles = s.roles := rfl
@[simp] theorem State.leaveInterrupt_directWriteTx : (s.leaveInterrupt).directWriteTx = s.directWriteTx := rfl
@[simp] theorem State.leaveInterrupt_directReadTx : (s.leaveInterrupt).directReadTx = s.directReadTx := rfl
@[simp] theorem State.leaveInterrupt_accepted : (s.leaveInterrupt).accepted = s.accepted := rfl
@[simp] theorem State.leaveInterrupt_delivered : (s.leaveInterrupt).delivered = s.delivered := rfl
@[simp] theorem State.leaveInterrupt_agenda : (s.leaveInterrupt).agenda = s.agenda := rfl
@[simp] theorem State.leaveInterrupt_stream : (s.leaveInterrupt).stream = s.stream := rfl

/-! ## enterMain -/

@[simp] theorem State.enterMain_cfg (x : Activity) : (s.enterMain x).cfg = s.cfg := rfl
@[simp] theorem State.enterMain_epoch (x : Activity) : (s.enterMain x).epoch = s.epoch := rfl
@[simp] theorem State.enterMain_initDone (x : Activity) : (s.enterMain x).initDone = s.initDone := rfl
@[simp] theorem State.enterMain_rings (x : Activity) : (s.enterMain x).rings = s.rings := rfl
@[simp] theorem State.enterMain_txArmed (x : Activity) : (s.enterMain x).txArmed = s.txArmed := rfl
@[simp] theorem State.enterMain_txReg (x : Activity) : (s.enterMain x).txReg = s.txReg := rfl
@[simp] theorem State.enterMain_rcReg (x : Activity) : (s.enterMain x).rcReg = s.rcReg := rfl
@[simp] theorem State.enterMain_currentPhase (x : Activity) : (s.enterMain x).currentPhase = s.currentPhase := rfl
@[simp] theorem State.enterMain_direction (x : Activity) : (s.enterMain x).direction = s.direction := rfl
@[simp] theorem State.enterMain_previousDirection (x : Activity) : (s.enterMain x).previousDirection = s.previousDirection := rfl
@[simp] theorem State.enterMain_remainingSteps (x : Activity) : (s.enterMain x).remainingSteps = s.remainingSteps := rfl
@[simp] theorem State.enterMain_tickPeriod (x : Activity) : (s.enterMain x).tickPeriod = s.tickPeriod := rfl
@[simp] theorem State.enterMain_timerArmed (x : Activity) : (s.enterMain x).timerArmed = s.timerArmed := rfl
@[simp] theorem State.enterMain_tmr (x : Activity) : (s.enterMain x).tmr = s.tmr := rfl
@[simp] theorem State.enterMain_io (x : Activity) : (s.enterMain x).io = s.io := rfl
@[simp] theorem State.enterMain_txOut (x : Activity) : (s.enterMain x).txOut = s.txOut := rfl
@[simp] theorem State.enterMain_tmrOut (x : Activity) : (s.enterMain x).tmrOut = s.tmrOut := rfl
@[simp] theorem State.enterMain_pinOut (x : Activity) : (s.enterMain x).pinOut = s.pinOut := rfl
@[simp] theorem State.enterMain_replies (x : Activity) : (s.enterMain x).replies = s.replies := rfl
@[simp] theorem State.enterMain_errSlot (x : Activity) : (s.enterMain x).errSlot = s.errSlot := rfl
@[simp] theorem State.enterMain_main (x : Activity) : (s.enterMain x).main = some x := rfl
@[simp] theorem State.enterMain_irq (x : Activity) : (s.enterMain x).irq = s.irq := rfl
@[simp] theorem State.enterMain_ports (x : Activity) : (s.enterMain x).ports = s.ports := rfl
@[simp] theorem State.enterMain_roles (x : Activity) : (s.enterMain x).roles = s.roles := rfl
@[simp] theorem State.enterMain_directWriteTx (x : Activity) : (s.enterMain x).directWriteTx = s.directWriteTx := rfl
@[simp] theorem State.enterMain_directReadTx (x : Activity) : (s.enterMain x).directReadTx = s.directReadTx := rfl
@[simp] theorem State.enterMain_accepted (x : Activity) : (s.enterMain x).accepted = s.accepted := rfl
@[simp] theorem State.enterMain_delivered (x : Activity) : (s.enterMain x).delivered = s.delivered := rfl
@[simp] theorem State.enterMain_agenda (x : Activity) : (s.enterMain x).agenda = s.agenda := rfl
@[simp] theorem State.enterMain_stream (x : Activity) : (s.enterMain x).stream = s.stream := rfl

/-! ## leaveMain -/

@[simp] theorem State.leaveMain_cfg : (s.leaveMain).cfg = s.cfg := rfl
@[simp] theorem State.leaveMain_epoch : (s.leaveMain).epoch = s.epoch := rfl
@[simp] theorem State.leaveMain_initDone : (s.leaveMain).initDone = s.initDone := rfl
@[simp] theorem State.leaveMain_rings : (s.leaveMain).rings = s.rings := rfl
@[simp] theorem State.leaveMain_txArmed : (s.leaveMain).txArmed = s.txArmed := rfl
@[simp] theorem State.leaveMain_txReg : (s.leaveMain).txReg = s.txReg := rfl
@[simp] theorem State.leaveMain_rcReg : (s.leaveMain).rcReg = s.rcReg := rfl
@[simp] theorem State.leaveMain_currentPhase : (s.leaveMain).currentPhase = s.currentPhase := rfl
@[simp] theorem State.leaveMain_direction : (s.leaveMain).direction = s.direction := rfl
@[simp] theorem State.leaveMain_previousDirection : (s.leaveMain).previousDirection = s.previousDirection := rfl
@[simp] theorem State.leaveMain_remainingSteps : (s.leaveMain).remainingSteps = s.remainingSteps := rfl
@[simp] theorem State.leaveMain_tickPeriod : (s.leaveMain).tickPeriod = s.tickPeriod := rfl
@[simp] theorem State.leaveMain_timerArmed : (s.leaveMain).timerArmed = s.timerArmed := rfl
@[simp] theorem State.leaveMain_tmr : (s.leaveMain).tmr = s.tmr := rfl
@[simp] theorem State.leaveMain_io : (s.leaveMain).io = s.io := rfl
@[simp] theorem State.leaveMain_txOut : (s.leaveMain).txOut = s.txOut := rfl
@[simp] theorem State.leaveMain_tmrOut : (s.leaveMain).tmrOut = s.tmrOut := rfl
@[simp] theorem State.leaveMain_pinOut : (s.leaveMain).pinOut = s.pinOut := rfl
@[simp] theorem State.leaveMain_replies : (s.leaveMain).replies = s.replies := rfl
@[simp] theorem State.leaveMain_errSlot : (s.leaveMain).errSlot = s.errSlot := rfl
@[simp] theorem State.leaveMain_main : (s.leaveMain).main = none := rfl
@[simp] theorem State.leaveMain_irq : (s.leaveMain).irq = s.irq := rfl
@[simp] theorem State.leaveMain_ports : (s.leaveMain).ports = s.ports := rfl
@[simp] theorem State.leaveMain_roles : (s.leaveMain).roles = s.roles := rfl
@[simp] theorem State.leaveMain_directWriteTx : (s.leaveMain).directWriteTx = s.directWriteTx := rfl
@[simp] theorem State.leaveMain_directReadTx : (s.leaveMain).directReadTx = s.directReadTx := rfl
@[simp] theorem State.leaveMain_accepted : (s.leaveMain).accepted = s.accepted := rfl
@[simp] theorem State.leaveMain_delivered : (s.leaveMain).delivered = s.delivered := rfl
@[simp] theorem State.leaveMain_agenda : (s.leaveMain).agenda = s.agenda := rfl
@[simp] theorem State.leaveMain_stream : (s.leaveMain).stream = s.stream := rfl

/-! ## setPorts -/

@[simp] theorem State.setPorts_cfg (b : BufId) (p : Ports) : (s.setPorts b p).cfg = s.cfg := rfl
@[simp] theorem State.setPorts_epoch (b : BufId) (p : Ports) : (s.setPorts b p).epoch = s.epoch := rfl
@[simp] theorem State.setPorts_initDone (b : BufId) (p : Ports) : (s.setPorts b p).initDone = s.initDone := rfl
@[simp] theorem State.setPorts_rings (b : BufId) (p : Ports) : (s.setPorts b p).rings = s.rings := rfl
@[simp] theorem State.setPorts_txArmed (b : BufId) (p : Ports) : (s.setPorts b p).txArmed = s.txArmed := rfl
@[simp] theorem State.setPorts_txReg (b : BufId) (p : Ports) : (s.setPorts b p).txReg = s.txReg := rfl
@[simp] theorem State.setPorts_rcReg (b : BufId) (p : Ports) : (s.setPorts b p).rcReg = s.rcReg := rfl
@[simp] theorem State.setPorts_currentPhase (b : BufId) (p : Ports) : (s.setPorts b p).currentPhase = s.currentPhase := rfl
@[simp] theorem State.setPorts_direction (b : BufId) (p : Ports) : (s.setPorts b p).direction = s.direction := rfl
@[simp] theorem State.setPorts_previousDirection (b : BufId) (p : Ports) : (s.setPorts b p).previousDirection = s.previousDirection := rfl
@[simp] theorem State.setPorts_remainingSteps (b : BufId) (p : Ports) : (s.setPorts b p).remainingSteps = s.remainingSteps := rfl
@[simp] theorem State.setPorts_tickPeriod (b : BufId) (p : Ports) : (s.setPorts b p).tickPeriod = s.tickPeriod := rfl
@[simp] theorem State.setPorts_timerArmed (b : BufId) (p : Ports) : (s.setPorts b p).timerArmed = s.timerArmed := rfl
@[simp] theorem State.setPorts_tmr (b : BufId) (p : Ports) : (s.setPorts b p).tmr = s.tmr := rfl
@[simp] theorem State.setPorts_io (b : BufId) (p : Ports) : (s.setPorts b p).io = s.io := rfl
@[simp] theorem State.setPorts_txOut (b : BufId) (p : Ports) : (s.setPorts b p).txOut = s.txOut := rfl
@[simp] theorem State.setPorts_tmrOut (b : BufId) (p : Ports) : (s.setPorts b p).tmrOut = s.tmrOut := rfl
@[simp] theorem State.setPorts_pinOut (b : BufId) (p : Ports) : (s.setPorts b p).pinOut = s.pinOut := rfl
@[simp] theorem State.setPorts_replies (b : BufId) (p : Ports) : (s.setPorts b p).replies = s.replies := rfl
@[simp] theorem State.setPorts_errSlot (b : BufId) (p : Ports) : (s.setPorts b p).errSlot = s.errSlot := rfl
@[simp] theorem State.setPorts_main (b : BufId) (p : Ports) : (s.setPorts b p).main = s.main := rfl
@[simp] theorem State.setPorts_irq (b : BufId) (p : Ports) : (s.setPorts b p).irq = s.irq := rfl
@[simp] theorem State.setPorts_ports (b : BufId) (p : Ports) : (s.setPorts b p).ports = s.ports.set b p := rfl
@[simp] theorem State.setPorts_roles (b : BufId) (p : Ports) : (s.setPorts b p).roles = s.roles := rfl
@[simp] theorem State.setPorts_directWriteTx (b : BufId) (p : Ports) : (s.setPorts b p).directWriteTx = s.directWriteTx := rfl
@[simp] theorem State.setPorts_directReadTx (b : BufId) (p : Ports) : (s.setPorts b p).directReadTx = s.directReadTx := rfl
@[simp] theorem State.setPorts_accepted (b : BufId) (p : Ports) : (s.setPorts b p).accepted = s.accepted := rfl
@[simp] theorem State.setPorts_delivered (b : BufId) (p : Ports) : (s.setPorts b p).delivered = s.delivered := rfl
@[simp] theorem State.setPorts_agenda (b : BufId) (p : Ports) : (s.setPorts b p).agenda = s.agenda := rfl
@[simp] theorem State.setPorts_stream (b : BufId) (p : Ports) : (s.setPorts b p).stream = s.stream := rfl

/-! ## startS5 writes `currentPhase` and nothing else -/

theorem State.startS5_eq (dir : Direction) :
    s.startS5 dir
      = { s with currentPhase := if dir ≠ s.previousDirection then stepPhase dir s.currentPhase else s.currentPhase } := by
  unfold State.startS5
  split <;> rfl

end Machine

end Sys2Proof
end

