-- ==== Sys2Proof/Laws/Memory.lean ====
section
/-! SUPPORT. The laws of the addressed spaces (R60, R61): a read after a write, and the canonical form, which every
operation on a space keeps. -/

namespace Sys2Proof.Machine

@[simp] theorem Memory.read_nil (a : Nat) : Memory.read [] a = none := rfl

@[simp] theorem Memory.write_nil (a : Nat) (v : Byte) : Memory.write [] a v = none := rfl

/-- A write changes no address of the space. -/
theorem Memory.write_addrs {m m' : Memory} {a : Nat} {v : Byte} (h : Memory.write m a v = some m') :
    m'.map (fun cell => cell.1) = m.map (fun cell => cell.1) := by
  induction m generalizing m' with
  | nil => simp at h
  | cons cell rest ih =>
    obtain ⟨k, w⟩ := cell
    simp only [Memory.write] at h
    split at h
    · cases h
      rfl
    · split at h
      · cases h
      next rest' hr =>
        cases h
        simpa using ih hr

/-- An address exists for a write exactly when it exists for a read. -/
theorem Memory.write_isSome (m : Memory) (a : Nat) (v : Byte) :
    (Memory.write m a v).isSome = (Memory.read m a).isSome := by
  induction m with
  | nil => rfl
  | cons cell rest ih =>
    obtain ⟨k, w⟩ := cell
    simp only [Memory.write, Memory.read]
    split
    · rfl
    · rw [← ih]
      split <;> simp_all

/-- A read after a write to the same address gives the value written. -/
theorem Memory.read_write_same {m m' : Memory} {a : Nat} {v : Byte} (h : Memory.write m a v = some m') :
    Memory.read m' a = some v := by
  induction m generalizing m' with
  | nil => simp at h
  | cons cell rest ih =>
    obtain ⟨k, w⟩ := cell
    simp only [Memory.write] at h
    split at h
    next hk =>
      cases h
      simp [Memory.read, hk]
    next hk =>
      split at h
      · cases h
      next rest' hr =>
        cases h
        simpa [Memory.read, hk] using ih hr

/-- A write leaves every other address alone. -/
theorem Memory.read_write_other {m m' : Memory} {a a' : Nat} {v : Byte} (h : Memory.write m a v = some m')
    (ha : a' ≠ a) : Memory.read m' a' = Memory.read m a' := by
  induction m generalizing m' with
  | nil => simp at h
  | cons cell rest ih =>
    obtain ⟨k, w⟩ := cell
    simp only [Memory.write] at h
    split at h
    next hk =>
      cases h
      have : ¬ k = a' := fun hka => ha (by rw [← hka, hk])
      simp [Memory.read, this]
    next hk =>
      split at h
      · cases h
      next rest' hr =>
        cases h
        simp only [Memory.read]
        split
        · rfl
        · exact ih hr

/-- Being in canonical form says something of the addresses only. -/
theorem Memory.wf_iff_pairwise (m : Memory) : Memory.wf m = true ↔ (m.map (fun cell => cell.1)).Pairwise (· < ·) := by
  induction m with
  | nil => simp [Memory.wf]
  | cons cell rest ih =>
    obtain ⟨k, w⟩ := cell
    simp [Memory.wf, ih, List.pairwise_cons]

/-- A write keeps the canonical form. -/
theorem Memory.write_wf {m m' : Memory} {a : Nat} {v : Byte} (h : Memory.write m a v = some m')
    (hw : Memory.wf m = true) : Memory.wf m' = true := by
  rw [Memory.wf_iff_pairwise, Memory.write_addrs h]
  exact (Memory.wf_iff_pairwise m).1 hw

@[simp] theorem Memory.drawn_addrs (addrs : List Nat) (draw : Nat → Byte) :
    (Memory.drawn addrs draw).map (fun cell => cell.1) = addrs := by
  simp [Memory.drawn, Function.comp_def]

/-- Adding a location to a rising list keeps it rising. -/
theorem insertLoc_pairwise (a : Nat) (xs : List Nat) (h : xs.Pairwise (· < ·)) :
    (insertLoc a xs).Pairwise (· < ·) ∧ ∀ y, y ∈ insertLoc a xs ↔ y = a ∨ y ∈ xs := by
  induction xs with
  | nil => simp [insertLoc]
  | cons x rest ih =>
    obtain ⟨hx, hrest⟩ := List.pairwise_cons.1 h
    obtain ⟨ihp, ihm⟩ := ih hrest
    simp only [insertLoc]
    split
    next hax =>
      refine ⟨List.pairwise_cons.2 ⟨fun y hy => ?_, h⟩, fun y => by simp⟩
      rcases List.mem_cons.1 hy with rfl | hy
      · exact hax
      · exact Nat.lt_trans hax (hx y hy)
    next hax =>
      split
      next heq =>
        subst heq
        exact ⟨h, fun y => by simp⟩
      next hne =>
        refine ⟨List.pairwise_cons.2 ⟨fun y hy => ?_, ihp⟩, fun y => ?_⟩
        · rcases (ihm y).1 hy with rfl | hy
          · omega
          · exact hx y hy
        · simp only [List.mem_cons, ihm]
          tauto

/-- The `IO` map of the reset state is in canonical form. -/
theorem pinLocs_pairwise (p : Params) : (pinLocs p).Pairwise (· < ·) := by
  simp only [pinLocs, Quad.toList, List.foldr]
  exact (insertLoc_pairwise _ _ (insertLoc_pairwise _ _ (insertLoc_pairwise _ _
    (insertLoc_pairwise _ _ List.Pairwise.nil).1).1).1).1

theorem initial_io_wf (p : Params) (epoch : Nat) : Memory.wf (State.initial p epoch).io = true := by
  rw [Memory.wf_iff_pairwise]
  simpa [State.initial] using pinLocs_pairwise p

/-- `State.reset` starts with its spaces in canonical form. -/
theorem reset_io_wf : Memory.wf State.reset.io = true := initial_io_wf _ _

end Sys2Proof.Machine
end

