-- ==== Sys2Proof/Laws/Ops.lean ====
section
/-! SUPPORT. One lemma per shared operation of Machine/Ops.lean, saying once everything it can do when it answers; the
provers cite these instead of unfolding the operations. -/

namespace Sys2Proof.Machine

/-! ## The buffers -/

/-- W3 replaces one slot of the buffer and nothing else. -/
theorem storeSlot_ok {s t : State} {b : BufId} {h : Nat} {v : Byte} (he : s.storeSlot b h v = .ok t) :
    ∃ slots, Memory.write (s.ring b).slots h v = some slots
      ∧ t = s.setRing b { s.ring b with slots := slots } := by
  unfold State.storeSlot at he
  split at he
  · cases he
  next slots hw =>
    cases he
    exact ⟨slots, hw, rfl⟩

/-- A slot that exists can be stored to. -/
theorem storeSlot_of_read {s : State} {b : BufId} {h : Nat} (v : Byte)
    (hr : (Memory.read (s.ring b).slots h).isSome = true) :
    ∃ slots, Memory.write (s.ring b).slots h v = some slots
      ∧ s.storeSlot b h v = .ok (s.setRing b { s.ring b with slots := slots }) := by
  rw [← Memory.write_isSome _ _ v] at hr
  obtain ⟨slots, hs⟩ := Option.isSome_iff_exists.1 hr
  exact ⟨slots, hs, by simp [State.storeSlot, hs]⟩

/-- Q3 answers the byte in the slot. -/
theorem loadSlot_ok {s : State} {b : BufId} {t : Nat} {v : Byte} (he : s.loadSlot b t = .ok v) :
    Memory.read (s.ring b).slots t = some v := by
  unfold State.loadSlot at he
  split at he
  · cases he
  next hr =>
    cases he
    exact hr

/-- `write` either overflows and changes nothing, or stores at `head` and advances it. -/
theorem writeBuf_ok {s t : State} {b : BufId} {v : Byte} {o : Bool} (he : s.writeBuf b v = .ok (o, t)) :
    (s.isFull b = true ∧ o = true ∧ t = s)
      ∨ (s.isFull b = false ∧ o = false ∧ ∃ s1, s.storeSlot b (s.ring b).head v = .ok s1
          ∧ t = s1.publishHead b (s.ring b).head v) := by
  unfold State.writeBuf Ring.writeIndex at he
  split at he
  next hf =>
    cases he
    exact .inl ⟨hf, rfl, rfl⟩
  next hf =>
    split at he
    · cases he
    next s1 hs =>
      cases he
      exact .inr ⟨by simpa using hf, rfl, s1, hs, rfl⟩

/-- `read` either underflows and changes nothing, or answers the byte at `tail` and advances it. -/
theorem readBuf_ok {s t : State} {b : BufId} {r : Option Byte} (he : s.readBuf b = .ok (r, t)) :
    (s.isEmpty b = true ∧ r = none ∧ t = s)
      ∨ (s.isEmpty b = false ∧ ∃ v, r = some v ∧ Memory.read (s.ring b).slots (s.ring b).tail = some v
          ∧ t = s.releaseTail b (s.ring b).tail v) := by
  unfold State.readBuf Ring.readIndex at he
  split at he
  next hf =>
    cases he
    exact .inl ⟨hf, rfl, rfl⟩
  next hf =>
    split at he
    · cases he
    next v hv =>
      cases he
      exact .inr ⟨by simpa using hf, v, rfl, loadSlot_ok hv, rfl⟩

/-- `enqueueByte` is `write` on `tx`, and arms exactly when that succeeds. -/
theorem enqueueByte_ok {s t : State} {v : Byte} {e : Bool} (he : s.enqueueByte v = .ok (e, t)) :
    ∃ s1, s.writeBuf .tx v = .ok (e, s1) ∧ t = if e then s1 else s1.armTx := by
  unfold State.enqueueByte at he
  split at he
  · cases he
  next s1 hw =>
    cases he
    exact ⟨_, hw, rfl⟩
  next s1 hw =>
    cases he
    exact ⟨_, hw, rfl⟩

/-- V1 takes the presented byte out of `RCREG`. -/
theorem consumeRcreg_ok {s t : State} {r : Byte} (he : s.consumeRcreg = .ok (r, t)) :
    s.rcReg = some r ∧ t = { s with rcReg := none } := by
  unfold State.consumeRcreg at he
  split at he
  · cases he
  next hr =>
    cases he
    exact ⟨hr, rfl⟩

/-! ## The pins -/

/-- A pin write replaces the byte at the pin's location and shows the pins. -/
theorem writePin_ok {s t : State} {i : Fin 4} {level : Bool} (he : s.writePin i level = .ok t) :
    ∃ v io, Memory.read s.io (s.cfg.pins.get i).loc = some v
      ∧ Memory.write s.io (s.cfg.pins.get i).loc (pinByte (s.cfg.pins.get i) level v) = some io
      ∧ t = ({ s with io := io } : State).showPins := by
  unfold State.writePin at he
  split at he
  · cases he
  next v hv =>
    split at he
    · cases he
    next io hio =>
      cases he
      exact ⟨v, io, hv, hio, rfl⟩

/-- Pin writes change `io` and `pinOut` and nothing else, and keep the addresses of the map. -/
theorem writePins_ok {row : BitVec 4} {is : List (Fin 4)} {s t : State} (he : s.writePins row is = .ok t) :
    ∃ io seen, t = { s with io := io, pinOut := s.pinOut ++ seen } ∧ seen.length = is.length
      ∧ io.map (fun cell => cell.1) = s.io.map (fun cell => cell.1) := by
  induction is generalizing s with
  | nil =>
    obtain rfl : s = t := by simpa [State.writePins] using he
    exact ⟨s.io, [], by simp, rfl, rfl⟩
  | cons i rest ih =>
    simp only [State.writePins] at he
    split at he
    · cases he
    next s1 h1 =>
      obtain ⟨v, io1, -, hw, rfl⟩ := writePin_ok h1
      obtain ⟨io, seen, rfl, hlen, haddr⟩ := ih he
      refine ⟨io, ({ s with io := io1 } : State).pinLevels :: seen, by simp [State.showPins], by simp [hlen], ?_⟩
      rw [haddr]
      exact Memory.write_addrs hw

/-! ## Admission -/

/-- When a handler nests (R73): in an operation of another component, with nothing but handlers of other kinds below. -/
theorem mayNest_cons {s : State} {i : Instr} {x : Activity} {xs : List Activity} (h : s.irq = x :: xs) :
    mayNest s i = true ↔ s.cfg.nestedInterrupts = true ∧ handlerOf i ≠ none ∧ x.component ≠ componentOf i
      ∧ ∀ y ∈ s.irq, y.handler ≠ none ∧ y.handler ≠ handlerOf i := by
  simp only [mayNest, h, Bool.and_eq_true, List.head?_cons, Option.all_some, List.all_eq_true, bne_iff_ne,
    Option.isSome_iff_ne_none, and_assoc]

/-- With nothing in progress in the interrupt context, only the parameter and the kind of operation decide. -/
theorem mayNest_nil {s : State} {i : Instr} (h : s.irq = []) :
    mayNest s i = (s.cfg.nestedInterrupts && (handlerOf i).isSome) := by
  simp [mayNest, h]

/-- Linking the buffers gives `SerialLink`'s roles, and is refused where one role is held by the wrong agent. -/
theorem Roles.link_eq_some {r r' : Roles} : r.link = some r' ↔ r.linkable = true ∧ r' = linkRoles := by
  unfold Roles.link
  cases r.linkable <;> simp [@eq_comm _ r']

/-- An operation on the buffers of a `SerialLink` that keeps SPSC fixes the four roles of R25. -/
theorem claimRoles_usesLink {r r' : Roles} {i : Instr} (hu : usesLink i = true) (h : claimRoles r i = some r') :
    r.linkable = true ∧ r' = linkRoles := by
  cases i with
  | rbWrite a b v => cases b <;> cases a <;> first | exact Roles.link_eq_some.1 h | cases h | cases hu
  | rbRead a b => cases b <;> cases a <;> first | exact Roles.link_eq_some.1 h | cases h | cases hu
  | rbIsFull a b => cases b <;> first | exact Roles.link_eq_some.1 h | cases hu
  | rbIsEmpty a b => cases b <;> first | exact Roles.link_eq_some.1 h | cases hu
  | slEnqb | slEnqm | slDeqb | slTxrdy | slRxrdy => exact Roles.link_eq_some.1 h
  | ssStart | ssIsfin | ssRelease | ssTick => cases hu

/-- The sequencer's operations claim nothing. -/
theorem claimRoles_ss {i : Instr} (r : Roles) (h : componentOf i = .ss) : claimRoles r i = some r := by
  cases i <;> first | rfl | simp [componentOf] at h

/-- Taking the roles it holds already, an operation other than a direct access of `tx` leaves the state as it was. -/
theorem State.withRoles_self {s : State} {i : Instr} (hw : writesTxDirectly i = false)
    (hr : readsTxDirectly i = false) : s.withRoles i s.roles = s := by
  simp [State.withRoles, hw, hr]

/-- An admitted operation runs in the state with its roles taken, and one that is delivered after `InitDone`. -/
theorem admitRun_ok {s t : State} {i : Instr} (he : admitRun s i = .ok t) :
    (gateOpen i s = true → s.initDone = true) ∧ ∃ roles, claimRoles s.roles i = some roles ∧ t = s.withRoles i roles := by
  unfold admitRun at he
  split at he
  · cases he
  next hi =>
    split at he
    · cases he
    next roles hr =>
      cases he
      exact ⟨fun hg => by simpa [hg] using hi, roles, hr, rfl⟩

/-- The first half of admission holds exactly under its three conditions. -/
theorem admitContext_ok {s : State} {i : Instr} :
    admitContext s i = .ok () ↔ s.cfg.wf = true ∧ i.operandsOk s.cfg = true ∧ mayBegin s i = true := by
  unfold admitContext
  cases s.cfg.wf <;> cases i.operandsOk s.cfg <;> cases mayBegin s i <;> simp

@[simp] theorem outcomeOf_ok (s : State) : outcomeOf (.ok s) = .next s := rfl

@[simp] theorem outcomeOf_error (f : Fault) : outcomeOf (.error f) = .fault f := rfl

theorem outcomeOf_next {r : Except Fault State} {t : State} : outcomeOf r = .next t ↔ r = .ok t := by
  cases r <;> simp [outcomeOf]

/-- An operation that answers a next state was admitted, and was either not delivered or ran its body in the admitted
state. -/
theorem issue_next {s t : State} {i : Instr} {body : State → Except Fault State}
    (he : issue s i body = .next t) :
    admitContext s i = .ok () ∧ ∃ s1, admitRun s i = .ok s1
      ∧ ((gateOpen i s = false ∧ t = s1) ∨ (gateOpen i s = true ∧ body s1 = .ok t)) := by
  unfold issue at he
  split at he
  · cases he
  next hc =>
    split at he
    · cases he
    next s1 hr =>
      refine ⟨hc, s1, hr, ?_⟩
      split at he
      next hg => exact .inr ⟨hg, outcomeOf_next.1 he⟩
      next hg =>
        cases he
        exact .inl ⟨by simpa using hg, rfl⟩

/-- An operation whose condition is raised with its enable at 0 only claims its roles (R196). -/
theorem issue_closed {s s1 : State} {i : Instr} {body : State → Except Fault State}
    (hc : admitContext s i = .ok ()) (hg : gateOpen i s = false) (hr : admitRun s i = .ok s1) :
    issue s i body = .next s1 := by
  simp [issue, hc, hg, hr]

/-- An admitted and delivered operation is its body in the admitted state. -/
theorem issue_admitted {s s1 : State} {i : Instr} {body : State → Except Fault State}
    (hc : admitContext s i = .ok ()) (hg : gateOpen i s = true) (hr : admitRun s i = .ok s1) :
    issue s i body = outcomeOf (body s1) := by
  simp [issue, hc, hg, hr]

end Sys2Proof.Machine
end

