-- ==== Sys2Proof/Laws/PerInstr.lean ====
section
/-! SUPPORT. One statement about every operation as syntax, proved per constructor: its opcode byte selects the row of
the map that carries its mnemonic, and no other row (30_encoding.md R96). -/

namespace Sys2Proof.Laws.OpcodeRow

/-- The rows that an operation's opcode byte selects are exactly the one of its mnemonic. -/
def Statement (i : Instr) : Prop :=
  ((opcodeRows.filter fun row => row.selects (opcodeByte i)).map fun row => row.mnemonic) = [i.mnemonic]

theorem rbWrite (a : Agent) (b : BufId) (value : Byte) : Statement (.rbWrite a b value) := by
  cases a <;> cases b <;> (simp only [Statement, opcodeByte, Instr.mnemonic]; decide)

theorem rbRead (a : Agent) (b : BufId) : Statement (.rbRead a b) := by
  cases a <;> cases b <;> (simp only [Statement, opcodeByte, Instr.mnemonic]; decide)

theorem rbIsFull (a : Agent) (b : BufId) : Statement (.rbIsFull a b) := by
  cases a <;> cases b <;> (simp only [Statement, opcodeByte, Instr.mnemonic]; decide)

theorem rbIsEmpty (a : Agent) (b : BufId) : Statement (.rbIsEmpty a b) := by
  cases a <;> cases b <;> (simp only [Statement, opcodeByte, Instr.mnemonic]; decide)

theorem slEnqb (value : Byte) : Statement (.slEnqb value) := by
  simp only [Statement, opcodeByte, Instr.mnemonic]; decide

theorem slEnqm (bytes : List Byte) : Statement (.slEnqm bytes) := by
  simp only [Statement, opcodeByte, Instr.mnemonic]; decide

theorem slDeqb : Statement .slDeqb := by
  simp only [Statement, opcodeByte, Instr.mnemonic]; decide

theorem slTxrdy : Statement .slTxrdy := by
  simp only [Statement, opcodeByte, Instr.mnemonic]; decide

theorem slRxrdy (r : Byte) : Statement (.slRxrdy r) := by
  simp only [Statement, opcodeByte, Instr.mnemonic]; decide

theorem ssStart (distance : Nat) (dir : Direction) (speed : Nat) : Statement (.ssStart distance dir speed) := by
  simp only [Statement, opcodeByte, Instr.mnemonic]; decide

theorem ssIsfin : Statement .ssIsfin := by
  simp only [Statement, opcodeByte, Instr.mnemonic]; decide

theorem ssRelease : Statement .ssRelease := by
  simp only [Statement, opcodeByte, Instr.mnemonic]; decide

theorem ssTick : Statement .ssTick := by
  simp only [Statement, opcodeByte, Instr.mnemonic]; decide

end Sys2Proof.Laws.OpcodeRow
end

