-- ==== Sys2Proof/Laws/Step.lean ====
section
/-! SUPPORT. What one step and one micro-step of an agent can do, said once. -/

namespace Sys2Proof.Machine

/-- A step of a machine with well-formed parameters is an event, a micro-step of an operation in progress, or the next
command. -/
theorem step_of_wf {s : State} (hw : s.cfg.wf = true) : step s = stepOnce s := by
  simp [step, hw]

/-- A step that answers a next state was taken with well-formed parameters. -/
theorem step_next_wf {s t : State} (h : step s = .next t) : s.cfg.wf = true ∧ stepOnce s = .next t := by
  unfold step at h
  split at h
  next hw => exact ⟨hw, h⟩
  · cases h

/-- The four sources of a step. -/
theorem stepOnce_next {s t : State} (h : stepOnce s = .next t) :
    (∃ ev rest, s.agenda = ev :: rest ∧ handleEvent { s with agenda := rest } ev = .next t)
      ∨ (s.agenda = [] ∧ s.irq ≠ [] ∧ advanceIrq s = .next t)
      ∨ (s.agenda = [] ∧ s.irq = [] ∧ s.main ≠ none ∧ advanceMain s = .next t)
      ∨ (s.agenda = [] ∧ s.irq = [] ∧ s.main = none ∧ runCommand s = .next t) := by
  unfold stepOnce at h
  split at h
  next ev rest ha => exact .inl ⟨ev, rest, ha, h⟩
  next ha =>
    split at h
    next hi => exact .inr (.inl ⟨ha, by simp [hi], h⟩)
    next hi hm => exact .inr (.inr (.inl ⟨ha, hi, by simp [hm], h⟩))
    next hi hm => exact .inr (.inr (.inr ⟨ha, hi, hm, h⟩))

/-- The next command: none is left and nothing changes, or the front of the stream decodes and is executed. -/
theorem runCommand_next {s t : State} (h : runCommand s = .next t) :
    (s.stream = [] ∧ t = s)
      ∨ ∃ i rest, decode s.cfg s.stream = .ok (i, rest) ∧ exec i { s with stream := rest } = .next t := by
  unfold runCommand at h
  split at h
  next hs =>
    cases h
    exact .inl ⟨hs, rfl⟩
  next x bytes hs =>
    split at h
    · cases h
    next i rest hd => exact .inr ⟨i, rest, by rw [hs]; exact hd, h⟩

/-- A micro-step of the mainline: it was admitted, and the operation ended or goes on. -/
theorem advanceMain_next {s t : State} (h : advanceMain s = .next t) :
    ∃ x, s.main = some x ∧ mainMayAdvance s x = true
      ∧ ((∃ s1, microStep s .M x = .ok (s1, none) ∧ t = s1.leaveMain)
        ∨ ∃ s1 x', microStep s .M x = .ok (s1, some x') ∧ t = s1.enterMain x') := by
  unfold advanceMain at h
  split at h
  · cases h
  next x hx =>
    split at h
    next ha =>
      refine ⟨x, hx, ha, ?_⟩
      split at h
      · cases h
      next s1 hm =>
        cases h
        exact .inl ⟨s1, hm, rfl⟩
      next s1 x' hm =>
        cases h
        exact .inr ⟨s1, x', hm, rfl⟩
    · cases h

/-- A micro-step of the interrupt context: its innermost operation ended or goes on. -/
theorem advanceIrq_next {s t : State} (h : advanceIrq s = .next t) :
    ∃ x rest, s.irq = x :: rest
      ∧ ((∃ s1, microStep s .I x = .ok (s1, none) ∧ t = s1.leaveInterrupt)
        ∨ ∃ s1 x', microStep s .I x = .ok (s1, some x') ∧ t = s1.leaveInterrupt.enterInterrupt x') := by
  unfold advanceIrq at h
  split at h
  · cases h
  next x rest hx =>
    refine ⟨x, rest, hx, ?_⟩
    split at h
    · cases h
    next s1 hm =>
      cases h
      exact .inl ⟨s1, hm, rfl⟩
    next s1 x' hm =>
      cases h
      exact .inr ⟨s1, x', hm, rfl⟩

/-- In a quiescent state (R247) both gates are closed: no interrupt-context operation with an enable is still owed. -/
theorem Quiescent.gates_closed {s : State} (h : Quiescent s) :
    gateOpen .slTxrdy s = false ∧ gateOpen .ssTick s = false := h.2

/-- Where the hypotheses of `Ready` hold, the operation is admitted, in the state `State.admitted` names. -/
theorem Ready.admission {s : State} {i : Instr} (h : Ready s i) :
    admitContext s i = .ok () ∧ admitRun s i = .ok (s.admitted i) := by
  obtain ⟨hw, ho, hi, hb, hr⟩ := h
  have hc : s.cfg.wf = true := by
    simp only [State.wf, Bool.and_eq_true] at hw
    exact hw.1.1.1.1.1.1.1.1.1.1
  obtain ⟨roles, hroles⟩ := Option.isSome_iff_exists.1 hr
  exact ⟨admitContext_ok.2 ⟨hc, ho, hb⟩, by simp [admitRun, hi, hroles, State.admitted]⟩

/-- An operation that is ready and whose gate is open is its body in the admitted state. -/
theorem Ready.issue {s : State} {i : Instr} (h : Ready s i) (hg : gateOpen i s = true)
    (body : State → Except Fault State) :
    issue s i body = outcomeOf (body (s.admitted i)) :=
  issue_admitted h.admission.1 hg h.admission.2

end Sys2Proof.Machine
end

