-- ==== Sys2Proof/Tests/Slice0.lean ====
section
/-! SUPPORT. Tests of the model, each on fixed values and about one step or one operation, with expected values from
95_test_vectors.md (the vector is named) or worked out by hand from the rule named; and, for every obligation with
hypotheses, a concrete state and operands that meet them together. -/

namespace Sys2Proof.Tests

open Sys2Proof Sys2Proof.Machine

/-! ## Small states -/

/-- A buffer of four slots. -/
def ring4 (head tail : Nat) : Ring := ⟨[(0, 0x11#8), (1, 0x22#8), (2, 0x33#8), (3, 0x44#8)], head, tail⟩

/-- Initialised, idle, empty, with plain bytes where reset has draws. -/
def calm : State where
  cfg := Params.default
  epoch := 0
  initDone := true
  rings := ⟨ring4 0 0, ring4 0 0⟩
  txArmed := false
  txReg := 0x77#8
  rcReg := none
  currentPhase := 0
  direction := .forward
  previousDirection := .forward
  remainingSteps := 0
  tickPeriod := 7
  timerArmed := false
  tmr := none
  io := [(0, 0xA5#8)]
  txOut := []
  tmrOut := []
  pinOut := []
  replies := []
  errSlot := ⟨3#2, 3#2⟩
  main := none
  irq := []
  ports := ⟨⟨false, false, 0, true, false⟩, ⟨false, false, 0, true, false⟩⟩
  roles := ⟨⟨none, none⟩, ⟨none, none⟩⟩
  directWriteTx := false
  directReadTx := false
  accepted := ⟨[], []⟩
  delivered := ⟨[], []⟩
  agenda := []
  stream := []

/-- `tx` at `head`, `tail`, with the histories of R127 to match. -/
def withTx (head tail : Nat) : State :=
  { calm with
    rings := ⟨ring4 head tail, ring4 0 0⟩
    accepted := ⟨(ring4 head tail).contents 4, []⟩ }

/-- `rx` at `head`, `tail`. -/
def withRx (head tail : Nat) : State :=
  { calm with
    rings := ⟨ring4 0 0, ring4 head tail⟩
    accepted := ⟨[], (ring4 head tail).contents 4⟩ }

/-- A motion in progress: a row next to be asserted, a direction, steps left; the pins of one byte at row 0. -/
def moving (phase : Fin 4) (dir : Direction) (steps : Nat) : State :=
  { calm with currentPhase := phase, direction := dir, remainingSteps := steps, timerArmed := true, io := [(0, 0xA3#8)] }

/-- The next state of an outcome. -/
def nextOf (o : Host.Outcome State Fault Refusal) : Option State :=
  match o with
  | .next t => some t
  | .fault _ => none
  | .refused _ => none

/-- The outcome is a next state. -/
def isNext (o : Host.Outcome State Fault Refusal) : Bool := (nextOf o).isSome

/-- The refusal of an outcome. -/
def refusalOf (o : Host.Outcome State Fault Refusal) : Option Refusal :=
  match o with
  | .next _ => none
  | .fault _ => none
  | .refused r => some r

/-- The fault of an outcome. -/
def faultOf (o : Host.Outcome State Fault Refusal) : Option Fault :=
  match o with
  | .next _ => none
  | .fault f => some f
  | .refused _ => none

/-- The instruction a byte sequence decodes to with the default widths, and the rest. -/
def decoded (bytes : List Byte) : Option (Instr × List Byte) :=
  match decode Params.default bytes with
  | .ok r => some r
  | .error _ => none

/-- The error of a byte sequence that is no command. -/
def illegal (bytes : List Byte) : Option DecodeError :=
  match decode Params.default bytes with
  | .ok _ => none
  | .error e => some e

/-! ## Well-formedness: each check refuses an ill-formed term (R8, R7, R161, R92) -/

theorem test_default_parameters_are_well_formed : Params.default.wf = true := by decide

theorem test_capacity_one_is_refused :
    { Params.default with cTx := 1 }.wf = false ∧ { Params.default with cRx := 1 }.wf = false := by decide

theorem test_row_of_three_pins_is_refused :
    { Params.default with phaseTable := ⟨0b0011#4, 0b0111#4, 0b1100#4, 0b1001#4⟩ }.wf = false := by decide

theorem test_pin_bit_eight_is_refused :
    { Params.default with pins := ⟨⟨0, 0⟩, ⟨0, 1⟩, ⟨0, 2⟩, ⟨0, 8⟩⟩ }.wf = false := by decide

theorem test_shared_pin_is_refused :
    { Params.default with pins := ⟨⟨0, 0⟩, ⟨0, 1⟩, ⟨0, 2⟩, ⟨0, 1⟩⟩ }.wf = false := by decide

theorem test_maximum_rate_outside_its_width_is_refused : { Params.default with maxRate := 65536 }.wf = false := by
  decide

/-- V-SS-12: a table with equal rows is legal. -/
theorem test_equal_rows_are_legal :
    { Params.default with phaseTable := ⟨0b0011#4, 0b0011#4, 0b1100#4, 0b1100#4⟩ }.wf = true := by decide

theorem test_operands_outside_their_widths_are_refused :
    (Instr.ssStart 65536 .forward 0).operandsOk Params.default = false
      ∧ (Instr.ssStart 0 .forward 65536).operandsOk Params.default = false
      ∧ (Instr.ssStart 65535 .forward 65535).operandsOk Params.default = true := by decide

theorem test_message_of_256_bytes_has_no_byte_form :
    (Instr.slEnqm (List.replicate 256 0x00#8)).encodable Params.default = false
      ∧ (Instr.slEnqm (List.replicate 255 0x00#8)).encodable Params.default = true := by
  simp only [Instr.encodable, List.length_replicate]
  decide

theorem test_widths_of_no_whole_bytes_have_no_byte_form :
    (Instr.ssStart 1 .forward 1).encodable { Params.default with wSteps := 12 } = false
      ∧ (Instr.ssStart 1 .forward 1).encodable { Params.default with wRate := 20 } = false := by decide

/-! ## Decoding, words written out bit by bit from R91, R92, R95, R96 (V-EN-1) -/

theorem test_decode_rbWrite :
    decoded [0b00000000#8, 0b01000001#8] = some (.rbWrite .M .tx 0x41#8, [])
      ∧ decoded [0b00101000#8, 0b11111111#8] = some (.rbWrite .I .rx 0xFF#8, []) := by decide

theorem test_decode_rbRead :
    decoded [0b00100001#8] = some (.rbRead .I .tx, []) ∧ decoded [0b00001001#8] = some (.rbRead .M .rx, []) := by decide

theorem test_decode_rbIsFull : decoded [0b00001010#8] = some (.rbIsFull .M .rx, []) := by decide

theorem test_decode_rbIsEmpty : decoded [0b00101011#8] = some (.rbIsEmpty .I .rx, []) := by decide

theorem test_decode_slEnqb : decoded [0b01000000#8, 0b01000001#8] = some (.slEnqb 0x41#8, []) := by decide

theorem test_decode_slEnqm :
    decoded [0b01000001#8, 0b00000010#8, 0b01001000#8, 0b01101001#8] = some (.slEnqm [0x48#8, 0x69#8], [])
      ∧ decoded [0b01000001#8, 0b00000000#8, 0b01000010#8] = some (.slEnqm [], [0x42#8]) := by decide

theorem test_decode_slDeqb : decoded [0b01000010#8] = some (.slDeqb, []) := by decide

theorem test_decode_slTxrdy : decoded [0b01100000#8] = some (.slTxrdy, []) := by decide

theorem test_decode_slRxrdy : decoded [0b01100001#8, 0b00001101#8] = some (.slRxrdy 0x0D#8, []) := by decide

theorem test_decode_ssStart :
    decoded [0b10000000#8, 0b00000011#8, 0b00000000#8, 0b00000001#8, 0b00101100#8, 0b00000001#8]
        = some (.ssStart 3 .backward 300, [])
      ∧ decoded [0b10000000#8, 0b00000000#8, 0b00000001#8, 0b00000000#8, 0b11111111#8, 0b11111111#8]
        = some (.ssStart 256 .forward 65535, []) := by decide

theorem test_decode_ssIsfin : decoded [0b10000001#8] = some (.ssIsfin, []) := by decide

theorem test_decode_ssRelease : decoded [0b10000010#8] = some (.ssRelease, []) := by decide

theorem test_decode_ssTick : decoded [0b10100000#8] = some (.ssTick, []) := by decide

/-- V-EN-2, each illegal command by its reason. -/
theorem test_illegal_opcodes :
    illegal [0xC0#8] = some .reservedUnit ∧ illegal [0x10#8] = some .reservedBit
      ∧ illegal [0x04#8] = some .unusedFunction ∧ illegal [0x48#8] = some .reservedSelect
      ∧ illegal [0x43#8] = some .unusedFunction ∧ illegal [0x62#8] = some .unusedFunction
      ∧ illegal [0x83#8] = some .unusedFunction ∧ illegal [0xA1#8] = some .unusedFunction
      ∧ illegal [0x88#8] = some .reservedSelect := by decide

/-- V-EN-2: the bad `dir` byte and the truncated commands. -/
theorem test_illegal_operands :
    illegal [0x80#8, 0x04#8, 0x00#8, 0x02#8, 0x64#8, 0x00#8] = some .badDirection
      ∧ illegal [0x40#8] = some .truncated ∧ illegal [0x41#8, 0x03#8, 0x48#8, 0x69#8] = some .truncated
      ∧ illegal [0x80#8, 0x04#8] = some .truncated ∧ illegal [] = some .empty := by decide

/-- R92: with other widths format `S` has no byte form. -/
theorem test_no_byte_form :
    (match decode { Params.default with wSteps := 12 } [0x80#8, 0x00#8] with
      | .error e => e == .noByteForm
      | .ok _ => false) = true := by decide

/-- A table word: `SS.START 3, BACKWARD, 300` as one number, first byte lowest. -/
theorem test_decodeTableWord :
    decodeTableWord 48 0x012C01000380 = some (.ssStart 3 .backward 300)
      ∧ decodeTableWord 16 0xFF28 = some (.rbWrite .I .rx 0xFF#8) ∧ decodeTableWord 8 0xC0 = none := by decide

/-- The placed word is the first thing that runs after reset. -/
theorem test_placed_word_runs :
    (nextOf (step (State.reset.withFetchWord 8 0x42))).map (fun t => (t.replies, t.stream))
      = some ([(.M, .errByte true 0x00#8)], []) := by decide

/-! ## One operation -/

/-- R121's worked example: head 3 wraps to 0. -/
theorem test_rbWrite_wraps :
    (nextOf (exec (.rbWrite .M .tx 0x5A#8) (withTx 3 1))).map (fun t => (t.rings.tx, t.replies))
      = some (⟨[(0, 0x11#8), (1, 0x22#8), (2, 0x33#8), (3, 0x5A#8)], 0, 1⟩, [(.M, .status .ok)]) := by decide

/-- V-RB-2: a full buffer keeps every slot. -/
theorem test_rbWrite_overflows :
    (nextOf (exec (.rbWrite .M .tx 0x5A#8) (withTx 3 0))).map (fun t => (t.rings.tx, t.replies, t.errSlot))
      = some (ring4 3 0, [(.M, .status .overflow)], ⟨1#2, 3#2⟩) := by decide

/-- R123 with tail 3, which wraps to 0. -/
theorem test_rbRead_wraps :
    (nextOf (exec (.rbRead .I .tx) (withTx 0 3))).map (fun t => (t.rings.tx, t.replies))
      = some (ring4 0 0, [(.I, .statusByte .ok 0x44#8)]) := by decide

/-- V-RB-3. -/
theorem test_rbRead_underflows :
    (nextOf (exec (.rbRead .I .tx) calm)).map (fun t => (t.rings.tx, t.replies, t.errSlot))
      = some (ring4 0 0, [(.I, .statusByte .underflow 0x00#8)], ⟨3#2, 2#2⟩) := by decide

/-- V-RB-8: `head = 0, tail = 1` is full. -/
theorem test_rbIsFull :
    (nextOf (exec (.rbIsFull .M .tx) (withTx 0 1))).map (fun t => t.replies) = some [(.M, .bit true)] := by decide

/-- V-RB-8: `head = 2, tail = 2` is empty. -/
theorem test_rbIsEmpty :
    (nextOf (exec (.rbIsEmpty .I .rx) (withRx 2 2))).map (fun t => t.replies) = some [(.I, .bit true)] := by decide

/-- R140's worked example. -/
theorem test_slEnqb_arms :
    (nextOf (exec (.slEnqb 0x41#8) calm)).map (fun t => (Memory.read t.rings.tx.slots 0, t.rings.tx.head, t.txArmed))
      = some (some 0x41#8, 1, true) := by decide

/-- V-SL-2: overflow surfaces the error without arming. -/
theorem test_slEnqb_overflows :
    (nextOf (exec (.slEnqb 0x34#8) (withTx 3 0))).map (fun t => (t.rings.tx, t.txArmed, t.replies, t.errSlot.m))
      = some (ring4 3 0, false, [(.M, .err true)], 1#2) := by decide

/-- V-SL-4. -/
theorem test_slEnqm_hi :
    (nextOf (exec (.slEnqm [0x48#8, 0x69#8]) calm)).map (fun t => (t.rings.tx, t.txArmed, t.replies))
      = some (⟨[(0, 0x48#8), (1, 0x69#8), (2, 0x33#8), (3, 0x44#8)], 2, 0⟩, true, [(.M, .err false)]) := by decide

/-- R141: a full buffer holds the message; it has returned nothing. -/
theorem test_slEnqm_is_held :
    (nextOf (exec (.slEnqm [0x48#8, 0x69#8]) (withTx 2 0))).map (fun t => (t.rings.tx.head, t.main, t.replies))
      = some (3, some (.slEnqm [0x69#8] false .l1), []) := by decide

/-- R142's worked example, with this state's byte. -/
theorem test_slDeqb :
    (nextOf (exec .slDeqb (withRx 1 0))).map (fun t => (t.replies, t.rings.rx.tail, t.isEmpty .rx))
      = some ([(.M, .errByte false 0x11#8)], 1, true) := by decide

/-- V-SL-3, the first line. -/
theorem test_slDeqb_underflows :
    (nextOf (exec .slDeqb calm)).map (fun t => (t.replies, t.rings.rx, t.errSlot.m))
      = some ([(.M, .errByte true 0x00#8)], ring4 0 0, 1#2) := by decide

/-- R143's worked example: the last byte leaves the interrupt armed. -/
theorem test_slTxrdy_transmits :
    (nextOf (exec .slTxrdy { withTx 1 0 with txArmed := true })).map (fun t => (t.txReg, t.txOut, t.rings.tx.tail, t.txArmed))
      = some (0x11#8, [0x11#8], 1, true) := by decide

/-- R143's worked example: the next invocation disarms and reads nothing. -/
theorem test_slTxrdy_disarms :
    (nextOf (exec .slTxrdy { withTx 1 1 with txArmed := true })).map (fun t => (t.txReg, t.txOut, t.rings.tx.tail, t.txArmed))
      = some (0x77#8, [], 1, false) := by decide

/-- R144's worked example. -/
theorem test_slRxrdy_stores :
    (nextOf (exec (.slRxrdy 0x0D#8) calm)).map (fun t => (Memory.read t.rings.rx.slots 0, t.rings.rx.head, t.rcReg))
      = some (some 0x0D#8, 1, none) := by decide

/-- V-SL-3: the drop changes nothing and tells nobody. -/
theorem test_slRxrdy_drops :
    (nextOf (exec (.slRxrdy 0x64#8) (withRx 3 0))).map (fun t => (t.rings.rx, t.replies, t.errSlot, t.rcReg))
      = some (ring4 3 0, [], ⟨3#2, 3#2⟩, none) := by decide

/-- R161's worked example: `startMotion(4, BACKWARD, 100)` from phase 0 forward. -/
theorem test_ssStart_reverses :
    (nextOf (exec (.ssStart 4 .backward 100) calm)).map
        (fun t => (t.previousDirection, t.remainingSteps, t.direction, t.currentPhase, t.timerArmed))
      = some (.forward, 4, .backward, 3, true) := by decide

/-- V-SS-6: a zero distance arms all the same, and V-SS-5: the speed is clamped to 200. -/
theorem test_ssStart_clamps_and_arms :
    clampRate Params.default 1000 = 200 ∧ clampRate Params.default 200 = 200 ∧ clampRate Params.default 0 = 0
      ∧ (nextOf (exec (.ssStart 0 .forward 100) calm)).map (fun t => (t.seqMode, t.currentPhase, t.tmrOut.length))
        = some (.draining, 0, 1) := by decide

/-- R163's worked example, before the last tick and at rest. -/
theorem test_ssIsfin :
    (nextOf (exec .ssIsfin (moving 0 .forward 1))).map (fun t => t.replies) = some [(.M, .bit false)]
      ∧ (nextOf (exec .ssIsfin calm)).map (fun t => t.replies) = some [(.M, .bit true)] := by decide

/-- R164: the four pins go low one by one, the upper half of the byte stays, the motion goes on. -/
theorem test_ssRelease :
    (nextOf (exec .ssRelease (moving 0 .forward 5))).map (fun t => (t.io, t.pinOut, t.remainingSteps, t.timerArmed))
      = some ([(0, 0xA0#8)], [0b0010#4, 0b0000#4, 0b0000#4, 0b0000#4], 5, true) := by decide

/-- R165's worked example. -/
theorem test_ssTick_last_step_backward :
    (nextOf (exec .ssTick (moving 2 .backward 1))).map
        (fun t => (t.pinLevels, t.currentPhase, t.remainingSteps, t.timerArmed, t.tmrOut))
      = some (0b1100#4, 1, 0, false, [7]) := by decide

/-- V-SS-11: row 0 to row 1, and V-SS-6: the count saturates at 0. -/
theorem test_ssTick_patterns :
    (nextOf (exec .ssTick (moving 1 .forward 0))).map (fun t => (t.pinOut, t.io, t.remainingSteps, t.timerArmed))
      = some ([0b0010#4, 0b0010#4, 0b0110#4, 0b0110#4], [(0, 0xA6#8)], 0, false) := by decide

/-! ## One step under a schedule -/

/-- SCH10 of 95_test_vectors.md: a mainline operation inside a handler is refused. -/
theorem test_mainline_inside_handler_is_refused :
    refusalOf (step { calm with irq := [.slTxrdy .x1], agenda := [.start (.slEnqb 0x41#8)] })
      = some .mainlineInsideHandler := by decide

/-- SCH11: a second writer of one buffer is refused. -/
theorem test_second_writer_is_refused :
    refusalOf (exec (.rbWrite .I .tx 0xBB#8) { calm with roles := ⟨⟨some .M, none⟩, ⟨none, none⟩⟩ })
      = some .spscViolation := by decide

/-- R102: from reset, the wrong agent on `rx`, which only a `SerialLink` has. -/
theorem test_wrong_agent_on_rx_is_refused :
    refusalOf (exec (.rbWrite .M .rx 0x41#8) calm) = some .spscViolation
      ∧ refusalOf (exec (.rbRead .I .rx) calm) = some .spscViolation
      ∧ isNext (exec (.rbWrite .I .rx 0x41#8) calm) = true ∧ isNext (exec (.rbRead .M .rx) calm) = true := by decide

/-- R102: after `RB.WRITE@I tx` (legal on a bare FIFO) a `SerialLink` condition is refused though its gate is closed, and
after such a condition, or after any operation on `rx`, `RB.WRITE@I tx` is. -/
theorem test_bare_and_linked_buffers_do_not_mix :
    ((nextOf (exec (.rbWrite .I .tx 0x41#8) calm)).bind fun t => refusalOf (exec .slTxrdy t)) = some .spscViolation
      ∧ ((nextOf (exec .slTxrdy calm)).bind fun t => refusalOf (exec (.rbWrite .I .tx 0x41#8) t)) = some .spscViolation
      ∧ ((nextOf (exec (.rbIsFull .M .rx) calm)).bind fun t => refusalOf (exec (.rbWrite .I .tx 0x41#8) t))
        = some .spscViolation := by decide

/-- R73: a tick nests inside `onTransmitReady` when the parameter says so, and waits for it when not. -/
theorem test_nesting :
    (nextOf (step { calm with timerArmed := true, irq := [.slTxrdy .x1], agenda := [.start .ssTick] })).map
        (fun t => (t.irq, t.agenda)) = some ([.slTxrdy .x4], [.start .ssTick])
      ∧ (nextOf (step { calm with
          cfg := { Params.default with nestedInterrupts := true }
          timerArmed := true, irq := [.slTxrdy .x1], agenda := [.start .ssTick] })).map
        (fun t => (t.irq, t.agenda)) = some ([.ssTick .t1, .slTxrdy .x1], []) := by decide

/-- R73: `onReceiveReady` nests in a tick that preempted `onTransmitReady`, which is of another component than the tick,
and so does `onTransmitReady` in a tick that preempted `onReceiveReady`. -/
theorem test_nesting_three_deep :
    (let s : State := { calm with
      cfg := { Params.default with nestedInterrupts := true }
      txArmed := true, irq := [.ssTick .t1, .slTxrdy .x1], agenda := [.start (.slRxrdy 0x0D#8)] }
     (nextOf (step s)).map (fun t => (t.irq, t.agenda, t.rcReg))
       = some ([.slRxrdy .v1, .ssTick .t1, .slTxrdy .x1], [], some 0x0D#8))
    ∧ (let s : State := { calm with
      cfg := { Params.default with nestedInterrupts := true }
      txArmed := true, irq := [.ssTick .t1, .slRxrdy (.v2 0x0D#8)], agenda := [.start .slTxrdy] }
       (nextOf (step s)).map (fun t => (t.irq, t.agenda))
         = some ([.slTxrdy .x1, .ssTick .t1, .slRxrdy (.v2 0x0D#8)], [])) := by decide

/-- R73: no operation nests in one of its own component, nor while an invocation of itself is in progress further out. -/
theorem test_nesting_refused :
    (let s : State := { calm with cfg := { Params.default with nestedInterrupts := true }, irq := [.slTxrdy .x1] }
     mayNest s (.slRxrdy 0x0D#8) = false)
    ∧ (let s : State := { calm with
      cfg := { Params.default with nestedInterrupts := true }, irq := [.ssTick .t1, .slTxrdy .x1] }
       mayNest s .slTxrdy = false ∧ mayNest s .ssTick = false) := by decide

/-- R247: quiescent inside `onReceiveReady`, not with a timer armed, not inside a mainline operation. -/
theorem test_quiescent :
    Quiescent { calm with irq := [.slRxrdy (.v2 0x0D#8)] } ∧ ¬ Quiescent (moving 0 .forward 1)
      ∧ ¬ Quiescent { calm with main := some .ssIsfin } := by decide

/-- W3 before W4 (R74): after the store and before the publication the buffer is still empty for the reader. -/
theorem test_store_before_publish :
    (nextOf (step { calm with main := some (.rbWrite .tx 0x5A#8 (.w3 0)), agenda := [.advance .M] })).map
        (fun t => (Memory.read t.rings.tx.slots 0, t.isEmpty .tx, t.main))
      = some (some 0x5A#8, true, some (.rbWrite .tx 0x5A#8 (.w4 0))) := by decide

/-- R221: reset ends what was in progress and empties the buffers. -/
theorem test_reset_event :
    (nextOf (step { withTx 2 0 with main := some .ssIsfin, agenda := [.rst, .init] })).map
        (fun t => (t.isEmpty .tx, t.main, t.initDone, t.agenda)) = some (true, none, false, [.init]) := by decide

/-- R40: a request on a full buffer shows on `w_full` and `w_ovf`. -/
theorem test_write_port_overflows :
    (nextOf (step { withTx 3 0 with agenda := [.wclk .tx true 0x5A#8] })).map (fun t => (t.ports.tx.wFull, t.ports.tx.wOvf))
      = some (true, true) := by decide

/-- The faults of states no run reaches. -/
theorem test_faults_outside_the_invariant :
    faultOf (step { calm with irq := [.slRxrdy .v1] }) = some .rcregEmpty
      ∧ faultOf (step { calm with main := some (.ssRelease 0), io := [] }) = some (.ioAbsent 0)
      ∧ faultOf (step { calm with main := some (.rbWrite .tx 0x00#8 (.w3 9)) }) = some (.ringIndex .tx 9) := by decide

/-! ## Witnesses: for every obligation with hypotheses, a state and operands that meet them all

The name is `witness_` and the obligation's name; where an obligation has several clauses, each clause has its case. -/

/-- The longest message and the largest operands have a byte form. -/
theorem witness_DecodeOfEncodeIsTheOperation :
    (Instr.ssStart 65535 .backward 65535).encodable Params.default = true
      ∧ (Instr.rbWrite .I .rx 0xFF#8).encodable Params.default = true
      ∧ (Instr.slEnqm (List.replicate 255 0xFF#8)).encodable Params.default = true :=
  ⟨by decide, by decide, by simp only [Instr.encodable, List.length_replicate]; decide⟩

theorem witness_EncodeOfDecodeIsTheBytes :
    decoded [0x28#8, 0xFF#8, 0x42#8] = some (.rbWrite .I .rx 0xFF#8, [0x42#8]) := by decide

theorem witness_OpcodesAreTheRowsOfTheMap :
    (⟨"RB.WRITE", 0x00#8, 0xD7#8⟩ : OpcodeRow) ∈ opcodeRows
      ∧ (⟨"RB.WRITE", 0x00#8, 0xD7#8⟩ : OpcodeRow).selects 0x28#8 = true := by decide

theorem witness_IllegalCommandIsRefused :
    ∃ s : State, s.cfg.wf = true ∧ Idle s ∧ s.stream ≠ [] ∧ decode s.cfg s.stream = .error .reservedUnit :=
  ⟨{ calm with stream := [0xC0#8] }, by decide, by decide, by decide, rfl⟩

theorem witness_StepRunsTheNextCommand :
    (let s : State := { calm with stream := [0x61#8, 0x0D#8, 0x42#8] }
     s.cfg.wf = true ∧ Idle s ∧ (Instr.slRxrdy 0x0D#8).encodable s.cfg = true
        ∧ s.stream = encode s.cfg (.slRxrdy 0x0D#8) ++ [0x42#8]) := by decide

theorem witness_PlacedWordIsWhatStepRuns :
    State.reset.cfg = Params.default ∧ decodeTableWord 16 0xFF28 = some (.rbWrite .I .rx 0xFF#8) := by decide

/-- Either of the two operations is no bare FIFO operation. -/
theorem witness_MainlineIsHeldDuringAnInterruptOperation :
    (let s : State := { calm with main := some (.slDeqb .q1), irq := [.rbRead .tx .q1], agenda := [.advance .M] }
     s.cfg.wf = true ∧ s.agenda = [.advance .M] ∧ s.main = some (.slDeqb .q1) ∧ s.irq = [.rbRead .tx .q1]
        ∧ (Activity.slDeqb .q1).isRb = false)
    ∧ (let s : State := { calm with main := some (.rbRead .rx .q1), irq := [.ssTick .t1], agenda := [.advance .M] }
       s.cfg.wf = true ∧ s.agenda = [.advance .M] ∧ s.main = some (.rbRead .rx .q1) ∧ s.irq = [.ssTick .t1]
        ∧ (Activity.ssTick .t1).isRb = false) := by decide

theorem witness_MainlineBeginsOnlyWhenFree :
    (let s : State := { calm with main := some .ssIsfin, agenda := [.start .slDeqb] }
     s.cfg.wf = true ∧ Instr.slDeqb.operandsOk s.cfg = true ∧ issuer .slDeqb = .M ∧ s.main = some .ssIsfin
        ∧ s.agenda = [.start .slDeqb])
    ∧ (let s : State := { calm with irq := [.rbRead .tx .q1], agenda := [.start .slDeqb] }
       s.cfg.wf = true ∧ Instr.slDeqb.operandsOk s.cfg = true ∧ s.main = none ∧ s.irq = [.rbRead .tx .q1]
        ∧ componentOf .slDeqb ≠ .rb ∧ s.agenda = [.start .slDeqb])
    ∧ (let s : State := { calm with irq := [.ssTick .t1], agenda := [.start (.rbRead .M .rx)] }
       s.cfg.wf = true ∧ (Instr.rbRead .M .rx).operandsOk s.cfg = true ∧ issuer (.rbRead .M .rx) = .M ∧ s.main = none
        ∧ s.irq = [.ssTick .t1] ∧ (Activity.ssTick .t1).isRb = false ∧ s.agenda = [.start (.rbRead .M .rx)]) := by
  decide

/-- The waiting clause without nesting and for an operation's own invocation, and the nesting clause two and three
deep. -/
theorem witness_RaiseDuringAHandlerWaits :
    (let s : State := { calm with irq := [.slTxrdy .x1], agenda := [.start .ssTick] }
     s.cfg.wf = true ∧ issuer .ssTick = .I ∧ s.agenda = [.start .ssTick] ∧ s.irq = [.slTxrdy .x1]
        ∧ mayNest s .ssTick = false)
    ∧ (let s : State := { calm with
          cfg := { Params.default with nestedInterrupts := true }, irq := [.ssTick .t1], agenda := [.start .ssTick] }
       s.cfg.wf = true ∧ s.agenda = [.start .ssTick] ∧ mayNest s .ssTick = false)
    ∧ (let s : State := { calm with
          cfg := { Params.default with nestedInterrupts := true }
          timerArmed := true, irq := [.slTxrdy .x1], agenda := [.start .ssTick] }
       s.cfg.wf = true ∧ s.agenda = [.start .ssTick] ∧ s.irq = [.slTxrdy .x1] ∧ s.cfg.nestedInterrupts = true
        ∧ handlerOf .ssTick ≠ none ∧ componentOf .ssTick ≠ (Activity.slTxrdy .x1).component
        ∧ (∀ y ∈ s.irq, y.handler ≠ none ∧ y.handler ≠ handlerOf .ssTick)
        ∧ s.initDone = true ∧ gateOpen .ssTick s = true ∧ (claimRoles s.roles .ssTick).isSome = true)
    ∧ (let s : State := { calm with
          cfg := { Params.default with nestedInterrupts := true }
          irq := [.ssTick .t1, .slTxrdy .x1], agenda := [.start (.slRxrdy 0x0D#8)] }
       s.cfg.wf = true ∧ s.agenda = [.start (.slRxrdy 0x0D#8)] ∧ s.cfg.nestedInterrupts = true
        ∧ handlerOf (.slRxrdy 0x0D#8) ≠ none ∧ componentOf (.slRxrdy 0x0D#8) ≠ (Activity.ssTick .t1).component
        ∧ (∀ y ∈ s.irq, y.handler ≠ none ∧ y.handler ≠ handlerOf (.slRxrdy 0x0D#8))
        ∧ s.initDone = true ∧ gateOpen (.slRxrdy 0x0D#8) s = true
        ∧ (claimRoles s.roles (.slRxrdy 0x0D#8)).isSome = true) := by decide

theorem witness_StepKeepsOneHandlerAtATime :
    (let s : State := { calm with irq := [.ssTick .t1] }
     s.cfg.nestedInterrupts = false ∧ s.irq.length ≤ 1 ∧ isNext (step s) = true) := by decide

theorem witness_OperationBeforeInitIsRefused :
    (let s : State := { calm with initDone := false, agenda := [.start .ssIsfin] }
     s.agenda = [.start .ssIsfin] ∧ s.cfg.wf = true ∧ Instr.ssIsfin.operandsOk s.cfg = true ∧ mayBegin s .ssIsfin = true ∧ gateOpen .ssIsfin s = true
        ∧ s.initDone = false) := by decide

/-- Each clause: the wrong writer and the wrong reader, on `tx` by what was claimed and on `rx` always; the four wrong
holders for the operations on the buffers of a `SerialLink`, one of them with its gate closed; and operations that run. -/
theorem witness_BreakingSpscIsRefused :
    (let s : State := { calm with
      roles := ⟨⟨some .M, none⟩, ⟨some .I, none⟩⟩, agenda := [.start (.rbWrite .I .tx 0x00#8)] }
     s.agenda = [.start (.rbWrite .I .tx 0x00#8)] ∧ s.cfg.wf = true ∧ s.initDone = true
        ∧ mayBegin s (.rbWrite .I .tx 0x00#8) = true ∧ s.roles.producer.get .tx = some (otherAgent .I)
        ∧ mayBegin s (.rbRead .M .tx) = true ∧ s.roles.consumer.get .tx = some (otherAgent .M)
        ∧ isNext (exec (.rbWrite .M .tx 0x00#8) s) = true ∧ isNext (exec (.rbRead .I .tx) s) = true)
    ∧ (let s : State := { calm with agenda := [.start (.rbWrite .M .rx 0x00#8)] }
       s.cfg.wf = true ∧ s.initDone = true ∧ mayBegin s (.rbWrite .M .rx 0x00#8) = true
        ∧ mayBegin s (.rbRead .I .rx) = true ∧ isNext (exec (.rbWrite .I .rx 0x00#8) s) = true)
    ∧ (let s : State := { calm with roles := ⟨⟨some .I, none⟩, ⟨none, none⟩⟩ }
       s.cfg.wf = true ∧ s.initDone = true ∧ usesLink (.slEnqb 0x00#8) = true ∧ mayBegin s (.slEnqb 0x00#8) = true
        ∧ usesLink .slTxrdy = true ∧ mayBegin s .slTxrdy = true ∧ s.txArmed = false ∧ s.roles.producer.tx = some .I)
    ∧ (let s : State := { calm with roles := ⟨⟨none, none⟩, ⟨some .M, none⟩⟩ }
       usesLink (.rbIsFull .M .rx) = true ∧ mayBegin s (.rbIsFull .M .rx) = true ∧ s.roles.consumer.tx = some .M)
    ∧ (let s : State := { calm with roles := ⟨⟨none, some .M⟩, ⟨none, none⟩⟩ }
       usesLink (.slRxrdy 0x0D#8) = true ∧ mayBegin s (.slRxrdy 0x0D#8) = true ∧ s.roles.producer.rx = some .M)
    ∧ (let s : State := { calm with roles := ⟨⟨none, none⟩, ⟨none, some .I⟩⟩ }
       usesLink .slDeqb = true ∧ mayBegin s .slDeqb = true ∧ mayBegin s (.slEnqm [0x01#8]) = true
        ∧ s.roles.consumer.rx = some .I)
    ∧ isNext (exec (.slEnqm [0x01#8]) calm) = true ∧ isNext (exec (.rbIsEmpty .I .rx) calm) = true := by decide

/-- The smallest capacity, at both ends of the count. -/
theorem witness_FullAndEmptyAreTheEndsOfTheCount :
    Ring.wf 2 ⟨[(0, 0x00#8), (1, 0x00#8)], 1, 0⟩ = true ∧ Ring.full 2 ⟨[(0, 0x00#8), (1, 0x00#8)], 1, 0⟩ = true
      ∧ Ring.wf 2 ⟨[(0, 0x00#8), (1, 0x00#8)], 1, 1⟩ = true ∧ Ring.empty ⟨[(0, 0x00#8), (1, 0x00#8)], 1, 1⟩ = true := by
  decide

theorem witness_RbWriteStoresAtHeadOrOverflows :
    (Ready (withTx 3 1) (.rbWrite .M .tx 0x5A#8) ∧ (withTx 3 1).isFull .tx = false)
      ∧ (Ready (withTx 3 0) (.rbWrite .M .tx 0x5A#8) ∧ (withTx 3 0).isFull .tx = true) := by decide

theorem witness_RbReadTakesTheByteAtTail :
    (Ready (withTx 0 3) (.rbRead .I .tx) ∧ (withTx 0 3).isEmpty .tx = false)
      ∧ (Ready calm (.rbRead .I .tx) ∧ calm.isEmpty .tx = true) := by decide

theorem witness_RbPredicatesOnlyAnswer :
    Ready (withTx 3 0) (.rbIsFull .I .tx) ∧ Ready calm (.rbIsEmpty .M .rx) := by decide

theorem witness_EnqbQueuesAndArmsOrFails :
    (Ready (withTx 3 1) (.slEnqb 0x41#8) ∧ (withTx 3 1).isFull .tx = false)
      ∧ (Ready (withTx 3 0) (.slEnqb 0x41#8) ∧ (withTx 3 0).isFull .tx = true) := by decide

/-- The message that just fits, and the empty one on a full buffer. -/
theorem witness_EnqmQueuesAMessageThatFits :
    (Ready calm (.slEnqm [0x01#8, 0x02#8, 0x03#8]) ∧ [0x01#8, 0x02#8, 0x03#8].length ≤ (calm.ring .tx).room (calm.cap .tx))
      ∧ (Ready (withTx 3 0) (.slEnqm []) ∧ ([] : List Byte).length ≤ ((withTx 3 0).ring .tx).room ((withTx 3 0).cap .tx)) := by
  decide

/-- One byte too many, and a message on a full buffer. -/
theorem witness_EnqmIsHeldOnAFullBuffer :
    (Ready calm (.slEnqm [0x01#8, 0x02#8, 0x03#8, 0x04#8]) ∧ 3 = (calm.ring .tx).room (calm.cap .tx))
      ∧ (Ready (withTx 3 0) (.slEnqm [0x01#8]) ∧ 0 = ((withTx 3 0).ring .tx).room ((withTx 3 0).cap .tx)) := by decide

theorem witness_EnqmSplitsIntoTwoCalls :
    Ready calm (.slEnqm ([0x01#8] ++ [0x02#8, 0x03#8]))
      ∧ ([0x01#8] ++ [0x02#8, 0x03#8]).length ≤ (calm.ring .tx).room (calm.cap .tx) := by decide

theorem witness_HeldMessagePollsUntilThereIsRoom :
    (let s : State := { withTx 3 0 with main := some (.slEnqm [0x5A#8] false .l1) }
     s.cfg.wf = true ∧ s.agenda = [] ∧ s.irq = [] ∧ s.main = some (.slEnqm [0x5A#8] false .l1) ∧ s.isFull .tx = true)
    ∧ (let s : State := { withTx 2 0 with main := some (.slEnqm [0x5A#8] false .l1) }
       s.cfg.wf = true ∧ s.agenda = [] ∧ s.irq = [] ∧ s.main = some (.slEnqm [0x5A#8] false .l1)
        ∧ s.isFull .tx = false) := by decide

theorem witness_DeqbTakesAByteOfRx :
    (Ready (withRx 0 3) .slDeqb ∧ (withRx 0 3).isEmpty .rx = false) ∧ (Ready calm .slDeqb ∧ calm.isEmpty .rx = true) := by
  decide

theorem witness_TxrdyTransmitsOrDisarms :
    (let s : State := { withTx 0 3 with txArmed := true }
     Ready s .slTxrdy ∧ s.txArmed = true ∧ s.isEmpty .tx = false)
    ∧ (let s : State := { calm with txArmed := true }
       Ready s .slTxrdy ∧ s.txArmed = true ∧ s.isEmpty .tx = true) := by decide

theorem witness_ClosedGateDeliversNothing :
    (let s : State := { calm with agenda := [.start .slTxrdy] }
     s.wf = true ∧ s.roles.linkable = true ∧ mayBegin s .slTxrdy = true ∧ s.txArmed = false ∧ s.agenda = [.start .slTxrdy])
    ∧ (let s : State := { calm with agenda := [.start .ssTick] }
       s.wf = true ∧ mayBegin s .ssTick = true ∧ s.timerArmed = false ∧ s.agenda = [.start .ssTick]) := by decide

theorem witness_RxrdyStoresOrDrops :
    (Ready (withRx 3 1) (.slRxrdy 0x0D#8) ∧ (withRx 3 1).isFull .rx = false)
      ∧ (Ready (withRx 3 0) (.slRxrdy 0x0D#8) ∧ (withRx 3 0).isFull .rx = true) := by decide

theorem witness_EnqueueDrainDisarmFromReset :
    Params.default.wf = true ∧ { Params.default with cTx := 2 }.wf = true := by decide

/-- No reversal, a reversal, and the largest operands. -/
theorem witness_StartMotionSetsTheMotion :
    Ready calm (.ssStart 0 .forward 0) ∧ Ready calm (.ssStart 65535 .backward 65535) := by decide

theorem witness_IsFinishedOnlyAnswers : Ready calm .ssIsfin ∧ Ready (moving 0 .forward 1) .ssIsfin := by decide

theorem witness_ReleaseClearsTheFourPins : Ready calm .ssRelease ∧ Ready (moving 0 .forward 1) .ssRelease := by decide

/-- The last step, and a tick with nothing left. -/
theorem witness_TickAssertsTheRowAndCountsDown :
    (Ready (moving 3 .forward 1) .ssTick ∧ (moving 3 .forward 1).timerArmed = true)
      ∧ (Ready (moving 0 .backward 0) .ssTick ∧ (moving 0 .backward 0).timerArmed = true) := by decide

theorem witness_TwoPinsAreHighAfterATick :
    Ready (moving 3 .forward 1) .ssTick ∧ (moving 3 .forward 1).timerArmed = true
      ∧ isNext (exec .ssTick (moving 3 .forward 1)) = true := by decide

/-- Both clauses: disarmed with steps left (between S2 and S6), and at rest. -/
theorem witness_TickWithTheTimerDisarmed :
    (calm.wf = true ∧ calm.timerArmed = false ∧ calm.remainingSteps = 0 ∧ mayBegin calm .ssTick = true)
    ∧ (let s : State := { calm with remainingSteps := 3 }
       s.wf = true ∧ s.timerArmed = false ∧ mayBegin s .ssTick = true) := by decide

theorem witness_FourTicksAssertEachRowOnce :
    (let s : State := { calm with currentPhase := 3 }
     Ready s (.ssStart 4 .forward 65535) ∧ s.irq = [] ∧ s.direction = .forward) := by decide

theorem witness_ReversalReassertsTheRowOnThePins :
    Ready calm (.ssStart 2 .forward 0) ∧ 2 ≤ 2 ∧ Instr.operandsOk calm.cfg (.ssStart 0 .backward 65535) = true
      ∧ calm.irq = [] ∧ calm.direction = .forward := by decide

theorem witness_ZeroDistanceGivesOneTick : Ready calm (.ssStart 0 .backward 100) ∧ calm.irq = [] := by decide

/-- Every clause: a start, a tick in each of the three states, a query, a release, and the two micro-steps. -/
theorem witness_SequencerStateMachine :
    isNext (exec (.ssStart 0 .forward 0) calm) = true
      ∧ (isNext (exec .ssTick calm) = true ∧ calm.seqMode = .idle)
      ∧ (isNext (exec .ssTick (moving 0 .forward 1)) = true ∧ (moving 0 .forward 1).seqMode = .running)
      ∧ (isNext (exec .ssTick (moving 0 .forward 0)) = true ∧ (moving 0 .forward 0).seqMode = .draining)
      ∧ isNext (exec .ssIsfin calm) = true ∧ isNext (exec .ssRelease calm) = true
      ∧ ({ calm with remainingSteps := 1 } : State).seqMode = .arming := by decide

theorem witness_MotionIsExactlyItsDistanceInTicks :
    Ready calm (.ssStart 1 .backward 0) ∧ 0 < 1 ∧ calm.irq = [] ∧ calm.seqMode = .idle := by decide

/-- The mainline at S2, the command of the stream, and a step that starts no motion. -/
theorem witness_StepsIncreaseOnlyAtS2 :
    (let s : State := { calm with main := some (.ssStart 9 .forward 0 .s2) }
     s.contextsOk = true ∧ isNext (step s) = true)
    ∧ (let s : State := { calm with stream := [0x80#8, 0x09#8, 0x00#8, 0x00#8, 0x00#8, 0x00#8] }
       s.contextsOk = true ∧ Idle s ∧ isNext (step s) = true)
    ∧ (let s : State := { moving 0 .forward 1 with irq := [.ssTick .t4] }
       s.contextsOk = true ∧ isNext (step s) = true) := by decide

theorem witness_FifoOperationsKeepTheSequencer :
    componentOf .slDeqb ≠ .ss ∧ isNext (exec .slDeqb calm) = true
      ∧ isNext (exec (.slEnqm [0x01#8]) (withTx 3 0)) = true := by decide

theorem witness_SequencerOperationsKeepTheSerialLink :
    componentOf .ssTick = .ss ∧ isNext (exec .ssTick (moving 0 .forward 1)) = true := by decide

/-- Each of the three clauses, each operation of it. -/
theorem witness_TheTwoChannelsAreIndependent :
    isNext (exec (.rbWrite .M .tx 0x01#8) calm) = true ∧ isNext (exec (.rbRead .I .tx) (withTx 1 0)) = true
      ∧ isNext (exec (.slEnqb 0x01#8) calm) = true ∧ isNext (exec (.slEnqm [0x01#8]) calm) = true
      ∧ isNext (exec .slTxrdy { withTx 1 0 with txArmed := true }) = true
      ∧ isNext (exec .slDeqb (withRx 1 0)) = true ∧ isNext (exec (.slRxrdy 0x01#8) calm) = true := by decide

/-- A success, also of agent `I` while the mainline is in an operation, a failure, and a held message. -/
theorem witness_ErrorSlotIsWrittenOnFailureOnly :
    isNext (exec (.rbWrite .I .rx 0x01#8) { calm with main := some (.rbRead .tx .q1) }) = true
      ∧ isNext (exec (.slEnqb 0x01#8) calm) = true ∧ isNext (exec .slDeqb calm) = true
      ∧ isNext (exec (.slEnqm [0x01#8]) (withTx 3 0)) = true := by decide

theorem witness_HandlersCommute :
    Instr.slTxrdy.mnemonic ≠ Instr.ssTick.mnemonic
      ∧ ((nextOf (exec .slTxrdy { moving 0 .forward 2 with txArmed := true })).map fun t => isNext (exec .ssTick t))
        = some true := by decide

/-- Both ports with a request, each on both ends of the count, and without one. -/
theorem witness_PortRequestsAreWritesAndReads :
    (withTx 3 0).wf = true ∧ (withTx 3 0).isFull .tx = true ∧ (withTx 2 0).wf = true ∧ (withTx 2 0).isFull .tx = false
      ∧ (withTx 2 0).isEmpty .tx = false ∧ calm.wf = true ∧ calm.isEmpty .tx = true
      ∧ isNext (step { withTx 3 0 with agenda := [.wclk .tx true 0x01#8] }) = true
      ∧ isNext (step { withTx 2 0 with agenda := [.wclk .tx true 0x01#8] }) = true
      ∧ isNext (step { withTx 2 0 with agenda := [.wclk .tx false 0x01#8] }) = true
      ∧ isNext (step { withTx 2 0 with agenda := [.rclk .tx true] }) = true
      ∧ isNext (step { calm with agenda := [.rclk .tx true] }) = true
      ∧ isNext (step { calm with agenda := [.rclk .tx false] }) = true := by decide

/-- Well-formed parameters, and malformed ones. -/
theorem witness_MalformedParametersAreRefused :
    Params.default.wf = true
      ∧ ({ calm with cfg := { Params.default with cTx := 1 } } : State).cfg.wf = false := by decide

theorem witness_ResetLeavesTheSpecifiedValues :
    { Params.default with resetDirection := .backward, resetPhase := 3 }.wf = true := by decide

theorem witness_InvariantsHoldAtReset : { Params.default with cRx := 2 }.wf = true := by decide

theorem witness_ResetEventStartsANewRun :
    (let s : State := { calm with agenda := [.rst], irq := [.ssTick .t3] }
     s.cfg.wf = true ∧ s.agenda = [.rst]) := by decide

theorem witness_StepKeepsTheStateWellFormed :
    (moving 3 .forward 65535).wf = true ∧ isNext (step { moving 3 .forward 65535 with irq := [.ssTick .t4] }) = true := by
  decide

/-- A `write` of `M` and a `read` of `I` on one buffer, both in progress with sampled indices (R72). -/
def crossing : State :=
  { withTx 1 0 with
    roles := ⟨⟨some .M, none⟩, ⟨some .I, none⟩⟩
    main := some (.rbWrite .tx 0x5A#8 (.w2 1 0))
    irq := [.rbRead .tx (.q4 0 0x11#8)]
    directWriteTx := true
    directReadTx := true }

/-- A held byte of a message between L1 and W1, with the transmitter inside its `read`. -/
def draining : State :=
  { withTx 2 0 with
    roles := linkRoles
    txArmed := true
    main := some (.slEnqm [0x5A#8, 0x5B#8] false (.l2 (.write (.w2 2 0))))
    irq := [.slTxrdy (.x2 (.q2 0 2))] }

theorem witness_StepKeepsFifoOrder :
    (Good crossing ∧ isNext (step crossing) = true) ∧ (Good draining ∧ isNext (step draining) = true) := by decide

theorem witness_StepKeepsTheTestsTrue :
    Good draining ∧ draining.testsOk = true ∧ isNext (step draining) = true := by decide

theorem witness_StepKeepsTheArmInvariant :
    Good draining ∧ draining.testsOk = true ∧ draining.armOk = true ∧ draining.directWriteTx = false := by decide

theorem witness_StepKeepsTransmitOrder :
    Good draining ∧ draining.testsOk = true ∧ draining.txOrderOk = true ∧ draining.directReadTx = false := by decide

theorem witness_StepKeepsTheSequencerInvariant :
    ({ calm with remainingSteps := 3, main := some (.ssStart 3 .forward 0 .s6) } : State).contextsOk = true
      ∧ ({ calm with remainingSteps := 3, main := some (.ssStart 3 .forward 0 .s6) } : State).seqOk = true
      ∧ isNext (step { calm with remainingSteps := 3, main := some (.ssStart 3 .forward 0 .s6) }) = true := by decide

theorem witness_NoStepFaults : Good crossing ∧ Good draining ∧ Good calm := by decide

/-- A run from reset: initialisation, a byte received, a byte dequeued. -/
theorem witness_EveryRunIsFirstInFirstOut :
    (nextOf (Host.Core.run Sys2Proof.core 3
        { State.initial Params.default 0 with agenda := [.init], stream := [0x61#8, 0x0D#8, 0x42#8] })).map
        (fun t => (t.accepted.rx, t.delivered.rx)) = some ([0x0D#8], [0x0D#8]) := by decide

/-- SCH2: the `read` samples the indices, the whole `write` follows, the `read` underflows. -/
theorem witness_WriteAndReadLinearise :
    Good calm ∧ Idle calm
      ∧ (nextOf (Host.Core.run Sys2Proof.core 8
        { calm with agenda := .start (.rbWrite .M .tx 0x33#8) :: .start (.rbRead .I .tx)
            :: [Agent.I, Agent.M, Agent.M, Agent.M, Agent.M, Agent.I].map .advance })).map
        (fun t => (t.main, t.irq)) = some (none, []) := by decide

theorem witness_MeaningIsItsMicroSteps :
    calm.agenda = [] ∧ isNext (exec (.slEnqm [0x01#8, 0x02#8]) (withTx 2 0)) = true := by decide

end Sys2Proof.Tests
end

section
/-! PROOFS. The parameters (00_scope.md R7, R8): what `Params.wf` says, and that malformed parameters stop every
operation and every step. -/

namespace Sys2Proof

/-! ## Four things in index order -/

theorem Quad.toList_eq_ofFn {α : Type} (q : Quad α) : q.toList = List.ofFn q.get := rfl

theorem Quad.forall_mem_toList {α : Type} {q : Quad α} {P : α → Prop} :
    (∀ x ∈ q.toList, P x) ↔ ∀ i, P (q.get i) := by
  rw [q.toList_eq_ofFn, List.forall_mem_ofFn_iff]

theorem Quad.nodup_toList {α : Type} {q : Quad α} : q.toList.Nodup ↔ Function.Injective q.get := by
  rw [q.toList_eq_ofFn, List.nodup_ofFn]

/-! ## Well-formed parameters -/

theorem rowOk_iff {row : BitVec 4} :
    rowOk row = true ↔ ((List.range 4).filter fun k => row.getLsbD k).length = 2 := by
  simp only [rowOk, beq_iff_eq]

/-- R8's list, condition by condition, with R7's range of `MAX_RATE`. -/
theorem Params.wf_iff {p : Params} :
    p.wf = true ↔ 2 ≤ p.cTx ∧ 2 ≤ p.cRx ∧ (∀ i, rowOk (p.phaseTable.get i) = true)
      ∧ (∀ i, (p.pins.get i).bit ≤ 7) ∧ Function.Injective p.pins.get ∧ p.maxRate < 2 ^ p.wRate := by
  simp only [Params.wf, Bool.and_eq_true, decide_eq_true_eq, List.all_eq_true, Quad.forall_mem_toList,
    Quad.nodup_toList, and_assoc]

namespace Machine

/-! ## Malformed parameters -/

/-- Every operation goes through the one gate of `issue`, with a body that is the same in every state. -/
theorem exec_eq_issue (i : Instr) : ∃ body, ∀ s, exec i s = issue s i body := by
  cases i <;> exact ⟨_, fun _ => rfl⟩

theorem admitContext_of_malformed {s : State} (i : Instr) (hw : s.cfg.wf = false) :
    admitContext s i = .error .badConfig := by
  simp [admitContext, hw]

theorem issue_of_malformed {s : State} {i : Instr} (body : State → Except Fault State) (hw : s.cfg.wf = false) :
    issue s i body = .refused .badConfig := by
  simp [issue, admitContext_of_malformed i hw]

theorem exec_of_malformed {s : State} (i : Instr) (hw : s.cfg.wf = false) : exec i s = .refused .badConfig := by
  obtain ⟨body, hexec⟩ := exec_eq_issue i
  rw [hexec, issue_of_malformed body hw]

theorem step_of_malformed {s : State} (hw : s.cfg.wf = false) : step s = .refused .badConfig := by
  simp [step, hw]

/-- Settles O49: R8's list is read off `Params.wf_iff`, and with malformed parameters admission refuses every operation
and the test at the head of `step` refuses every step. -/
theorem malformedParametersAreRefused : Obligations.MalformedParametersAreRefused := by
  unfold Obligations.MalformedParametersAreRefused
  refine ⟨fun p hw => ?_, fun s i hw => ⟨exec_of_malformed i hw, step_of_malformed hw⟩⟩
  obtain ⟨hTx, hRx, hRows, hBits, hPins, -⟩ := Params.wf_iff.1 hw
  exact ⟨hTx, hRx, fun i => rowOk_iff.1 (hRows i), hBits, fun _ _ heq => hPins heq⟩

end Machine

end Sys2Proof
end

section
/-! PROOFS. The writes the operations are made of. Every micro-step, and every operation as a whole, is a sequence of
the named state updates of Machine/Ops.lean; which of them an operation may use is its scope. What an operation leaves alone
is then read off its scope, one update at a time. -/

namespace Sys2Proof.Machine

/-! ## Scopes -/

/-- What an operation writes: one buffer and nothing else (`RB`, `SL.DEQB`), one channel of the `SerialLink`, the motion
that a `startMotion` of a distance sets up, or what the other operations of the sequencer drive (pins, timer, phase and
count). Every scope includes the results returned. -/
inductive Scope where
  | ring (b : BufId)
  | link (b : BufId)
  | start (distance : Nat)
  | drive

/-- The buffer a scope includes. -/
def Scope.buf : Scope → Option BufId
  | .ring b => some b
  | .link b => some b
  | .start _ => none
  | .drive => none

/-- The distance of a `startMotion` is of its width (R161). -/
def Scope.fits (p : Params) : Scope → Prop
  | .start distance => distance < 2 ^ p.wSteps
  | .ring _ => True
  | .link _ => True
  | .drive => True

/-- The scope of an operation. -/
def scopeOf : Instr → Scope
  | .rbWrite _ b _ => .ring b
  | .rbRead _ b => .ring b
  | .rbIsFull _ b => .ring b
  | .rbIsEmpty _ b => .ring b
  | .slEnqb _ => .link .tx
  | .slEnqm _ => .link .tx
  | .slDeqb => .ring .rx
  | .slTxrdy => .link .tx
  | .slRxrdy _ => .link .rx
  | .ssStart distance _ _ => .start distance
  | .ssIsfin => .drive
  | .ssRelease => .drive
  | .ssTick => .drive

/-- The scope of an operation in progress. -/
def Activity.scope : Activity → Scope
  | .rbWrite b _ _ => .ring b
  | .rbRead b _ => .ring b
  | .rbIsFull b => .ring b
  | .rbIsEmpty b => .ring b
  | .slEnqb _ _ => .link .tx
  | .slEnqm _ _ _ => .link .tx
  | .slDeqb _ => .ring .rx
  | .slTxrdy _ => .link .tx
  | .slRxrdy _ => .link .rx
  | .ssStart distance _ _ _ => .start distance
  | .ssIsfin => .drive
  | .ssRelease _ => .drive
  | .ssTick _ => .drive

theorem scopeOf_buf_isSome {i : Instr} : (scopeOf i).buf.isSome = true ↔ componentOf i ≠ .ss := by
  cases i <;> simp [scopeOf, Scope.buf, componentOf]

theorem scopeOf_fits {p : Params} {i : Instr} (h : i.operandsOk p = true) : (scopeOf i).fits p := by
  cases i with
  | ssStart distance dir speed =>
    simp only [Instr.operandsOk, Bool.and_eq_true, decide_eq_true_eq] at h
    exact h.1
  | _ => trivial

theorem Activity.scope_fits {p : Params} {x : Activity} (h : x.operandsOk p = true) : x.scope.fits p := by
  cases x with
  | ssStart distance dir speed pos =>
    simp only [Activity.operandsOk, Bool.and_eq_true, decide_eq_true_eq] at h
    exact h.1
  | _ => trivial

/-! ## One update within a scope, and a sequence of them -/

/-- One named update of the state that a scope includes. -/
inductive Write (sc : Scope) (s : State) : State → Prop
  | reply (a : Agent) (r : Reply) : Write sc s (s.reply a r)
  | store {b : BufId} {h : Nat} {v : Byte} {slots : Memory} (hb : sc.buf = some b)
      (hw : Memory.write (s.ring b).slots h v = some slots) : Write sc s (s.setRing b { s.ring b with slots := slots })
  | publish {b : BufId} (hb : sc.buf = some b) (h : Nat) (v : Byte) : Write sc s (s.publishHead b h v)
  | release {b : BufId} (hb : sc.buf = some b) (t : Nat) (v : Byte) : Write sc s (s.releaseTail b t v)
  | raise {b : BufId} (hb : sc.buf = some b) (a : Agent) (code : BitVec 2) : Write sc s (s.raise a code)
  | arm (hs : sc = .link .tx) : Write sc s s.armTx
  | disarm (hs : sc = .link .tx) : Write sc s s.disarmTx
  | transmit (hs : sc = .link .tx) (v : Byte) : Write sc s (s.transmit v)
  | present (hs : sc = .link .rx) (r : Byte) : Write sc s (s.presentByte r)
  | consume (hs : sc = .link .rx) : Write sc s { s with rcReg := none }
  | s1 {d : Nat} (hs : sc = .start d) : Write sc s s.startS1
  | s2 {d : Nat} (hs : sc = .start d) : Write sc s (s.startS2 d)
  | s3 {d : Nat} (hs : sc = .start d) (speed : Nat) : Write sc s (s.startS3 speed)
  | s4 {d : Nat} (hs : sc = .start d) (dir : Direction) : Write sc s (s.startS4 dir)
  | s5 {d : Nat} (hs : sc = .start d) (dir : Direction) : Write sc s (s.startS5 dir)
  | s6 {d : Nat} (hs : sc = .start d) : Write sc s s.startS6
  | pin {loc : Nat} {v : Byte} {io : Memory} (hs : sc = .drive) (hw : Memory.write s.io loc v = some io) :
      Write sc s ({ s with io := io } : State).showPins
  | t1 (hs : sc = .drive) : Write sc s s.tickT1
  | t3 (hs : sc = .drive) : Write sc s s.tickT3
  | t4 (hs : sc = .drive) : Write sc s s.tickT4

/-- Any number of updates within a scope. -/
abbrev Writes (sc : Scope) : State → State → Prop := Relation.ReflTransGen (Write sc)

/-- What every update of a scope keeps, a sequence of them keeps. -/
theorem Writes.keeps {sc : Scope} {P : State → Prop} {s t : State} (h : Writes sc s t)
    (hstep : ∀ u v, Write sc u v → P u → P v) (hs : P s) : P t := by
  induction h with
  | refl => exact hs
  | tail _ hw ih => exact hstep _ _ hw ih

/-! ## What the updates leave alone -/

/-- Everything but the hardware's registers, buffers, outputs and results is the same: the parameters, the operations in
progress, the record of roles, and what is to come. -/
structure SameControl (s t : State) : Prop where
  cfg : t.cfg = s.cfg
  epoch : t.epoch = s.epoch
  initDone : t.initDone = s.initDone
  main : t.main = s.main
  irq : t.irq = s.irq
  ports : t.ports = s.ports
  roles : t.roles = s.roles
  directWriteTx : t.directWriteTx = s.directWriteTx
  directReadTx : t.directReadTx = s.directReadTx
  agenda : t.agenda = s.agenda
  stream : t.stream = s.stream

theorem SameControl.refl (s : State) : SameControl s s := ⟨rfl, rfl, rfl, rfl, rfl, rfl, rfl, rfl, rfl, rfl, rfl⟩

/-- No update touches the control part of the state. -/
theorem Writes.sameControl {sc : Scope} {s t : State} (h : Writes sc s t) : SameControl s t := by
  refine h.keeps (P := SameControl s) (fun u v hw hu => ?_) (SameControl.refl s)
  obtain ⟨h1, h2, h3, h4, h5, h6, h7, h8, h9, h10, h11⟩ := hu
  cases hw with
  | s5 hs dir => rw [State.startS5_eq]; exact ⟨h1, h2, h3, h4, h5, h6, h7, h8, h9, h10, h11⟩
  | _ => exact ⟨h1, h2, h3, h4, h5, h6, h7, h8, h9, h10, h11⟩

/-- Updates of a buffer or a channel leave the sequencer alone. -/
theorem Writes.sameSequencer {sc : Scope} {s t : State} (h : Writes sc s t) (hb : sc.buf.isSome = true) :
    SameSequencer s t := by
  refine h.keeps (P := SameSequencer s) (fun u v hw hu => ?_) ⟨rfl, rfl, rfl, rfl, rfl, rfl, rfl, rfl, rfl, rfl⟩
  cases hw with
  | s1 hs | s2 hs | s3 hs | s4 hs | s5 hs | s6 hs | pin hs | t1 hs | t3 hs | t4 hs =>
    subst hs
    cases hb
  | _ => exact hu

/-- Updates of the sequencer leave the buffers, the `SerialLink` and the error slots alone. -/
theorem Writes.sameSerial {sc : Scope} {s t : State} (h : Writes sc s t) (hb : sc.buf = none) :
    SameSerial s t ∧ t.errSlot = s.errSlot := by
  refine h.keeps (P := fun u => SameSerial s u ∧ u.errSlot = s.errSlot) (fun u v hw hu => ?_)
    ⟨⟨rfl, rfl, rfl, rfl, rfl, rfl, rfl⟩, rfl⟩
  cases hw with
  | store hs | publish hs | release hs | raise hs =>
    rw [hb] at hs
    cases hs
  | arm hs | disarm hs | transmit hs | present hs | consume hs =>
    subst hs
    cases hb
  | s5 hs dir => rw [State.startS5_eq]; exact hu
  | _ => exact hu

/-- Updates of one buffer leave the other alone, with its histories. -/
theorem Writes.otherBuffer {sc : Scope} {s t : State} {b b' : BufId} (h : Writes sc s t) (hb : sc.buf = some b)
    (hne : b' ≠ b) :
    t.ring b' = s.ring b' ∧ t.accepted.get b' = s.accepted.get b' ∧ t.delivered.get b' = s.delivered.get b' := by
  refine h.keeps (P := fun u => u.ring b' = s.ring b' ∧ u.accepted.get b' = s.accepted.get b'
    ∧ u.delivered.get b' = s.delivered.get b') (fun u v hw hu => ?_) ⟨rfl, rfl, rfl⟩
  cases hw with
  | store hs hw =>
    obtain rfl : b = _ := Option.some.inj (hb.symm.trans hs)
    rwa [State.ring_setRing_other _ _ hne]
  | publish hs h v =>
    obtain rfl : b = _ := Option.some.inj (hb.symm.trans hs)
    simpa [State.ring, ByBuf.get_set_other _ _ hne] using hu
  | release hs t v =>
    obtain rfl : b = _ := Option.some.inj (hb.symm.trans hs)
    simpa [State.ring, ByBuf.get_set_other _ _ hne] using hu
  | s1 hs | s2 hs | s3 hs | s4 hs | s5 hs | s6 hs | pin hs | t1 hs | t3 hs | t4 hs =>
    subst hs
    cases hb
  | _ => exact hu

/-- Only the transmit channel writes `txArmed`, `TXREG` and `tx_out`. -/
theorem Writes.sameTransmitter {sc : Scope} {s t : State} (h : Writes sc s t) (hne : sc ≠ .link .tx) :
    t.txArmed = s.txArmed ∧ t.txReg = s.txReg ∧ t.txOut = s.txOut := by
  refine h.keeps (P := fun u => u.txArmed = s.txArmed ∧ u.txReg = s.txReg ∧ u.txOut = s.txOut)
    (fun u v hw hu => ?_) ⟨rfl, rfl, rfl⟩
  cases hw with
  | arm hs | disarm hs | transmit hs => exact absurd hs hne
  | s5 hs dir => rw [State.startS5_eq]; exact hu
  | _ => exact hu

/-- Only the receive channel writes `RCREG`. -/
theorem Writes.sameRcReg {sc : Scope} {s t : State} (h : Writes sc s t) (hne : sc ≠ .link .rx) :
    t.rcReg = s.rcReg := by
  refine h.keeps (P := fun u => u.rcReg = s.rcReg) (fun u v hw hu => ?_) rfl
  cases hw with
  | present hs | consume hs => exact absurd hs hne
  | s5 hs dir => rw [State.startS5_eq]; exact hu
  | _ => exact hu

/-! ## The updates of a whole `write`, `read` and pin write -/

theorem storeSlot_write {sc : Scope} {s t : State} {b : BufId} {h : Nat} {v : Byte} (hb : sc.buf = some b)
    (he : s.storeSlot b h v = .ok t) : Write sc s t := by
  obtain ⟨slots, hw, rfl⟩ := storeSlot_ok he
  exact .store hb hw

theorem writeBuf_writes {sc : Scope} {s t : State} {b : BufId} {v : Byte} {o : Bool} (hb : sc.buf = some b)
    (he : s.writeBuf b v = .ok (o, t)) : Writes sc s t := by
  obtain ⟨-, -, rfl⟩ | ⟨-, -, s1, hs, rfl⟩ := writeBuf_ok he
  · exact .refl
  · exact .tail (.single (storeSlot_write hb hs)) (.publish hb _ _)

theorem readBuf_writes {sc : Scope} {s t : State} {b : BufId} {r : Option Byte} (hb : sc.buf = some b)
    (he : s.readBuf b = .ok (r, t)) : Writes sc s t := by
  obtain ⟨-, -, rfl⟩ | ⟨-, v, -, -, rfl⟩ := readBuf_ok he
  · exact .refl
  · exact .single (.release hb _ _)

theorem enqueueByte_writes {s t : State} {v : Byte} {e : Bool} (he : s.enqueueByte v = .ok (e, t)) :
    Writes (.link .tx) s t := by
  obtain ⟨s1, hw, rfl⟩ := enqueueByte_ok he
  have h1 : Writes (.link .tx) s s1 := writeBuf_writes rfl hw
  cases e
  · exact h1.tail (.arm rfl)
  · exact h1

theorem writePin_write {s t : State} {i : Fin 4} {level : Bool} (he : s.writePin i level = .ok t) :
    Write .drive s t := by
  obtain ⟨v, io, -, hw, rfl⟩ := writePin_ok he
  exact .pin rfl hw

theorem writePins_writes {row : BitVec 4} {is : List (Fin 4)} {s t : State} (he : s.writePins row is = .ok t) :
    Writes .drive s t := by
  induction is generalizing s with
  | nil =>
    cases he
    exact .refl
  | cons i rest ih =>
    simp only [State.writePins] at he
    split at he
    · cases he
    next s1 h1 => exact .head (writePin_write h1) (ih he)

/-! ## The updates that return a result -/

theorem recordErr_writes {sc : Scope} {b : BufId} (hb : sc.buf = some b) (s : State) (a : Agent) (e : Bool) :
    Writes sc s (s.recordErr a e) := by
  cases e
  · exact .refl
  · exact .single (.raise hb a _)

theorem returnWrite_writes {sc : Scope} {b : BufId} (hb : sc.buf = some b) (s : State) (a : Agent) (o : Bool) :
    Writes sc s (s.returnWrite a o) := by
  cases o
  · exact .single (.reply a _)
  · exact .tail (.single (.raise hb a _)) (.reply a _)

theorem returnRead_writes {sc : Scope} {b : BufId} (hb : sc.buf = some b) (s : State) (a : Agent)
    (r : Option Byte) : Writes sc s (s.returnRead a r) := by
  cases r
  · exact .tail (.single (.raise hb a _)) (.reply a _)
  · exact .single (.reply a _)

theorem returnErr_writes {sc : Scope} {b : BufId} (hb : sc.buf = some b) (s : State) (a : Agent) (e : Bool) :
    Writes sc s (s.returnErr a e) :=
  .tail (recordErr_writes hb s a e) (.reply a _)

theorem returnDeq_writes {sc : Scope} {b : BufId} (hb : sc.buf = some b) (s : State) (a : Agent)
    (r : Option Byte) : Writes sc s (s.returnDeq a r) := by
  cases r
  · exact .tail (recordErr_writes hb s a true) (.reply a _)
  · exact .single (.reply a _)

end Sys2Proof.Machine
end

section
/-! PROOFS. Every operation, whole or micro-step by micro-step, is a sequence of updates within its scope. -/

namespace Sys2Proof.Machine

/-! ## Whole operations -/

/-- What an operation does once it is admitted and delivered. -/
def meaning : Instr → State → Except Fault State
  | .rbWrite a b value => fun s =>
    match s.writeBuf b value with
    | .error f => .error f
    | .ok (overflowed, s1) => .ok (s1.returnWrite a overflowed)
  | .rbRead a b => fun s =>
    match s.readBuf b with
    | .error f => .error f
    | .ok (r, s1) => .ok (s1.returnRead a r)
  | .rbIsFull a b => fun s => .ok (s.reply a (.bit (s.isFull b)))
  | .rbIsEmpty a b => fun s => .ok (s.reply a (.bit (s.isEmpty b)))
  | .slEnqb value => fun s =>
    match s.enqueueByte value with
    | .error f => .error f
    | .ok (e, s1) => .ok (s1.returnErr .M e)
  | .slEnqm bytes => fun s => s.enqueueBytes false bytes
  | .slDeqb => fun s =>
    match s.readBuf .rx with
    | .error f => .error f
    | .ok (r, s1) => .ok (s1.returnDeq .M r)
  | .slTxrdy => State.onTransmitReady
  | .slRxrdy r => fun s => (s.presentByte r).onReceiveReady
  | .ssStart distance dir speed => fun s => .ok (s.startMotion distance dir speed)
  | .ssIsfin => fun s => .ok (s.reply .M (.bit s.finished))
  | .ssRelease => fun s => s.writePins 0#4 pinOrder
  | .ssTick => State.onTick

/-- `exec` is the meaning behind the gate. -/
theorem exec_eq_issue_meaning (i : Instr) (s : State) : exec i s = issue s i (meaning i) := by
  cases i <;> rfl

/-- An operation that answers a next state was admitted with the roles it claims, and was either not delivered or is its
meaning in the admitted state. -/
theorem exec_next {i : Instr} {s t : State} (he : exec i s = .next t) :
    admitContext s i = .ok () ∧ ∃ roles, claimRoles s.roles i = some roles
      ∧ ((gateOpen i s = false ∧ t = s.withRoles i roles)
        ∨ (gateOpen i s = true ∧ meaning i (s.withRoles i roles) = .ok t)) := by
  rw [exec_eq_issue_meaning] at he
  obtain ⟨hc, s1, hr, h⟩ := issue_next he
  obtain ⟨-, roles, hroles, rfl⟩ := admitRun_ok hr
  exact ⟨hc, roles, hroles, h⟩

section Meaning

variable {s t : State}

/-- `RB.WRITE` returns what its `write` says. -/
theorem meaning_rbWrite_ok {a : Agent} {b : BufId} {v : Byte} (h : meaning (.rbWrite a b v) s = .ok t) :
    ∃ o s1, s.writeBuf b v = .ok (o, s1) ∧ t = s1.returnWrite a o := by
  simp only [meaning] at h
  split at h
  · cases h
  next o s1 hw => exact ⟨o, s1, hw, by cases h; rfl⟩

/-- `RB.READ` returns what its `read` gives. -/
theorem meaning_rbRead_ok {a : Agent} {b : BufId} (h : meaning (.rbRead a b) s = .ok t) :
    ∃ r s1, s.readBuf b = .ok (r, s1) ∧ t = s1.returnRead a r := by
  simp only [meaning] at h
  split at h
  · cases h
  next r s1 hr => exact ⟨r, s1, hr, by cases h; rfl⟩

/-- `SL.ENQB` returns the `err` bit of its `enqueueByte`. -/
theorem meaning_slEnqb_ok {v : Byte} (h : meaning (.slEnqb v) s = .ok t) :
    ∃ e s1, s.enqueueByte v = .ok (e, s1) ∧ t = s1.returnErr .M e := by
  simp only [meaning] at h
  split at h
  · cases h
  next e s1 hw => exact ⟨e, s1, hw, by cases h; rfl⟩

/-- `SL.DEQB` returns what its `read` of `rx` gives. -/
theorem meaning_slDeqb_ok (h : meaning .slDeqb s = .ok t) :
    ∃ r s1, s.readBuf .rx = .ok (r, s1) ∧ t = s1.returnDeq .M r := by
  simp only [meaning] at h
  split at h
  · cases h
  next r s1 hr => exact ⟨r, s1, hr, by cases h; rfl⟩

/-- The loop of `enqueueMessage` ends, is held at the byte that finds `tx` full, or queues a byte, which cannot fail
after the poll, and goes on. -/
theorem enqueueBytes_ok {eOut : Bool} {bytes : List Byte} (h : s.enqueueBytes eOut bytes = .ok t) :
    (bytes = [] ∧ t = s.reply .M (.err eOut))
      ∨ ∃ v rest, bytes = v :: rest
        ∧ ((s.isFull .tx = true ∧ t = s.enterMain (.slEnqm bytes eOut .l1))
          ∨ ∃ s1, s.writeBuf .tx v = .ok (false, s1) ∧ s1.armTx.enqueueBytes eOut rest = .ok t) := by
  cases bytes with
  | nil => exact .inl ⟨rfl, by cases h; rfl⟩
  | cons v rest =>
    refine .inr ⟨v, rest, rfl, ?_⟩
    simp only [State.enqueueBytes] at h
    split at h
    next hf => exact .inl ⟨hf, by cases h; rfl⟩
    next hf =>
      split at h
      · cases h
      next e s1 he =>
        obtain ⟨s2, hw, rfl⟩ := enqueueByte_ok he
        obtain ⟨hfull, -⟩ | ⟨-, rfl, -⟩ := writeBuf_ok hw
        · exact absurd hfull hf
        · exact .inr ⟨s2, hw, by simpa [State.recordErr] using h⟩

/-- `onTransmitReady` disarms on an empty `tx`, and otherwise transmits the byte at the tail. -/
theorem onTransmitReady_ok (h : s.onTransmitReady = .ok t) :
    (s.isEmpty .tx = true ∧ t = s.disarmTx)
      ∨ ∃ r s1, s.readBuf .tx = .ok (r, s1) ∧ t = s1.transmit (r.getD 0#8) := by
  unfold State.onTransmitReady at h
  split at h
  next he => exact .inl ⟨he, by cases h; rfl⟩
  next he =>
    split at h
    · cases h
    next r s1 hr => exact .inr ⟨r, s1, hr, by cases h; rfl⟩

/-- `onReceiveReady` consumes the byte in `RCREG`, and writes it to `rx` unless that is full. -/
theorem onReceiveReady_ok (h : s.onReceiveReady = .ok t) :
    ∃ r s1, s.consumeRcreg = .ok (r, s1)
      ∧ ((s1.isFull .rx = true ∧ t = s1) ∨ ∃ o, s1.writeBuf .rx r = .ok (o, t)) := by
  unfold State.onReceiveReady at h
  split at h
  · cases h
  next r s1 hr =>
    refine ⟨r, s1, hr, ?_⟩
    split at h
    next hf => exact .inl ⟨hf, by cases h; rfl⟩
    next hf =>
      split at h
      · cases h
      next o s2 hw => exact .inr ⟨o, by cases h; exact hw⟩

/-- `onTick` writes the four pins and then advances the phase and counts down. -/
theorem onTick_ok (h : s.onTick = .ok t) :
    ∃ s1, s.tickT1.writePins s.tickT1.phaseRow pinOrder = .ok s1 ∧ t = s1.tickT3.tickT4 := by
  unfold State.onTick at h
  split at h
  · cases h
  next s1 hp => exact ⟨s1, hp, by cases h; rfl⟩

theorem consumeRcreg_write {r : Byte} (h : s.consumeRcreg = .ok (r, t)) : Write (.link .rx) s t := by
  obtain ⟨-, rfl⟩ := consumeRcreg_ok h
  exact .consume rfl

theorem onTransmitReady_writes (h : s.onTransmitReady = .ok t) : Writes (.link .tx) s t := by
  obtain ⟨-, rfl⟩ | ⟨r, s1, hr, rfl⟩ := onTransmitReady_ok h
  · exact .single (.disarm rfl)
  · exact .tail (readBuf_writes rfl hr) (.transmit rfl _)

theorem onReceiveReady_writes (h : s.onReceiveReady = .ok t) : Writes (.link .rx) s t := by
  obtain ⟨r, s1, hr, ⟨-, rfl⟩ | ⟨o, hw⟩⟩ := onReceiveReady_ok h
  · exact .single (consumeRcreg_write hr)
  · exact .head (consumeRcreg_write hr) (writeBuf_writes rfl hw)

theorem startMotion_writes (s : State) (distance : Nat) (dir : Direction) (speed : Nat) :
    Writes (.start distance) s (s.startMotion distance dir speed) :=
  ((((((Relation.ReflTransGen.single (.s1 rfl)).tail (.s2 rfl)).tail (.s3 rfl speed)).tail (.s4 rfl dir)).tail
    (.s5 rfl dir)).tail (.s6 rfl))

theorem onTick_writes (h : s.onTick = .ok t) : Writes .drive s t := by
  obtain ⟨s1, hp, rfl⟩ := onTick_ok h
  exact .tail (.tail (.head (.t1 rfl) (writePins_writes hp)) (.t3 rfl)) (.t4 rfl)

/-- The loop of `enqueueMessage` updates the transmit channel, and may leave the message held. -/
theorem enqueueBytes_writes {eOut : Bool} {bytes : List Byte} (h : s.enqueueBytes eOut bytes = .ok t) :
    ∃ u, Writes (.link .tx) s u ∧ (t = u ∨ ∃ rest, t = u.enterMain (.slEnqm rest eOut .l1)) := by
  induction bytes generalizing s with
  | nil =>
    cases h
    exact ⟨_, .single (.reply .M _), .inl rfl⟩
  | cons v rest ih =>
    obtain ⟨hn, -⟩ | ⟨v, rest, hc, ⟨-, rfl⟩ | ⟨s1, hw, hrest⟩⟩ := enqueueBytes_ok h
    · cases hn
    · exact ⟨s, .refl, .inr ⟨_, rfl⟩⟩
    · cases hc
      obtain ⟨u, hu, ht⟩ := ih hrest
      exact ⟨u, .trans (.tail (writeBuf_writes rfl hw) (.arm rfl)) hu, ht⟩

/-- The meaning of an operation is updates within its scope; only a held message stays in progress. -/
theorem meaning_writes {i : Instr} (h : meaning i s = .ok t) :
    ∃ u, Writes (scopeOf i) s u
      ∧ (t = u ∨ ∃ bytes rest, i = .slEnqm bytes ∧ t = u.enterMain (.slEnqm rest false .l1)) := by
  cases i with
  | slEnqm bytes =>
    obtain ⟨u, hu, ht | ⟨rest, ht⟩⟩ := enqueueBytes_writes h
    · exact ⟨u, hu, .inl ht⟩
    · exact ⟨u, hu, .inr ⟨bytes, rest, rfl, ht⟩⟩
  | rbWrite a b v =>
    obtain ⟨o, s1, hw, rfl⟩ := meaning_rbWrite_ok h
    exact ⟨_, .trans (writeBuf_writes rfl hw) (returnWrite_writes rfl s1 a o), .inl rfl⟩
  | rbRead a b =>
    obtain ⟨r, s1, hr, rfl⟩ := meaning_rbRead_ok h
    exact ⟨_, .trans (readBuf_writes rfl hr) (returnRead_writes rfl s1 a r), .inl rfl⟩
  | slEnqb v =>
    obtain ⟨e, s1, hw, rfl⟩ := meaning_slEnqb_ok h
    exact ⟨_, .trans (enqueueByte_writes hw) (returnErr_writes rfl s1 .M e), .inl rfl⟩
  | slDeqb =>
    obtain ⟨r, s1, hr, rfl⟩ := meaning_slDeqb_ok h
    exact ⟨_, .trans (readBuf_writes rfl hr) (returnDeq_writes rfl s1 .M r), .inl rfl⟩
  | rbIsFull | rbIsEmpty | ssIsfin =>
    cases h
    exact ⟨_, .single (.reply _ _), .inl rfl⟩
  | slTxrdy => exact ⟨t, onTransmitReady_writes h, .inl rfl⟩
  | slRxrdy r => exact ⟨t, .head (.present rfl r) (onReceiveReady_writes h), .inl rfl⟩
  | ssStart distance dir speed =>
    cases h
    exact ⟨_, startMotion_writes s distance dir speed, .inl rfl⟩
  | ssRelease => exact ⟨t, writePins_writes h, .inl rfl⟩
  | ssTick => exact ⟨t, onTick_writes h, .inl rfl⟩

end Meaning

/-- An operation that answers a next state has claimed roles and made updates within its scope; only a held message
stays in progress. -/
theorem exec_writes {i : Instr} {s t : State} (he : exec i s = .next t) :
    ∃ roles u, claimRoles s.roles i = some roles ∧ Writes (scopeOf i) (s.withRoles i roles) u
      ∧ (t = u ∨ ∃ bytes rest, i = .slEnqm bytes ∧ t = u.enterMain (.slEnqm rest false .l1)) := by
  obtain ⟨-, roles, hr, ⟨-, rfl⟩ | ⟨-, hm⟩⟩ := exec_next he
  · exact ⟨roles, _, hr, .refl, .inl rfl⟩
  · obtain ⟨u, hu, ht⟩ := meaning_writes hm
    exact ⟨roles, u, hr, hu, ht⟩

/-! ## Micro-steps -/

section Micro

variable {s s1 : State}

theorem microWrite_writes {sc : Scope} {b : BufId} {v : Byte} {pos : WriteAt} {p : Progress WriteAt Bool}
    (hb : sc.buf = some b) (h : microWrite s b v pos = .ok (s1, p)) : Writes sc s s1 := by
  cases pos with
  | w1 =>
    cases h
    exact .refl
  | w2 hd tl =>
    simp only [microWrite] at h
    split at h <;> cases h <;> exact .refl
  | w3 hd =>
    simp only [microWrite] at h
    split at h
    · cases h
    next s2 hs =>
      cases h
      exact .single (storeSlot_write hb hs)
  | w4 hd =>
    cases h
    exact .single (.publish hb _ _)

theorem microRead_writes {sc : Scope} {b : BufId} {pos : ReadAt} {p : Progress ReadAt (Option Byte)}
    (hb : sc.buf = some b) (h : microRead s b pos = .ok (s1, p)) : Writes sc s s1 := by
  cases pos with
  | q1 =>
    cases h
    exact .refl
  | q2 tl hd =>
    simp only [microRead] at h
    split at h <;> cases h <;> exact .refl
  | q3 tl =>
    simp only [microRead] at h
    split at h <;> cases h
    exact .refl
  | q4 tl v =>
    cases h
    exact .single (.release hb _ _)

theorem microEnqb_writes {v : Byte} {pos : EnqAt} {p : Progress EnqAt Bool}
    (h : microEnqb s v pos = .ok (s1, p)) : Writes (.link .tx) s s1 := by
  cases pos with
  | write w =>
    simp only [microEnqb] at h
    split at h <;> cases h
    all_goals exact microWrite_writes rfl (by assumption)
  | a1 =>
    cases h
    exact .single (.arm rfl)

theorem microEnqm_writes {todo : List Byte} {eOut : Bool} {pos : MsgAt} {p : Progress (List Byte × Bool × MsgAt) Bool}
    (h : microEnqm s todo eOut pos = .ok (s1, p)) : Writes (.link .tx) s s1 := by
  cases todo with
  | nil =>
    cases h
    exact .refl
  | cons b rest =>
    cases pos with
    | l1 =>
      simp only [microEnqm] at h
      split at h <;> cases h <;> exact .refl
    | l2 e =>
      simp only [microEnqm] at h
      split at h <;> cases h
      all_goals exact microEnqb_writes (by assumption)
    | l3 err =>
      simp only [microEnqm] at h
      split at h <;> cases h
      all_goals exact recordErr_writes rfl s .M err

theorem microTxrdy_writes {pos : TxAt} {p : Progress TxAt Unit} (h : microTxrdy s pos = .ok (s1, p)) :
    Writes (.link .tx) s s1 := by
  cases pos with
  | x1 =>
    simp only [microTxrdy] at h
    split at h <;> cases h <;> exact .refl
  | x2 q =>
    simp only [microTxrdy] at h
    split at h <;> cases h
    all_goals exact microRead_writes rfl (by assumption)
  | x3 v =>
    cases h
    exact .single (.transmit rfl v)
  | x4 =>
    cases h
    exact .single (.disarm rfl)

theorem microRxrdy_writes {pos : RxAt} {p : Progress RxAt Unit} (h : microRxrdy s pos = .ok (s1, p)) :
    Writes (.link .rx) s s1 := by
  cases pos with
  | v1 =>
    simp only [microRxrdy] at h
    split at h <;> cases h
    exact .single (consumeRcreg_write (by assumption))
  | v2 r =>
    simp only [microRxrdy] at h
    split at h <;> cases h <;> exact .refl
  | v3 r w =>
    simp only [microRxrdy] at h
    split at h <;> cases h
    all_goals exact microWrite_writes rfl (by assumption)

theorem microStart_write {distance : Nat} {dir : Direction} {speed : Nat} {pos : StartAt} {p : Progress StartAt Unit}
    (h : microStart s distance dir speed pos = (s1, p)) : Write (.start distance) s s1 := by
  cases pos <;> cases h
  · exact .s1 rfl
  · exact .s2 rfl
  · exact .s3 rfl speed
  · exact .s4 rfl dir
  · exact .s5 rfl dir
  · exact .s6 rfl

theorem microTick_write {pos : TickAt} {p : Progress TickAt Unit} (h : microTick s pos = .ok (s1, p)) :
    Write .drive s s1 := by
  cases pos with
  | t1 =>
    cases h
    exact .t1 rfl
  | t2 i =>
    simp only [microTick] at h
    split at h
    · cases h
    next s2 hp => split at h <;> cases h <;> exact writePin_write hp
  | t3 =>
    cases h
    exact .t3 rfl
  | t4 =>
    cases h
    exact .t4 rfl

/-- A micro-step of an operation is updates within its scope. -/
theorem microStep_writes {a : Agent} {x : Activity} {x' : Option Activity}
    (h : microStep s a x = .ok (s1, x')) : Writes x.scope s s1 := by
  cases x with
  | rbWrite b v pos =>
    simp only [microStep] at h
    split at h <;> cases h
    next hm => exact microWrite_writes rfl hm
    next o hm => exact .trans (microWrite_writes rfl hm) (returnWrite_writes rfl _ a o)
  | rbRead b pos =>
    simp only [microStep] at h
    split at h <;> cases h
    next hm => exact microRead_writes rfl hm
    next r hm => exact .trans (microRead_writes rfl hm) (returnRead_writes rfl _ a r)
  | slEnqb v pos =>
    simp only [microStep] at h
    split at h <;> cases h
    next hm => exact microEnqb_writes hm
    next e hm => exact .trans (microEnqb_writes hm) (returnErr_writes rfl _ a e)
  | slEnqm todo eOut pos =>
    simp only [microStep] at h
    split at h <;> cases h
    next hm => exact microEnqm_writes hm
    next e hm => exact .tail (microEnqm_writes hm) (.reply a _)
  | slDeqb pos =>
    simp only [microStep] at h
    split at h <;> cases h
    next hm => exact microRead_writes rfl hm
    next r hm => exact .trans (microRead_writes rfl hm) (returnDeq_writes rfl _ a r)
  | slTxrdy pos =>
    simp only [microStep] at h
    split at h <;> cases h
    all_goals exact microTxrdy_writes (by assumption)
  | slRxrdy pos =>
    simp only [microStep] at h
    split at h <;> cases h
    all_goals exact microRxrdy_writes (by assumption)
  | ssStart distance dir speed pos =>
    simp only [microStep] at h
    split at h <;> cases h
    all_goals exact .single (microStart_write (by assumption))
  | ssRelease i =>
    simp only [microStep] at h
    split at h
    · cases h
    next s2 hp => split at h <;> cases h <;> exact .single (writePin_write hp)
  | ssTick pos =>
    simp only [microStep] at h
    split at h <;> cases h
    all_goals exact .single (microTick_write (by assumption))
  | rbIsFull | rbIsEmpty | ssIsfin =>
    cases h
    exact .single (.reply a _)

end Micro

end Sys2Proof.Machine
end

section
/-! PROOFS. What the operations leave alone (R26, R73, R79), read off their scopes. -/

namespace Sys2Proof.Machine

/-- Settles O41: outside the sequencer every scope is a buffer or a channel, whose updates touch neither the sequencer
nor the control part; the only operation left in progress is a held message. -/
theorem fifoOperationsKeepTheSequencer : Obligations.FifoOperationsKeepTheSequencer := by
  unfold Obligations.FifoOperationsKeepTheSequencer
  intro i s t hi he
  obtain ⟨roles, u, -, hw, ht⟩ := exec_writes he
  have hseq : SameSequencer s u := hw.sameSequencer (scopeOf_buf_isSome.2 hi)
  have hctl := hw.sameControl
  have hsur : SameSurroundings s u :=
    ⟨hctl.cfg, hctl.epoch, hctl.initDone, hctl.ports, hctl.agenda, hctl.stream⟩
  rcases ht with rfl | ⟨bytes, rest, hin, rfl⟩
  · exact ⟨hseq, hsur, hctl.irq, .inl hctl.main⟩
  · exact ⟨hseq, hsur, hctl.irq, .inr ⟨bytes, rest, hin, rfl⟩⟩

/-- An `RB` operation leaves the other buffer and the `SerialLink`'s enable, registers and output alone. -/
theorem exec_ring_frame {i : Instr} {s t : State} {b : BufId} (hsc : scopeOf i = .ring b) (he : exec i s = .next t) :
    (∀ b', b' ≠ b → t.ring b' = s.ring b') ∧ t.txArmed = s.txArmed ∧ t.txReg = s.txReg ∧ t.txOut = s.txOut
      ∧ t.rcReg = s.rcReg := by
  obtain ⟨roles, u, -, hw, ht⟩ := exec_writes he
  rw [hsc] at hw
  obtain ⟨harmed, hreg, hout⟩ := hw.sameTransmitter (by simp)
  have hrc := hw.sameRcReg (by simp)
  have hring : ∀ b', b' ≠ b → u.ring b' = s.ring b' := fun b' hb' => (hw.otherBuffer rfl hb').1
  rcases ht with rfl | ⟨bytes, rest, rfl, -⟩
  · exact ⟨hring, harmed, hreg, hout, hrc⟩
  · cases hsc

/-- A transmit operation leaves the receive channel alone. -/
theorem exec_transmit_frame {i : Instr} {s t : State} (hsc : scopeOf i = .link .tx) (he : exec i s = .next t) :
    t.rings.rx = s.rings.rx ∧ t.rcReg = s.rcReg ∧ t.accepted.rx = s.accepted.rx ∧ t.delivered.rx = s.delivered.rx := by
  obtain ⟨roles, u, -, hw, ht⟩ := exec_writes he
  rw [hsc] at hw
  obtain ⟨hring, hacc, hdel⟩ := hw.otherBuffer (b' := .rx) rfl (by simp)
  have hrc := hw.sameRcReg (by simp)
  rcases ht with rfl | ⟨bytes, rest, -, rfl⟩
  · exact ⟨hring, hrc, hacc, hdel⟩
  · exact ⟨hring, hrc, hacc, hdel⟩

/-- A receive operation leaves the transmit channel alone. -/
theorem exec_receive_frame {i : Instr} {s t : State} (hb : (scopeOf i).buf = some .rx) (he : exec i s = .next t) :
    t.rings.tx = s.rings.tx ∧ t.txArmed = s.txArmed ∧ t.txReg = s.txReg ∧ t.txOut = s.txOut
      ∧ t.accepted.tx = s.accepted.tx ∧ t.delivered.tx = s.delivered.tx := by
  obtain ⟨roles, u, -, hw, ht⟩ := exec_writes he
  obtain ⟨hring, hacc, hdel⟩ := hw.otherBuffer (b' := .tx) hb (by simp)
  obtain ⟨harmed, hreg, hout⟩ := hw.sameTransmitter (fun hsc => by simp [hsc, Scope.buf] at hb)
  rcases ht with rfl | ⟨bytes, rest, rfl, -⟩
  · exact ⟨hring, harmed, hreg, hout, hacc, hdel⟩
  · cases hb

/-- Settles O43: each clause is the frame of one scope. -/
theorem theTwoChannelsAreIndependent : Obligations.TheTwoChannelsAreIndependent := by
  unfold Obligations.TheTwoChannelsAreIndependent
  refine fun s t => ⟨fun a b v h => ?_, fun v bytes h => ?_, fun r h => ?_⟩
  · exact h.elim (exec_ring_frame rfl) (exec_ring_frame rfl)
  · exact h.elim (exec_transmit_frame rfl) (Or.elim · (exec_transmit_frame rfl) (exec_transmit_frame rfl))
  · exact h.elim (exec_receive_frame rfl) (exec_receive_frame rfl)

end Sys2Proof.Machine
end

section
/-! PROOFS. A buffer by itself (10_state.md R22, R23): its two indices, the number of bytes between them, and the bytes
themselves. -/

namespace Sys2Proof.Machine

/-! ## The indices -/

theorem incC_of_lt {c i : Nat} (h : i < c) : incC c i = if i + 1 = c then 0 else i + 1 := by
  unfold incC
  split
  next he => rw [he, Nat.mod_self]
  next he => exact Nat.mod_eq_of_lt (by omega)

theorem incC_lt {c : Nat} (hc : 2 ≤ c) (i : Nat) : incC c i < c := Nat.mod_lt _ (by omega)

theorem distC_of_lt {c h t : Nat} (hh : h < c) (ht : t < c) :
    distC c h t = if t ≤ h then h - t else h + c - t := by
  unfold distC
  split
  next hle =>
    rw [show h + c - t = h - t + c by omega, Nat.add_mod_right, Nat.mod_eq_of_lt (by omega)]
  next hle => exact Nat.mod_eq_of_lt (by omega)

/-- The storage is slots `0 .. C-1` and both indices are in range. -/
theorem Ring.wf_iff {c : Nat} {r : Ring} :
    r.wf c = true ↔ r.slots.map (fun cell => cell.1) = List.range c ∧ r.head < c ∧ r.tail < c := by
  simp only [Ring.wf, Bool.and_eq_true, decide_eq_true_eq, and_assoc]

/-- The empty and the full buffer by their indices. -/
theorem Ring.empty_iff {r : Ring} : r.empty = true ↔ r.head = r.tail := by simp [Ring.empty]

theorem Ring.full_iff {c : Nat} {r : Ring} : r.full c = true ↔ incC c r.head = r.tail := by simp [Ring.full]

/-- An address exists in a space exactly when it is listed. -/
theorem Memory.read_isSome_iff {m : Memory} {a : Nat} :
    (Memory.read m a).isSome = true ↔ a ∈ m.map (fun cell => cell.1) := by
  induction m with
  | nil => simp
  | cons cell rest ih =>
    obtain ⟨k, w⟩ := cell
    simp only [Memory.read, List.map_cons, List.mem_cons]
    split
    next hk => simp [hk]
    next hk => simp [ih, Ne.symm hk]

/-- Every slot of a well-formed buffer holds a byte. -/
theorem Ring.read_of_wf {c i : Nat} {r : Ring} (hw : r.wf c = true) (hi : i < c) :
    ∃ v, Memory.read r.slots i = some v := by
  rw [← Option.isSome_iff_exists, Memory.read_isSome_iff, (Ring.wf_iff.1 hw).1, List.mem_range]
  exact hi

section Count

variable {c : Nat} {r : Ring} (hh : r.head < c) (ht : r.tail < c)
include hh ht

theorem Ring.count_lt : r.count c < c := by
  simp only [Ring.count, distC_of_lt hh ht]
  split <;> omega

theorem Ring.full_iff_count : r.full c = true ↔ r.count c = c - 1 := by
  simp only [Ring.full_iff, Ring.count, distC_of_lt hh ht, incC_of_lt hh]
  split <;> split <;> omega

theorem Ring.empty_iff_count : r.empty = true ↔ r.count c = 0 := by
  simp only [Ring.empty_iff, Ring.count, distC_of_lt hh ht]
  split <;> omega

end Count

/-- Settles O14: the count is below `C`, full is its largest and empty its smallest value, and `C - 1` is not 0. -/
theorem fullAndEmptyAreTheEndsOfTheCount : Obligations.FullAndEmptyAreTheEndsOfTheCount := by
  unfold Obligations.FullAndEmptyAreTheEndsOfTheCount
  intro c r hc hw
  obtain ⟨-, hh, ht⟩ := Ring.wf_iff.1 hw
  have hlt := Ring.count_lt hh ht
  refine ⟨by omega, Ring.full_iff_count hh ht, Ring.empty_iff_count hh ht, ?_⟩
  rw [Ring.full_iff_count hh ht, Ring.empty_iff_count hh ht]
  omega

end Sys2Proof.Machine
end


section
/-! PROOFS. Well-formed states (R8, R22, R61) as the range of each part of the hardware and the operands of what is in
progress; every update within a scope keeps the ranges. -/

namespace Sys2Proof.Machine

/-- The operations in progress: the mainline's and those of the interrupt context. -/
def State.inProgress (s : State) : List Activity := s.main.toList ++ s.irq

/-- What `State.wf` says of the parameters, the buffers, the `IO` map, and the counts and periods. -/
structure HardwareOk (s : State) : Prop where
  params : s.cfg.wf = true
  ring : ∀ b, (s.ring b).wf (s.cap b) = true
  io : Memory.wf s.io = true
  pins : ∀ i, s.pinBound i = true
  steps : s.remainingSteps < 2 ^ s.cfg.wSteps
  period : s.tickPeriod < 2 ^ s.cfg.wTmr
  tmr : ∀ v ∈ s.tmr, v < 2 ^ s.cfg.wTmr
  tmrOut : ∀ v ∈ s.tmrOut, v < 2 ^ s.cfg.wTmr

theorem pinOrder_all {P : Fin 4 → Bool} : pinOrder.all P = true ↔ ∀ i, P i = true := by
  simp [pinOrder, Fin.forall_fin_succ]

/-- Something holds of every operation in progress when it holds in both contexts. -/
theorem State.forall_inProgress {s : State} {P : Activity → Bool} :
    (∀ x ∈ s.inProgress, P x = true) ↔ s.main.all P = true ∧ s.irq.all P = true := by
  cases hm : s.main <;> simp [State.inProgress, hm]

theorem State.wf_iff {s : State} :
    s.wf = true ↔ HardwareOk s ∧ ∀ x ∈ s.inProgress, x.operandsOk s.cfg = true := by
  rw [State.forall_inProgress (P := Activity.operandsOk s.cfg)]
  simp only [State.wf, Bool.and_eq_true, decide_eq_true_eq, pinOrder_all, and_assoc]
  constructor
  · rintro ⟨hp, htx, hrx, hio, hpins, hst, hper, htmr, hout, hops⟩
    refine ⟨⟨hp, fun b => ?_, hio, hpins, hst, hper, ?_, ?_⟩, hops⟩
    · cases b
      · exact htx
      · exact hrx
    · simpa [Option.all_eq_true] using htmr
    · simpa using hout
  · rintro ⟨⟨hp, hring, hio, hpins, hst, hper, htmr, hout⟩, hops⟩
    exact ⟨hp, hring .tx, hring .rx, hio, hpins, hst, hper, by simpa [Option.all_eq_true] using htmr,
      by simpa using hout, hops⟩

/-- Both buffers have at least two slots (R7). -/
theorem HardwareOk.two_le_cap {s : State} (h : HardwareOk s) (b : BufId) : 2 ≤ s.cap b := by
  obtain ⟨htx, hrx, -⟩ := Params.wf_iff.1 h.params
  cases b
  · exact htx
  · exact hrx

/-! ## The updates keep the ranges -/

section Keeps

variable {s : State}

/-- A buffer replaced by a well-formed one. -/
theorem HardwareOk.setRing {b : BufId} {r : Ring} (h : HardwareOk s) (hr : r.wf (s.cap b) = true) :
    HardwareOk (s.setRing b r) := by
  refine ⟨h.params, fun b' => ?_, h.io, h.pins, h.steps, h.period, h.tmr, h.tmrOut⟩
  by_cases hb : b' = b
  · subst hb
    rw [State.ring_setRing_same]
    exact hr
  · rw [State.ring_setRing_other _ _ hb]
    exact h.ring b'

/-- A write of `TMR` with a period of its width. -/
theorem HardwareOk.writeTmr {v : Nat} (h : HardwareOk s) (hv : v < 2 ^ s.cfg.wTmr) : HardwareOk (s.writeTmr v) := by
  refine ⟨h.params, h.ring, h.io, h.pins, h.steps, h.period, fun w hw => ?_, fun w hw => ?_⟩
  · cases hw
    exact hv
  · rcases List.mem_append.1 hw with hw | hw
    · exact h.tmrOut w hw
    · obtain rfl := List.mem_singleton.1 hw
      exact hv

/-- A write into the `IO` map. -/
theorem HardwareOk.writeIo {loc : Nat} {v : Byte} {io : Memory} (h : HardwareOk s)
    (hw : Memory.write s.io loc v = some io) : HardwareOk ({ s with io := io } : State).showPins := by
  refine ⟨h.params, h.ring, Memory.write_wf hw h.io, fun i => ?_, h.steps, h.period, h.tmr, h.tmrOut⟩
  have hi : (Memory.read s.io (s.cfg.pins.get i).loc).isSome = true := h.pins i
  rw [Memory.read_isSome_iff, ← Memory.write_addrs hw, ← Memory.read_isSome_iff] at hi
  exact hi

theorem decSat_le (n : Nat) : decSat n ≤ n := by
  unfold decSat
  split <;> omega

/-- Each update keeps the ranges; a `startMotion` needs a distance of its width. -/
theorem Write.hardwareOk {sc : Scope} {t : State} (hw : Write sc s t) (hf : sc.fits s.cfg) (h : HardwareOk s) :
    HardwareOk t := by
  have hincr : ∀ b i, incC (s.cap b) i < s.cap b := fun b i => incC_lt (h.two_le_cap b) i
  have hplain := h
  obtain ⟨hp, hring, hio, hpins, hst, hper, htmr, hout⟩ := hplain
  cases hw with
  | @store b k v slots hb hslots =>
    obtain ⟨haddr, hhd, htl⟩ := Ring.wf_iff.1 (hring b)
    exact h.setRing (Ring.wf_iff.2 ⟨(Memory.write_addrs hslots).trans haddr, hhd, htl⟩)
  | @publish b hb k v =>
    obtain ⟨haddr, -, htl⟩ := Ring.wf_iff.1 (hring b)
    obtain ⟨g1, g2, g3, g4, g5, g6, g7, g8⟩ :=
      h.setRing (b := b) (r := { s.ring b with head := incC (s.cap b) k }) (Ring.wf_iff.2 ⟨haddr, hincr b k, htl⟩)
    exact ⟨g1, g2, g3, g4, g5, g6, g7, g8⟩
  | @release b hb k v =>
    obtain ⟨haddr, hhd, -⟩ := Ring.wf_iff.1 (hring b)
    obtain ⟨g1, g2, g3, g4, g5, g6, g7, g8⟩ :=
      h.setRing (b := b) (r := { s.ring b with tail := incC (s.cap b) k }) (Ring.wf_iff.2 ⟨haddr, hhd, hincr b k⟩)
    exact ⟨g1, g2, g3, g4, g5, g6, g7, g8⟩
  | s2 hs =>
    subst hs
    exact ⟨hp, hring, hio, hpins, hf, hper, htmr, hout⟩
  | s3 hs speed =>
    have hr : periodOfRate s.cfg (clampRate s.cfg speed) < 2 ^ s.cfg.wTmr := Nat.mod_lt _ (Nat.two_pow_pos _)
    exact HardwareOk.writeTmr (s := { s with tickPeriod := periodOfRate s.cfg (clampRate s.cfg speed) })
      ⟨hp, hring, hio, hpins, hst, hr, htmr, hout⟩ hr
  | s5 hs dir =>
    rw [State.startS5_eq]
    exact ⟨hp, hring, hio, hpins, hst, hper, htmr, hout⟩
  | pin hs hwr => exact h.writeIo hwr
  | t1 hs => exact h.writeTmr hper
  | t4 hs => exact ⟨hp, hring, hio, hpins, Nat.lt_of_le_of_lt (decSat_le _) hst, hper, htmr, hout⟩
  | _ => exact ⟨hp, hring, hio, hpins, hst, hper, htmr, hout⟩

theorem Writes.hardwareOk {sc : Scope} {t : State} (hw : Writes sc s t) (hf : sc.fits s.cfg) (h : HardwareOk s) :
    HardwareOk t := by
  refine (hw.keeps (P := fun u => sc.fits u.cfg ∧ HardwareOk u) (fun u v huv hu => ?_) ⟨hf, h⟩).2
  have hcfg : v.cfg = u.cfg := (Writes.sameControl (.single huv)).cfg
  exact ⟨by rw [hcfg]; exact hu.1, huv.hardwareOk hu.1 hu.2⟩

end Keeps

end Sys2Proof.Machine
end

section
/-! PROOFS. The ports of R40: a request is one `write` or one `read` in the state with the ports sampled. -/

namespace Sys2Proof.Machine

/-- With well-formed parameters the event at the front of the agenda is what the step handles. -/
theorem step_event {s : State} {ev : Event} {rest : List Event} (hw : s.cfg.wf = true) (ha : s.agenda = ev :: rest) :
    step s = handleEvent { s with agenda := rest } ev := by
  simp [step, hw, stepOnce, ha]

/-- A write into the storage of a buffer replaces one slot. -/
theorem slotStored_of_write {r : Ring} {h : Nat} {v : Byte} {slots : Memory}
    (hw : Memory.write r.slots h v = some slots) : SlotStored r h v slots := by
  refine ⟨Memory.write_addrs hw, fun j => ?_⟩
  split
  next hj => rw [hj, Memory.read_write_same hw]
  next hj => exact Memory.read_write_other hw hj

/-- `write` on a buffer that is not full stores the value at `head` and advances it. -/
theorem writeBuf_stores {s t : State} {b : BufId} {v : Byte} (hf : s.isFull b = false)
    {o : Bool} (he : s.writeBuf b v = .ok (o, t)) :
    o = false ∧ ∃ slots, SlotStored (s.ring b) (s.ring b).head v slots
      ∧ t = { s with
          rings := s.rings.set b ⟨slots, ((s.ring b).head + 1) % s.cap b, (s.ring b).tail⟩
          accepted := s.accepted.set b (s.accepted.get b ++ [v]) } := by
  obtain ⟨hfull, -⟩ | ⟨-, rfl, s1, hs, rfl⟩ := writeBuf_ok he
  · simp [hf] at hfull
  · obtain ⟨slots, hw, rfl⟩ := storeSlot_ok hs
    refine ⟨rfl, slots, slotStored_of_write hw, ?_⟩
    simp [State.publishHead, State.setRing, State.ring, State.cap, incC]

/-- `RB.WRITE` on the two ends of the count. -/
theorem exec_rbWrite_next {s t : State} {a : Agent} {b : BufId} {v : Byte}
    (he : exec (.rbWrite a b v) s = .next t) :
    t.ports = s.ports
      ∧ (s.isFull b = true → t.rings = s.rings ∧ t.accepted = s.accepted)
      ∧ (s.isFull b = false → t.accepted.get b = s.accepted.get b ++ [v]
        ∧ ∃ slots, SlotStored (s.ring b) (s.ring b).head v slots
          ∧ t.rings = s.rings.set b ⟨slots, ((s.ring b).head + 1) % s.cap b, (s.ring b).tail⟩) := by
  obtain ⟨-, roles, -, ⟨hg, -⟩ | ⟨-, hm⟩⟩ := exec_next he
  · cases hg
  obtain ⟨o, s1, hw, rfl⟩ := meaning_rbWrite_ok hm
  have hret : (s1.returnWrite a o).ports = s1.ports ∧ (s1.returnWrite a o).rings = s1.rings
      ∧ (s1.returnWrite a o).accepted = s1.accepted := by
    cases o <;> exact ⟨rfl, rfl, rfl⟩
  obtain ⟨hports, hrings, hacc⟩ := hret
  rw [hports, hrings, hacc]
  refine ⟨(writeBuf_writes (sc := .ring b) rfl hw).sameControl.ports, fun hf => ?_, fun hf => ?_⟩
  · obtain ⟨-, -, rfl⟩ | ⟨hnot, -⟩ := writeBuf_ok hw
    · exact ⟨rfl, rfl⟩
    · exact absurd (hf.symm.trans hnot) (by simp)
  · obtain ⟨-, slots, hst, rfl⟩ := writeBuf_stores (s := s.withRoles (.rbWrite a b v) roles) hf hw
    exact ⟨by simp, slots, hst, rfl⟩

/-- `RB.READ` on the two ends of the count. -/
theorem exec_rbRead_next {s t : State} {a : Agent} {b : BufId} (he : exec (.rbRead a b) s = .next t) :
    t.ports = s.ports
      ∧ (s.isEmpty b = true → t.rings = s.rings ∧ t.delivered = s.delivered)
      ∧ (s.isEmpty b = false → ∃ v, Memory.read (s.ring b).slots (s.ring b).tail = some v
        ∧ t.delivered.get b = s.delivered.get b ++ [v]
        ∧ t.rings = s.rings.set b ⟨(s.ring b).slots, (s.ring b).head, ((s.ring b).tail + 1) % s.cap b⟩) := by
  obtain ⟨-, roles, -, ⟨hg, -⟩ | ⟨-, hm⟩⟩ := exec_next he
  · cases hg
  obtain ⟨r, s1, hr, rfl⟩ := meaning_rbRead_ok hm
  have hret : (s1.returnRead a r).ports = s1.ports ∧ (s1.returnRead a r).rings = s1.rings
      ∧ (s1.returnRead a r).delivered = s1.delivered := by
    cases r <;> exact ⟨rfl, rfl, rfl⟩
  obtain ⟨hports, hrings, hdel⟩ := hret
  rw [hports, hrings, hdel]
  refine ⟨(readBuf_writes (sc := .ring b) rfl hr).sameControl.ports, fun hf => ?_, fun hf => ?_⟩
  · obtain ⟨-, -, rfl⟩ | ⟨hnot, -⟩ := readBuf_ok hr
    · exact ⟨rfl, rfl⟩
    · exact absurd (hf.symm.trans hnot) (by simp)
  · obtain ⟨hemp, -⟩ | ⟨-, v, -, hv, rfl⟩ := readBuf_ok hr
    · exact absurd (hf.symm.trans hemp) (by simp)
    · exact ⟨v, hv, by simp [State.withRoles], rfl⟩

/-- Settles O46: an edge is handled as its sampling and, with a request, as exec of the write or the read. -/
theorem portRequestsAreWritesAndReads : Obligations.PortRequestsAreWritesAndReads := by
  unfold Obligations.PortRequestsAreWritesAndReads
  refine ⟨rfl, rfl, rfl, rfl, fun s b v rest hw => ?_⟩
  have hcfg : s.cfg.wf = true := (State.wf_iff.1 hw).1.params
  have hring := (State.wf_iff.1 hw).1.ring b
  refine ⟨fun ha => ⟨step_event hcfg ha, fun t ht => ?_⟩, fun ha => step_event hcfg ha,
    fun ha => ⟨⟨if s.isEmpty b then 0#8 else (Memory.read (s.ring b).slots (s.ring b).tail).getD 0#8,
      fun he => by simp [he], fun he => ?_, step_event hcfg ha⟩, fun t ht => ?_⟩,
    fun ha => step_event hcfg ha⟩
  · rw [step_event hcfg ha] at ht
    obtain ⟨hports, hfull, hroom⟩ := exec_rbWrite_next ht
    have hp : t.ports.get b = { s.ports.get b with wFull := s.isFull b, wOvf := s.isFull b } := by
      rw [hports]
      exact ByBuf.get_set_same _ _ _
    exact ⟨by rw [hp], by rw [hp], hfull, hroom⟩
  · obtain ⟨v, hv⟩ := Ring.read_of_wf hring (Ring.wf_iff.1 hring).2.2
    simp [he, hv]
  · rw [step_event hcfg ha] at ht
    obtain ⟨hports, hempty, hbyte⟩ := exec_rbRead_next ht
    have hp : t.ports.get b = { s.ports.get b with
        rEmpty := s.isEmpty b
        rUdf := s.isEmpty b
        rData := if s.isEmpty b then 0#8 else (Memory.read (s.ring b).slots (s.ring b).tail).getD 0#8 } := by
      rw [hports]
      exact ByBuf.get_set_same _ _ _
    refine ⟨by rw [hp], by rw [hp], fun he => ⟨by simp [hp, he], hempty he⟩, fun he => ?_⟩
    obtain ⟨v, hv, hdel, hrings⟩ := hbyte he
    have hd : (t.ports.get b).rData = v := by
      have hv' : Memory.read (s.ring b).slots (s.ring b).tail = some v := hv
      simp [hp, he, hv']
    exact ⟨by rw [hd]; exact hdel, hrings⟩

end Sys2Proof.Machine
end

section
/-! PROOFS. How operations in progress begin and go on (R11, R70, R200), and what one step can do, said once for every
invariant. -/

namespace Sys2Proof.Machine

/-! ## Beginning and going on -/

/-- An operation in progress stands at its first micro-step of an operation as issued. -/
inductive Opens : Instr → Activity → Prop
  | rbWrite (a : Agent) (b : BufId) (v : Byte) : Opens (.rbWrite a b v) (.rbWrite b v .w1)
  | rbRead (a : Agent) (b : BufId) : Opens (.rbRead a b) (.rbRead b .q1)
  | rbIsFull (a : Agent) (b : BufId) : Opens (.rbIsFull a b) (.rbIsFull b)
  | rbIsEmpty (a : Agent) (b : BufId) : Opens (.rbIsEmpty a b) (.rbIsEmpty b)
  | slEnqb (v : Byte) : Opens (.slEnqb v) (.slEnqb v (.write .w1))
  | slEnqm (v : Byte) (rest : List Byte) : Opens (.slEnqm (v :: rest)) (.slEnqm (v :: rest) false .l1)
  | slDeqb : Opens .slDeqb (.slDeqb .q1)
  | slTxrdy : Opens .slTxrdy (.slTxrdy .x1)
  | slRxrdy (r : Byte) : Opens (.slRxrdy r) (.slRxrdy .v1)
  | ssStart (distance : Nat) (dir : Direction) (speed : Nat) :
      Opens (.ssStart distance dir speed) (.ssStart distance dir speed .s1)
  | ssIsfin : Opens .ssIsfin .ssIsfin
  | ssRelease : Opens .ssRelease (.ssRelease 0)
  | ssTick : Opens .ssTick (.ssTick .t1)

/-- What happens before an operation's first micro-step: the environment presents the byte of a receive-ready
condition. -/
def State.prepare (s : State) : Instr → State
  | .slRxrdy r => s.presentByte r
  | _ => s

/-- An empty message returns at once; every other operation is entered at its first micro-step. -/
theorem beginOp_cases (s : State) (i : Instr) :
    (i = .slEnqm [] ∧ beginOp s i = s.reply .M (.err false))
      ∨ ∃ x, Opens i x ∧ beginOp s i = (s.prepare i).enter (issuer i) x := by
  cases i with
  | slEnqm bytes =>
    cases bytes with
    | nil => exact .inl ⟨rfl, rfl⟩
    | cons v rest => exact .inr ⟨_, .slEnqm v rest, rfl⟩
  | rbWrite a b v => exact .inr ⟨_, .rbWrite a b v, rfl⟩
  | rbRead a b => exact .inr ⟨_, .rbRead a b, rfl⟩
  | rbIsFull a b => exact .inr ⟨_, .rbIsFull a b, rfl⟩
  | rbIsEmpty a b => exact .inr ⟨_, .rbIsEmpty a b, rfl⟩
  | slEnqb v => exact .inr ⟨_, .slEnqb v, rfl⟩
  | slDeqb => exact .inr ⟨_, .slDeqb, rfl⟩
  | slTxrdy => exact .inr ⟨_, .slTxrdy, rfl⟩
  | slRxrdy r => exact .inr ⟨_, .slRxrdy r, rfl⟩
  | ssStart distance dir speed => exact .inr ⟨_, .ssStart distance dir speed, rfl⟩
  | ssIsfin => exact .inr ⟨_, .ssIsfin, rfl⟩
  | ssRelease => exact .inr ⟨_, .ssRelease, rfl⟩
  | ssTick => exact .inr ⟨_, .ssTick, rfl⟩

theorem prepare_writes (s : State) (i : Instr) : Writes (scopeOf i) s (s.prepare i) := by
  cases i with
  | slRxrdy r => exact .single (.present rfl r)
  | _ => exact .refl

/-- The same operation at another position of its pseudocode. -/
inductive Continues : Activity → Activity → Prop
  | rbWrite (b : BufId) (v : Byte) (pos pos' : WriteAt) : Continues (.rbWrite b v pos) (.rbWrite b v pos')
  | rbRead (b : BufId) (pos pos' : ReadAt) : Continues (.rbRead b pos) (.rbRead b pos')
  | slEnqb (v : Byte) (pos pos' : EnqAt) : Continues (.slEnqb v pos) (.slEnqb v pos')
  | slEnqm (todo todo' : List Byte) (e e' : Bool) (pos pos' : MsgAt) :
      Continues (.slEnqm todo e pos) (.slEnqm todo' e' pos')
  | slDeqb (pos pos' : ReadAt) : Continues (.slDeqb pos) (.slDeqb pos')
  | slTxrdy (pos pos' : TxAt) : Continues (.slTxrdy pos) (.slTxrdy pos')
  | slRxrdy (pos pos' : RxAt) : Continues (.slRxrdy pos) (.slRxrdy pos')
  | ssStart (distance : Nat) (dir : Direction) (speed : Nat) (pos pos' : StartAt) :
      Continues (.ssStart distance dir speed pos) (.ssStart distance dir speed pos')
  | ssRelease (i i' : Fin 4) : Continues (.ssRelease i) (.ssRelease i')
  | ssTick (pos pos' : TickAt) : Continues (.ssTick pos) (.ssTick pos')

/-- A micro-step that does not end an operation leaves that very operation in progress. -/
theorem microStep_continues {s s1 : State} {a : Agent} {x x' : Activity} (h : microStep s a x = .ok (s1, some x')) :
    Continues x x' := by
  cases x with
  | rbIsFull | rbIsEmpty | ssIsfin => cases h
  | ssRelease i =>
    simp only [microStep] at h
    split at h
    · cases h
    · split at h <;> cases h
      exact .ssRelease _ _
  | _ =>
    simp only [microStep] at h
    split at h <;> cases h
    constructor

theorem Opens.operandsOk {p : Params} {i : Instr} {x : Activity} (h : Opens i x) (hi : i.operandsOk p = true) :
    x.operandsOk p = true := by
  cases h with
  | ssStart => exact hi
  | _ => rfl

theorem Continues.operandsOk {p : Params} {x x' : Activity} (h : Continues x x') (hx : x.operandsOk p = true) :
    x'.operandsOk p = true := by
  cases h with
  | ssStart => exact hx
  | _ => rfl

/-! ## What one step can do -/

/-- The two states differ at most in what no invariant speaks of: `InitDone`, the ports, and what is to come. -/
def SameCore (s s' : State) : Prop :=
  ∃ initDone ports agenda stream,
    s' = { s with initDone := initDone, ports := ports, agenda := agenda, stream := stream }

/-- What a step can do to a state. -/
inductive StepCase (s : State) : State → Prop
  /-- nothing more -/
  | same : StepCase s s
  /-- a condition is raised with its gate closed -/
  | undelivered {i : Instr} {roles : Roles} (hr : claimRoles s.roles i = some roles) : StepCase s (s.withRoles i roles)
  /-- an operation begins, micro-steps to follow -/
  | begins {i : Instr} {roles : Roles} (hc : admitContext s i = .ok ()) (hr : claimRoles s.roles i = some roles) :
      StepCase s (beginOp (s.withRoles i roles) i)
  /-- a whole operation -/
  | whole {i : Instr} {roles : Roles} {t : State} (hc : admitContext s i = .ok ())
      (hr : claimRoles s.roles i = some roles) (hm : meaning i (s.withRoles i roles) = .ok t) : StepCase s t
  /-- a micro-step of the mainline -/
  | mainline {x : Activity} {x' : Option Activity} {s1 : State} (hx : s.main = some x) (ha : mainMayAdvance s x = true)
      (hm : microStep s .M x = .ok (s1, x')) : StepCase s { s1 with main := x' }
  /-- a micro-step of the interrupt context -/
  | interrupt {x : Activity} {rest : List Activity} {x' : Option Activity} {s1 : State} (hx : s.irq = x :: rest)
      (hm : microStep s .I x = .ok (s1, x')) : StepCase s { s1 with irq := x'.toList ++ rest }
  /-- a reset -/
  | restart : StepCase s s.restart

section

variable {s t : State}

theorem stepCase_of_exec {i : Instr} (h : exec i s = .next t) : StepCase s t := by
  obtain ⟨hc, roles, hr, ⟨-, rfl⟩ | ⟨-, hm⟩⟩ := exec_next h
  · exact .undelivered hr
  · exact .whole hc hr hm

theorem stepCase_of_begin {i : Instr} (h : issue s i (fun s1 => .ok (beginOp s1 i)) = .next t) : StepCase s t := by
  obtain ⟨hc, s1, ha, hb⟩ := issue_next h
  obtain ⟨-, roles, hr, rfl⟩ := admitRun_ok ha
  obtain ⟨-, rfl⟩ | ⟨-, hb⟩ := hb
  · exact .undelivered hr
  · cases hb
    exact .begins hc hr

theorem stepCase_of_advanceMain (h : advanceMain s = .next t) : StepCase s t := by
  obtain ⟨x, hx, ha, ⟨s1, hm, rfl⟩ | ⟨s1, x', hm, rfl⟩⟩ := advanceMain_next h
  · exact .mainline hx ha hm
  · exact .mainline hx ha hm

theorem stepCase_of_advanceIrq (h : advanceIrq s = .next t) : StepCase s t := by
  obtain ⟨x, rest, hx, ⟨s1, hm, rfl⟩ | ⟨s1, x', hm, rfl⟩⟩ := advanceIrq_next h
  all_goals
    have hirq : s1.irq = x :: rest := (microStep_writes hm).sameControl.irq.trans hx
    have hcase := StepCase.interrupt hx hm
    simpa [State.leaveInterrupt, State.enterInterrupt, hirq] using hcase

/-- Every event is one of the cases, in a state of the same core. -/
theorem handleEvent_next {ev : Event} (h : handleEvent s ev = .next t) : ∃ s', SameCore s s' ∧ StepCase s' t := by
  have hself : SameCore s s := ⟨_, _, _, _, rfl⟩
  cases ev with
  | init =>
    cases h
    exact ⟨_, ⟨_, _, _, _, rfl⟩, .same⟩
  | start i =>
    simp only [handleEvent] at h
    split at h
    · exact ⟨_, ⟨_, _, _, _, rfl⟩, stepCase_of_advanceIrq h⟩
    · exact ⟨s, hself, stepCase_of_begin h⟩
  | advance a =>
    cases a
    · exact ⟨s, hself, stepCase_of_advanceMain h⟩
    · exact ⟨s, hself, stepCase_of_advanceIrq h⟩
  | wclk b wReq wData =>
    cases wReq
    · cases h
      exact ⟨_, ⟨_, _, _, _, rfl⟩, .same⟩
    · exact ⟨s.samplePortW b true, ⟨_, _, _, _, rfl⟩,
        stepCase_of_exec (i := .rbWrite (portProducer b) b wData) h⟩
  | rclk b rReq =>
    cases rReq
    · cases h
      exact ⟨_, ⟨_, _, _, _, rfl⟩, .same⟩
    · exact ⟨s.samplePortR b true, ⟨_, _, _, _, rfl⟩, stepCase_of_exec (i := .rbRead (portConsumer b) b) h⟩
  | rst =>
    cases h
    exact ⟨s, hself, .restart⟩

/-- Every step is one of the cases, in a state of the same core. -/
theorem step_next_cases (h : step s = .next t) : ∃ s', SameCore s s' ∧ StepCase s' t := by
  have hself : SameCore s s := ⟨_, _, _, _, rfl⟩
  obtain ⟨ev, rest, -, hev⟩ | ⟨-, -, hirq⟩ | ⟨-, -, -, hmain⟩ | ⟨-, -, -, hrun⟩ := stepOnce_next (step_next_wf h).2
  · obtain ⟨s', ⟨_, _, _, _, rfl⟩, hcase⟩ := handleEvent_next hev
    exact ⟨_, ⟨_, _, _, _, rfl⟩, hcase⟩
  · exact ⟨s, hself, stepCase_of_advanceIrq hirq⟩
  · exact ⟨s, hself, stepCase_of_advanceMain hmain⟩
  · obtain ⟨-, rfl⟩ | ⟨i, rest, -, he⟩ := runCommand_next hrun
    · exact ⟨_, hself, .same⟩
    · exact ⟨_, ⟨_, _, _, _, rfl⟩, stepCase_of_exec he⟩

end

end Sys2Proof.Machine
end

section
/-! PROOFS. Reset (R39, R222), and that every step keeps the state well formed (R8, R22, R38, R61). -/

namespace Sys2Proof.Machine

/-! ## Reset -/

/-- Right after reset both buffers are empty, and not full. -/
theorem initial_ring_wf {p : Params} (hw : p.wf = true) (epoch : Nat) (b : BufId) :
    ((State.initial p epoch).ring b).wf (p.cap b) = true := by
  obtain ⟨htx, hrx, -⟩ := Params.wf_iff.1 hw
  cases b
  · exact Ring.wf_iff.2 ⟨Memory.drawn_addrs _ _, Nat.lt_of_lt_of_le Nat.zero_lt_two htx,
      Nat.lt_of_lt_of_le Nat.zero_lt_two htx⟩
  · exact Ring.wf_iff.2 ⟨Memory.drawn_addrs _ _, Nat.lt_of_lt_of_le Nat.zero_lt_two hrx,
      Nat.lt_of_lt_of_le Nat.zero_lt_two hrx⟩

/-- A buffer with equal indices holds no byte. -/
theorem Ring.contents_of_empty {c : Nat} {r : Ring} (hw : r.wf c = true) (he : r.empty = true) : r.contents c = [] := by
  obtain ⟨-, hh, ht⟩ := Ring.wf_iff.1 hw
  simp only [Ring.contents, (Ring.empty_iff_count hh ht).1 he, Ring.bytesFrom]

theorem initial_isEmpty (p : Params) (epoch : Nat) (b : BufId) : (State.initial p epoch).isEmpty b = true := by
  cases b <;> rfl

theorem initial_contents {p : Params} (hw : p.wf = true) (epoch : Nat) (b : BufId) :
    ((State.initial p epoch).ring b).contents (p.cap b) = [] :=
  Ring.contents_of_empty (initial_ring_wf hw epoch b) (initial_isEmpty p epoch b)

/-- The location of every pin is among the addresses of the `IO` map. -/
theorem pin_mem_pinLocs (p : Params) (i : Fin 4) : (p.pins.get i).loc ∈ pinLocs p := by
  have hmem : ∀ refs : List PinRef,
      (refs.foldr (fun r acc => insertLoc r.loc acc) []).Pairwise (· < ·)
        ∧ ∀ r ∈ refs, r.loc ∈ refs.foldr (fun r acc => insertLoc r.loc acc) [] := by
    intro refs
    induction refs with
    | nil => exact ⟨.nil, by simp⟩
    | cons r rest ih =>
      obtain ⟨hpair, hin⟩ := insertLoc_pairwise r.loc _ ih.1
      refine ⟨hpair, fun r' hr' => (hin _).2 ?_⟩
      rcases List.mem_cons.1 hr' with rfl | hr'
      · exact .inl rfl
      · exact .inr (ih.2 r' hr')
  exact Quad.forall_mem_toList.1 (hmem p.pins.toList).2 i

theorem initial_hardwareOk {p : Params} (hw : p.wf = true) (epoch : Nat) : HardwareOk (State.initial p epoch) where
  params := hw
  ring := initial_ring_wf hw epoch
  io := initial_io_wf p epoch
  pins i := by
    simp only [State.pinBound, Memory.read_isSome_iff, State.initial, Memory.drawn_addrs]
    exact pin_mem_pinLocs p i
  steps := Nat.two_pow_pos _
  period := Nat.mod_lt _ (Nat.two_pow_pos _)
  tmr v hv := by cases hv
  tmrOut v hv := by cases hv

/-- Settles O47: the two indices are 0, and `inc_C(0)` is 1 because a buffer has at least two slots. -/
theorem resetLeavesTheSpecifiedValues : Obligations.ResetLeavesTheSpecifiedValues := by
  unfold Obligations.ResetLeavesTheSpecifiedValues
  rintro p epoch s rfl hw
  refine ⟨fun b => ?_, rfl, rfl, rfl, rfl, rfl, rfl, rfl, rfl, rfl, rfl⟩
  have hzero : ((State.initial p epoch).ring b).head = 0 ∧ ((State.initial p epoch).ring b).tail = 0 := by
    cases b <;> exact ⟨rfl, rfl⟩
  have hring := initial_ring_wf hw epoch b
  obtain ⟨-, hh, ht⟩ := Ring.wf_iff.1 hring
  have hcap : 2 ≤ p.cap b := (initial_hardwareOk hw epoch).two_le_cap b
  have hfull : (State.initial p epoch).isFull b = false := by
    rw [Bool.eq_false_iff, State.isFull, ne_eq, Ring.full_iff]
    have h1 : incC (p.cap b) 0 = 1 := by rw [incC_of_lt (by omega), if_neg (by omega)]
    rw [hzero.1, hzero.2]
    exact fun h => by simp [show (State.initial p epoch).cap b = p.cap b from rfl, h1] at h
  exact ⟨hzero.1, hzero.2, initial_isEmpty p epoch b, hfull, initial_contents hw epoch b⟩

/-- FIFO order on both buffers and the locals of every operation in progress. -/
theorem State.fifoOk_iff {s : State} :
    s.fifoOk = true ↔ (∀ b, s.accepted.get b = s.delivered.get b ++ (s.ring b).contents (s.cap b))
      ∧ ∀ x ∈ s.inProgress, s.localsOk x = true := by
  have hbuf : (∀ b, s.accepted.get b = s.delivered.get b ++ (s.ring b).contents (s.cap b))
      ↔ s.fifoOrder .tx = true ∧ s.fifoOrder .rx = true := by
    simp only [State.fifoOrder, beq_iff_eq]
    exact ⟨fun h => ⟨h .tx, h .rx⟩, fun h b => by cases b; exacts [h.1, h.2]⟩
  rw [hbuf, State.forall_inProgress]
  simp only [State.fifoOk, Bool.and_eq_true, and_assoc]

/-- Right after reset, whatever is to come, nothing is in progress and the buffers and the histories are empty. -/
theorem initial_good {p : Params} (hw : p.wf = true) (epoch : Nat) (agenda : List Event) (stream : List Byte) :
    Good { State.initial p epoch with agenda := agenda, stream := stream } := by
  obtain ⟨g1, g2, g3, g4, g5, g6, g7, g8⟩ := initial_hardwareOk hw epoch
  refine ⟨State.wf_iff.2 ⟨⟨g1, g2, g3, g4, g5, g6, g7, g8⟩, fun x hx => by cases hx⟩, rfl, rfl,
    State.fifoOk_iff.2 ⟨fun b => ?_, fun x hx => by cases hx⟩, rfl⟩
  refine Eq.trans ?_ (congrArg _ (initial_contents hw epoch b)).symm
  cases b <;> rfl

/-- Settles O48: the further invariants hold at reset because nothing is in progress and no steps are left. -/
theorem invariantsHoldAtReset : Obligations.InvariantsHoldAtReset := by
  unfold Obligations.InvariantsHoldAtReset
  refine ⟨?_, initial_good (by decide) _ _ _⟩
  rintro p epoch agenda stream s hw rfl
  exact ⟨initial_good hw epoch agenda stream, rfl, rfl, rfl, rfl⟩

/-! ## Every step -/

/-- Well-formedness depends on the core alone. -/
theorem SameCore.wf {s s' : State} (h : SameCore s s') (hw : s.wf = true) : s'.wf = true := by
  obtain ⟨_, _, _, _, rfl⟩ := h
  exact hw

/-- What the operations in progress are matters to well-formedness only by their operands. -/
theorem wf_withContexts {s : State} {main : Option Activity} {irq : List Activity} (hw : s.wf = true)
    (hops : ∀ x ∈ main.toList ++ irq, x.operandsOk s.cfg = true) :
    ({ s with main := main, irq := irq } : State).wf = true := by
  obtain ⟨⟨g1, g2, g3, g4, g5, g6, g7, g8⟩, -⟩ := State.wf_iff.1 hw
  exact State.wf_iff.2 ⟨⟨g1, g2, g3, g4, g5, g6, g7, g8⟩, hops⟩

theorem wf_enter {s : State} {x : Activity} (a : Agent) (hw : s.wf = true) (hx : x.operandsOk s.cfg = true) :
    (s.enter a x).wf = true := by
  have hops := (State.wf_iff.1 hw).2
  cases a with
  | M =>
    refine wf_withContexts (main := some x) (irq := s.irq) hw fun y hy => ?_
    rcases List.mem_append.1 hy with hy | hy
    · exact List.mem_singleton.1 hy ▸ hx
    · exact hops y (List.mem_append_right _ hy)
  | I =>
    refine wf_withContexts (main := s.main) (irq := x :: s.irq) hw fun y hy => ?_
    rcases List.mem_append.1 hy with hy | hy
    · exact hops y (List.mem_append_left _ hy)
    · rcases List.mem_cons.1 hy with rfl | hy
      · exact hx
      · exact hops y (List.mem_append_right _ hy)

/-- Updates within a scope keep the state well formed. -/
theorem Writes.wf {sc : Scope} {s t : State} (h : Writes sc s t) (hf : sc.fits s.cfg) (hw : s.wf = true) :
    t.wf = true := by
  obtain ⟨hhw, hops⟩ := State.wf_iff.1 hw
  have hc := h.sameControl
  refine State.wf_iff.2 ⟨h.hardwareOk hf hhw, ?_⟩
  simpa only [State.inProgress, hc.main, hc.irq, hc.cfg] using hops

theorem beginOp_wf {s : State} {i : Instr} (hw : s.wf = true) (hi : i.operandsOk s.cfg = true) :
    (beginOp s i).wf = true ∧ (beginOp s i).cfg = s.cfg := by
  obtain ⟨rfl, hb⟩ | ⟨x, hx, hb⟩ := beginOp_cases s i
  · rw [hb]
    exact ⟨hw, rfl⟩
  · have hp := prepare_writes s i
    have hcfg := hp.sameControl.cfg
    rw [hb]
    refine ⟨wf_enter _ (hp.wf (scopeOf_fits hi) hw) (by rw [hcfg]; exact hx.operandsOk hi), ?_⟩
    cases issuer i <;> exact hcfg

theorem stepCase_wf {s t : State} (h : StepCase s t) (hw : s.wf = true) : t.wf = true ∧ t.cfg = s.cfg := by
  obtain ⟨hhw, hops⟩ := State.wf_iff.1 hw
  cases h with
  | same => exact ⟨hw, rfl⟩
  | undelivered hr => exact ⟨hw, rfl⟩
  | @begins i roles hc hr => exact beginOp_wf (s := s.withRoles i roles) hw (admitContext_ok.1 hc).2.1
  | @whole i roles t hc hr hm =>
    have hi : i.operandsOk s.cfg = true := (admitContext_ok.1 hc).2.1
    obtain ⟨u, hu, ht⟩ := meaning_writes hm
    have huw : u.wf = true := hu.wf (scopeOf_fits hi) hw
    rcases ht with rfl | ⟨bytes, rest, -, rfl⟩
    · exact ⟨huw, hu.sameControl.cfg⟩
    · exact ⟨wf_enter .M huw rfl, hu.sameControl.cfg⟩
  | @mainline x x' s1 hx ha hm =>
    have hxo : x.operandsOk s.cfg = true := hops x (by simp [State.inProgress, hx])
    have hwr := microStep_writes hm
    have hc := hwr.sameControl
    refine ⟨wf_withContexts (irq := s1.irq) (hwr.wf (Activity.scope_fits hxo) hw) fun y hy => ?_, hc.cfg⟩
    rw [hc.cfg]
    rcases List.mem_append.1 hy with hy | hy
    · obtain rfl := Option.mem_toList.1 hy
      exact (microStep_continues hm).operandsOk hxo
    · rw [hc.irq] at hy
      exact hops y (List.mem_append_right _ hy)
  | @interrupt x rest x' s1 hx hm =>
    have hxo : x.operandsOk s.cfg = true := hops x (by simp [State.inProgress, hx])
    have hwr := microStep_writes hm
    have hc := hwr.sameControl
    refine ⟨wf_withContexts (main := s1.main) (hwr.wf (Activity.scope_fits hxo) hw) fun y hy => ?_, hc.cfg⟩
    rw [hc.cfg]
    rcases List.mem_append.1 hy with hy | hy
    · rw [hc.main] at hy
      exact hops y (List.mem_append_left _ hy)
    · rcases List.mem_append.1 hy with hy | hy
      · obtain rfl := Option.mem_toList.1 hy
        exact (microStep_continues hm).operandsOk hxo
      · exact hops y (List.mem_append_right _ (by simp [hx, hy]))
  | restart => exact ⟨(initial_good hhw.params (s.epoch + 1) s.agenda s.stream).1, rfl⟩

/-- Settles O51: each case of a step is updates within a scope, which keep the ranges and the parameters, or a reset. -/
theorem stepKeepsTheStateWellFormed : Obligations.StepKeepsTheStateWellFormed := by
  unfold Obligations.StepKeepsTheStateWellFormed
  intro s t hw h
  obtain ⟨s', hss, hst⟩ := step_next_cases h
  obtain ⟨htw, htc⟩ := stepCase_wf hst (hss.wf hw)
  obtain ⟨_, _, _, _, rfl⟩ := hss
  exact ⟨htw, htc⟩

end Sys2Proof.Machine
end

section
/-! PROOFS. The sequencer's invariant (R31): steps are left only while the timer is armed, outside the window S2..S6. -/

namespace Sys2Proof.Machine

/-- No steps are left, or the timer is armed. -/
def State.settled (s : State) : Bool := s.finished || s.timerArmed

theorem State.seqOk_iff {s : State} : s.seqOk = true ↔ s.settled = true ∨ startWindow s.main = true := by
  simp [State.seqOk, State.settled]

/-- T4 disarms exactly when no steps are left after it. -/
theorem tickT4_settled {s : State} (h : s.settled = true) : s.tickT4.settled = true := by
  simp only [State.settled, State.finished, Bool.or_eq_true, beq_iff_eq] at h ⊢
  by_cases h0 : decSat s.remainingSteps = 0
  · exact .inl h0
  · have hne : s.remainingSteps ≠ 0 := fun hz => h0 (by rw [hz]; rfl)
    exact .inr (by simp [State.tickT4, h0, h.resolve_left hne])

/-- Only a `startMotion` can leave steps with the timer disarmed. -/
theorem Writes.settled {sc : Scope} {s t : State} (h : Writes sc s t) (hne : ∀ d, sc ≠ .start d)
    (hs : s.settled = true) : t.settled = true := by
  refine h.keeps (P := fun u => u.settled = true) (fun u v hw hu => ?_) hs
  cases hw with
  | s1 hst | s2 hst | s3 hst | s4 hst | s5 hst | s6 hst => exact absurd hst (hne _)
  | t4 hst => exact tickT4_settled hu
  | _ => exact hu

/-- An operation that is no `startMotion` has another scope. -/
theorem scopeOf_ne_start {i : Instr} (h : ∀ d dir v, i ≠ .ssStart d dir v) (d : Nat) : scopeOf i ≠ .start d := by
  cases i with
  | ssStart d' dir v => exact absurd rfl (h d' dir v)
  | _ => simp [scopeOf]

theorem Activity.scope_ne_start {x : Activity} (h : ∀ d dir v pos, x ≠ .ssStart d dir v pos) (d : Nat) :
    x.scope ≠ .start d := by
  cases x with
  | ssStart d' dir v pos => exact absurd rfl (h d' dir v pos)
  | _ => simp [Activity.scope]

/-- The window is that of a `startMotion`. -/
theorem startWindow_eq_false {x : Activity} (h : ∀ d dir v pos, x ≠ .ssStart d dir v pos) :
    startWindow (some x) = false := by
  cases x with
  | ssStart d dir v pos => exact absurd rfl (h d dir v pos)
  | _ => rfl

/-- The mainline begins an operation only when it is in none. -/
theorem main_eq_none_of_mayBegin {s : State} {i : Instr} (hi : issuer i = .M) (h : mayBegin s i = true) :
    s.main = none := by
  simp only [mayBegin, hi, Bool.and_eq_true, Option.isNone_iff_eq_none] at h
  exact h.1

theorem beginOp_seqOk {s : State} {i : Instr} (hb : mayBegin s i = true) (hs : s.seqOk = true) :
    (beginOp s i).seqOk = true := by
  obtain ⟨-, hbegin⟩ | ⟨x, -, hbegin⟩ := beginOp_cases s i
  · rw [hbegin]
    exact hs
  have hprep : (s.prepare i).settled = s.settled ∧ (s.prepare i).main = s.main := by
    cases i <;> exact ⟨rfl, rfl⟩
  rw [hbegin, State.seqOk_iff]
  rw [State.seqOk_iff] at hs
  cases hi : issuer i with
  | M =>
    rw [main_eq_none_of_mayBegin hi hb] at hs
    exact .inl (hprep.1.trans (hs.resolve_right Bool.false_ne_true))
  | I => exact hs.imp hprep.1.trans fun hwin => (congrArg startWindow hprep.2).trans hwin

theorem meaning_seqOk {s t : State} {i : Instr} (hb : mayBegin s i = true) (hs : s.seqOk = true)
    (hm : meaning i s = .ok t) : t.seqOk = true := by
  by_cases hi : ∃ d dir v, i = .ssStart d dir v
  · obtain ⟨d, dir, v, rfl⟩ := hi
    cases hm
    exact State.seqOk_iff.2 (.inl (by simp [State.settled, State.startMotion]))
  · have hne : ∀ d, scopeOf i ≠ .start d := scopeOf_ne_start fun d dir v h => hi ⟨d, dir, v, h⟩
    obtain ⟨u, hu, ht⟩ := meaning_writes hm
    rw [State.seqOk_iff] at hs ⊢
    rcases ht with rfl | ⟨bytes, rest, rfl, rfl⟩
    · exact hs.imp (hu.settled hne) fun hwin => (congrArg startWindow hu.sameControl.main).trans hwin
    · rw [main_eq_none_of_mayBegin rfl hb] at hs
      exact .inl (hu.settled hne (hs.resolve_right Bool.false_ne_true))

/-- A micro-step of the mainline: S2 opens the window, S6 closes it with the timer armed. -/
theorem microStep_main_seqOk {s s1 : State} {x : Activity} {x' : Option Activity} (hx : s.main = some x)
    (hs : s.seqOk = true) (hm : microStep s .M x = .ok (s1, x')) :
    ({ s1 with main := x' } : State).seqOk = true := by
  rw [State.seqOk_iff, hx] at hs
  rw [State.seqOk_iff]
  by_cases hstart : ∃ d dir v pos, x = .ssStart d dir v pos
  · obtain ⟨d, dir, v, pos, rfl⟩ := hstart
    cases pos with
    | s1 =>
      cases hm
      exact .inl (hs.resolve_right Bool.false_ne_true)
    | s6 =>
      cases hm
      exact .inl (by simp [State.settled])
    | s2 | s3 | s4 | s5 =>
      cases hm
      exact .inr rfl
  · have hne : ∀ d dir v pos, x ≠ .ssStart d dir v pos := fun d dir v pos h => hstart ⟨d, dir, v, pos, h⟩
    rw [startWindow_eq_false hne] at hs
    exact .inl ((microStep_writes hm).settled (Activity.scope_ne_start hne) (hs.resolve_right Bool.false_ne_true))

theorem stepCase_seqOk {s t : State} (h : StepCase s t) (hctx : s.contextsOk = true) (hs : s.seqOk = true) :
    t.seqOk = true := by
  cases h with
  | same => exact hs
  | undelivered hr => exact hs
  | @begins i roles hc hr => exact beginOp_seqOk (s := s.withRoles i roles) (admitContext_ok.1 hc).2.2 hs
  | @whole i roles t hc hr hm => exact meaning_seqOk (s := s.withRoles i roles) (admitContext_ok.1 hc).2.2 hs hm
  | mainline hx ha hm => exact microStep_main_seqOk hx hs hm
  | @interrupt x rest x' s1 hx hm =>
    have hirq : x.ofIrq = true := by
      simp only [State.contextsOk, Bool.and_eq_true, hx, List.all_cons] at hctx
      exact hctx.1.2.1
    have hne : ∀ d dir v pos, x ≠ .ssStart d dir v pos := by
      rintro d dir v pos rfl
      cases hirq
    have hwr := microStep_writes hm
    rw [State.seqOk_iff] at hs ⊢
    exact hs.imp (hwr.settled (Activity.scope_ne_start hne))
      fun hwin => (congrArg startWindow hwr.sameControl.main).trans hwin
  | restart => rfl

/-- Settles O56: only a `startMotion` can leave steps with the timer disarmed, and the mainline is in that window only
from S2 to S6. -/
theorem stepKeepsTheSequencerInvariant : Obligations.StepKeepsTheSequencerInvariant := by
  unfold Obligations.StepKeepsTheSequencerInvariant
  intro s t hctx hs h
  obtain ⟨s', ⟨_, _, _, _, rfl⟩, hst⟩ := step_next_cases h
  exact stepCase_seqOk hst hctx hs

end Sys2Proof.Machine
end

section
/-! PROOFS. The bytes of a buffer while a `write` and a `read` go on (R22, R127 to R129): what the store W3, the
publication W4 and the release Q4 do to the resident bytes, and to the locals of the other side. -/

namespace Sys2Proof.Machine

variable {c : Nat} {r : Ring}

/-! ## The bytes from an index on -/

theorem incC_add_mod {i k : Nat} : (incC c i + k) % c = (i + (k + 1)) % c := by
  rw [incC, Nat.mod_add_mod]
  congr 1
  omega

/-- Byte by byte: slot `(t + k) mod C` for each `k`. -/
theorem Ring.bytesFrom_eq_flatMap {t n : Nat} (ht : t < c) :
    r.bytesFrom c t n = (List.range n).flatMap fun k => (Memory.read r.slots ((t + k) % c)).toList := by
  induction n generalizing t with
  | zero => rfl
  | succ n ih =>
    rw [Ring.bytesFrom, ih (t := incC c t) (Nat.mod_lt _ (by omega)), List.range_succ_eq_map, List.flatMap_cons,
      List.flatMap_map, Nat.add_zero, Nat.mod_eq_of_lt ht]
    simp only [incC_add_mod]

/-- The next byte comes last. -/
theorem Ring.bytesFrom_succ {t n : Nat} (ht : t < c) :
    r.bytesFrom c t (n + 1) = r.bytesFrom c t n ++ (Memory.read r.slots ((t + n) % c)).toList := by
  simp [Ring.bytesFrom_eq_flatMap ht, List.range_succ]

/-- Only the slots between the two indices matter. -/
theorem Ring.bytesFrom_congr {r' : Ring} {t n : Nat} (ht : t < c)
    (h : ∀ k, k < n → Memory.read r'.slots ((t + k) % c) = Memory.read r.slots ((t + k) % c)) :
    r'.bytesFrom c t n = r.bytesFrom c t n := by
  rw [Ring.bytesFrom_eq_flatMap ht, Ring.bytesFrom_eq_flatMap ht]
  exact List.flatMap_congr fun k hk => by rw [h k (List.mem_range.1 hk)]

/-! ## Counting -/

/-- The slots from an index on, below the end of the storage and past it. -/
theorem add_mod_of_lt {t k : Nat} (ht : t < c) (hk : k < c) :
    (t + k) % c = if t + k < c then t + k else t + k - c := by
  split
  next h => exact Nat.mod_eq_of_lt h
  next h => rw [Nat.mod_eq_sub_mod (by omega), Nat.mod_eq_of_lt (by omega)]

section Indices

variable (hh : r.head < c) (ht : r.tail < c)
include hh ht

/-- The slot at `head` is not resident. -/
theorem Ring.resident_ne_head {k : Nat} (hk : k < r.count c) : (r.tail + k) % c ≠ r.head := by
  have hc : r.count c < c := Ring.count_lt hh ht
  rw [Ring.count, distC_of_lt hh ht] at hk hc
  rw [add_mod_of_lt ht (by omega)]
  split at hk <;> split <;> omega

/-- The slot at `head` is the next after the resident ones. -/
theorem Ring.tail_add_count : (r.tail + r.count c) % c = r.head := by
  have hc : r.count c < c := Ring.count_lt hh ht
  rw [add_mod_of_lt ht hc]
  rw [Ring.count, distC_of_lt hh ht] at hc ⊢
  split <;> split <;> omega

/-- A publication on a buffer that is not full adds one byte. -/
theorem Ring.count_publish (hf : r.full c = false) :
    Ring.count c { r with head := incC c r.head } = r.count c + 1 := by
  have hne : incC c r.head ≠ r.tail := fun h => by simp [Ring.full_iff.2 h] at hf
  have hlt : incC c r.head < c := Nat.mod_lt _ (by omega)
  rw [incC_of_lt hh] at hne hlt
  simp only [Ring.count, incC_of_lt hh, distC_of_lt hh ht, distC_of_lt hlt ht]
  split_ifs at hne ⊢ <;> omega

/-- A release on a buffer that is not empty takes one byte. -/
theorem Ring.count_release (he : r.empty = false) :
    r.count c = Ring.count c { r with tail := incC c r.tail } + 1 := by
  have hne : r.head ≠ r.tail := fun h => by simp [Ring.empty_iff.2 h] at he
  have hlt : incC c r.tail < c := Nat.mod_lt _ (by omega)
  rw [incC_of_lt ht] at hlt
  simp only [Ring.count, incC_of_lt ht, distC_of_lt hh ht, distC_of_lt hh hlt]
  split_ifs <;> omega

end Indices

/-! ## W3: the store -/

section Store

variable {v : Byte} {slots : Memory} (hw : r.wf c = true) (hs : Memory.write r.slots r.head v = some slots)
include hw hs

theorem Ring.wf_store : Ring.wf c { r with slots := slots } = true := by
  obtain ⟨haddr, hh, ht⟩ := Ring.wf_iff.1 hw
  exact Ring.wf_iff.2 ⟨(Memory.write_addrs hs).trans haddr, hh, ht⟩

/-- The store changes no resident byte. -/
theorem Ring.contents_store : Ring.contents c { r with slots := slots } = r.contents c := by
  obtain ⟨-, hh, ht⟩ := Ring.wf_iff.1 hw
  exact Ring.bytesFrom_congr ht fun k hk => Memory.read_write_other hs (Ring.resident_ne_head hh ht hk)

omit hw in
/-- The store leaves the locals of a `read` true: the byte at `tail` is another slot. -/
theorem readPosOk_store {pos : ReadAt} (h : readPosOk c r pos = true) :
    readPosOk c { r with slots := slots } pos = true := by
  cases pos with
  | q1 => rfl
  | q2 t hd => exact h
  | q3 t => exact h
  | q4 t w =>
    simp only [readPosOk, Bool.and_eq_true, beq_iff_eq, Bool.not_eq_true'] at h ⊢
    obtain ⟨⟨rfl, he⟩, hr⟩ := h
    have hne : r.tail ≠ r.head := fun heq => by simp [Ring.empty_iff.2 heq.symm] at he
    exact ⟨⟨rfl, he⟩, by rw [Memory.read_write_other hs hne]; exact hr⟩

end Store

/-! ## W4: the publication -/

section Publish

variable (hw : r.wf c = true) (hf : r.full c = false)
include hw

theorem Ring.wf_publish : Ring.wf c { r with head := incC c r.head } = true := by
  obtain ⟨haddr, hh, ht⟩ := Ring.wf_iff.1 hw
  exact Ring.wf_iff.2 ⟨haddr, Nat.mod_lt _ (by omega), ht⟩

include hf

/-- The publication makes the stored byte the last resident one. -/
theorem Ring.contents_publish {v : Byte} (hr : Memory.read r.slots r.head = some v) :
    Ring.contents c { r with head := incC c r.head } = r.contents c ++ [v] := by
  obtain ⟨-, hh, ht⟩ := Ring.wf_iff.1 hw
  have hlast := Ring.bytesFrom_succ (r := r) (n := r.count c) ht
  rw [Ring.tail_add_count hh ht, hr] at hlast
  rw [Ring.contents, Ring.count_publish hh ht hf]
  exact (Ring.bytesFrom_congr (r := r) (r' := { r with head := incC c r.head }) ht fun _ _ => rfl).trans hlast

omit hw in
theorem Ring.empty_publish : Ring.empty { r with head := incC c r.head } = false := by
  rw [Bool.eq_false_iff, ne_eq, Ring.empty_iff]
  exact fun h => by simp [Ring.full_iff.2 h] at hf

/-- The publication leaves the locals of a `read` true: a `head` sampled before it shows no byte that is not there. -/
theorem readPosOk_publish {pos : ReadAt} (h : readPosOk c r pos = true) :
    readPosOk c { r with head := incC c r.head } pos = true := by
  obtain ⟨-, hh, ht⟩ := Ring.wf_iff.1 hw
  have hempty := Ring.empty_publish hf
  cases pos with
  | q1 => rfl
  | q2 t hd =>
    simp only [readPosOk, Bool.and_eq_true, beq_iff_eq, decide_eq_true_eq, Ring.count_publish hh ht hf] at h ⊢
    exact ⟨h.1, by omega⟩
  | q3 t =>
    simp only [readPosOk, Bool.and_eq_true, beq_iff_eq, hempty] at h ⊢
    exact ⟨h.1, rfl⟩
  | q4 t w =>
    simp only [readPosOk, Bool.and_eq_true, beq_iff_eq, hempty] at h ⊢
    exact ⟨⟨h.1.1, rfl⟩, h.2⟩

end Publish

/-! ## Q4: the release -/

section Release

variable (hw : r.wf c = true) (he : r.empty = false)
include hw

theorem Ring.wf_release : Ring.wf c { r with tail := incC c r.tail } = true := by
  obtain ⟨haddr, hh, ht⟩ := Ring.wf_iff.1 hw
  exact Ring.wf_iff.2 ⟨haddr, hh, Nat.mod_lt _ (by omega)⟩

include he

/-- The release takes the first resident byte. -/
theorem Ring.contents_release {v : Byte} (hr : Memory.read r.slots r.tail = some v) :
    r.contents c = v :: Ring.contents c { r with tail := incC c r.tail } := by
  obtain ⟨-, hh, ht⟩ := Ring.wf_iff.1 hw
  rw [Ring.contents, Ring.count_release hh ht he, Ring.bytesFrom, hr, Ring.contents]
  exact congrArg (v :: ·) (Ring.bytesFrom_congr (Nat.mod_lt _ (by omega)) fun _ _ => rfl)

theorem Ring.full_release : Ring.full c { r with tail := incC c r.tail } = false := by
  obtain ⟨-, hh, ht⟩ := Ring.wf_iff.1 hw
  obtain ⟨-, hh', ht'⟩ := Ring.wf_iff.1 (Ring.wf_release hw)
  have hlt := Ring.count_lt hh ht
  rw [Ring.count_release hh ht he] at hlt
  rw [Bool.eq_false_iff, ne_eq, Ring.full_iff_count hh' ht']
  omega

/-- The release leaves the locals of a `write` true: a `tail` sampled before it shows no byte too few. -/
theorem writePosOk_release {v : Byte} {pos : WriteAt} (h : writePosOk c r v pos = true) :
    writePosOk c { r with tail := incC c r.tail } v pos = true := by
  obtain ⟨-, hh, ht⟩ := Ring.wf_iff.1 hw
  have hfull := Ring.full_release hw he
  cases pos with
  | w1 => rfl
  | w2 hd t =>
    simp only [writePosOk, Bool.and_eq_true, beq_iff_eq, decide_eq_true_eq, Ring.count_release hh ht he] at h ⊢
    exact ⟨h.1, by omega⟩
  | w3 hd =>
    simp only [writePosOk, Bool.and_eq_true, beq_iff_eq, hfull] at h ⊢
    exact ⟨h.1, rfl⟩
  | w4 hd =>
    simp only [writePosOk, Bool.and_eq_true, beq_iff_eq, hfull] at h ⊢
    exact ⟨⟨h.1.1, rfl⟩, h.2⟩

end Release

/-! ## W1, W2, Q1, Q2: the samples -/

/-- Indices sampled at W1 are those of the buffer. -/
theorem writePosOk_sample (hw : r.wf c = true) (v : Byte) : writePosOk c r v (.w2 r.head r.tail) = true := by
  obtain ⟨-, -, ht⟩ := Ring.wf_iff.1 hw
  simp [writePosOk, ht, Ring.count]

/-- A `write` that passes the test of W2 finds the buffer not full, although `tail` may have moved since W1. -/
theorem writePosOk_test {v : Byte} {h t : Nat} (hw : r.wf c = true) (hpos : writePosOk c r v (.w2 h t) = true)
    (hne : incC c h ≠ t) : writePosOk c r v (.w3 h) = true := by
  obtain ⟨-, hh, ht⟩ := Ring.wf_iff.1 hw
  simp only [writePosOk, Bool.and_eq_true, beq_iff_eq, decide_eq_true_eq] at hpos
  obtain ⟨⟨rfl, htc⟩, hle⟩ := hpos
  have hnot : ¬ r.full c = true := by
    rw [Ring.full_iff_count hh ht]
    rw [distC_of_lt hh htc] at hle
    rw [incC_of_lt hh] at hne
    split at hle <;> split at hne <;> omega
  simp [writePosOk, hnot]

/-- After the store the slot at `head` holds the value. -/
theorem writePosOk_stored {v : Byte} {h : Nat} {slots : Memory} (hpos : writePosOk c r v (.w3 h) = true)
    (hs : Memory.write r.slots h v = some slots) : writePosOk c { r with slots := slots } v (.w4 h) = true := by
  simp only [writePosOk, Bool.and_eq_true, beq_iff_eq] at hpos ⊢
  exact ⟨hpos, Memory.read_write_same hs⟩

/-- Indices sampled at Q1 are those of the buffer. -/
theorem readPosOk_sample (hw : r.wf c = true) : readPosOk c r (.q2 r.tail r.head) = true := by
  obtain ⟨-, hh, -⟩ := Ring.wf_iff.1 hw
  simp [readPosOk, hh, Ring.count]

/-- A `read` that passes the test of Q2 finds the buffer not empty, although `head` may have moved since Q1. -/
theorem readPosOk_test {t h : Nat} (hw : r.wf c = true) (hpos : readPosOk c r (.q2 t h) = true) (hne : h ≠ t) :
    readPosOk c r (.q3 t) = true := by
  obtain ⟨-, hh, ht⟩ := Ring.wf_iff.1 hw
  simp only [readPosOk, Bool.and_eq_true, beq_iff_eq, decide_eq_true_eq] at hpos
  obtain ⟨⟨rfl, hhc⟩, hle⟩ := hpos
  have hnot : ¬ r.empty = true := by
    rw [Ring.empty_iff_count hh ht]
    rw [distC_of_lt hhc ht] at hle
    split at hle <;> omega
  simp [readPosOk, hnot]

end Sys2Proof.Machine
end

section
/-! PROOFS. What a micro-step does to the buffers: it is a micro-step of the one `write` or `read` the operation is in
the middle of, or touches no buffer. -/

namespace Sys2Proof.Machine

/-! ## The micro-steps of the composed operations -/

section Inversions

variable {s s1 : State}

/-- A micro-step of `enqueueByte` is one of its `write`, or A1. -/
theorem microEnqb_ok {v : Byte} {pos : EnqAt} {p : Progress EnqAt Bool} (h : microEnqb s v pos = .ok (s1, p)) :
    (pos = .a1 ∧ s1 = s.armTx ∧ p = .done false)
      ∨ ∃ w q, pos = .write w ∧ microWrite s .tx v w = .ok (s1, q)
        ∧ ((∃ w', q = .going w' ∧ p = .going (.write w')) ∨ (q = .done true ∧ p = .done true)
          ∨ (q = .done false ∧ p = .going .a1)) := by
  cases pos with
  | a1 =>
    cases h
    exact .inl ⟨rfl, rfl, rfl⟩
  | write w =>
    refine .inr ?_
    simp only [microEnqb] at h
    split at h <;> cases h
    next hm => exact ⟨w, _, rfl, hm, .inl ⟨_, rfl, rfl⟩⟩
    next hm => exact ⟨w, _, rfl, hm, .inr (.inl ⟨rfl, rfl⟩)⟩
    next hm => exact ⟨w, _, rfl, hm, .inr (.inr ⟨rfl, rfl⟩)⟩

/-- A micro-step of `enqueueMessage` on a byte polls, is one of its `enqueueByte`, or records its result and goes to the
next byte. -/
theorem microEnqm_ok {b : Byte} {rest : List Byte} {eOut : Bool} {pos : MsgAt}
    {p : Progress (List Byte × Bool × MsgAt) Bool} (h : microEnqm s (b :: rest) eOut pos = .ok (s1, p)) :
    (pos = .l1 ∧ s1 = s ∧ ((s.isFull .tx = true ∧ p = .going (b :: rest, eOut, .l1))
        ∨ (s.isFull .tx = false ∧ p = .going (b :: rest, eOut, .l2 (.write .w1)))))
      ∨ (∃ e q, pos = .l2 e ∧ microEnqb s b e = .ok (s1, q)
        ∧ ((∃ e', q = .going e' ∧ p = .going (b :: rest, eOut, .l2 e'))
          ∨ ∃ err, q = .done err ∧ p = .going (b :: rest, eOut, .l3 err)))
      ∨ ∃ err, pos = .l3 err ∧ s1 = s.recordErr .M err
        ∧ ((rest = [] ∧ p = .done (eOut || err)) ∨ (rest ≠ [] ∧ p = .going (rest, eOut || err, .l1))) := by
  cases pos with
  | l1 =>
    refine .inl ?_
    simp only [microEnqm] at h
    split at h <;> cases h
    next hf => exact ⟨rfl, rfl, .inl ⟨hf, rfl⟩⟩
    next hf => exact ⟨rfl, rfl, .inr ⟨by simpa using hf, rfl⟩⟩
  | l2 e =>
    refine .inr (.inl ?_)
    simp only [microEnqm] at h
    split at h <;> cases h
    next hm => exact ⟨e, _, rfl, hm, .inl ⟨_, rfl, rfl⟩⟩
    next hm => exact ⟨e, _, rfl, hm, .inr ⟨_, rfl, rfl⟩⟩
  | l3 err =>
    refine .inr (.inr ?_)
    cases rest <;> cases h
    · exact ⟨err, rfl, rfl, .inl ⟨rfl, rfl⟩⟩
    · exact ⟨err, rfl, rfl, .inr ⟨by simp, rfl⟩⟩

/-- A micro-step of `onTransmitReady` tests, is one of its `read`, transmits, or disarms. -/
theorem microTxrdy_ok {pos : TxAt} {p : Progress TxAt Unit} (h : microTxrdy s pos = .ok (s1, p)) :
    (pos = .x1 ∧ s1 = s ∧ ((s.isEmpty .tx = true ∧ p = .going .x4) ∨ (s.isEmpty .tx = false ∧ p = .going (.x2 .q1))))
      ∨ (∃ q r, pos = .x2 q ∧ microRead s .tx q = .ok (s1, r)
        ∧ ((∃ q', r = .going q' ∧ p = .going (.x2 q')) ∨ ∃ v, r = .done v ∧ p = .going (.x3 (v.getD 0#8))))
      ∨ (∃ v, pos = .x3 v ∧ s1 = s.transmit v ∧ p = .done ())
      ∨ (pos = .x4 ∧ s1 = s.disarmTx ∧ p = .done ()) := by
  cases pos with
  | x1 =>
    refine .inl ?_
    simp only [microTxrdy] at h
    split at h <;> cases h
    next he => exact ⟨rfl, rfl, .inl ⟨he, rfl⟩⟩
    next he => exact ⟨rfl, rfl, .inr ⟨by simpa using he, rfl⟩⟩
  | x2 q =>
    refine .inr (.inl ?_)
    simp only [microTxrdy] at h
    split at h <;> cases h
    next hm => exact ⟨q, _, rfl, hm, .inl ⟨_, rfl, rfl⟩⟩
    next hm => exact ⟨q, _, rfl, hm, .inr ⟨_, rfl, rfl⟩⟩
  | x3 v =>
    cases h
    exact .inr (.inr (.inl ⟨v, rfl, rfl, rfl⟩))
  | x4 =>
    cases h
    exact .inr (.inr (.inr ⟨rfl, rfl, rfl⟩))

/-- A micro-step of `onReceiveReady` takes the byte, tests, or is one of its `write`. -/
theorem microRxrdy_ok {pos : RxAt} {p : Progress RxAt Unit} (h : microRxrdy s pos = .ok (s1, p)) :
    (∃ r, pos = .v1 ∧ s.consumeRcreg = .ok (r, s1) ∧ p = .going (.v2 r))
      ∨ (∃ r, pos = .v2 r ∧ s1 = s ∧ ((s.isFull .rx = true ∧ p = .done ())
        ∨ (s.isFull .rx = false ∧ p = .going (.v3 r .w1))))
      ∨ ∃ r w q, pos = .v3 r w ∧ microWrite s .rx r w = .ok (s1, q)
        ∧ ((∃ w', q = .going w' ∧ p = .going (.v3 r w')) ∨ ∃ o, q = .done o ∧ p = .done ()) := by
  cases pos with
  | v1 =>
    refine .inl ?_
    simp only [microRxrdy] at h
    split at h <;> cases h
    next hc => exact ⟨_, rfl, hc, rfl⟩
  | v2 r =>
    refine .inr (.inl ⟨r, rfl, ?_⟩)
    simp only [microRxrdy] at h
    split at h <;> cases h
    next hf => exact ⟨rfl, .inl ⟨hf, rfl⟩⟩
    next hf => exact ⟨rfl, .inr ⟨by simpa using hf, rfl⟩⟩
  | v3 r w =>
    refine .inr (.inr ?_)
    simp only [microRxrdy] at h
    split at h <;> cases h
    next hm => exact ⟨r, w, _, rfl, hm, .inl ⟨_, rfl, rfl⟩⟩
    next hm => exact ⟨r, w, _, rfl, hm, .inr ⟨_, rfl, rfl⟩⟩

end Inversions

/-! ## What it is to the buffers -/

/-- The buffers, their capacities and their histories are the same. -/
structure SameQueues (s t : State) : Prop where
  cfg : t.cfg = s.cfg
  rings : t.rings = s.rings
  accepted : t.accepted = s.accepted
  delivered : t.delivered = s.delivered

theorem SameQueues.refl (s : State) : SameQueues s s := ⟨rfl, rfl, rfl, rfl⟩

theorem recordErr_sameQueues (s : State) (a : Agent) (e : Bool) : SameQueues s (s.recordErr a e) := by
  cases e <;> exact ⟨rfl, rfl, rfl, rfl⟩

theorem returnWrite_sameQueues (s : State) (a : Agent) (o : Bool) : SameQueues s (s.returnWrite a o) := by
  cases o <;> exact ⟨rfl, rfl, rfl, rfl⟩

theorem returnRead_sameQueues (s : State) (a : Agent) (r : Option Byte) : SameQueues s (s.returnRead a r) := by
  cases r <;> exact ⟨rfl, rfl, rfl, rfl⟩

theorem returnErr_sameQueues (s : State) (a : Agent) (e : Bool) : SameQueues s (s.returnErr a e) := by
  cases e <;> exact ⟨rfl, rfl, rfl, rfl⟩

theorem returnDeq_sameQueues (s : State) (a : Agent) (r : Option Byte) : SameQueues s (s.returnDeq a r) := by
  cases r <;> exact ⟨rfl, rfl, rfl, rfl⟩

theorem consumeRcreg_sameQueues {s t : State} {r : Byte} (h : s.consumeRcreg = .ok (r, t)) : SameQueues s t := by
  obtain ⟨-, rfl⟩ := consumeRcreg_ok h
  exact ⟨rfl, rfl, rfl, rfl⟩

/-- The sequencer has no buffer. -/
theorem Writes.sameQueues {sc : Scope} {s t : State} (h : Writes sc s t) (hb : sc.buf = none) : SameQueues s t := by
  obtain ⟨⟨hrings, -, -, -, -, hacc, hdel⟩, -⟩ := h.sameSerial hb
  exact ⟨h.sameControl.cfg, hrings, hacc, hdel⟩

/-- An operation in progress holds no local value of a buffer: it is in no `write` or `read`, or at the start of one. -/
def Activity.Fresh (x : Activity) : Prop :=
  (x.writing = none ∨ ∃ b v, x.writing = some (b, v, .w1)) ∧ (x.reading = none ∨ ∃ b, x.reading = some (b, .q1))

theorem Opens.fresh {i : Instr} {x : Activity} (h : Opens i x) : x.Fresh := by
  cases h with
  | rbWrite a b v => exact ⟨.inr ⟨b, v, rfl⟩, .inl rfl⟩
  | slEnqb v => exact ⟨.inr ⟨.tx, v, rfl⟩, .inl rfl⟩
  | rbRead a b => exact ⟨.inl rfl, .inr ⟨b, rfl⟩⟩
  | slDeqb => exact ⟨.inl rfl, .inr ⟨.rx, rfl⟩⟩
  | _ => exact ⟨.inl rfl, .inl rfl⟩

/-- What a micro-step of `x`, from `s` to `s1` and leaving `x'`, is to the buffers. -/
inductive QueueMove (s : State) (x : Activity) (s1 : State) (x' : Option Activity) : Prop
  /-- no buffer is touched -/
  | idle (hs : SameQueues s s1) (hx' : ∀ y ∈ x', y.Fresh)
  /-- a micro-step of a `write` -/
  | write {b : BufId} {v : Byte} {pos : WriteAt} {s2 : State} {p : Progress WriteAt Bool}
      (hx : x.writing = some (b, v, pos)) (hm : microWrite s b v pos = .ok (s2, p)) (hs : SameQueues s2 s1)
      (hx' : ∀ y ∈ x', y.Fresh ∨ ∃ pos', p = .going pos' ∧ y.writing = some (b, v, pos') ∧ y.reading = none)
  /-- a micro-step of a `read` -/
  | read {b : BufId} {pos : ReadAt} {s2 : State} {p : Progress ReadAt (Option Byte)}
      (hx : x.reading = some (b, pos)) (hm : microRead s b pos = .ok (s2, p)) (hs : SameQueues s2 s1)
      (hx' : ∀ y ∈ x', y.Fresh ∨ ∃ pos', p = .going pos' ∧ y.reading = some (b, pos') ∧ y.writing = none)

section Moves

variable {s s1 : State} {a : Agent} {x' : Option Activity}

/-- Nothing is in progress after an operation's last micro-step. -/
theorem forall_mem_none {P : Activity → Prop} : ∀ y ∈ (none : Option Activity), P y := fun _ h => by cases h

theorem forall_mem_some {P : Activity → Prop} {x : Activity} (h : P x) : ∀ y ∈ some x, P y :=
  fun _ hy => Option.some.inj hy ▸ h

theorem microStep_slEnqb_move {v : Byte} {pos : EnqAt} (h : microStep s a (.slEnqb v pos) = .ok (s1, x')) :
    QueueMove s (.slEnqb v pos) s1 x' := by
  simp only [microStep] at h
  split at h <;> cases h
  next p hm =>
    obtain ⟨-, -, hp⟩ | ⟨w, q, rfl, hw, ⟨w', rfl, hp⟩ | ⟨rfl, hp⟩ | ⟨rfl, hp⟩⟩ := microEnqb_ok hm
    · cases hp
    · cases hp
      exact .write rfl hw (.refl _) (forall_mem_some (.inr ⟨w', rfl, rfl, rfl⟩))
    · cases hp
    · cases hp
      exact .write rfl hw (.refl _) (forall_mem_some (.inl ⟨.inl rfl, .inl rfl⟩))
  next e hm =>
    obtain ⟨-, rfl, hp⟩ | ⟨w, q, rfl, hw, ⟨w', rfl, hp⟩ | ⟨rfl, hp⟩ | ⟨rfl, hp⟩⟩ := microEnqb_ok hm
    · cases hp
      exact .idle ⟨rfl, rfl, rfl, rfl⟩ forall_mem_none
    · cases hp
    · cases hp
      exact .write rfl hw (returnErr_sameQueues _ a true) forall_mem_none
    · cases hp

theorem microStep_slEnqm_move {todo : List Byte} {eOut : Bool} {pos : MsgAt}
    (h : microStep s a (.slEnqm todo eOut pos) = .ok (s1, x')) : QueueMove s (.slEnqm todo eOut pos) s1 x' := by
  cases todo with
  | nil =>
    cases h
    exact .idle ⟨rfl, rfl, rfl, rfl⟩ forall_mem_none
  | cons b rest =>
    simp only [microStep] at h
    split at h <;> cases h
    next todo' eOut' pos' hm =>
      obtain ⟨rfl, rfl, ⟨-, hp⟩ | ⟨-, hp⟩⟩ | ⟨e, q, rfl, he, hq⟩ | ⟨err, rfl, rfl, ⟨-, hp⟩ | ⟨hne, hp⟩⟩ :=
        microEnqm_ok hm
      · cases hp
        exact .idle (.refl _) (forall_mem_some ⟨.inl rfl, .inl rfl⟩)
      · cases hp
        exact .idle (.refl _) (forall_mem_some ⟨.inr ⟨.tx, b, rfl⟩, .inl rfl⟩)
      · obtain ⟨rfl, rfl, hd⟩ | ⟨w, p, rfl, hw, hgo⟩ := microEnqb_ok he
        · subst hd
          obtain ⟨e', hg, -⟩ | ⟨err, -, hp⟩ := hq
          · cases hg
          · cases hp
            exact .idle ⟨rfl, rfl, rfl, rfl⟩ (forall_mem_some ⟨.inl rfl, .inl rfl⟩)
        · obtain ⟨w', rfl, rfl⟩ | ⟨rfl, rfl⟩ | ⟨rfl, rfl⟩ := hgo
          · obtain ⟨e', hg, hp⟩ | ⟨err, hd, -⟩ := hq
            · cases hg
              cases hp
              exact .write rfl hw (.refl _) (forall_mem_some (.inr ⟨w', rfl, rfl, rfl⟩))
            · cases hd
          · obtain ⟨e', hg, hp⟩ | ⟨err, -, hp⟩ := hq
            · cases hg
            · cases hp
              exact .write rfl hw (.refl _) (forall_mem_some (.inl ⟨.inl rfl, .inl rfl⟩))
          · obtain ⟨e', hg, hp⟩ | ⟨err, hd, -⟩ := hq
            · cases hg
              cases hp
              exact .write rfl hw (.refl _) (forall_mem_some (.inl ⟨.inl rfl, .inl rfl⟩))
            · cases hd
      · cases hp
      · cases hp
        cases rest with
        | nil => exact absurd rfl hne
        | cons b' rest' => exact .idle (recordErr_sameQueues s .M err) (forall_mem_some ⟨.inl rfl, .inl rfl⟩)
    next e hm =>
      obtain ⟨-, -, ⟨-, hp⟩ | ⟨-, hp⟩⟩ | ⟨_, _, -, -, ⟨_, -, hp⟩ | ⟨_, -, hp⟩⟩ | ⟨err, rfl, rfl, ⟨-, hp⟩ | ⟨-, hp⟩⟩ :=
        microEnqm_ok hm
      · cases hp
      · cases hp
      · cases hp
      · cases hp
      · have hs := recordErr_sameQueues s .M err
        exact .idle ⟨hs.cfg, hs.rings, hs.accepted, hs.delivered⟩ forall_mem_none
      · cases hp

theorem microStep_slTxrdy_move {pos : TxAt} (h : microStep s a (.slTxrdy pos) = .ok (s1, x')) :
    QueueMove s (.slTxrdy pos) s1 x' := by
  simp only [microStep] at h
  split at h <;> cases h
  next pos' hm =>
    obtain ⟨rfl, rfl, ⟨-, hp⟩ | ⟨-, hp⟩⟩ | ⟨q, r, rfl, hr, ⟨q', rfl, hp⟩ | ⟨v, rfl, hp⟩⟩ | ⟨_, -, -, hp⟩ | ⟨-, -, hp⟩ :=
      microTxrdy_ok hm
    · cases hp
      exact .idle (.refl _) (forall_mem_some ⟨.inl rfl, .inl rfl⟩)
    · cases hp
      exact .idle (.refl _) (forall_mem_some ⟨.inl rfl, .inr ⟨.tx, rfl⟩⟩)
    · cases hp
      exact .read rfl hr (.refl _) (forall_mem_some (.inr ⟨q', rfl, rfl, rfl⟩))
    · cases hp
      exact .read rfl hr (.refl _) (forall_mem_some (.inl ⟨.inl rfl, .inl rfl⟩))
    · cases hp
    · cases hp
  next hm =>
    obtain ⟨-, -, ⟨-, hp⟩ | ⟨-, hp⟩⟩ | ⟨_, _, -, -, ⟨_, -, hp⟩ | ⟨_, -, hp⟩⟩ | ⟨v, rfl, rfl, -⟩ | ⟨rfl, rfl, -⟩ :=
      microTxrdy_ok hm
    · cases hp
    · cases hp
    · cases hp
    · cases hp
    · exact .idle ⟨rfl, rfl, rfl, rfl⟩ forall_mem_none
    · exact .idle ⟨rfl, rfl, rfl, rfl⟩ forall_mem_none

theorem microStep_slRxrdy_move {pos : RxAt} (h : microStep s a (.slRxrdy pos) = .ok (s1, x')) :
    QueueMove s (.slRxrdy pos) s1 x' := by
  simp only [microStep] at h
  split at h <;> cases h
  next pos' hm =>
    obtain ⟨r, rfl, hc, hp⟩ | ⟨r, rfl, rfl, ⟨-, hp⟩ | ⟨-, hp⟩⟩ | ⟨r, w, q, rfl, hw, ⟨w', rfl, hp⟩ | ⟨_, -, hp⟩⟩ :=
      microRxrdy_ok hm
    · cases hp
      exact .idle (consumeRcreg_sameQueues hc) (forall_mem_some ⟨.inl rfl, .inl rfl⟩)
    · cases hp
    · cases hp
      exact .idle (.refl _) (forall_mem_some ⟨.inr ⟨.rx, r, rfl⟩, .inl rfl⟩)
    · cases hp
      exact .write rfl hw (.refl _) (forall_mem_some (.inr ⟨w', rfl, rfl, rfl⟩))
    · cases hp
  next hm =>
    obtain ⟨_, -, -, hp⟩ | ⟨r, rfl, rfl, -⟩ | ⟨r, w, q, rfl, hw, ⟨_, -, hp⟩ | ⟨o, rfl, -⟩⟩ := microRxrdy_ok hm
    · cases hp
    · exact .idle (.refl _) forall_mem_none
    · cases hp
    · exact .write rfl hw (.refl _) forall_mem_none

/-- Every micro-step is one of the moves. -/
theorem microStep_move {x : Activity} (h : microStep s a x = .ok (s1, x')) : QueueMove s x s1 x' := by
  cases x with
  | rbWrite b v pos =>
    simp only [microStep] at h
    split at h <;> cases h
    next pos' hm => exact .write rfl hm (.refl _) (forall_mem_some (.inr ⟨pos', rfl, rfl, rfl⟩))
    next o hm => exact .write rfl hm (returnWrite_sameQueues _ a o) forall_mem_none
  | rbRead b pos =>
    simp only [microStep] at h
    split at h <;> cases h
    next pos' hm => exact .read rfl hm (.refl _) (forall_mem_some (.inr ⟨pos', rfl, rfl, rfl⟩))
    next r hm => exact .read rfl hm (returnRead_sameQueues _ a r) forall_mem_none
  | slDeqb pos =>
    simp only [microStep] at h
    split at h <;> cases h
    next pos' hm => exact .read rfl hm (.refl _) (forall_mem_some (.inr ⟨pos', rfl, rfl, rfl⟩))
    next r hm => exact .read rfl hm (returnDeq_sameQueues _ a r) forall_mem_none
  | slEnqb v pos => exact microStep_slEnqb_move h
  | slEnqm todo eOut pos => exact microStep_slEnqm_move h
  | slTxrdy pos => exact microStep_slTxrdy_move h
  | slRxrdy pos => exact microStep_slRxrdy_move h
  | rbIsFull | rbIsEmpty =>
    cases h
    exact .idle ⟨rfl, rfl, rfl, rfl⟩ forall_mem_none
  | ssStart | ssIsfin | ssRelease | ssTick =>
    refine .idle ((microStep_writes h).sameQueues rfl) fun y hy => ?_
    cases hy
    cases microStep_continues h <;> exact ⟨.inl rfl, .inl rfl⟩

end Moves

end Sys2Proof.Machine
end

section
/-! PROOFS. FIFO order and the locals of the operations in progress (R127 to R129), under the moves of one operation
while no other works on the same side of the same buffer. -/

namespace Sys2Proof.Machine

/-! ## The two sides of a buffer -/

/-- The side of a buffer an operation works on. -/
inductive Side where
  | write
  | read

/-- The buffer whose side an operation in progress works on (R25, R26). -/
def Activity.uses : Activity → Side → Option BufId
  | .rbWrite b _ _, .write => some b
  | .rbRead b _, .read => some b
  | .slEnqb _ _, .write => some .tx
  | .slEnqm _ _ _, .write => some .tx
  | .slDeqb _, .read => some .rx
  | .slTxrdy _, .read => some .tx
  | .slRxrdy _, .write => some .rx
  | _, _ => none

/-- The buffer whose side an operation works on. -/
def sideUsed : Instr → Side → Option BufId
  | .rbWrite _ b _, .write => some b
  | .rbRead _ b, .read => some b
  | .slEnqb _, .write => some .tx
  | .slEnqm _, .write => some .tx
  | .slDeqb, .read => some .rx
  | .slTxrdy, .read => some .tx
  | .slRxrdy _, .write => some .rx
  | _, _ => none

/-- No operation of the list works on a side of a buffer. -/
def Unused (ops : List Activity) (side : Side) (b : BufId) : Prop := ∀ x ∈ ops, x.uses side ≠ some b

/-- An operation in the middle of a `write` works on the write side of that buffer. -/
theorem Activity.uses_write {x : Activity} {b : BufId} {v : Byte} {pos : WriteAt} (h : x.writing = some (b, v, pos)) :
    x.uses .write = some b := by
  cases x with
  | rbWrite b' v' pos' =>
    cases h
    rfl
  | slEnqb v' pos' =>
    cases pos' <;> cases h
    rfl
  | slEnqm todo e pos' =>
    cases todo with
    | nil => cases h
    | cons w rest =>
      cases pos' with
      | l2 pos'' =>
        cases pos'' <;> cases h
        rfl
      | l1 | l3 => cases h
  | slRxrdy pos' =>
    cases pos' <;> cases h
    rfl
  | _ => cases h

/-- An operation in the middle of a `read` works on the read side of that buffer. -/
theorem Activity.uses_read {x : Activity} {b : BufId} {pos : ReadAt} (h : x.reading = some (b, pos)) :
    x.uses .read = some b := by
  cases x with
  | rbRead | slDeqb =>
    cases h
    rfl
  | slTxrdy pos' =>
    cases pos' <;> cases h
    rfl
  | _ => cases h

/-! ## The queues with the locals of some operations -/

/-- A buffer is well formed and in FIFO order (R127), and the locals of the operations `ops` are true of it. -/
structure QueueOk (s : State) (ops : List Activity) (b : BufId) : Prop where
  wf : (s.ring b).wf (s.cap b) = true
  order : s.accepted.get b = s.delivered.get b ++ (s.ring b).contents (s.cap b)
  writes : ∀ x ∈ ops, ∀ v pos, x.writing = some (b, v, pos) → writePosOk (s.cap b) (s.ring b) v pos = true
  reads : ∀ x ∈ ops, ∀ pos, x.reading = some (b, pos) → readPosOk (s.cap b) (s.ring b) pos = true

/-- Both buffers are in order. -/
abbrev Queues (s : State) (ops : List Activity) : Prop := ∀ b, QueueOk s ops b

theorem State.localsOk_iff {s : State} {x : Activity} :
    s.localsOk x = true
      ↔ (∀ b v pos, x.writing = some (b, v, pos) → writePosOk (s.cap b) (s.ring b) v pos = true)
        ∧ ∀ b pos, x.reading = some (b, pos) → readPosOk (s.cap b) (s.ring b) pos = true := by
  unfold State.localsOk
  rw [Bool.and_eq_true]
  refine and_congr ?_ ?_
  · cases x.writing with
    | none => simp
    | some w =>
      obtain ⟨b, v, pos⟩ := w
      simp
  · cases x.reading with
    | none => simp
    | some r =>
      obtain ⟨b, pos⟩ := r
      simp

/-- What `fifoOk` says beyond well-formedness. -/
theorem queues_iff {s : State} (hw : s.wf = true) : s.fifoOk = true ↔ Queues s s.inProgress := by
  have hring := (State.wf_iff.1 hw).1.ring
  rw [State.fifoOk_iff]
  constructor
  · rintro ⟨horder, hlocals⟩ b
    exact ⟨hring b, horder b, fun x hx v pos => (State.localsOk_iff.1 (hlocals x hx)).1 b v pos,
      fun x hx pos => (State.localsOk_iff.1 (hlocals x hx)).2 b pos⟩
  · exact fun h => ⟨fun b => (h b).order, fun x hx => State.localsOk_iff.2
      ⟨fun b v pos => (h b).writes x hx v pos, fun b pos => (h b).reads x hx pos⟩⟩

theorem QueueOk.congr {s t : State} {ops : List Activity} {b : BufId} (h : QueueOk s ops b) (hcfg : t.cfg = s.cfg)
    (hring : t.ring b = s.ring b) (hacc : t.accepted.get b = s.accepted.get b)
    (hdel : t.delivered.get b = s.delivered.get b) : QueueOk t ops b := by
  have hcap : t.cap b = s.cap b := by rw [State.cap, hcfg, State.cap]
  obtain ⟨hw, ho, hwr, hrd⟩ := h
  rw [← hring, ← hcap] at hw
  rw [← hring, ← hcap, ← hacc, ← hdel] at ho
  simp only [← hring, ← hcap] at hwr hrd
  exact ⟨hw, ho, hwr, hrd⟩

theorem Queues.same {s t : State} {ops : List Activity} (h : Queues s ops) (hs : SameQueues s t) : Queues t ops :=
  fun b => (h b).congr hs.cfg (by rw [State.ring, hs.rings, State.ring]) (by rw [hs.accepted]) (by rw [hs.delivered])

/-- Where updates within one buffer keep that buffer in order, they keep both in order. -/
theorem Queues.change {s t : State} {ops : List Activity} {b : BufId} (h : Queues s ops)
    (hw : Writes (.ring b) s t) (hb : QueueOk t ops b) : Queues t ops := by
  intro b'
  by_cases hne : b' = b
  · exact hne ▸ hb
  · obtain ⟨hring, hacc, hdel⟩ := hw.otherBuffer rfl hne
    exact (h b').congr hw.sameControl.cfg hring hacc hdel

theorem Queues.sub {s : State} {ops ops' : List Activity} (h : Queues s ops) (hsub : ∀ x ∈ ops', x ∈ ops) :
    Queues s ops' :=
  fun b => ⟨(h b).wf, (h b).order, fun x hx => (h b).writes x (hsub x hx), fun x hx => (h b).reads x (hsub x hx)⟩

/-- An operation in a `write` whose locals are true can be added, -/
theorem Queues.addWrite {s : State} {ops : List Activity} {x : Activity} {b : BufId} {v : Byte} {pos : WriteAt}
    (h : Queues s ops) (hx : x.writing = some (b, v, pos)) (hr : x.reading = none)
    (hpos : writePosOk (s.cap b) (s.ring b) v pos = true) : Queues s (x :: ops) := by
  refine fun b' => ⟨(h b').wf, (h b').order, fun y hy v' pos' hy' => ?_, fun y hy pos' hy' => ?_⟩
  · rcases List.mem_cons.1 hy with rfl | hy
    · rw [hx] at hy'
      cases hy'
      exact hpos
    · exact (h b').writes y hy v' pos' hy'
  · rcases List.mem_cons.1 hy with rfl | hy
    · rw [hr] at hy'
      cases hy'
    · exact (h b').reads y hy pos' hy'

/-- and one in a `read`, -/
theorem Queues.addRead {s : State} {ops : List Activity} {x : Activity} {b : BufId} {pos : ReadAt}
    (h : Queues s ops) (hx : x.reading = some (b, pos)) (hw : x.writing = none)
    (hpos : readPosOk (s.cap b) (s.ring b) pos = true) : Queues s (x :: ops) := by
  refine fun b' => ⟨(h b').wf, (h b').order, fun y hy v' pos' hy' => ?_, fun y hy pos' hy' => ?_⟩
  · rcases List.mem_cons.1 hy with rfl | hy
    · rw [hw] at hy'
      cases hy'
    · exact (h b').writes y hy v' pos' hy'
  · rcases List.mem_cons.1 hy with rfl | hy
    · rw [hx] at hy'
      cases hy'
      exact hpos
    · exact (h b').reads y hy pos' hy'

/-- and one that holds no locals. -/
theorem Queues.addFresh {s : State} {ops : List Activity} {x : Activity} (h : Queues s ops) (hx : x.Fresh) :
    Queues s (x :: ops) := by
  obtain ⟨hw, hr⟩ := hx
  refine fun b => ⟨(h b).wf, (h b).order, fun y hy v pos hy' => ?_, fun y hy pos hy' => ?_⟩
  · rcases List.mem_cons.1 hy with rfl | hy
    · obtain hn | ⟨b', v', hs⟩ := hw
      · cases hn.symm.trans hy'
      · cases hs.symm.trans hy'
        rfl
    · exact (h b).writes y hy v pos hy'
  · rcases List.mem_cons.1 hy with rfl | hy
    · obtain hn | ⟨b', hs⟩ := hr
      · cases hn.symm.trans hy'
      · cases hs.symm.trans hy'
        rfl
    · exact (h b).reads y hy pos hy'

/-! ## A `write` and a `read` while nothing else works on their side -/

section Sides

variable {s s2 : State} {ops : List Activity} {b : BufId}

/-- Each micro-step of a `write` keeps the order, the locals of the other operations and its own, while no other
operation works on the write side of that buffer. -/
theorem microWrite_queues {v : Byte} {pos : WriteAt} {p : Progress WriteAt Bool} (hq : Queues s ops)
    (hun : Unused ops .write b) (hpos : writePosOk (s.cap b) (s.ring b) v pos = true)
    (hm : microWrite s b v pos = .ok (s2, p)) :
    Queues s2 ops ∧ ∀ pos', p = .going pos' → writePosOk (s2.cap b) (s2.ring b) v pos' = true := by
  have hwr : Writes (.ring b) s s2 := microWrite_writes rfl hm
  obtain ⟨hwf, horder, -, hreads⟩ := hq b
  have hnone : ∀ x ∈ ops, ∀ v' pos', x.writing = some (b, v', pos') → False :=
    fun x hx v' pos' h => hun x hx (Activity.uses_write h)
  cases pos with
  | w1 =>
    cases hm
    refine ⟨hq, fun pos' hp => ?_⟩
    cases hp
    exact writePosOk_sample hwf v
  | w2 h t =>
    simp only [microWrite] at hm
    split at hm <;> cases hm
    · exact ⟨hq, fun pos' hp => by cases hp⟩
    next hne =>
      refine ⟨hq, fun pos' hp => ?_⟩
      cases hp
      exact writePosOk_test hwf hpos hne
  | w3 h =>
    simp only [microWrite] at hm
    split at hm <;> cases hm
    next hst =>
      obtain ⟨slots, hslots, rfl⟩ := storeSlot_ok hst
      obtain rfl : h = (s.ring b).head := by
        simp only [writePosOk, Bool.and_eq_true, beq_iff_eq] at hpos
        exact hpos.1
      have hring : (s.setRing b { s.ring b with slots := slots }).ring b = { s.ring b with slots := slots } :=
        State.ring_setRing_same _ _ _
      refine ⟨hq.change hwr ⟨?_, ?_, fun x hx v' pos' h => (hnone x hx v' pos' h).elim, fun x hx pos' h => ?_⟩,
        fun pos' hp => ?_⟩
      all_goals rw [hring]
      · exact Ring.wf_store hwf hslots
      · exact horder.trans (congrArg _ (Ring.contents_store hwf hslots).symm)
      · exact readPosOk_store hslots (hreads x hx pos' h)
      · cases hp
        exact writePosOk_stored hpos hslots
  | w4 h =>
    cases hm
    simp only [writePosOk, Bool.and_eq_true, beq_iff_eq, Bool.not_eq_true'] at hpos
    obtain ⟨⟨rfl, hfull⟩, hread⟩ := hpos
    have hring : (s.publishHead b (s.ring b).head v).ring b
        = { s.ring b with head := incC (s.cap b) (s.ring b).head } := by simp [State.ring]
    refine ⟨hq.change hwr ⟨?_, ?_, fun x hx v' pos' h => (hnone x hx v' pos' h).elim, fun x hx pos' h => ?_⟩,
      fun pos' hp => by cases hp⟩
    all_goals rw [hring]
    · exact Ring.wf_publish hwf
    · have hcontents := Ring.contents_publish hwf hfull hread
      simp only [State.publishHead_accepted, State.publishHead_delivered, ByBuf.get_set_same, horder,
        List.append_assoc]
      exact congrArg _ hcontents.symm
    · exact readPosOk_publish hwf hfull (hreads x hx pos' h)

/-- Each micro-step of a `read` likewise. -/
theorem microRead_queues {pos : ReadAt} {p : Progress ReadAt (Option Byte)} (hq : Queues s ops)
    (hun : Unused ops .read b) (hpos : readPosOk (s.cap b) (s.ring b) pos = true)
    (hm : microRead s b pos = .ok (s2, p)) :
    Queues s2 ops ∧ ∀ pos', p = .going pos' → readPosOk (s2.cap b) (s2.ring b) pos' = true := by
  have hwr : Writes (.ring b) s s2 := microRead_writes rfl hm
  obtain ⟨hwf, horder, hwrites, -⟩ := hq b
  have hnone : ∀ x ∈ ops, ∀ pos', x.reading = some (b, pos') → False :=
    fun x hx pos' h => hun x hx (Activity.uses_read h)
  cases pos with
  | q1 =>
    cases hm
    refine ⟨hq, fun pos' hp => ?_⟩
    cases hp
    exact readPosOk_sample hwf
  | q2 t h =>
    simp only [microRead] at hm
    split at hm <;> cases hm
    · exact ⟨hq, fun pos' hp => by cases hp⟩
    next hne =>
      refine ⟨hq, fun pos' hp => ?_⟩
      cases hp
      exact readPosOk_test hwf hpos hne
  | q3 t =>
    simp only [microRead] at hm
    split at hm <;> cases hm
    next v hload =>
      refine ⟨hq, fun pos' hp => ?_⟩
      cases hp
      simp only [readPosOk, Bool.and_eq_true, beq_iff_eq] at hpos ⊢
      exact ⟨hpos, loadSlot_ok hload⟩
  | q4 t v =>
    cases hm
    simp only [readPosOk, Bool.and_eq_true, beq_iff_eq, Bool.not_eq_true'] at hpos
    obtain ⟨⟨rfl, hempty⟩, hread⟩ := hpos
    have hring : (s.releaseTail b (s.ring b).tail v).ring b
        = { s.ring b with tail := incC (s.cap b) (s.ring b).tail } := by simp [State.ring]
    refine ⟨hq.change hwr ⟨?_, ?_, fun x hx v' pos' h => ?_, fun x hx pos' h => (hnone x hx pos' h).elim⟩,
      fun pos' hp => by cases hp⟩
    all_goals rw [hring]
    · exact Ring.wf_release hwf
    · have hcontents := Ring.contents_release hwf hempty hread
      simp only [State.releaseTail_accepted, State.releaseTail_delivered, ByBuf.get_set_same, horder, hcontents,
        List.append_assoc]
      rfl
    · exact writePosOk_release hwf hempty (hwrites x hx v' pos' h)

/-- A whole `write` is its micro-steps W3 and W4, where it does not overflow. -/
theorem writeBuf_queues {v : Byte} {o : Bool} (hq : Queues s ops) (hun : Unused ops .write b)
    (he : s.writeBuf b v = .ok (o, s2)) : Queues s2 ops := by
  obtain ⟨-, -, rfl⟩ | ⟨hfull, -, s1, hst, rfl⟩ := writeBuf_ok he
  · exact hq
  · have hw3 : microWrite s b v (.w3 (s.ring b).head) = .ok (s1, .going (.w4 (s.ring b).head)) := by
      simp [microWrite, hst]
    have hnot : (s.ring b).full (s.cap b) = false := hfull
    obtain ⟨hq1, hpos⟩ := microWrite_queues hq hun (by simp [writePosOk, hnot]) hw3
    exact (microWrite_queues hq1 hun (hpos _ rfl) rfl).1

/-- A whole `read` is its micro-step Q4, where it does not underflow. -/
theorem readBuf_queues {r : Option Byte} (hq : Queues s ops) (hun : Unused ops .read b)
    (he : s.readBuf b = .ok (r, s2)) : Queues s2 ops := by
  obtain ⟨-, -, rfl⟩ | ⟨hempty, v, -, hread, rfl⟩ := readBuf_ok he
  · exact hq
  · have hnot : (s.ring b).empty = false := hempty
    exact (microRead_queues hq hun (pos := .q4 (s.ring b).tail v) (by simp [readPosOk, hnot, hread]) rfl).1

end Sides

/-! ## An operation while nothing else works on its sides -/

/-- A micro-step of an operation keeps the order, the other operations' locals and its own, while no other operation
works on the side of the buffer it works on. -/
theorem microStep_queues {s s1 : State} {a : Agent} {x : Activity} {x' : Option Activity} {ops : List Activity}
    (hq : Queues s (x :: ops)) (hun : ∀ side b, x.uses side = some b → Unused ops side b)
    (hm : microStep s a x = .ok (s1, x')) : Queues s1 (x'.toList ++ ops) := by
  have hops : Queues s ops := hq.sub fun y hy => List.mem_cons_of_mem x hy
  cases microStep_move hm with
  | idle hs hx' =>
    cases x' with
    | none => exact hops.same hs
    | some y => exact (hops.same hs).addFresh (hx' y rfl)
  | @write b v pos s2 p hx hw hs hx' =>
    obtain ⟨hq2, hpos⟩ := microWrite_queues hops (hun .write b (Activity.uses_write hx))
      ((hq b).writes x List.mem_cons_self v pos hx) hw
    cases x' with
    | none => exact hq2.same hs
    | some y =>
      refine Queues.same (s := s2) ?_ hs
      obtain hf | ⟨pos', rfl, hy, hyr⟩ := hx' y rfl
      · exact hq2.addFresh hf
      · exact hq2.addWrite hy hyr (hpos pos' rfl)
  | @read b pos s2 p hx hr hs hx' =>
    obtain ⟨hq2, hpos⟩ := microRead_queues hops (hun .read b (Activity.uses_read hx))
      ((hq b).reads x List.mem_cons_self pos hx) hr
    cases x' with
    | none => exact hq2.same hs
    | some y =>
      refine Queues.same (s := s2) ?_ hs
      obtain hf | ⟨pos', rfl, hy, hyw⟩ := hx' y rfl
      · exact hq2.addFresh hf
      · exact hq2.addRead hy hyw (hpos pos' rfl)

theorem enqueueBytes_queues {s t : State} {eOut : Bool} {bytes : List Byte} {ops : List Activity} (hq : Queues s ops)
    (hun : Unused ops .write .tx) (h : s.enqueueBytes eOut bytes = .ok t) : Queues t ops := by
  induction bytes generalizing s with
  | nil =>
    cases h
    exact hq.same ⟨rfl, rfl, rfl, rfl⟩
  | cons v rest ih =>
    obtain ⟨hn, -⟩ | ⟨v, rest, hc, ⟨-, rfl⟩ | ⟨s1, hw, hrest⟩⟩ := enqueueBytes_ok h
    · cases hn
    · exact hq.same ⟨rfl, rfl, rfl, rfl⟩
    · cases hc
      have h1 := writeBuf_queues hq hun hw
      exact ih (s := s1.armTx) (h1.same ⟨rfl, rfl, rfl, rfl⟩) hrest

/-- A whole operation keeps the order and the locals of the operations in progress, while none of them works on the side
of a buffer that it works on. -/
theorem meaning_queues {s t : State} {i : Instr} {ops : List Activity} (hq : Queues s ops)
    (hun : ∀ side b, sideUsed i side = some b → Unused ops side b) (hm : meaning i s = .ok t) : Queues t ops := by
  cases i with
  | rbWrite a b v =>
    obtain ⟨o, s1, hw, rfl⟩ := meaning_rbWrite_ok hm
    exact (writeBuf_queues hq (hun .write b rfl) hw).same (returnWrite_sameQueues s1 a o)
  | rbRead a b =>
    obtain ⟨r, s1, hr, rfl⟩ := meaning_rbRead_ok hm
    exact (readBuf_queues hq (hun .read b rfl) hr).same (returnRead_sameQueues s1 a r)
  | slEnqb v =>
    obtain ⟨e, s1, he, rfl⟩ := meaning_slEnqb_ok hm
    obtain ⟨s2, hw, rfl⟩ := enqueueByte_ok he
    have h2 := writeBuf_queues hq (hun .write .tx rfl) hw
    cases e
    · exact h2.same ⟨rfl, rfl, rfl, rfl⟩
    · exact h2.same ⟨rfl, rfl, rfl, rfl⟩
  | slEnqm bytes => exact enqueueBytes_queues hq (hun .write .tx rfl) hm
  | slDeqb =>
    obtain ⟨r, s1, hr, rfl⟩ := meaning_slDeqb_ok hm
    exact (readBuf_queues hq (hun .read .rx rfl) hr).same (returnDeq_sameQueues s1 .M r)
  | slTxrdy =>
    obtain ⟨-, rfl⟩ | ⟨r, s1, hr, rfl⟩ := onTransmitReady_ok hm
    · exact hq.same ⟨rfl, rfl, rfl, rfl⟩
    · exact (readBuf_queues hq (hun .read .tx rfl) hr).same ⟨rfl, rfl, rfl, rfl⟩
  | slRxrdy r =>
    obtain ⟨r', s1, hc, h⟩ := onReceiveReady_ok (s := s.presentByte r) hm
    have h0 : Queues (s.presentByte r) ops := hq.same ⟨rfl, rfl, rfl, rfl⟩
    have h1 : Queues s1 ops := h0.same (consumeRcreg_sameQueues hc)
    obtain ⟨-, rfl⟩ | ⟨o, hw⟩ := h
    · exact h1
    · exact writeBuf_queues h1 (hun .write .rx rfl) hw
  | rbIsFull | rbIsEmpty =>
    cases hm
    exact hq.same ⟨rfl, rfl, rfl, rfl⟩
  | ssStart | ssIsfin | ssRelease | ssTick =>
    obtain ⟨u, hu, rfl | ⟨bytes, rest, hi, -⟩⟩ := meaning_writes hm
    · exact hq.same (hu.sameQueues rfl)
    · cases hi

end Sys2Proof.Machine
end

section
/-! PROOFS. Contexts and roles (R25, R71, R73, R102): no two operations in progress ever work on the same side of the
same buffer. -/

namespace Sys2Proof.Machine

/-! ## An operation keeps its kind -/

section

variable {x x' : Activity}

theorem Continues.handler (h : Continues x x') : x'.handler = x.handler := by cases h <;> rfl
theorem Continues.component (h : Continues x x') : x'.component = x.component := by cases h <;> rfl
theorem Continues.ofMain (h : Continues x x') : x'.ofMain = x.ofMain := by cases h <;> rfl
theorem Continues.ofIrq (h : Continues x x') : x'.ofIrq = x.ofIrq := by cases h <;> rfl
theorem Continues.rolesHeld (h : Continues x x') (r : Roles) (a : Agent) : rolesHeld r a x' = rolesHeld r a x := by
  cases h <;> rfl

end

theorem Opens.handler {i : Instr} {x : Activity} (h : Opens i x) : x.handler = handlerOf i := by cases h <;> rfl
theorem Opens.component {i : Instr} {x : Activity} (h : Opens i x) : x.component = componentOf i := by cases h <;> rfl

theorem Opens.ofMain {i : Instr} {x : Activity} (h : Opens i x) (hi : issuer i = .M) : x.ofMain = true := by
  cases h with
  | slTxrdy | slRxrdy | ssTick => cases hi
  | _ => rfl

theorem Opens.ofIrq {i : Instr} {x : Activity} (h : Opens i x) (hi : issuer i = .I) : x.ofIrq = true := by
  cases h with
  | slEnqb | slEnqm | slDeqb | ssStart | ssIsfin | ssRelease => cases hi
  | _ => rfl

/-! ## Roles -/

/-- The agent that holds a side of a buffer. -/
def Roles.holder (r : Roles) : Side → BufId → Option Agent
  | .write, b => r.producer.get b
  | .read, b => r.consumer.get b

/-- Every role held in `r` is held in `r'` by the same agent. -/
def Roles.Le (r r' : Roles) : Prop := ∀ side b a, r.holder side b = some a → r'.holder side b = some a

/-- A free role that is held is held by the agent that it is free for. -/
theorem roleFree_eq {held : Option Agent} {a a' : Agent} (hf : roleFree held a = true) (h : held = some a') :
    a' = a := by
  subst h
  simpa [roleFree] using hf

theorem Roles.le_linkRoles {r : Roles} (h : r.linkable = true) : r.Le linkRoles := by
  simp only [Roles.linkable, Bool.and_eq_true] at h
  obtain ⟨⟨⟨hptx, hprx⟩, hctx⟩, hcrx⟩ := h
  intro side b a ha
  cases side <;> cases b
  · exact congrArg some (roleFree_eq hptx ha).symm
  · exact congrArg some (roleFree_eq hprx ha).symm
  · exact congrArg some (roleFree_eq hctx ha).symm
  · exact congrArg some (roleFree_eq hcrx ha).symm

/-- An operation that does not use a `SerialLink`'s buffers leaves the roles alone, or takes one side of `tx`. -/
theorem claimRoles_bare {r r' : Roles} {i : Instr} (hu : usesLink i = false) (h : claimRoles r i = some r') :
    (r' = r ∧ ∀ side, sideUsed i side = none)
      ∨ (∃ a v, i = .rbWrite a .tx v ∧ roleFree r.producer.tx a = true
        ∧ r' = { r with producer := r.producer.set .tx (some a) })
      ∨ ∃ a, i = .rbRead a .tx ∧ roleFree r.consumer.tx a = true
        ∧ r' = { r with consumer := r.consumer.set .tx (some a) } := by
  cases i with
  | rbWrite a b v =>
    cases b
    · simp only [claimRoles] at h
      split at h <;> cases h
      next hf => exact .inr (.inl ⟨a, v, rfl, hf, rfl⟩)
    · cases hu
  | rbRead a b =>
    cases b
    · simp only [claimRoles] at h
      split at h <;> cases h
      next hf => exact .inr (.inr ⟨a, rfl, hf, rfl⟩)
    · cases hu
  | rbIsFull a b | rbIsEmpty a b =>
    cases b
    · cases h
      exact .inl ⟨rfl, fun side => by cases side <;> rfl⟩
    · cases hu
  | slEnqb | slEnqm | slDeqb | slTxrdy | slRxrdy => cases hu
  | ssStart | ssIsfin | ssRelease | ssTick =>
    cases h
    exact .inl ⟨rfl, fun side => by cases side <;> rfl⟩

section Claim

variable {r r' : Roles} {i : Instr} (h : claimRoles r i = some r')
include h

/-- Claiming roles takes none away. -/
theorem claimRoles_le : r.Le r' := by
  cases hu : usesLink i with
  | true =>
    obtain ⟨hl, rfl⟩ := claimRoles_usesLink hu h
    exact Roles.le_linkRoles hl
  | false =>
    intro side b a' ha
    obtain ⟨rfl, -⟩ | ⟨a, v, -, hf, rfl⟩ | ⟨a, -, hf, rfl⟩ := claimRoles_bare hu h
    · exact ha
    · cases side <;> cases b
      · exact congrArg some (roleFree_eq hf ha).symm
      all_goals exact ha
    · cases side <;> cases b
      · exact ha
      · exact ha
      · exact congrArg some (roleFree_eq hf ha).symm
      · exact ha

/-- An operation that is issued holds the sides it works on. -/
theorem claimRoles_holder {side : Side} {b : BufId} (hs : sideUsed i side = some b) :
    r'.holder side b = some (issuer i) := by
  cases hu : usesLink i with
  | true =>
    obtain ⟨hl, rfl⟩ := claimRoles_usesLink hu h
    cases i with
    | rbWrite a b' v =>
      cases b'
      · cases hu
      · cases a
        · cases h
        · cases side <;> cases hs
          rfl
    | rbRead a b' =>
      cases b'
      · cases hu
      · cases a
        · cases side <;> cases hs
          rfl
        · cases h
    | slEnqb | slEnqm | slDeqb | slTxrdy | slRxrdy =>
      cases side <;> cases hs
      rfl
    | rbIsFull | rbIsEmpty | ssStart | ssIsfin | ssRelease | ssTick => cases side <;> cases hs
  | false =>
    obtain ⟨-, hnone⟩ | ⟨a, v, rfl, -, rfl⟩ | ⟨a, rfl, -, rfl⟩ := claimRoles_bare hu h
    · cases (hnone side).symm.trans hs
    · cases side <;> cases hs
      rfl
    · cases side <;> cases hs
      rfl

end Claim

/-- `SerialLink`'s roles are all held, so nothing can be claimed beyond them. -/
theorem Roles.eq_linkRoles_of_le {r : Roles} (h : linkRoles.Le r) : r = linkRoles := by
  have hptx : r.producer.tx = some .M := h .write .tx .M rfl
  have hprx : r.producer.rx = some .I := h .write .rx .I rfl
  have hctx : r.consumer.tx = some .I := h .read .tx .I rfl
  have hcrx : r.consumer.rx = some .M := h .read .rx .M rfl
  obtain ⟨⟨ptx, prx⟩, ⟨ctx, crx⟩⟩ := r
  cases hptx
  cases hprx
  cases hctx
  cases hcrx
  rfl

/-- An operation keeps the roles it holds. -/
theorem rolesHeld_mono {r r' : Roles} {a : Agent} {x : Activity} (hle : r.Le r') (h : rolesHeld r a x = true) :
    rolesHeld r' a x = true := by
  cases x with
  | rbWrite b v pos =>
    simp only [rolesHeld, beq_iff_eq] at h ⊢
    exact hle .write b a h
  | rbRead b pos =>
    simp only [rolesHeld, beq_iff_eq] at h ⊢
    exact hle .read b a h
  | slEnqb | slEnqm | slDeqb | slTxrdy | slRxrdy =>
    simp only [rolesHeld, beq_iff_eq] at h ⊢
    subst h
    exact Roles.eq_linkRoles_of_le hle
  | rbIsFull | rbIsEmpty | ssStart | ssIsfin | ssRelease | ssTick => rfl

/-- An operation that begins holds the roles it claimed. -/
theorem Opens.rolesHeld {r r' : Roles} {i : Instr} {x : Activity} (h : Opens i x) (hr : claimRoles r i = some r') :
    rolesHeld r' (issuer i) x = true := by
  cases h with
  | rbWrite a b v => exact beq_iff_eq.2 (claimRoles_holder hr (side := .write) rfl)
  | rbRead a b => exact beq_iff_eq.2 (claimRoles_holder hr (side := .read) rfl)
  | slEnqb | slEnqm | slDeqb | slTxrdy | slRxrdy => exact beq_iff_eq.2 (claimRoles_usesLink rfl hr).2
  | rbIsFull | rbIsEmpty | ssStart | ssIsfin | ssRelease | ssTick => rfl

/-- An operation an agent may be in. -/
def Activity.inContext (x : Activity) : Agent → Bool
  | .M => x.ofMain
  | .I => x.ofIrq

/-- An operation in progress works on a side of a buffer only as its holder. -/
theorem rolesHeld_holder {r : Roles} {a : Agent} {x : Activity} {side : Side} {b : BufId}
    (hr : rolesHeld r a x = true) (hc : x.inContext a = true) (hu : x.uses side = some b) :
    r.holder side b = some a := by
  cases x with
  | rbWrite b' v pos =>
    cases side <;> cases hu
    exact beq_iff_eq.1 hr
  | rbRead b' pos =>
    cases side <;> cases hu
    exact beq_iff_eq.1 hr
  | slEnqb | slEnqm | slDeqb | slTxrdy | slRxrdy =>
    obtain rfl : r = linkRoles := beq_iff_eq.1 hr
    cases side <;> cases hu
    cases a <;> cases hc
    rfl
  | rbIsFull | rbIsEmpty | ssStart | ssIsfin | ssRelease | ssTick => cases side <;> cases hu

/-- The only handler that works on a side of a buffer (R143, R144, R165). -/
def Side.handler : Side → Handler
  | .write => .receiveReady
  | .read => .transmitReady

theorem Activity.handler_of_uses {x : Activity} {side : Side} {b : BufId} (hx : x.handler ≠ none)
    (hu : x.uses side = some b) : x.handler = some side.handler := by
  cases x with
  | slTxrdy | slRxrdy =>
    cases side <;> cases hu
    rfl
  | ssTick => cases side <;> cases hu
  | _ => exact absurd rfl hx

theorem handlerOf_of_sideUsed {i : Instr} {side : Side} {b : BufId} (hi : handlerOf i ≠ none)
    (hu : sideUsed i side = some b) : handlerOf i = some side.handler := by
  cases i with
  | slTxrdy | slRxrdy =>
    cases side <;> cases hu
    rfl
  | ssTick => cases side <;> cases hu
  | _ => exact absurd rfl hi

/-! ## The shape of the interrupt context -/

/-- Nested handlers, innermost first: no two of one kind, each inside one of another component (R73). -/
structure Nested (xs : List Activity) : Prop where
  handlers : ∀ x ∈ xs, x.handler ≠ none
  kinds : (xs.map Activity.handler).Nodup
  components : componentsAlternate xs = true

theorem irqShapeOk_iff {xs : List Activity} : irqShapeOk xs = true ↔ xs.length ≤ 1 ∨ Nested xs := by
  simp only [irqShapeOk, Bool.or_eq_true, Bool.and_eq_true, decide_eq_true_eq, List.all_eq_true,
    Option.isSome_iff_ne_none]
  exact or_congr_right ⟨fun h => ⟨h.1.1, h.1.2, h.2⟩, fun h => ⟨⟨h.handlers, h.kinds⟩, h.components⟩⟩

theorem nested_cons {x : Activity} {xs : List Activity} :
    Nested (x :: xs) ↔ x.handler ≠ none ∧ (∀ y ∈ xs, y.handler ≠ x.handler)
      ∧ (∀ y ∈ xs.head?, x.component ≠ y.component) ∧ Nested xs := by
  have hkinds : ((x :: xs).map Activity.handler).Nodup
      ↔ (∀ y ∈ xs, y.handler ≠ x.handler) ∧ (xs.map Activity.handler).Nodup := by
    simp [List.nodup_cons]
  have hcomp : componentsAlternate (x :: xs) = true
      ↔ (∀ y ∈ xs.head?, x.component ≠ y.component) ∧ componentsAlternate xs = true := by
    simp [componentsAlternate, Option.all_eq_true]
  constructor
  · rintro ⟨hh, hk, hc⟩
    obtain ⟨hk1, hk2⟩ := hkinds.1 hk
    obtain ⟨hc1, hc2⟩ := hcomp.1 hc
    obtain ⟨hh1, hh2⟩ := List.forall_mem_cons.1 hh
    exact ⟨hh1, hk1, hc1, hh2, hk2, hc2⟩
  · rintro ⟨hh1, hk1, hc1, hh2, hk2, hc2⟩
    exact ⟨List.forall_mem_cons.2 ⟨hh1, hh2⟩, hkinds.2 ⟨hk1, hk2⟩, hcomp.2 ⟨hc1, hc2⟩⟩

section Shape

variable {x x' : Activity} {xs : List Activity}

/-- The innermost operation has ended. -/
theorem irqShapeOk_tail (h : irqShapeOk (x :: xs) = true) : irqShapeOk xs = true := by
  rw [irqShapeOk_iff] at h ⊢
  exact h.imp (fun hl => by simp only [List.length_cons] at hl; omega) fun hn => (nested_cons.1 hn).2.2.2

/-- The innermost operation goes on. -/
theorem irqShapeOk_continues (hx : Continues x x') (h : irqShapeOk (x :: xs) = true) :
    irqShapeOk (x' :: xs) = true := by
  rw [irqShapeOk_iff] at h ⊢
  refine h.imp id fun hn => ?_
  rw [nested_cons] at hn ⊢
  rw [hx.handler, hx.component]
  exact hn

/-- Operations of the interrupt context under another are handlers of another kind than that. -/
theorem irqShapeOk_distinct (h : irqShapeOk (x :: xs) = true) {y : Activity} (hy : y ∈ xs) :
    x.handler ≠ none ∧ y.handler ≠ none ∧ y.handler ≠ x.handler := by
  rcases irqShapeOk_iff.1 h with hl | hn
  · cases xs with
    | nil => cases hy
    | cons z zs => simp only [List.length_cons] at hl; omega
  · obtain ⟨hx, hk, -, hxs⟩ := nested_cons.1 hn
    exact ⟨hx, hxs.handlers y hy, hk y hy⟩

/-- An operation is entered in the interrupt context with nothing below, or nested. -/
theorem irqShapeOk_enter {s : State} {i : Instr} (hs : irqShapeOk s.irq = true) (hx : Opens i x)
    (hb : s.irq = [] ∨ mayNest s i = true) : irqShapeOk (x :: s.irq) = true := by
  rw [irqShapeOk_iff] at hs ⊢
  rcases hb with hnil | hnest
  · exact .inl (by simp [hnil])
  · cases hirq : s.irq with
    | nil => exact .inl (by simp)
    | cons y ys =>
      obtain ⟨-, hi, hcomp, hall⟩ := (mayNest_cons hirq).1 hnest
      rw [hirq] at hs hall
      have hxs : Nested (y :: ys) := by
        rcases hs with hl | hn
        · obtain rfl : ys = [] := by
            cases ys with
            | nil => rfl
            | cons z zs => simp only [List.length_cons] at hl; omega
          exact ⟨fun z hz => (hall z hz).1, by simp, by simp [componentsAlternate]⟩
        · exact hn
      refine .inr (nested_cons.2 ⟨by rw [hx.handler]; exact hi, fun z hz => ?_, fun z hz => ?_, hxs⟩)
      · rw [hx.handler]
        exact (hall z hz).2
      · obtain rfl : y = z := by simpa using hz
        rw [hx.component]
        exact hcomp.symm

end Shape

/-! ## What the state says of its contexts and roles -/

theorem State.contextsOk_iff {s : State} :
    s.contextsOk = true ↔ (∀ x ∈ s.main, x.ofMain = true) ∧ (∀ x ∈ s.irq, x.ofIrq = true)
      ∧ irqShapeOk s.irq = true := by
  simp only [State.contextsOk, Bool.and_eq_true, Option.all_eq_true, List.all_eq_true, and_assoc, Option.mem_def]

/-- Every operation in progress holds its roles (R102), with the roles `r`. -/
structure HeldBy (r : Roles) (s : State) : Prop where
  main : ∀ x ∈ s.main, rolesHeld r .M x = true
  irq : ∀ x ∈ s.irq, rolesHeld r .I x = true

theorem State.rolesOk_iff {s : State} : s.rolesOk = true ↔ HeldBy s.roles s := by
  simp only [State.rolesOk, Bool.and_eq_true, Option.all_eq_true, List.all_eq_true]
  exact ⟨fun h => ⟨h.1, h.2⟩, fun h => ⟨h.main, h.irq⟩⟩

theorem HeldBy.mono {r r' : Roles} {s : State} (h : HeldBy r s) (hle : r.Le r') : HeldBy r' s :=
  ⟨fun x hx => rolesHeld_mono hle (h.main x hx), fun x hx => rolesHeld_mono hle (h.irq x hx)⟩

/-- When an operation of the interrupt context may begin. -/
theorem mayBegin_I {s : State} {i : Instr} (hi : issuer i = .I) (h : mayBegin s i = true) :
    s.irq = [] ∨ mayNest s i = true := by
  simpa [mayBegin, hi] using h

theorem mem_inProgress {s : State} {x : Activity} : x ∈ s.inProgress ↔ x ∈ s.main ∨ x ∈ s.irq := by
  simp [State.inProgress]

/-! ## No two operations on one side of a buffer -/

section Exclusive

variable {s : State} {side : Side} {b : BufId}

/-- The mainline's operation and those of the interrupt context work on different sides. -/
theorem unused_of_agent {r : Roles} (hc : s.contextsOk = true) (hr : HeldBy r s) :
    (r.holder side b = some .M → Unused s.irq side b) ∧ (r.holder side b = some .I → Unused s.main.toList side b) := by
  obtain ⟨hmain, hirq, -⟩ := State.contextsOk_iff.1 hc
  refine ⟨fun hh x hx hu => ?_, fun hh x hx hu => ?_⟩
  · cases hh.symm.trans (rolesHeld_holder (a := .I) (hr.irq x hx) (hirq x hx) hu)
  · have hx := Option.mem_toList.1 hx
    cases hh.symm.trans (rolesHeld_holder (a := .M) (hr.main x hx) (hmain x hx) hu)

/-- The mainline's operation is alone on the side it works on. -/
theorem unused_main {x : Activity} (hc : s.contextsOk = true) (hr : s.rolesOk = true) (hx : s.main = some x)
    (hu : x.uses side = some b) : Unused s.irq side b := by
  have hheld := State.rolesOk_iff.1 hr
  have hmain := (State.contextsOk_iff.1 hc).1
  exact (unused_of_agent hc hheld).1 (rolesHeld_holder (a := .M) (hheld.main x hx) (hmain x hx) hu)

/-- The innermost operation of the interrupt context is alone on the side it works on. -/
theorem unused_irq {x : Activity} {rest : List Activity} (hc : s.contextsOk = true) (hr : s.rolesOk = true)
    (hx : s.irq = x :: rest) (hu : x.uses side = some b) : Unused (s.main.toList ++ rest) side b := by
  have hheld := State.rolesOk_iff.1 hr
  obtain ⟨-, hirq, hshape⟩ := State.contextsOk_iff.1 hc
  have hmem : x ∈ s.irq := by simp [hx]
  intro y hy huy
  rcases List.mem_append.1 hy with hy | hy
  · exact (unused_of_agent hc hheld).2 (rolesHeld_holder (a := .I) (hheld.irq x hmem) (hirq x hmem) hu) y hy huy
  · rw [hx] at hshape
    obtain ⟨hxh, hyh, hne⟩ := irqShapeOk_distinct hshape hy
    exact hne ((Activity.handler_of_uses hyh huy).trans (Activity.handler_of_uses hxh hu).symm)

/-- An operation that is admitted is alone on the sides it works on. -/
theorem unused_admitted {i : Instr} {r : Roles} (hc : s.contextsOk = true) (hr : s.rolesOk = true)
    (hclaim : claimRoles s.roles i = some r) (hb : mayBegin s i = true) (hu : sideUsed i side = some b) :
    Unused s.inProgress side b := by
  have hheld : HeldBy r s := (State.rolesOk_iff.1 hr).mono (claimRoles_le hclaim)
  have hholder := claimRoles_holder hclaim hu
  intro y hy huy
  cases hi : issuer i with
  | M =>
    rw [hi] at hholder
    rcases mem_inProgress.1 hy with hy | hy
    · rw [main_eq_none_of_mayBegin hi hb] at hy
      cases hy
    · exact (unused_of_agent hc hheld).1 hholder y hy huy
  | I =>
    rw [hi] at hholder
    rcases mem_inProgress.1 hy with hy | hy
    · exact (unused_of_agent hc hheld).2 hholder y (Option.mem_toList.2 hy) huy
    · cases hirq : s.irq with
      | nil =>
        rw [hirq] at hy
        cases hy
      | cons z zs =>
        have hnest := (mayBegin_I hi hb).resolve_left (by simp [hirq])
        obtain ⟨-, hih, -, hall⟩ := (mayNest_cons hirq).1 hnest
        obtain ⟨hyh, hne⟩ := hall y hy
        exact hne ((Activity.handler_of_uses hyh huy).trans (handlerOf_of_sideUsed hih hu).symm)

end Exclusive

end Sys2Proof.Machine
end

section
/-! PROOFS. Every step, under every interleaving, keeps the contexts, SPSC, FIFO order and the locals in progress
(R22, R71, R102, R127 to R129). -/

namespace Sys2Proof.Machine

/-! ## Contexts -/

theorem enter_contextsOk {s : State} {i : Instr} {x : Activity} (hc : s.contextsOk = true) (hx : Opens i x)
    (hb : mayBegin s i = true) : (s.enter (issuer i) x).contextsOk = true := by
  obtain ⟨hmain, hirq, hshape⟩ := State.contextsOk_iff.1 hc
  refine State.contextsOk_iff.2 ?_
  cases hi : issuer i with
  | M => exact ⟨fun y hy => Option.some.inj hy ▸ hx.ofMain hi, hirq, hshape⟩
  | I => exact ⟨hmain, List.forall_mem_cons.2 ⟨hx.ofIrq hi, hirq⟩, irqShapeOk_enter hshape hx (mayBegin_I hi hb)⟩

/-- The contexts are those of the operations in progress. -/
theorem SameControl.contextsOk {s t : State} (h : SameControl s t) (hc : s.contextsOk = true) :
    t.contextsOk = true := by
  rw [State.contextsOk_iff] at hc ⊢
  rw [h.main, h.irq]
  exact hc

theorem stepCase_contextsOk {s t : State} (h : StepCase s t) (hc : s.contextsOk = true) : t.contextsOk = true := by
  obtain ⟨hmain, hirq, hshape⟩ := State.contextsOk_iff.1 hc
  cases h with
  | same => exact hc
  | undelivered hr => exact hc
  | @begins i roles ha hr =>
    obtain ⟨-, hbegin⟩ | ⟨x, hx, hbegin⟩ := beginOp_cases (s.withRoles i roles) i
    · rw [hbegin]
      exact hc
    · rw [hbegin]
      have hprep := (prepare_writes (s.withRoles i roles) i).sameControl
      refine enter_contextsOk (hprep.contextsOk hc) hx ?_
      have hb : mayBegin (s.withRoles i roles) i = true := (admitContext_ok.1 ha).2.2
      simpa only [mayBegin, mayNest, State.freeFifo, hprep.main, hprep.irq, hprep.cfg] using hb
  | @whole i roles t ha hr hm =>
    obtain ⟨u, hu, ht⟩ := meaning_writes hm
    have hcu := hu.sameControl.contextsOk hc
    rcases ht with rfl | ⟨bytes, rest, -, rfl⟩
    · exact hcu
    · obtain ⟨-, hirqu, hshapeu⟩ := State.contextsOk_iff.1 hcu
      exact State.contextsOk_iff.2 ⟨fun y hy => Option.some.inj hy ▸ rfl, hirqu, hshapeu⟩
  | @mainline x x' s1 hx ha hm =>
    have hctl := (microStep_writes hm).sameControl
    obtain ⟨-, hirq1, hshape1⟩ := State.contextsOk_iff.1 (hctl.contextsOk hc)
    refine State.contextsOk_iff.2 ⟨fun y hy => ?_, hirq1, hshape1⟩
    obtain rfl : x' = some y := hy
    rw [(microStep_continues hm).ofMain]
    exact hmain x hx
  | @interrupt x rest x' s1 hx hm =>
    have hctl := (microStep_writes hm).sameControl
    obtain ⟨hmain1, -, -⟩ := State.contextsOk_iff.1 (hctl.contextsOk hc)
    rw [hx] at hirq hshape
    obtain ⟨hxi, hrest⟩ := List.forall_mem_cons.1 hirq
    refine State.contextsOk_iff.2 ⟨hmain1, ?_⟩
    cases x' with
    | none => exact ⟨hrest, irqShapeOk_tail hshape⟩
    | some y =>
      have hcont := microStep_continues hm
      exact ⟨List.forall_mem_cons.2 ⟨hcont.ofIrq.trans hxi, hrest⟩, irqShapeOk_continues hcont hshape⟩
  | restart => rfl

/-! ## Roles -/

theorem SameControl.heldBy {s t : State} {r : Roles} (h : SameControl s t) (hr : HeldBy r s) : HeldBy r t := by
  refine ⟨fun x hx => ?_, fun x hx => ?_⟩
  · rw [h.main] at hx
    exact hr.main x hx
  · rw [h.irq] at hx
    exact hr.irq x hx

theorem HeldBy.enter {s : State} {r : Roles} {a : Agent} {x : Activity} (h : HeldBy r s)
    (hx : rolesHeld r a x = true) : HeldBy r (s.enter a x) := by
  cases a with
  | M => exact ⟨fun y hy => Option.some.inj hy ▸ hx, h.irq⟩
  | I => exact ⟨h.main, List.forall_mem_cons.2 ⟨hx, h.irq⟩⟩

theorem stepCase_rolesOk {s t : State} (h : StepCase s t) (hr : s.rolesOk = true) : t.rolesOk = true := by
  have hheld := State.rolesOk_iff.1 hr
  rw [State.rolesOk_iff]
  cases h with
  | same => exact hheld
  | @undelivered i roles hclaim =>
    obtain ⟨g1, g2⟩ := hheld.mono (claimRoles_le hclaim)
    exact ⟨g1, g2⟩
  | @begins i roles ha hclaim =>
    obtain ⟨g1, g2⟩ := hheld.mono (claimRoles_le hclaim)
    have h1 : HeldBy roles (s.withRoles i roles) := ⟨g1, g2⟩
    obtain ⟨-, hbegin⟩ | ⟨x, hx, hbegin⟩ := beginOp_cases (s.withRoles i roles) i
    · rw [hbegin]
      exact ⟨g1, g2⟩
    · have hctl := (prepare_writes (s.withRoles i roles) i).sameControl
      have hroles : (((s.withRoles i roles).prepare i).enter (issuer i) x).roles = roles := by
        cases issuer i <;> exact hctl.roles
      rw [hbegin, hroles]
      exact (hctl.heldBy h1).enter (hx.rolesHeld hclaim)
  | @whole i roles t ha hclaim hm =>
    obtain ⟨g1, g2⟩ := hheld.mono (claimRoles_le hclaim)
    have h1 : HeldBy roles (s.withRoles i roles) := ⟨g1, g2⟩
    obtain ⟨u, hu, ht⟩ := meaning_writes hm
    have hur : u.roles = roles := hu.sameControl.roles
    have h2 : HeldBy roles u := hu.sameControl.heldBy h1
    rcases ht with rfl | ⟨bytes, rest, rfl, rfl⟩
    · rw [hur]
      exact h2
    · have hlink := (claimRoles_usesLink rfl hclaim).2
      exact hur.symm ▸ h2.enter (a := .M) (beq_iff_eq.2 hlink)
  | @mainline x x' s1 hx ha hm =>
    have hctl := (microStep_writes hm).sameControl
    obtain ⟨g1, g2⟩ := hctl.heldBy hheld
    refine ⟨fun y hy => ?_, ?_⟩
    · obtain rfl : x' = some y := hy
      rw [(microStep_continues hm).rolesHeld, show ({ s1 with main := some y } : State).roles = s.roles from hctl.roles]
      exact hheld.main x hx
    · rw [← hctl.roles] at g2
      exact g2
  | @interrupt x rest x' s1 hx hm =>
    have hctl := (microStep_writes hm).sameControl
    obtain ⟨g1, -⟩ := hctl.heldBy hheld
    have hirq := hheld.irq
    rw [hx] at hirq
    obtain ⟨hxr, hrest⟩ := List.forall_mem_cons.1 hirq
    rw [← hctl.roles] at g1 hxr hrest
    refine ⟨g1, ?_⟩
    cases x' with
    | none => exact hrest
    | some y => exact List.forall_mem_cons.2 ⟨((microStep_continues hm).rolesHeld _ _).trans hxr, hrest⟩
  | restart => exact ⟨fun x hx => (by cases hx), fun x hx => (by cases hx)⟩

/-! ## The queues -/

/-- A held message holds no locals. -/
theorem heldMessage_fresh (rest : List Byte) (e : Bool) : (Activity.slEnqm rest e .l1).Fresh :=
  ⟨.inl (by cases rest <;> rfl), .inl rfl⟩

theorem mem_inProgress_enter {s : State} {a : Agent} {x y : Activity} (h : y ∈ (s.enter a x).inProgress) :
    y ∈ x :: s.inProgress := by
  rw [List.mem_cons]
  cases a with
  | M =>
    rcases mem_inProgress.1 h with hy | hy
    · exact .inl (Option.some.inj hy).symm
    · exact .inr (mem_inProgress.2 (.inr hy))
  | I =>
    rcases mem_inProgress.1 h with hy | hy
    · exact .inr (mem_inProgress.2 (.inl hy))
    · exact (List.mem_cons.1 hy).imp_right fun hy => mem_inProgress.2 (.inr hy)

theorem enter_queues {s : State} {x : Activity} (hq : Queues s s.inProgress) (a : Agent) (hx : x.Fresh) :
    Queues (s.enter a x) (s.enter a x).inProgress := by
  have hsame : SameQueues s (s.enter a x) := by cases a <;> exact ⟨rfl, rfl, rfl, rfl⟩
  exact ((hq.addFresh hx).same hsame).sub fun y hy => mem_inProgress_enter hy

theorem SameControl.inProgress {s t : State} (h : SameControl s t) : t.inProgress = s.inProgress := by
  rw [State.inProgress, h.main, h.irq, State.inProgress]

theorem stepCase_queues {s t : State} (h : StepCase s t) (hgood : Good s) : Queues t t.inProgress := by
  obtain ⟨hw, hc, hr, hf, -⟩ := hgood
  have hq : Queues s s.inProgress := (queues_iff hw).1 hf
  cases h with
  | same => exact hq
  | undelivered hclaim => exact hq.same ⟨rfl, rfl, rfl, rfl⟩
  | @begins i roles ha hclaim =>
    obtain ⟨-, hbegin⟩ | ⟨x, hx, hbegin⟩ := beginOp_cases (s.withRoles i roles) i
    · rw [hbegin]
      exact hq.same ⟨rfl, rfl, rfl, rfl⟩
    · have hsame : SameQueues s ((s.withRoles i roles).prepare i) := by cases i <;> exact ⟨rfl, rfl, rfl, rfl⟩
      have hops := (prepare_writes (s.withRoles i roles) i).sameControl.inProgress
      rw [hbegin]
      exact enter_queues (hops ▸ hq.same hsame) _ hx.fresh
  | @whole i roles t ha hclaim hm =>
    have hun : ∀ side b, sideUsed i side = some b → Unused s.inProgress side b :=
      fun side b hu => unused_admitted hc hr hclaim (admitContext_ok.1 ha).2.2 hu
    have hqt : Queues t s.inProgress :=
      meaning_queues (s := s.withRoles i roles) (hq.same ⟨rfl, rfl, rfl, rfl⟩) hun hm
    obtain ⟨u, hu, ht⟩ := meaning_writes hm
    have hops : u.inProgress = s.inProgress := hu.sameControl.inProgress
    rcases ht with rfl | ⟨bytes, rest, -, rfl⟩
    · exact hops ▸ hqt
    · have hqu : Queues u u.inProgress := hops ▸ hqt.same ⟨rfl, rfl, rfl, rfl⟩
      exact enter_queues hqu .M (heldMessage_fresh rest false)
  | @mainline x x' s1 hx ha hm =>
    have hops : s.inProgress = x :: s.irq := by simp [State.inProgress, hx]
    have hq1 := microStep_queues (hops ▸ hq) (fun side b hu => unused_main hc hr hx hu) hm
    rw [← (microStep_writes hm).sameControl.irq] at hq1
    exact hq1.same ⟨rfl, rfl, rfl, rfl⟩
  | @interrupt x rest x' s1 hx hm =>
    have hqx : Queues s (x :: (s.main.toList ++ rest)) := hq.sub fun y hy => by
      simp only [State.inProgress, hx, List.mem_cons, List.mem_append] at hy ⊢
      tauto
    have hq1 := microStep_queues hqx (fun side b hu => unused_irq hc hr hx hu) hm
    rw [← (microStep_writes hm).sameControl.main] at hq1
    have hqt := hq1.same (t := { s1 with irq := x'.toList ++ rest }) ⟨rfl, rfl, rfl, rfl⟩
    refine hqt.sub fun y hy => ?_
    simp only [State.inProgress, List.mem_append] at hy ⊢
    tauto
  | restart =>
    obtain ⟨hwt, -, -, hft, -⟩ := initial_good (State.wf_iff.1 hw).1.params (s.epoch + 1) s.agenda s.stream
    exact (queues_iff hwt).1 hft

/-! ## `RCREG` -/

theorem State.rcregOk_iff {s : State} :
    s.rcregOk = true ↔ (Activity.slRxrdy .v1 ∈ s.irq → s.rcReg.isSome = true) := by
  by_cases hm : Activity.slRxrdy .v1 ∈ s.irq <;> simp [State.rcregOk, hm]

/-- V1 comes once, at the beginning. -/
theorem microStep_ne_v1 {s s1 : State} {a : Agent} {x x' : Activity} (h : microStep s a x = .ok (s1, some x')) :
    x' ≠ .slRxrdy .v1 := by
  rintro rfl
  cases microStep_continues h with
  | slRxrdy pos =>
    simp only [microStep] at h
    split at h <;> cases h
    next hm =>
      obtain ⟨_, -, -, hp⟩ | ⟨_, -, -, ⟨-, hp⟩ | ⟨-, hp⟩⟩ | ⟨_, _, _, -, -, ⟨_, -, hp⟩ | ⟨_, -, hp⟩⟩ :=
        microRxrdy_ok hm <;> cases hp

/-- Only `onReceiveReady` has the scope of the receive channel. -/
theorem Activity.scope_ne_receive {x : Activity} (h : ∀ pos, x ≠ .slRxrdy pos) : x.scope ≠ .link .rx := by
  cases x with
  | slRxrdy pos => exact absurd rfl (h pos)
  | _ => simp [Activity.scope]

theorem scopeOf_ne_receive {i : Instr} (h : ∀ r, i ≠ .slRxrdy r) : scopeOf i ≠ .link .rx := by
  cases i with
  | slRxrdy r => exact absurd rfl (h r)
  | _ => simp [scopeOf]

theorem beginOp_rcregOk {s : State} {i : Instr} (hs : s.rcregOk = true) : (beginOp s i).rcregOk = true := by
  obtain ⟨-, hbegin⟩ | ⟨x, hx, hbegin⟩ := beginOp_cases s i
  · rw [hbegin]
    exact hs
  rw [hbegin]
  rw [State.rcregOk_iff] at hs ⊢
  cases hx with
  | slRxrdy r => exact fun _ => rfl
  | rbWrite a | rbRead a | rbIsFull a | rbIsEmpty a =>
    cases a
    · exact hs
    · exact fun hm => hs (by simpa [State.enter, State.enterInterrupt, issuer, State.prepare] using hm)
  | slTxrdy | ssTick =>
    exact fun hm => hs (by simpa [State.enter, State.enterInterrupt, issuer, State.prepare] using hm)
  | slEnqb | slEnqm | slDeqb | ssStart | ssIsfin | ssRelease => exact hs

theorem stepCase_rcregOk {s t : State} (h : StepCase s t) (hgood : Good s) : t.rcregOk = true := by
  obtain ⟨-, hc, hr, -, hs⟩ := hgood
  have hrc := State.rcregOk_iff.1 hs
  cases h with
  | same => exact hs
  | undelivered hclaim => exact hs
  | @begins i roles ha hclaim => exact beginOp_rcregOk (s := s.withRoles i roles) hs
  | @whole i roles t ha hclaim hm =>
    rw [State.rcregOk_iff]
    obtain ⟨u, hu, ht⟩ := meaning_writes hm
    have hirq : t.irq = s.irq := by
      rcases ht with rfl | ⟨bytes, rest, -, rfl⟩
      · exact hu.sameControl.irq
      · exact hu.sameControl.irq
    rw [hirq]
    intro hmem
    by_cases hi : ∃ r, i = .slRxrdy r
    · obtain ⟨r, rfl⟩ := hi
      have hun := unused_admitted (side := .write) hc hr hclaim (admitContext_ok.1 ha).2.2 rfl
      exact absurd rfl (hun _ (mem_inProgress.2 (.inr hmem)))
    · have hsame := hu.sameRcReg (scopeOf_ne_receive fun r h => hi ⟨r, h⟩)
      rcases ht with rfl | ⟨bytes, rest, -, rfl⟩
      · rw [hsame]
        exact hrc hmem
      · exact (congrArg Option.isSome hsame).trans (hrc hmem)
  | @mainline x x' s1 hx ha hm =>
    have hwr := microStep_writes hm
    have hmain := (State.contextsOk_iff.1 hc).1 x hx
    have hsame := hwr.sameRcReg (Activity.scope_ne_receive (by rintro pos rfl; cases hmain))
    rw [State.rcregOk_iff]
    intro hmem
    rw [show ({ s1 with main := x' } : State).irq = s.irq from hwr.sameControl.irq] at hmem
    exact (congrArg Option.isSome hsame).trans (hrc hmem)
  | @interrupt x rest x' s1 hx hm =>
    rw [State.rcregOk_iff]
    intro hmem
    have hrest : Activity.slRxrdy .v1 ∈ rest := by
      rcases List.mem_append.1 hmem with hy | hy
      · obtain rfl := Option.mem_toList.1 hy
        exact absurd rfl (microStep_ne_v1 hm)
      · exact hy
    by_cases hpos : ∃ pos, x = .slRxrdy pos
    · obtain ⟨pos, rfl⟩ := hpos
      have hun := unused_irq (side := .write) hc hr hx rfl
      exact absurd rfl (hun _ (List.mem_append_right _ hrest))
    · have hsame := (microStep_writes hm).sameRcReg (Activity.scope_ne_receive fun pos h => hpos ⟨pos, h⟩)
      exact (congrArg Option.isSome hsame).trans (hrc (by simp [hx, hrest]))
  | restart => rfl

/-! ## The invariant -/

theorem stepCase_good {s t : State} (h : StepCase s t) (hgood : Good s) : Good t := by
  have hqueues := stepCase_queues h hgood
  have hrcreg := stepCase_rcregOk h hgood
  obtain ⟨hw, hc, hr, -, -⟩ := hgood
  have hwt := (stepCase_wf h hw).1
  exact ⟨hwt, stepCase_contextsOk h hc, stepCase_rolesOk h hr, (queues_iff hwt).2 hqueues, hrcreg⟩

/-- Settles O52: each case of a step keeps each part of the invariant; the buffers stay in order because roles and
contexts leave one operation at a time on each side of a buffer. -/
theorem stepKeepsFifoOrder : Obligations.StepKeepsFifoOrder := by
  unfold Obligations.StepKeepsFifoOrder
  intro s t hgood h
  obtain ⟨s', ⟨_, _, _, _, rfl⟩, hst⟩ := step_next_cases h
  exact stepCase_good hst hgood

end Sys2Proof.Machine
end

section
/-! PROOFS. The two contexts (R71 to R73): when the mainline has no micro-step and may not begin, how many operations of
the interrupt context there can be, and what the sequencer's operations leave alone. -/

namespace Sys2Proof.Machine

/-! ## The mainline under preemption -/

/-- R71 (b), with R72 as the one exception. -/
theorem mainMayAdvance_of_preempted {s : State} {x y : Activity} {ys : List Activity} (hirq : s.irq = y :: ys)
    (hrb : x.isRb = false ∨ y.isRb = false) : mainMayAdvance s x = false := by
  rcases hrb with hx | hy
  · simp [mainMayAdvance, hirq, hx]
  · simp [mainMayAdvance, State.freeFifo, hirq, hy]

theorem advanceMain_preempted {s : State} {x : Activity} (hx : s.main = some x) (ha : mainMayAdvance s x = false) :
    advanceMain s = .refused .mainlinePreempted := by
  simp [advanceMain, hx, ha]

/-- Settles O8: the event asks for a micro-step of the mainline, which may not advance. -/
theorem mainlineIsHeldDuringAnInterruptOperation : Obligations.MainlineIsHeldDuringAnInterruptOperation := by
  unfold Obligations.MainlineIsHeldDuringAnInterruptOperation
  intro s x y xs rest hw hagenda hmain hirq hrb
  rw [step_event hw hagenda]
  exact advanceMain_preempted (s := { s with agenda := rest }) hmain (mainMayAdvance_of_preempted hirq hrb)

/-! ## An operation that may not begin -/

/-- The gate refuses an operation whose context is not free, for the reason `whyNotBegin` gives. -/
theorem issue_of_not_mayBegin {s : State} {i : Instr} (body : State → Except Fault State) (hw : s.cfg.wf = true)
    (ho : i.operandsOk s.cfg = true) (hb : mayBegin s i = false) : issue s i body = .refused (whyNotBegin s i) := by
  simp [issue, admitContext, hw, ho, hb]

/-- An operation of the mainline does not wait: as an event it goes to the gate at once. -/
theorem step_start_mainline {s : State} {i : Instr} {rest : List Event} (hw : s.cfg.wf = true) (hi : issuer i = .M)
    (hagenda : s.agenda = .start i :: rest) :
    step s = issue { s with agenda := rest } i (fun s1 => .ok (beginOp s1 i)) := by
  rw [step_event hw hagenda]
  simp [handleEvent, mustWait, hi]

/-- A mainline operation that may not begin is refused for the same reason by `exec` and as an event. -/
theorem mainline_refused {s : State} {i : Instr} {rest : List Event} (hw : s.cfg.wf = true)
    (ho : i.operandsOk s.cfg = true) (hi : issuer i = .M) (hb : mayBegin s i = false) :
    exec i s = .refused (whyNotBegin s i) ∧ (s.agenda = .start i :: rest → step s = .refused (whyNotBegin s i)) := by
  refine ⟨?_, fun hagenda => ?_⟩
  · rw [exec_eq_issue_meaning]
    exact issue_of_not_mayBegin _ hw ho hb
  · rw [step_start_mainline hw hi hagenda]
    exact issue_of_not_mayBegin (s := { s with agenda := rest }) _ hw ho hb

/-- Settles O9: with the mainline in an operation, or free and preempted, `mayBegin` is false, and `whyNotBegin` tells
the two apart. -/
theorem mainlineBeginsOnlyWhenFree : Obligations.MainlineBeginsOnlyWhenFree := by
  unfold Obligations.MainlineBeginsOnlyWhenFree
  intro s i rest hw ho hi
  refine ⟨fun x hx => ?_, fun y ys hmain hirq hrb => ?_⟩
  · have hb : mayBegin s i = false := by simp [mayBegin, hi, hx]
    have hwhy : whyNotBegin s i = .mainlineBusy := by simp [whyNotBegin, hi, hx]
    exact hwhy ▸ mainline_refused hw ho hi hb
  · have hb : mayBegin s i = false := by
      rcases hrb with hc | hy
      · simp [mayBegin, hi, hirq, hc]
      · simp [mayBegin, State.freeFifo, hi, hirq, hy]
    have hwhy : whyNotBegin s i = .mainlineInsideHandler := by simp [whyNotBegin, hi, hmain]
    exact hwhy ▸ mainline_refused hw ho hi hb

/-! ## One operation of the interrupt context at a time -/

/-- Nesting is off, and at most one operation of the interrupt context is in progress. -/
structure OneHandler (s : State) : Prop where
  flat : s.cfg.nestedInterrupts = false
  single : s.irq.length ≤ 1

theorem SameControl.oneHandler {s t : State} (h : SameControl s t) (hs : OneHandler s) : OneHandler t :=
  ⟨by rw [h.cfg]; exact hs.flat, by rw [h.irq]; exact hs.single⟩

/-- Without nesting, an operation of the interrupt context begins only with none in progress. -/
theorem irq_eq_nil_of_mayBegin {s : State} {i : Instr} (hflat : s.cfg.nestedInterrupts = false) (hi : issuer i = .I)
    (hb : mayBegin s i = true) : s.irq = [] :=
  (mayBegin_I hi hb).resolve_right (by simp [mayNest, hflat])

theorem beginOp_oneHandler {s : State} {i : Instr} (hb : mayBegin s i = true) (hs : OneHandler s) :
    OneHandler (beginOp s i) := by
  obtain ⟨-, hbegin⟩ | ⟨x, -, hbegin⟩ := beginOp_cases s i
  · rw [hbegin]
    exact ⟨hs.flat, hs.single⟩
  have hctl := (prepare_writes s i).sameControl
  obtain ⟨hflat, hsingle⟩ := hctl.oneHandler hs
  rw [hbegin]
  cases hi : issuer i with
  | M => exact ⟨hflat, hsingle⟩
  | I =>
    have hnil : (s.prepare i).irq = [] := hctl.irq.trans (irq_eq_nil_of_mayBegin hs.flat hi hb)
    exact ⟨hflat, by simp [State.enter, State.enterInterrupt, hnil]⟩

theorem stepCase_oneHandler {s t : State} (h : StepCase s t) (hs : OneHandler s) : OneHandler t := by
  obtain ⟨hflat, hsingle⟩ := hs
  cases h with
  | same => exact ⟨hflat, hsingle⟩
  | undelivered hr => exact ⟨hflat, hsingle⟩
  | @begins i roles hc hr =>
    exact beginOp_oneHandler (s := s.withRoles i roles) (admitContext_ok.1 hc).2.2 ⟨hflat, hsingle⟩
  | @whole i roles t hc hr hm =>
    obtain ⟨u, hu, ht⟩ := meaning_writes hm
    obtain ⟨hflatu, hsingleu⟩ := hu.sameControl.oneHandler ⟨hflat, hsingle⟩
    rcases ht with rfl | ⟨bytes, rest, -, rfl⟩
    · exact ⟨hflatu, hsingleu⟩
    · exact ⟨hflatu, hsingleu⟩
  | mainline hx ha hm =>
    obtain ⟨hflat1, hsingle1⟩ := (microStep_writes hm).sameControl.oneHandler ⟨hflat, hsingle⟩
    exact ⟨hflat1, hsingle1⟩
  | @interrupt x rest x' s1 hx hm =>
    have hflat1 := ((microStep_writes hm).sameControl.oneHandler ⟨hflat, hsingle⟩).flat
    have hrest : rest = [] := by simpa [hx] using hsingle
    exact ⟨hflat1, by cases x' <;> simp [hrest]⟩
  | restart => exact ⟨hflat, Nat.zero_le 1⟩

/-- Settles O11: an operation enters the interrupt context only when that is empty, and no other case of a step
adds an operation to it. -/
theorem stepKeepsOneHandlerAtATime : Obligations.StepKeepsOneHandlerAtATime := by
  unfold Obligations.StepKeepsOneHandlerAtATime
  intro s t hflat hsingle h
  obtain ⟨s', ⟨_, _, _, _, rfl⟩, hst⟩ := step_next_cases h
  obtain ⟨hflatt, hsinglet⟩ := stepCase_oneHandler hst ⟨hflat, hsingle⟩
  exact ⟨hflatt, hsinglet⟩

/-! ## The sequencer's operations -/

theorem SameControl.sameSurroundings {s t : State} (h : SameControl s t) : SameSurroundings s t :=
  ⟨h.cfg, h.epoch, h.initDone, h.ports, h.agenda, h.stream⟩

/-- Settles O42: the scope of an operation of the sequencer includes no buffer, and only a message is ever held. -/
theorem sequencerOperationsKeepTheSerialLink : Obligations.SequencerOperationsKeepTheSerialLink := by
  unfold Obligations.SequencerOperationsKeepTheSerialLink
  intro i s t hi he
  obtain ⟨roles, u, -, hw, ht⟩ := exec_writes he
  have hbuf : (scopeOf i).buf = none :=
    Option.not_isSome_iff_eq_none.1 fun hsome => scopeOf_buf_isSome.1 hsome hi
  obtain ⟨hserial, herr⟩ := hw.sameSerial hbuf
  have hctl := hw.sameControl
  rcases ht with rfl | ⟨bytes, rest, rfl, -⟩
  · exact ⟨hserial, hctl.sameSurroundings, herr, hctl.main, hctl.irq⟩
  · cases hi

end Sys2Proof.Machine
end

section
/-! PROOFS. The command encoding (30_encoding.md R91 to R98). What decodes is exactly an encoding and what is left of
the stream, because every opcode has one byte and each operand format is decoded from exactly the bytes it is encoded to. -/

namespace Sys2Proof

/-! ## Bytes and values (R94, R95, R97) -/

theorem takeBytes_append (front rest : List Byte) : takeBytes front.length (front ++ rest) = some (front, rest) := by
  induction front with
  | nil => rfl
  | cons b bs ih => simp [takeBytes, ih]

/-- What is taken is the front of the stream, of the length asked for. -/
theorem takeBytes_some {n : Nat} {bytes front rest : List Byte} (h : takeBytes n bytes = some (front, rest)) :
    front.length = n ∧ bytes = front ++ rest := by
  induction n generalizing bytes front with
  | zero =>
    cases h
    exact ⟨rfl, rfl⟩
  | succ n ih =>
    cases bytes with
    | nil => cases h
    | cons b bs =>
      simp only [takeBytes] at h
      split at h
      · cases h
      next taken rest' htake =>
        cases h
        obtain ⟨hlen, rfl⟩ := ih htake
        exact ⟨congrArg (· + 1) hlen, rfl⟩

@[simp] theorem leBytes_length (n v : Nat) : (leBytes n v).length = n := by
  induction n generalizing v with
  | zero => rfl
  | succ n ih => simp [leBytes, ih]

theorem leValue_lt (bytes : List Byte) : leValue bytes < 2 ^ (8 * bytes.length) := by
  induction bytes with
  | nil => simp [leValue]
  | cons b bs ih =>
    have hb := b.isLt
    simp only [leValue, List.length_cons, Nat.mul_add, Nat.pow_add]
    omega

theorem leBytes_leValue (bytes : List Byte) : leBytes bytes.length (leValue bytes) = bytes := by
  induction bytes with
  | nil => rfl
  | cons b bs ih =>
    have hb := b.isLt
    have hhigh : (b.toNat + 256 * leValue bs) / 256 = leValue bs := by omega
    have hlow : BitVec.ofNat 8 (b.toNat + 256 * leValue bs) = b := by
      apply BitVec.eq_of_toNat_eq
      rw [BitVec.toNat_ofNat]
      omega
    simp only [List.length_cons, leValue, leBytes, hhigh, hlow, ih]

theorem leValue_leBytes {n v : Nat} (hv : v < 2 ^ (8 * n)) : leValue (leBytes n v) = v := by
  induction n generalizing v with
  | zero =>
    obtain rfl : v = 0 := by omega
    rfl
  | succ n ih =>
    have hhigh : v / 256 < 2 ^ (8 * n) := by
      simp only [Nat.mul_add, Nat.pow_add] at hv
      omega
    simp only [leBytes, leValue, ih hhigh, BitVec.toNat_ofNat]
    omega

theorem takeBytes_leBytes (n v : Nat) (rest : List Byte) :
    takeBytes n (leBytes n v ++ rest) = some (leBytes n v, rest) := by
  simpa using takeBytes_append (leBytes n v) rest

theorem directionOfByte_eq_some {x : Byte} {dir : Direction} : directionOfByte x = some dir ↔ x = directionByte dir := by
  revert x
  cases dir <;> decide

/-! ## Operand formats (R92, R98) -/

theorem decodeB_eq_ok {mk : Byte → Instr} {bytes rest : List Byte} {i : Instr} :
    decodeB mk bytes = .ok (i, rest) ↔ ∃ v, i = mk v ∧ bytes = v :: rest := by
  cases bytes with
  | nil => simp [decodeB]
  | cons v bs => simp [decodeB, eq_comm]

theorem decodeM_eq_ok {mk : List Byte → Instr} {bytes rest : List Byte} {i : Instr} :
    decodeM mk bytes = .ok (i, rest)
      ↔ ∃ data, data.length ≤ 255 ∧ i = mk data ∧ bytes = BitVec.ofNat 8 data.length :: (data ++ rest) := by
  constructor
  · intro h
    unfold decodeM at h
    split at h
    · cases h
    next n bs =>
      split at h
      · cases h
      next data rest' htake =>
        cases h
        obtain ⟨hlen, rfl⟩ := takeBytes_some htake
        have hn := n.isLt
        exact ⟨data, by omega, rfl, by rw [hlen, BitVec.ofNat_toNat, BitVec.setWidth_eq]⟩
  · rintro ⟨data, hlen, rfl, rfl⟩
    have hn : (BitVec.ofNat 8 data.length).toNat = data.length := by
      rw [BitVec.toNat_ofNat]
      omega
    simp [decodeM, hn, takeBytes_append]

theorem encodable_ssStart {p : Params} {distance : Nat} {dir : Direction} {speed : Nat} :
    (Instr.ssStart distance dir speed).encodable p = true
      ↔ distance < 2 ^ p.wSteps ∧ speed < 2 ^ p.wRate ∧ p.wSteps % 8 = 0 ∧ p.wRate % 8 = 0 := by
  simp only [Instr.encodable, Bool.and_eq_true, decide_eq_true_eq, and_assoc]

theorem decodeS_eq_ok {p : Params} {mk : Nat → Direction → Nat → Instr} {bytes rest : List Byte} {i : Instr} :
    decodeS p mk bytes = .ok (i, rest)
      ↔ ∃ distance dir speed, (Instr.ssStart distance dir speed).encodable p = true ∧ i = mk distance dir speed
        ∧ bytes = operandBytes p (.ssStart distance dir speed) ++ rest := by
  simp only [encodable_ssStart]
  constructor
  · intro h
    unfold decodeS at h
    split at h
    next hwidths =>
      obtain ⟨hsteps, hrate⟩ := hwidths
      split at h
      · cases h
      · cases h
      next dist d bs hdist =>
        split at h
        · cases h
        next speed rest' hspeed =>
          split at h
          · cases h
          next dir hdir =>
            cases h
            obtain ⟨hdlen, rfl⟩ := takeBytes_some hdist
            obtain ⟨hslen, rfl⟩ := takeBytes_some hspeed
            have hdlt := leValue_lt dist
            have hslt := leValue_lt speed
            rw [hdlen, Nat.mul_div_cancel' (Nat.dvd_of_mod_eq_zero hsteps)] at hdlt
            rw [hslen, Nat.mul_div_cancel' (Nat.dvd_of_mod_eq_zero hrate)] at hslt
            refine ⟨_, dir, _, ⟨hdlt, hslt, hsteps, hrate⟩, rfl, ?_⟩
            simp [operandBytes, ← hdlen, ← hslen, leBytes_leValue, directionOfByte_eq_some.1 hdir]
    · cases h
  · rintro ⟨distance, dir, speed, ⟨hdlt, hslt, hsteps, hrate⟩, rfl, rfl⟩
    rw [← Nat.mul_div_cancel' (Nat.dvd_of_mod_eq_zero hsteps)] at hdlt
    rw [← Nat.mul_div_cancel' (Nat.dvd_of_mod_eq_zero hrate)] at hslt
    have hdir : directionOfByte (directionByte dir) = some dir := directionOfByte_eq_some.2 rfl
    simp [decodeS, operandBytes, hsteps, hrate, takeBytes_leBytes, leValue_leBytes, hdlt, hslt, hdir]

/-! ## The opcode byte (R96) -/

/-- The byte of the opcode map that an opcode stands for. -/
def Opcode.byte : Opcode → Byte
  | .rbWrite a b => rbOpcode a b 0x00#8
  | .rbRead a b => rbOpcode a b 0x01#8
  | .rbIsFull a b => rbOpcode a b 0x02#8
  | .rbIsEmpty a b => rbOpcode a b 0x03#8
  | .slEnqb => 0x40#8
  | .slEnqm => 0x41#8
  | .slDeqb => 0x42#8
  | .slTxrdy => 0x60#8
  | .slRxrdy => 0x61#8
  | .ssStart => 0x80#8
  | .ssIsfin => 0x81#8
  | .ssRelease => 0x82#8
  | .ssTick => 0xA0#8

/-- What the opcode byte of an operation says of it. -/
def Instr.opcode : Instr → Opcode
  | .rbWrite a b _ => .rbWrite a b
  | .rbRead a b => .rbRead a b
  | .rbIsFull a b => .rbIsFull a b
  | .rbIsEmpty a b => .rbIsEmpty a b
  | .slEnqb _ => .slEnqb
  | .slEnqm _ => .slEnqm
  | .slDeqb => .slDeqb
  | .slTxrdy => .slTxrdy
  | .slRxrdy _ => .slRxrdy
  | .ssStart _ _ _ => .ssStart
  | .ssIsfin => .ssIsfin
  | .ssRelease => .ssRelease
  | .ssTick => .ssTick

theorem opcodeByte_eq_byte (i : Instr) : opcodeByte i = i.opcode.byte := by
  cases i <;> rfl

theorem opcodeOf_byte (op : Opcode) : opcodeOf op.byte = .ok op := by
  cases op with
  | rbWrite a b | rbRead a b | rbIsFull a b | rbIsEmpty a b => cases a <;> cases b <;> rfl
  | _ => rfl

theorem opcodeOf_opcodeByte (i : Instr) : opcodeOf (opcodeByte i) = .ok i.opcode := by
  rw [opcodeByte_eq_byte, opcodeOf_byte]

/-- No opcode has a second byte: all 256 bytes are tried. -/
theorem byte_of_opcodeOf_all : ∀ x : Byte, (opcodeOf x).toOption.all (fun op => op.byte == x) = true := by
  decide

theorem byte_of_opcodeOf {x : Byte} {op : Opcode} (h : opcodeOf x = .ok op) : op.byte = x := by
  simpa [h, Except.toOption] using byte_of_opcodeOf_all x

/-! ## One command -/

/-- Decoding gives back an operation that has a byte form, and the rest of the stream. -/
theorem decode_encode_append {p : Params} {i : Instr} (rest : List Byte) (h : i.encodable p = true) :
    decode p (encode p i ++ rest) = .ok (i, rest) := by
  simp only [decode, encode, List.cons_append, opcodeOf_opcodeByte]
  cases i with
  | slEnqm bytes =>
    have hlen : bytes.length ≤ 255 := by simpa [Instr.encodable] using h
    exact decodeM_eq_ok.2 ⟨bytes, hlen, rfl, rfl⟩
  | ssStart distance dir speed => exact decodeS_eq_ok.2 ⟨distance, dir, speed, h, rfl, rfl⟩
  | _ => rfl

/-- What decodes has a byte form, and is its encoding followed by the rest of the stream. -/
theorem eq_encode_append_of_decode {p : Params} {bytes rest : List Byte} {i : Instr}
    (h : decode p bytes = .ok (i, rest)) : i.encodable p = true ∧ bytes = encode p i ++ rest := by
  cases bytes with
  | nil => cases h
  | cons x bs =>
    cases hop : opcodeOf x with
    | error e => simp [decode, hop] at h
    | ok op =>
      obtain rfl := byte_of_opcodeOf hop
      simp only [decode, hop] at h
      cases op with
      | rbWrite | slEnqb | slRxrdy =>
        obtain ⟨v, rfl, rfl⟩ := decodeB_eq_ok.1 h
        exact ⟨rfl, rfl⟩
      | slEnqm =>
        obtain ⟨data, hlen, rfl, rfl⟩ := decodeM_eq_ok.1 h
        exact ⟨decide_eq_true hlen, rfl⟩
      | ssStart =>
        obtain ⟨distance, dir, speed, henc, rfl, rfl⟩ := decodeS_eq_ok.1 h
        exact ⟨henc, rfl⟩
      | _ =>
        cases h
        exact ⟨rfl, rfl⟩

/-- Settles O1: per operand format, the decoder takes back what the encoder wrote. -/
theorem decodeOfEncodeIsTheOperation : Obligations.DecodeOfEncodeIsTheOperation := by
  unfold Obligations.DecodeOfEncodeIsTheOperation
  exact fun _ _ rest henc => decode_encode_append rest henc

/-- Settles O2: an opcode has one byte, and each operand format reads only what the encoder writes. -/
theorem encodeOfDecodeIsTheBytes : Obligations.EncodeOfDecodeIsTheBytes := by
  unfold Obligations.EncodeOfDecodeIsTheBytes
  intro p bytes rest i hdec
  obtain ⟨henc, hbytes⟩ := eq_encode_append_of_decode hdec
  exact ⟨henc, hbytes.symm⟩

/-! ## The opcode map (R96, R97) -/

/-- The two readings of the map agree on every byte: the fields of R91, and match and mask of R96. -/
theorem opcodeOf_isOk_eq_any_selects : ∀ x : Byte, (opcodeOf x).isOk = opcodeRows.any fun row => row.selects x := by
  decide

theorem isOpcode_iff_selected (x : Byte) :
    (∃ op, opcodeOf x = .ok op) ↔ ∃ row ∈ opcodeRows, row.selects x = true := by
  rw [← List.any_eq_true, ← opcodeOf_isOk_eq_any_selects]
  cases opcodeOf x <;> simp [Except.isOk, Except.toBool]

/-- Two rows that select one byte agree on the bits that both look at. -/
theorem OpcodeRow.agree_of_selects {r r' : OpcodeRow} {x : Byte} (h : r.selects x = true) (h' : r'.selects x = true) :
    r.pattern &&& r'.mask = r'.pattern &&& r.mask := by
  simp only [OpcodeRow.selects, beq_iff_eq] at h h'
  rw [← h, ← h', BitVec.and_assoc, BitVec.and_assoc, BitVec.and_comm r.mask]

theorem opcodeRows_eq_of_agree :
    ∀ r ∈ opcodeRows, ∀ r' ∈ opcodeRows, r.pattern &&& r'.mask = r'.pattern &&& r.mask → r = r' := by
  decide

/-- Settles O3: two different rows disagree on a bit that both look at. -/
theorem opcodesAreTheRowsOfTheMap : Obligations.OpcodesAreTheRowsOfTheMap := by
  unfold Obligations.OpcodesAreTheRowsOfTheMap
  exact ⟨rfl, isOpcode_iff_selected, fun _ r r' hr hr' h h' =>
    opcodeRows_eq_of_agree r hr r' hr' (OpcodeRow.agree_of_selects h h')⟩

/-- Settles O4: the decoder evaluates on each of the six words. -/
theorem writtenOutWordsDecode : Obligations.WrittenOutWordsDecode := by
  unfold Obligations.WrittenOutWordsDecode
  exact ⟨rfl, rfl, rfl, rfl, rfl, rfl⟩

/-! ## Command length (R98) -/

/-- The length the decoder finds from the opcode byte, and for a message from the byte after it, is the length of the
encoding. -/
theorem commandLength_opcodeByte {p : Params} {i : Instr} {n : Byte} (henc : i.encodable p = true)
    (hn : ∀ b ∈ (operandBytes p i).head?, b = n) : commandLength p (opcodeByte i) n = (encode p i).length := by
  simp only [commandLength, opcodeOf_opcodeByte, encode, List.length_cons]
  cases i with
  | slEnqm bytes =>
    have hlen : bytes.length ≤ 255 := by simpa [Instr.encodable] using henc
    have hbyte : n.toNat = bytes.length := by
      rw [← hn _ rfl, BitVec.toNat_ofNat]
      omega
    simp only [Instr.opcode, operandBytes, List.length_cons, hbyte]
    omega
  | ssStart distance dir speed =>
    simp only [Instr.opcode, operandBytes, List.length_append, List.length_cons, leBytes_length]
    omega
  | _ => rfl

theorem mem_head?_leBytes {k v : Nat} {b : Byte} (hb : b ∈ (leBytes k v).head?) : b = BitVec.ofNat 8 v := by
  cases k with
  | zero => cases hb
  | succ k => exact (Option.mem_some_iff.1 hb).symm

theorem commandLength_pos (p : Params) (x n : Byte) : 0 < commandLength p x n := by
  unfold commandLength
  split <;> omega

/-- A word of the opcode table is its command and nothing more. -/
theorem rest_eq_nil_of_decode_tableWord {p : Params} {nbits w : Nat} {i : Instr} {rest : List Byte}
    (h : decode p (tableWordBytes p nbits w) = .ok (i, rest)) : rest = [] := by
  obtain ⟨henc, hbytes⟩ := eq_encode_append_of_decode h
  unfold tableWordBytes at hbytes
  generalize w % 2 ^ nbits = word at hbytes
  obtain ⟨k, hk⟩ := Nat.exists_eq_add_one.2 (commandLength_pos p (BitVec.ofNat 8 word) (BitVec.ofNat 8 (word / 256)))
  have hsplit := hbytes
  rw [hk, leBytes, encode, List.cons_append, List.cons.injEq] at hsplit
  obtain ⟨hop, hoperands⟩ := hsplit
  have hn : ∀ b ∈ (operandBytes p i).head?, b = BitVec.ofNat 8 (word / 256) := fun b hb =>
    mem_head?_leBytes (k := k) (hoperands ▸ List.mem_head?_append_of_mem_head? hb)
  have hlen := congrArg List.length hbytes
  rw [leBytes_length, hop, commandLength_opcodeByte henc hn, List.length_append] at hlen
  exact List.eq_nil_of_length_eq_zero (by omega)

end Sys2Proof
end

section
/-! PROOFS. The command stream (R90, R97): with nothing in progress a step is the next command of the stream. -/

namespace Sys2Proof.Machine

/-- With no event to come and no operation in progress the step takes the next command. -/
theorem step_idle {s : State} (hw : s.cfg.wf = true) (hidle : Idle s) : step s = runCommand s := by
  obtain ⟨hmain, hirq, hagenda⟩ := hidle
  simp [step_of_wf hw, stepOnce, hmain, hirq, hagenda]

theorem runCommand_of_decode_ok {s : State} {i : Instr} {rest : List Byte}
    (hdec : decode s.cfg s.stream = .ok (i, rest)) : runCommand s = exec i { s with stream := rest } := by
  cases hs : s.stream with
  | nil => simp [hs, decode] at hdec
  | cons x bytes => simp [runCommand, hs, hs ▸ hdec]

theorem runCommand_of_decode_error {s : State} {e : DecodeError} (hne : s.stream ≠ [])
    (hdec : decode s.cfg s.stream = .error e) : runCommand s = .refused (.illegalCommand e) := by
  cases hs : s.stream with
  | nil => exact absurd hs hne
  | cons x bytes => simp [runCommand, hs, hs ▸ hdec]

/-- Settles O5: the idle step decodes the front of the stream and passes the decoder's reason on. -/
theorem illegalCommandIsRefused : Obligations.IllegalCommandIsRefused := by
  unfold Obligations.IllegalCommandIsRefused
  intro s e hw hidle hne hdec
  rw [step_idle hw hidle, runCommand_of_decode_error hne hdec]

/-- Settles O6: by the round trip of O1 the front of the stream decodes to the operation. -/
theorem stepRunsTheNextCommand : Obligations.StepRunsTheNextCommand := by
  unfold Obligations.StepRunsTheNextCommand
  intro s i rest hw hidle henc hstream
  rw [step_idle hw hidle, runCommand_of_decode_ok (hstream ▸ decode_encode_append rest henc)]

theorem decode_of_decodeTableWord {nbits w : Nat} {i : Instr} (h : decodeTableWord nbits w = some i) :
    ∃ rest, decode Params.default (tableWordBytes Params.default nbits w) = .ok (i, rest) := by
  unfold decodeTableWord at h
  split at h
  next rest hdec =>
    cases h
    exact ⟨rest, hdec⟩
  · cases h

/-- Settles O7: the placed bytes are the one command, by their length, so the idle step runs it and leaves no byte. -/
theorem placedWordIsWhatStepRuns : Obligations.PlacedWordIsWhatStepRuns := by
  unfold Obligations.PlacedWordIsWhatStepRuns
  intro s nbits w i hcfg hword
  obtain ⟨rest, hdec⟩ := decode_of_decodeTableWord hword
  obtain rfl := rest_eq_nil_of_decode_tableWord hdec
  rw [← hcfg] at hdec
  have hw : s.cfg.wf = true := by
    rw [hcfg]
    decide
  rw [step_idle (s := s.withFetchWord nbits w) hw ⟨rfl, rfl, rfl⟩]
  exact runCommand_of_decode_ok (s := s.withFetchWord nbits w) hdec

end Sys2Proof.Machine
end

section
/-! PROOFS. SPSC (R25, R102): an operation that needs a role another agent holds is refused, and one that runs has taken
the roles it needs. -/

namespace Sys2Proof.Machine

/-! ## What cannot be claimed -/

/-- A side of a buffer that the other agent holds cannot be taken: claiming would keep it and give it away. -/
theorem claimRoles_eq_none_of_held {r : Roles} {i : Instr} {side : Side} {b : BufId} (hs : sideUsed i side = some b)
    (hheld : r.holder side b = some (otherAgent (issuer i))) : claimRoles r i = none := by
  cases hr : claimRoles r i with
  | none => rfl
  | some r' =>
    have heq : some (issuer i) = some (otherAgent (issuer i)) :=
      (claimRoles_holder hr hs).symm.trans (claimRoles_le hr side b _ hheld)
    cases hi : issuer i <;> simp [hi, otherAgent] at heq

/-- No operation on the buffers of a `SerialLink` can be claimed once an agent of R25's assignment is another. -/
theorem claimRoles_eq_none_of_wrong_holder {r : Roles} {i : Instr} (hu : usesLink i = true)
    (hwrong : r.producer.tx = some .I ∨ r.consumer.tx = some .M ∨ r.producer.rx = some .M ∨ r.consumer.rx = some .I) :
    claimRoles r i = none := by
  cases hr : claimRoles r i with
  | none => rfl
  | some r' =>
    have hle : r.Le linkRoles := Roles.le_linkRoles (claimRoles_usesLink hu hr).1
    rcases hwrong with h | h | h | h
    · cases hle .write .tx .I h
    · cases hle .read .tx .M h
    · cases hle .write .rx .M h
    · cases hle .read .rx .I h

/-! ## Refusal -/

/-- The gate refuses an admissible operation whose roles cannot be claimed. -/
theorem issue_of_unclaimable {s : State} {i : Instr} (body : State → Except Fault State)
    (hc : admitContext s i = .ok ()) (hinit : s.initDone = true) (hr : claimRoles s.roles i = none) :
    issue s i body = .refused .spscViolation := by
  simp [issue, hc, admitRun, hinit, hr]

/-- An operation that may begin does not wait: as an event it goes to the gate at once. -/
theorem step_start_of_mayBegin {s : State} {i : Instr} {rest : List Event} (hw : s.cfg.wf = true)
    (hb : mayBegin s i = true) (hagenda : s.agenda = .start i :: rest) :
    step s = issue { s with agenda := rest } i (fun s1 => .ok (beginOp s1 i)) := by
  have hb' : mayBegin { s with agenda := rest } i = true := hb
  rw [step_event hw hagenda]
  simp [handleEvent, mustWait, hb']

/-- An admissible operation whose roles cannot be claimed is refused by `exec` and as an event. -/
theorem unclaimable_refused {s : State} {i : Instr} (hc : admitContext s i = .ok ()) (hinit : s.initDone = true)
    (hr : claimRoles s.roles i = none) :
    exec i s = .refused .spscViolation
      ∧ ∀ rest, s.agenda = .start i :: rest → step s = .refused .spscViolation := by
  refine ⟨?_, fun rest hagenda => ?_⟩
  · rw [exec_eq_issue_meaning]
    exact issue_of_unclaimable _ hc hinit hr
  · obtain ⟨hw, -, hb⟩ := admitContext_ok.1 hc
    rw [step_start_of_mayBegin hw hb hagenda]
    exact issue_of_unclaimable (s := { s with agenda := rest }) _ hc hinit hr

theorem operandsOk_of_usesLink {i : Instr} (p : Params) (hu : usesLink i = true) : i.operandsOk p = true := by
  cases i with
  | ssStart => cases hu
  | _ => rfl

/-! ## What a run has claimed -/

/-- The roles after an operation are those it claimed. -/
theorem claimRoles_of_exec {i : Instr} {s t : State} (he : exec i s = .next t) :
    claimRoles s.roles i = some t.roles := by
  obtain ⟨roles, u, hr, hw, rfl | ⟨bytes, rest, -, rfl⟩⟩ := exec_writes he
  · rw [hr, hw.sameControl.roles, State.withRoles_roles]
  · rw [hr, State.enterMain_roles, hw.sameControl.roles, State.withRoles_roles]

/-- Settles O13: what breaks SPSC cannot be claimed, which the gate refuses, and what runs holds what it claimed. -/
theorem breakingSpscIsRefused : Obligations.BreakingSpscIsRefused := by
  unfold Obligations.BreakingSpscIsRefused
  intro s hw hinit
  refine ⟨fun a b v => ⟨fun hb hbreak => ?_, fun hb hbreak => ?_, fun t he => ?_, fun t he => ?_⟩,
    fun i hu => ⟨fun hb hwrong => ?_, fun t he => ?_⟩⟩
  · refine unclaimable_refused (admitContext_ok.2 ⟨hw, rfl, hb⟩) hinit ?_
    rcases hbreak with hheld | ⟨rfl, rfl⟩
    · exact claimRoles_eq_none_of_held (side := .write) rfl hheld
    · rfl
  · refine unclaimable_refused (admitContext_ok.2 ⟨hw, rfl, hb⟩) hinit ?_
    rcases hbreak with hheld | ⟨rfl, rfl⟩
    · exact claimRoles_eq_none_of_held (side := .read) rfl hheld
    · rfl
  · exact claimRoles_holder (side := .write) (claimRoles_of_exec he) rfl
  · exact claimRoles_holder (side := .read) (claimRoles_of_exec he) rfl
  · exact unclaimable_refused (admitContext_ok.2 ⟨hw, operandsOk_of_usesLink _ hu, hb⟩) hinit
      (claimRoles_eq_none_of_wrong_holder hu hwrong)
  · exact (claimRoles_usesLink hu (claimRoles_of_exec he)).2

end Sys2Proof.Machine
end

section
/-! PROOFS. The tests of `enqueueMessage`, `onTransmitReady` and `onReceiveReady` (R130, R141 (b), R143, R144). A buffer
fills only by an operation on its write side and drains only by one on its read side, so a test that an operation has made
on its own side stays true until it uses it. -/

namespace Sys2Proof.Machine

/-! ## How the buffers fill and drain -/

/-- From `s` to `t` no buffer fills but `wr`, and none drains but `rd`. -/
structure LevelsMove (wr rd : Option BufId) (s t : State) : Prop where
  cfg : t.cfg = s.cfg
  notFull : ∀ b, wr ≠ some b → s.isFull b = false → t.isFull b = false
  notEmpty : ∀ b, rd ≠ some b → s.isEmpty b = false → t.isEmpty b = false
  empty : ∀ b, wr ≠ some b → s.isEmpty b = true → t.isEmpty b = true

section Levels

variable {s t u : State} {wr rd : Option BufId} {b : BufId}

theorem SameQueues.isFull (h : SameQueues s t) (b : BufId) : t.isFull b = s.isFull b := by
  simp only [State.isFull, State.ring, State.cap, h.rings, h.cfg]

theorem SameQueues.isEmpty (h : SameQueues s t) (b : BufId) : t.isEmpty b = s.isEmpty b := by
  simp only [State.isEmpty, State.ring, h.rings]

theorem SameQueues.levelsMove (h : SameQueues s t) : LevelsMove wr rd s t :=
  ⟨h.cfg, fun b _ hf => (h.isFull b).trans hf, fun b _ he => (h.isEmpty b).trans he,
    fun b _ he => (h.isEmpty b).trans he⟩

theorem LevelsMove.trans (h1 : LevelsMove wr rd s t) (h2 : LevelsMove wr rd t u) : LevelsMove wr rd s u :=
  ⟨h2.cfg.trans h1.cfg, fun b hb hf => h2.notFull b hb (h1.notFull b hb hf),
    fun b hb he => h2.notEmpty b hb (h1.notEmpty b hb he), fun b hb he => h2.empty b hb (h1.empty b hb he)⟩

/-- Updates of one buffer leave the level of the other. -/
theorem Writes.otherLevel {b' : BufId} (h : Writes (.ring b) s t) (hne : b' ≠ b) :
    t.isFull b' = s.isFull b' ∧ t.isEmpty b' = s.isEmpty b' := by
  have hring := (h.otherBuffer rfl hne).1
  simp only [State.isFull, State.isEmpty, State.cap, hring, h.sameControl.cfg, and_self]

/-- Updates of a buffer that do not drain it. -/
theorem Writes.levelsMove_write (h : Writes (.ring b) s t) (hne : s.isEmpty b = false → t.isEmpty b = false) :
    LevelsMove (some b) rd s t := by
  have hother : ∀ b', some b ≠ some b' → b' ≠ b := fun b' hb heq => hb (congrArg some heq.symm)
  refine ⟨h.sameControl.cfg, fun b' hb hf => (h.otherLevel (hother b' hb)).1.trans hf, fun b' _ he => ?_,
    fun b' hb he => (h.otherLevel (hother b' hb)).2.trans he⟩
  by_cases hb : b' = b
  · subst hb
    exact hne he
  · exact (h.otherLevel hb).2.trans he

/-- Updates of a buffer that do not fill it. -/
theorem Writes.levelsMove_read (h : Writes (.ring b) s t) (hf : s.isFull b = false → t.isFull b = false)
    (he : s.isEmpty b = true → t.isEmpty b = true) : LevelsMove wr (some b) s t := by
  have hother : ∀ b', some b ≠ some b' → b' ≠ b := fun b' hb heq => hb (congrArg some heq.symm)
  refine ⟨h.sameControl.cfg, fun b' _ hf' => ?_, fun b' hb he' => (h.otherLevel (hother b' hb)).2.trans he',
    fun b' _ he' => ?_⟩
  · by_cases hb : b' = b
    · subst hb
      exact hf hf'
    · exact (h.otherLevel hb).1.trans hf'
  · by_cases hb : b' = b
    · subst hb
      exact he he'
    · exact (h.otherLevel hb).2.trans he'

theorem isEmpty_publishHead {v : Byte} (hf : s.isFull b = false) :
    (s.publishHead b (s.ring b).head v).isEmpty b = false := by
  have hring : (s.publishHead b (s.ring b).head v).ring b
      = { s.ring b with head := incC (s.cap b) (s.ring b).head } := by simp [State.ring]
  rw [State.isEmpty, hring]
  exact Ring.empty_publish hf

theorem isFull_releaseTail {v : Byte} (hw : (s.ring b).wf (s.cap b) = true) (he : s.isEmpty b = false) :
    (s.releaseTail b (s.ring b).tail v).isFull b = false := by
  have hring : (s.releaseTail b (s.ring b).tail v).ring b
      = { s.ring b with tail := incC (s.cap b) (s.ring b).tail } := by simp [State.ring]
  rw [State.isFull, hring]
  exact Ring.full_release hw he

/-! ## A `write` and a `read` -/

/-- A micro-step of a `write` drains no buffer. -/
theorem microWrite_levelsMove {v : Byte} {pos : WriteAt} {p : Progress WriteAt Bool}
    (hpos : writePosOk (s.cap b) (s.ring b) v pos = true) (hm : microWrite s b v pos = .ok (t, p)) :
    LevelsMove (some b) rd s t := by
  refine (microWrite_writes rfl hm).levelsMove_write fun he => ?_
  cases pos with
  | w1 =>
    cases hm
    exact he
  | w2 h tl =>
    simp only [microWrite] at hm
    split at hm <;> cases hm <;> exact he
  | w3 h =>
    simp only [microWrite] at hm
    split at hm <;> cases hm
    next hst =>
      obtain ⟨slots, -, rfl⟩ := storeSlot_ok hst
      rw [State.isEmpty, State.ring_setRing_same]
      exact he
  | w4 h =>
    cases hm
    simp only [writePosOk, Bool.and_eq_true, beq_iff_eq, Bool.not_eq_true'] at hpos
    obtain ⟨⟨rfl, hfull⟩, -⟩ := hpos
    exact isEmpty_publishHead hfull

/-- A micro-step of a `read` fills no buffer. -/
theorem microRead_levelsMove {pos : ReadAt} {p : Progress ReadAt (Option Byte)} (hw : (s.ring b).wf (s.cap b) = true)
    (hpos : readPosOk (s.cap b) (s.ring b) pos = true) (hm : microRead s b pos = .ok (t, p)) :
    LevelsMove wr (some b) s t := by
  have hwr : Writes (.ring b) s t := microRead_writes rfl hm
  cases pos with
  | q1 =>
    cases hm
    exact hwr.levelsMove_read id id
  | q2 tl h =>
    simp only [microRead] at hm
    split at hm <;> cases hm <;> exact hwr.levelsMove_read id id
  | q3 tl =>
    simp only [microRead] at hm
    split at hm <;> cases hm
    exact hwr.levelsMove_read id id
  | q4 tl v =>
    cases hm
    simp only [readPosOk, Bool.and_eq_true, beq_iff_eq, Bool.not_eq_true'] at hpos
    obtain ⟨⟨rfl, hne⟩, -⟩ := hpos
    have hne' : s.isEmpty b = false := hne
    exact hwr.levelsMove_read (fun _ => isFull_releaseTail hw hne') fun he => by simp [hne'] at he

theorem writeBuf_levelsMove {v : Byte} {o : Bool} (he : s.writeBuf b v = .ok (o, t)) : LevelsMove (some b) rd s t := by
  refine (writeBuf_writes rfl he).levelsMove_write fun hempty => ?_
  obtain ⟨-, -, rfl⟩ | ⟨hfull, -, s1, hst, rfl⟩ := writeBuf_ok he
  · exact hempty
  · obtain ⟨slots, -, rfl⟩ := storeSlot_ok hst
    have hring := State.ring_setRing_same s b { s.ring b with slots := slots }
    have hfull1 : (s.setRing b { s.ring b with slots := slots }).isFull b = false := by
      rw [State.isFull, hring]
      exact hfull
    have hpub := isEmpty_publishHead (v := v) hfull1
    rwa [hring] at hpub

theorem readBuf_levelsMove {r : Option Byte} (hw : (s.ring b).wf (s.cap b) = true) (he : s.readBuf b = .ok (r, t)) :
    LevelsMove wr (some b) s t := by
  have hwr : Writes (.ring b) s t := readBuf_writes rfl he
  obtain ⟨-, -, rfl⟩ | ⟨hne, v, -, -, rfl⟩ := readBuf_ok he
  · exact hwr.levelsMove_read id id
  · exact hwr.levelsMove_read (fun _ => isFull_releaseTail hw hne) fun hempty => by simp [hne] at hempty

/-! ## Operations -/

/-- A micro-step fills only the buffer its operation writes to and drains only the one it reads from. -/
theorem microStep_levelsMove {a : Agent} {x : Activity} {x' : Option Activity} (hq : Queues s s.inProgress)
    (hx : x ∈ s.inProgress) (hm : microStep s a x = .ok (t, x')) : LevelsMove (x.uses .write) (x.uses .read) s t := by
  cases microStep_move hm with
  | idle hs _ => exact hs.levelsMove
  | @write b v pos s2 p hwr hmw hs _ =>
    rw [Activity.uses_write hwr]
    exact (microWrite_levelsMove ((hq b).writes x hx v pos hwr) hmw).trans hs.levelsMove
  | @read b pos s2 p hrd hmr hs _ =>
    rw [Activity.uses_read hrd]
    exact (microRead_levelsMove (hq b).wf ((hq b).reads x hx pos hrd) hmr).trans hs.levelsMove

theorem enqueueBytes_levelsMove {eOut : Bool} {bytes : List Byte} (h : s.enqueueBytes eOut bytes = .ok t) :
    LevelsMove (some .tx) rd s t := by
  induction bytes generalizing s with
  | nil =>
    cases h
    exact SameQueues.levelsMove ⟨rfl, rfl, rfl, rfl⟩
  | cons v rest ih =>
    obtain ⟨hn, -⟩ | ⟨v, rest, hc, ⟨-, rfl⟩ | ⟨s1, hw, hrest⟩⟩ := enqueueBytes_ok h
    · cases hn
    · exact SameQueues.levelsMove ⟨rfl, rfl, rfl, rfl⟩
    · cases hc
      have harm : SameQueues s1 s1.armTx := ⟨rfl, rfl, rfl, rfl⟩
      exact ((writeBuf_levelsMove hw).trans harm.levelsMove).trans (ih hrest)

/-- A whole operation likewise. -/
theorem meaning_levelsMove {i : Instr} (hw : ∀ b, (s.ring b).wf (s.cap b) = true) (hm : meaning i s = .ok t) :
    LevelsMove (sideUsed i .write) (sideUsed i .read) s t := by
  cases i with
  | rbWrite a b v =>
    obtain ⟨o, s1, hwb, rfl⟩ := meaning_rbWrite_ok hm
    exact (writeBuf_levelsMove hwb).trans (returnWrite_sameQueues s1 a o).levelsMove
  | rbRead a b =>
    obtain ⟨r, s1, hr, rfl⟩ := meaning_rbRead_ok hm
    exact (readBuf_levelsMove (hw b) hr).trans (returnRead_sameQueues s1 a r).levelsMove
  | slEnqb v =>
    obtain ⟨e, s1, he, rfl⟩ := meaning_slEnqb_ok hm
    obtain ⟨s2, hwb, rfl⟩ := enqueueByte_ok he
    have harm : SameQueues s2 ((if e then s2 else s2.armTx).returnErr .M e) := by
      cases e <;> exact ⟨rfl, rfl, rfl, rfl⟩
    exact (writeBuf_levelsMove hwb).trans harm.levelsMove
  | slEnqm bytes => exact enqueueBytes_levelsMove hm
  | slDeqb =>
    obtain ⟨r, s1, hr, rfl⟩ := meaning_slDeqb_ok hm
    exact (readBuf_levelsMove (hw .rx) hr).trans (returnDeq_sameQueues s1 .M r).levelsMove
  | slTxrdy =>
    obtain ⟨-, rfl⟩ | ⟨r, s1, hr, rfl⟩ := onTransmitReady_ok hm
    · exact SameQueues.levelsMove ⟨rfl, rfl, rfl, rfl⟩
    · have htr : SameQueues s1 (s1.transmit (r.getD 0#8)) := ⟨rfl, rfl, rfl, rfl⟩
      exact (readBuf_levelsMove (hw .tx) hr).trans htr.levelsMove
  | slRxrdy r =>
    obtain ⟨r', s1, hc, h⟩ := onReceiveReady_ok (s := s.presentByte r) hm
    have hpr : SameQueues s (s.presentByte r) := ⟨rfl, rfl, rfl, rfl⟩
    have h1 : LevelsMove (some .rx) none s s1 := hpr.levelsMove.trans (consumeRcreg_sameQueues hc).levelsMove
    obtain ⟨-, rfl⟩ | ⟨o, hwb⟩ := h
    · exact h1
    · exact h1.trans (writeBuf_levelsMove hwb)
  | rbIsFull | rbIsEmpty =>
    cases hm
    exact SameQueues.levelsMove ⟨rfl, rfl, rfl, rfl⟩
  | ssStart | ssIsfin | ssRelease | ssTick =>
    obtain ⟨u, hu, rfl | ⟨bytes, rest, hi, -⟩⟩ := meaning_writes hm
    · exact (hu.sameQueues rfl).levelsMove
    · cases hi

end Levels

/-! ## The tests of the operations that do not move -/

section Tests

variable {s t : State} {wr rd : Option BufId}

theorem LevelsMove.cannotOverflow {b : BufId} {pos : WriteAt} (h : LevelsMove wr rd s t) (hb : wr ≠ some b)
    (hpos : cannotOverflow (s.cap b) (s.ring b) pos = true) : cannotOverflow (t.cap b) (t.ring b) pos = true := by
  cases pos with
  | w1 =>
    simp only [Machine.cannotOverflow, Bool.not_eq_true'] at hpos ⊢
    exact h.notFull b hb hpos
  | w2 hd tl =>
    rw [State.cap, h.cfg]
    exact hpos
  | w3 | w4 => rfl

theorem LevelsMove.cannotUnderflow {b : BufId} {pos : ReadAt} (h : LevelsMove wr rd s t) (hb : rd ≠ some b)
    (hpos : cannotUnderflow (s.ring b) pos = true) : cannotUnderflow (t.ring b) pos = true := by
  cases pos with
  | q1 =>
    simp only [Machine.cannotUnderflow, Bool.not_eq_true'] at hpos ⊢
    exact h.notEmpty b hb hpos
  | q2 => exact hpos
  | q3 | q4 => rfl

/-- The tests of an operation stay true while no other operation moves the level of its side; the test "empty" of X1
also needs that `tx` is not written to. -/
theorem LevelsMove.testsHold {y : Activity} (h : LevelsMove wr rd s t) (hwr : ∀ b, y.uses .write = some b → wr ≠ some b)
    (hrd : ∀ b, y.uses .read = some b → rd ≠ some b) (htx : y.handler = some .transmitReady → wr ≠ some .tx)
    (hy : s.testsHold y = true) : t.testsHold y = true := by
  cases y with
  | slEnqm todo eOut pos =>
    cases todo with
    | nil => exact hy
    | cons v rest =>
      cases pos with
      | l2 e =>
        cases e with
        | write pos =>
          simp only [State.testsHold, Bool.and_eq_true] at hy ⊢
          exact ⟨hy.1, h.cannotOverflow (hwr .tx rfl) hy.2⟩
        | a1 => exact hy
      | l1 | l3 => exact hy
  | slTxrdy pos =>
    cases pos with
    | x2 q => exact h.cannotUnderflow (hrd .tx rfl) hy
    | x4 => exact h.empty .tx (htx rfl) hy
    | x1 | x3 => rfl
  | slRxrdy pos =>
    cases pos with
    | v3 r w => exact h.cannotOverflow (hwr .rx rfl) hy
    | v1 | v2 => rfl
  | _ => rfl

end Tests

/-! ## The tests of the operation that moves -/

section Own

variable {s s1 : State} {b : BufId}

/-- A `write` that cannot overflow does not. -/
theorem microWrite_cannotOverflow {v : Byte} {pos : WriteAt} {p : Progress WriteAt Bool}
    (hpos : cannotOverflow (s.cap b) (s.ring b) pos = true) (hm : microWrite s b v pos = .ok (s1, p)) :
    p ≠ .done true ∧ ∀ pos', p = .going pos' → cannotOverflow (s1.cap b) (s1.ring b) pos' = true := by
  cases pos with
  | w1 =>
    cases hm
    refine ⟨by simp, fun pos' hp => ?_⟩
    cases hp
    simpa [cannotOverflow, Ring.full] using hpos
  | w2 h tl =>
    have hne : incC (s.cap b) h ≠ tl := of_decide_eq_true hpos
    simp only [microWrite, if_neg hne] at hm
    cases hm
    exact ⟨by simp, fun pos' hp => by cases hp; rfl⟩
  | w3 h =>
    simp only [microWrite] at hm
    split at hm <;> cases hm
    exact ⟨by simp, fun pos' hp => by cases hp; rfl⟩
  | w4 h =>
    cases hm
    exact ⟨by simp, fun pos' hp => by cases hp⟩

/-- A `read` that cannot underflow does not. -/
theorem microRead_cannotUnderflow {pos : ReadAt} {p : Progress ReadAt (Option Byte)}
    (hpos : cannotUnderflow (s.ring b) pos = true) (hm : microRead s b pos = .ok (s1, p)) :
    p ≠ .done none ∧ ∀ pos', p = .going pos' → cannotUnderflow (s1.ring b) pos' = true := by
  cases pos with
  | q1 =>
    cases hm
    refine ⟨by simp, fun pos' hp => ?_⟩
    cases hp
    simpa [cannotUnderflow, Ring.empty] using hpos
  | q2 tl h =>
    have hne : h ≠ tl := of_decide_eq_true hpos
    simp only [microRead, if_neg hne] at hm
    cases hm
    exact ⟨by simp, fun pos' hp => by cases hp; rfl⟩
  | q3 tl =>
    simp only [microRead] at hm
    split at hm <;> cases hm
    exact ⟨by simp, fun pos' hp => by cases hp; rfl⟩
  | q4 tl v =>
    cases hm
    exact ⟨by simp, fun pos' hp => by cases hp⟩

/-- No byte of a message fails (R141 (b)). -/
theorem microEnqm_testsHold {todo todo' : List Byte} {eOut eOut' : Bool} {pos pos' : MsgAt}
    (h : s.testsHold (.slEnqm todo eOut pos) = true)
    (hm : microEnqm s todo eOut pos = .ok (s1, .going (todo', eOut', pos'))) :
    s1.testsHold (.slEnqm todo' eOut' pos') = true := by
  cases todo with
  | nil => cases h
  | cons v rest =>
    obtain ⟨rfl, rfl, ⟨-, hp⟩ | ⟨hf, hp⟩⟩ | ⟨e, q, rfl, he, hq⟩ | ⟨err, rfl, rfl, ⟨-, hp⟩ | ⟨hne, hp⟩⟩ :=
      microEnqm_ok hm
    · cases hp
      exact h
    · cases hp
      simp only [State.testsHold, Bool.not_eq_true'] at h
      have hroom : cannotOverflow (s1.cap .tx) (s1.ring .tx) .w1 = true := by
        rw [cannotOverflow, Bool.not_eq_true']
        exact hf
      simp only [State.testsHold, h, hroom, Bool.not_false, Bool.and_self]
    · obtain ⟨rfl, rfl, rfl⟩ | ⟨w, p, rfl, hw, hgo⟩ := microEnqb_ok he
      · obtain ⟨e', hg, -⟩ | ⟨err, hd, hp⟩ := hq
        · cases hg
        · cases hd
          cases hp
          simpa [State.testsHold] using h
      · simp only [State.testsHold, Bool.and_eq_true, Bool.not_eq_true'] at h
        obtain ⟨rfl, hroom⟩ := h
        obtain ⟨hover, hnext⟩ := microWrite_cannotOverflow hroom hw
        obtain ⟨w', rfl, rfl⟩ | ⟨rfl, rfl⟩ | ⟨rfl, rfl⟩ := hgo
        · obtain ⟨e', hg, hp⟩ | ⟨err, hd, -⟩ := hq
          · cases hg
            cases hp
            simp only [State.testsHold, hnext w' rfl, Bool.not_false, Bool.and_self]
          · cases hd
        · exact absurd rfl hover
        · obtain ⟨e', hg, hp⟩ | ⟨err, hd, -⟩ := hq
          · cases hg
            cases hp
            rfl
          · cases hd
    · cases hp
    · cases hp
      simp only [State.testsHold, Bool.and_eq_true, Bool.not_eq_true'] at h
      obtain ⟨rfl, rfl⟩ := h
      cases todo' with
      | nil => exact absurd rfl hne
      | cons => rfl

/-- X2 does not underflow, and at X4 `tx` is empty (R143). -/
theorem microTxrdy_testsHold {pos pos' : TxAt} (h : s.testsHold (.slTxrdy pos) = true)
    (hm : microTxrdy s pos = .ok (s1, .going pos')) : s1.testsHold (.slTxrdy pos') = true := by
  obtain ⟨rfl, rfl, ⟨he, hp⟩ | ⟨he, hp⟩⟩ | ⟨q, r, rfl, hr, ⟨q', rfl, hp⟩ | ⟨v, rfl, hp⟩⟩ | ⟨_, -, -, hp⟩ | ⟨-, -, hp⟩ :=
    microTxrdy_ok hm <;> cases hp
  · exact he
  · simp only [State.testsHold, cannotUnderflow, Bool.not_eq_true']
    exact he
  · exact (microRead_cannotUnderflow h hr).2 q' rfl
  · rfl

/-- V3 does not overflow (R144). -/
theorem microRxrdy_testsHold {pos pos' : RxAt} (h : s.testsHold (.slRxrdy pos) = true)
    (hm : microRxrdy s pos = .ok (s1, .going pos')) : s1.testsHold (.slRxrdy pos') = true := by
  obtain ⟨r, rfl, -, hp⟩ | ⟨r, rfl, rfl, ⟨-, hp⟩ | ⟨hf, hp⟩⟩ | ⟨r, w, q, rfl, hw, ⟨w', rfl, hp⟩ | ⟨_, -, hp⟩⟩ :=
    microRxrdy_ok hm <;> cases hp
  · rfl
  · simp only [State.testsHold, cannotOverflow, Bool.not_eq_true']
    exact hf
  · exact (microWrite_cannotOverflow h hw).2 w' rfl

/-- A micro-step keeps the tests of its own operation. -/
theorem microStep_testsHold {a : Agent} {x x' : Activity} (h : s.testsHold x = true)
    (hm : microStep s a x = .ok (s1, some x')) : s1.testsHold x' = true := by
  cases x with
  | slEnqm todo eOut pos =>
    simp only [microStep] at hm
    split at hm <;> cases hm
    next hmm => exact microEnqm_testsHold h hmm
  | slTxrdy pos =>
    simp only [microStep] at hm
    split at hm <;> cases hm
    next hmm => exact microTxrdy_testsHold h hmm
  | slRxrdy pos =>
    simp only [microStep] at hm
    split at hm <;> cases hm
    next hmm => exact microRxrdy_testsHold h hmm
  | _ => cases microStep_continues hm <;> rfl

end Own

/-- An operation that begins has made no test yet. -/
theorem Opens.testsHold {i : Instr} {x : Activity} (h : Opens i x) (s : State) : s.testsHold x = true := by
  cases h <;> rfl

/-- A message that is held has a byte to queue, and no error so far. -/
theorem enqueueBytes_main {s t : State} {bytes : List Byte} (h : s.enqueueBytes false bytes = .ok t) :
    t.main = s.main ∨ ∃ v rest, t.main = some (.slEnqm (v :: rest) false .l1) := by
  induction bytes generalizing s with
  | nil =>
    cases h
    exact .inl rfl
  | cons v rest ih =>
    obtain ⟨hn, -⟩ | ⟨v, rest, hc, ⟨-, rfl⟩ | ⟨s1, hw, hrest⟩⟩ := enqueueBytes_ok h
    · cases hn
    · exact .inr ⟨v, rest, by rw [hc]; rfl⟩
    · cases hc
      have hmain : s1.armTx.main = s.main := (writeBuf_writes (sc := .ring .tx) rfl hw).sameControl.main
      exact (ih hrest).imp_left fun hm => hm.trans hmain

theorem meaning_main {s t : State} {i : Instr} (h : meaning i s = .ok t) :
    t.main = s.main ∨ ∃ v rest, t.main = some (.slEnqm (v :: rest) false .l1) := by
  obtain ⟨u, hu, rfl | ⟨bytes, rest, rfl, -⟩⟩ := meaning_writes h
  · exact .inl hu.sameControl.main
  · exact enqueueBytes_main h

theorem meaning_irq {s t : State} {i : Instr} (h : meaning i s = .ok t) : t.irq = s.irq := by
  obtain ⟨u, hu, rfl | ⟨bytes, rest, -, rfl⟩⟩ := meaning_writes h
  · exact hu.sameControl.irq
  · exact hu.sameControl.irq

/-! ## While `onTransmitReady` is in progress nothing else writes to `tx` -/

theorem handler_uses_write_ne_tx {x : Activity} (h : x.handler ≠ none) : x.uses .write ≠ some .tx := by
  cases x with
  | slTxrdy | slRxrdy | ssTick => simp [Activity.uses]
  | _ => exact absurd rfl h

theorem handlerOf_sideUsed_write_ne_tx {i : Instr} (h : handlerOf i ≠ none) : sideUsed i .write ≠ some .tx := by
  cases i with
  | slTxrdy | slRxrdy | ssTick => simp [sideUsed]
  | _ => exact absurd rfl h

/-- A handler is no operation of the bare FIFO. -/
theorem isRb_of_handler {y : Activity} (h : y.handler ≠ none) : y.isRb = false := by
  cases y with
  | slTxrdy | slRxrdy | ssTick => rfl
  | _ => exact absurd rfl h

/-- A handler is an operation of the interrupt context. -/
theorem mem_irq_of_handler {s : State} {y : Activity} (hc : s.contextsOk = true) (hy : y ∈ s.inProgress)
    (hh : y.handler ≠ none) : y ∈ s.irq := by
  rcases mem_inProgress.1 hy with hy | hy
  · have hmain := (State.contextsOk_iff.1 hc).1 y hy
    cases y with
    | slTxrdy | slRxrdy | ssTick => cases hmain
    | _ => exact absurd rfl hh
  · exact hy

/-- With a handler in progress the bare FIFO is not free (R72). -/
theorem freeFifo_of_handler {s : State} {y : Activity} (hy : y ∈ s.irq) (hh : y.handler ≠ none) :
    s.freeFifo = false := by
  rw [State.freeFifo, List.all_eq_false]
  exact ⟨y, hy, by simp [isRb_of_handler hh]⟩

/-- With a handler in progress the mainline has no micro-step. -/
theorem mainMayAdvance_of_handler {s : State} {x y : Activity} (hy : y ∈ s.irq) (hh : y.handler ≠ none) :
    mainMayAdvance s x = false := by
  have hne : s.irq.isEmpty = false := by
    cases hirq : s.irq with
    | nil => simp [hirq] at hy
    | cons => rfl
  simp [mainMayAdvance, hne, freeFifo_of_handler hy hh]

/-- With a handler in progress only a handler begins. -/
theorem handlerOf_ne_none_of_mayBegin {s : State} {i : Instr} {y : Activity} (hb : mayBegin s i = true)
    (hy : y ∈ s.irq) (hh : y.handler ≠ none) : handlerOf i ≠ none := by
  cases hirq : s.irq with
  | nil => simp [hirq] at hy
  | cons z zs =>
    cases hi : issuer i with
    | M => simp [mayBegin, hi, freeFifo_of_handler hy hh, hirq] at hb
    | I => exact ((mayNest_cons hirq).1 ((mayBegin_I hi hb).resolve_left (by simp [hirq]))).2.1

/-! ## Every step -/

theorem State.testsOk_iff {s : State} : s.testsOk = true ↔ ∀ x ∈ s.inProgress, s.testsHold x = true := by
  rw [State.forall_inProgress, State.testsOk, Bool.and_eq_true]

/-- The tests of an operation read the parameters and the buffers alone. -/
theorem SameQueues.testsHold {s t : State} (h : SameQueues s t) {y : Activity} (hy : s.testsHold y = true) :
    t.testsHold y = true :=
  h.levelsMove (wr := none) (rd := none) |>.testsHold (by simp) (by simp) (by simp) hy

theorem stepCase_testsOk {s t : State} (h : StepCase s t) (hgood : Good s) (ht : s.testsOk = true) :
    t.testsOk = true := by
  obtain ⟨hw, hc, hr, hf, -⟩ := hgood
  have hq : Queues s s.inProgress := (queues_iff hw).1 hf
  have htests := State.testsOk_iff.1 ht
  rw [State.testsOk_iff]
  cases h with
  | same => exact htests
  | undelivered hclaim => exact htests
  | @begins i roles ha hclaim =>
    obtain ⟨-, hbegin⟩ | ⟨x, hx, hbegin⟩ := beginOp_cases (s.withRoles i roles) i
    · rw [hbegin]
      exact htests
    · rw [hbegin]
      have hctl := (prepare_writes (s.withRoles i roles) i).sameControl
      have hsame : SameQueues s (((s.withRoles i roles).prepare i).enter (issuer i) x) := by
        cases i <;> cases issuer _ <;> exact ⟨rfl, rfl, rfl, rfl⟩
      intro y hy
      rcases List.mem_cons.1 (mem_inProgress_enter hy) with rfl | hy
      · exact hx.testsHold _
      · rw [hctl.inProgress] at hy
        exact hsame.testsHold (htests y hy)
  | @whole i roles t ha hclaim hm =>
    have hb : mayBegin s i = true := (admitContext_ok.1 ha).2.2
    have hun : ∀ side b, sideUsed i side = some b → Unused s.inProgress side b :=
      fun side b hu => unused_admitted hc hr hclaim hb hu
    have hlev := meaning_levelsMove (s := s.withRoles i roles) (fun b => (hq b).wf) hm
    have hold : ∀ y ∈ s.inProgress, t.testsHold y = true := fun y hy =>
      hlev.testsHold (fun b hyb hib => hun .write b hib y hy hyb) (fun b hyb hib => hun .read b hib y hy hyb)
        (fun hh => handlerOf_sideUsed_write_ne_tx <|
          handlerOf_ne_none_of_mayBegin hb (mem_irq_of_handler hc hy (by simp [hh])) (by simp [hh]))
        (htests y hy)
    intro y hy
    rcases mem_inProgress.1 hy with hy | hy
    · obtain hmain | ⟨v, rest, hmain⟩ := meaning_main hm
      · rw [hmain] at hy
        exact hold y (mem_inProgress.2 (.inl hy))
      · rw [hmain] at hy
        cases hy
        rfl
    · rw [meaning_irq hm] at hy
      exact hold y (mem_inProgress.2 (.inr hy))
  | @mainline x x' s1 hx ha hm =>
    have hmem : x ∈ s.inProgress := mem_inProgress.2 (.inl hx)
    have hlev := microStep_levelsMove hq hmem hm
    intro y hy
    rcases mem_inProgress.1 hy with hy | hy
    · obtain rfl : x' = some y := hy
      have hown : s1.testsHold y = true := microStep_testsHold (htests x hmem) hm
      exact hown
    · have hirq : y ∈ s.irq := (microStep_writes hm).sameControl.irq ▸ hy
      exact hlev.testsHold (fun b hyb hxb => unused_main hc hr hx hxb y hirq hyb)
        (fun b hyb hxb => unused_main hc hr hx hxb y hirq hyb)
        (fun hh => by simp [mainMayAdvance_of_handler hirq (by simp [hh])] at ha)
        (htests y (mem_inProgress.2 (.inr hirq)))
  | @interrupt x rest x' s1 hx hm =>
    have hmem : x ∈ s.inProgress := mem_inProgress.2 (.inr (by simp [hx]))
    have hlev := microStep_levelsMove hq hmem hm
    have hold : ∀ y ∈ s.main.toList ++ rest, s1.testsHold y = true := by
      intro y hy
      have hys : y ∈ s.inProgress := by
        simp only [State.inProgress, hx, List.mem_append, List.mem_cons] at hy ⊢
        tauto
      refine hlev.testsHold (fun b hyb hxb => unused_irq hc hr hx hxb y hy hyb)
        (fun b hyb hxb => unused_irq hc hr hx hxb y hy hyb) (fun hh => ?_) (htests y hys)
      have hyrest : y ∈ rest := by
        rcases List.mem_append.1 hy with hym | hyr
        · have hof := (State.contextsOk_iff.1 hc).1 y (Option.mem_toList.1 hym)
          cases y with
          | slTxrdy => cases hof
          | _ => cases hh
        · exact hyr
      have hshape := (State.contextsOk_iff.1 hc).2.2
      rw [hx] at hshape
      exact handler_uses_write_ne_tx (irqShapeOk_distinct hshape hyrest).1
    intro y hy
    rcases mem_inProgress.1 hy with hy | hy
    · exact hold y (List.mem_append_left _ (Option.mem_toList.2 ((microStep_writes hm).sameControl.main ▸ hy)))
    · rcases List.mem_append.1 hy with hy | hy
      · obtain rfl := Option.mem_toList.1 hy
        have hown : s1.testsHold y = true := microStep_testsHold (htests x hmem) hm
        exact hown
      · exact hold y (List.mem_append_right _ hy)
  | restart => exact fun x hx => by cases hx

/-- Settles O53: a step moves the level of a buffer only by the operation on that side, whose own tests its micro-steps
keep; and the "empty" of X1 stays because the mainline waits for the handler. -/
theorem stepKeepsTheTestsTrue : Obligations.StepKeepsTheTestsTrue := by
  unfold Obligations.StepKeepsTheTestsTrue
  intro s t hgood ht h
  obtain ⟨s', ⟨_, _, _, _, rfl⟩, hst⟩ := step_next_cases h
  exact stepCase_testsOk hst hgood ht

end Sys2Proof.Machine
end

section
/-! PROOFS. The four operations of the bare FIFO as whole operations (40_ringbuffer.md R121 to R126), where they are ready
to run. -/

namespace Sys2Proof.Machine

/-- An operation that is ready and whose gate is open is its meaning in the admitted state. -/
theorem Ready.exec_eq {s : State} {i : Instr} (h : Ready s i) (hg : gateOpen i s = true) :
    exec i s = outcomeOf (meaning i (s.admitted i)) := by
  rw [exec_eq_issue_meaning, h.issue hg]

theorem Ready.ring_wf {s : State} {i : Instr} (h : Ready s i) (b : BufId) : (s.ring b).wf (s.cap b) = true :=
  (State.wf_iff.1 h.1).1.ring b

section

variable {s s1 : State} {b : BufId}

theorem meaning_rbWrite_of_writeBuf {v : Byte} {o : Bool} (a : Agent) (h : s.writeBuf b v = .ok (o, s1)) :
    meaning (.rbWrite a b v) s = .ok (s1.returnWrite a o) := by
  simp only [meaning, h]

theorem meaning_rbRead_of_readBuf {r : Option Byte} (a : Agent) (h : s.readBuf b = .ok (r, s1)) :
    meaning (.rbRead a b) s = .ok (s1.returnRead a r) := by
  simp only [meaning, h]

theorem writeBuf_of_full (v : Byte) (hf : s.isFull b = true) : s.writeBuf b v = .ok (true, s) := by
  simp [State.writeBuf, hf]

theorem readBuf_of_empty (he : s.isEmpty b = true) : s.readBuf b = .ok (none, s) := by
  simp [State.readBuf, he]

/-- `write` on a buffer with room stores the value at `head` and advances it. -/
theorem writeBuf_of_room {v : Byte} {slots : Memory} (hf : s.isFull b = false)
    (hs : Memory.write (s.ring b).slots (s.ring b).head v = some slots) :
    s.writeBuf b v = .ok (false, { s with
      rings := s.rings.set b ⟨slots, ((s.ring b).head + 1) % s.cap b, (s.ring b).tail⟩
      accepted := s.accepted.set b (s.accepted.get b ++ [v]) }) := by
  have hst : s.storeSlot b (s.ring b).head v = .ok (s.setRing b { s.ring b with slots := slots }) := by
    simp [State.storeSlot, hs]
  simp only [State.writeBuf, hf, Ring.writeIndex, hst]
  simp [State.publishHead, State.setRing, State.ring, State.cap, incC]

/-- `read` on a buffer with a byte takes the byte at `tail` and advances it. -/
theorem readBuf_of_byte {v : Byte} (he : s.isEmpty b = false)
    (hv : Memory.read (s.ring b).slots (s.ring b).tail = some v) :
    s.readBuf b = .ok (some v, { s with
      rings := s.rings.set b ⟨(s.ring b).slots, (s.ring b).head, ((s.ring b).tail + 1) % s.cap b⟩
      delivered := s.delivered.set b (s.delivered.get b ++ [v]) }) := by
  simp only [State.readBuf, he, Ring.readIndex, State.loadSlot, hv]
  rfl

/-- There is a slot at the head of a well-formed buffer. -/
theorem Ring.write_of_wf {c : Nat} {r : Ring} (hw : r.wf c = true) (v : Byte) :
    ∃ slots, Memory.write r.slots r.head v = some slots := by
  rw [← Option.isSome_iff_exists, Memory.write_isSome, Option.isSome_iff_exists]
  exact Ring.read_of_wf hw (Ring.wf_iff.1 hw).2.1

variable {a : Agent} {v : Byte}

theorem exec_rbWrite_of_room {slots : Memory} (hready : Ready s (.rbWrite a b v)) (hf : s.isFull b = false)
    (hs : Memory.write (s.ring b).slots (s.ring b).head v = some slots) :
    exec (.rbWrite a b v) s = .next
      { s.admitted (.rbWrite a b v) with
        rings := s.rings.set b ⟨slots, ((s.ring b).head + 1) % s.cap b, (s.ring b).tail⟩
        accepted := s.accepted.set b (s.accepted.get b ++ [v])
        replies := s.replies ++ [(a, .status .ok)] } := by
  rw [hready.exec_eq rfl,
    meaning_rbWrite_of_writeBuf a (writeBuf_of_room (s := s.admitted (.rbWrite a b v)) hf hs)]
  rfl

theorem exec_rbWrite_of_full (hready : Ready s (.rbWrite a b v)) (hf : s.isFull b = true) :
    exec (.rbWrite a b v) s = .next
      { s.admitted (.rbWrite a b v) with
        errSlot := s.errSlot.set a 1#2
        replies := s.replies ++ [(a, .status .overflow)] } := by
  rw [hready.exec_eq rfl, meaning_rbWrite_of_writeBuf a (writeBuf_of_full (s := s.admitted (.rbWrite a b v)) v hf)]
  rfl

theorem exec_rbRead_of_byte (hready : Ready s (.rbRead a b)) (he : s.isEmpty b = false)
    (hv : Memory.read (s.ring b).slots (s.ring b).tail = some v) :
    exec (.rbRead a b) s = .next
      { s.admitted (.rbRead a b) with
        rings := s.rings.set b ⟨(s.ring b).slots, (s.ring b).head, ((s.ring b).tail + 1) % s.cap b⟩
        delivered := s.delivered.set b (s.delivered.get b ++ [v])
        replies := s.replies ++ [(a, .statusByte .ok v)] } := by
  rw [hready.exec_eq rfl, meaning_rbRead_of_readBuf a (readBuf_of_byte (s := s.admitted (.rbRead a b)) he hv)]
  rfl

theorem exec_rbRead_of_empty (hready : Ready s (.rbRead a b)) (he : s.isEmpty b = true) :
    exec (.rbRead a b) s = .next
      { s.admitted (.rbRead a b) with
        errSlot := s.errSlot.set a 2#2
        replies := s.replies ++ [(a, .statusByte .underflow 0#8)] } := by
  rw [hready.exec_eq rfl, meaning_rbRead_of_readBuf a (readBuf_of_empty (s := s.admitted (.rbRead a b)) he)]
  rfl

end

/-- Settles O15: the meaning is `write`, whose two paths are told apart by "full", and its status. -/
theorem rbWriteStoresAtHeadOrOverflows : Obligations.RbWriteStoresAtHeadOrOverflows := by
  unfold Obligations.RbWriteStoresAtHeadOrOverflows
  intro s a b v hready
  refine ⟨fun hf => ?_, exec_rbWrite_of_full hready⟩
  obtain ⟨slots, hs⟩ := Ring.write_of_wf (hready.ring_wf b) v
  exact ⟨slots, slotStored_of_write hs, exec_rbWrite_of_room hready hf hs⟩

/-- Settles O16: the meaning is `read`, whose two paths are told apart by "empty", and its status and byte. -/
theorem rbReadTakesTheByteAtTail : Obligations.RbReadTakesTheByteAtTail := by
  unfold Obligations.RbReadTakesTheByteAtTail
  intro s a b hready
  refine ⟨fun he => ?_, exec_rbRead_of_empty hready⟩
  have hw := hready.ring_wf b
  obtain ⟨v, hv⟩ := Ring.read_of_wf hw (Ring.wf_iff.1 hw).2.2
  exact ⟨v, hv, exec_rbRead_of_byte hready he hv⟩

theorem isFull_eq_decide (s : State) (b : BufId) :
    s.isFull b = decide (((s.ring b).head + 1) % s.cap b = (s.ring b).tail) := by
  rw [Bool.eq_iff_iff, decide_eq_true_eq]
  exact Ring.full_iff

theorem isEmpty_eq_decide (s : State) (b : BufId) : s.isEmpty b = decide ((s.ring b).head = (s.ring b).tail) := by
  rw [Bool.eq_iff_iff, decide_eq_true_eq]
  exact Ring.empty_iff

/-- An admitted operation that works on no side of a buffer has changed at most the record of roles, and that only where
it is on a `SerialLink`'s buffers. -/
theorem Ready.admitted_of_no_side {s : State} {i : Instr} (h : Ready s i) (hs : ∀ side, sideUsed i side = none) :
    s.admitted i = { s with roles := if usesLink i then linkRoles else s.roles } := by
  obtain ⟨roles, hroles⟩ := Option.isSome_iff_exists.1 h.2.2.2.2
  have hw : writesTxDirectly i = false := by
    cases i with
    | rbWrite => cases hs .write
    | _ => rfl
  have hr : readsTxDirectly i = false := by
    cases i with
    | rbRead => cases hs .read
    | _ => rfl
  have hclaim : roles = if usesLink i then linkRoles else s.roles := by
    cases hu : usesLink i with
    | true => exact (claimRoles_usesLink hu hroles).2
    | false =>
      obtain ⟨rfl, -⟩ | ⟨a, v, rfl, -⟩ | ⟨a, rfl, -⟩ := claimRoles_bare hu hroles
      · rfl
      · cases hs .write
      · cases hs .read
  simp [State.admitted, hroles, State.withRoles, hw, hr, hclaim]

/-- Settles O17: F1 and E1 answer from the indices, in a state that differs by the record of roles alone. -/
theorem rbPredicatesOnlyAnswer : Obligations.RbPredicatesOnlyAnswer := by
  unfold Obligations.RbPredicatesOnlyAnswer
  intro s a b
  refine ⟨fun hready => ?_, fun hready => ?_⟩
  · rw [hready.exec_eq rfl, hready.admitted_of_no_side fun side => by cases side <;> rfl, ← isFull_eq_decide]
    cases b <;> rfl
  · rw [hready.exec_eq rfl, hready.admitted_of_no_side fun side => by cases side <;> rfl, ← isEmpty_eq_decide]
    cases b <;> rfl

end Sys2Proof.Machine
end

section
/-! PROOFS. An operation's meaning is its micro-steps run with nothing between them (R120, R200, R201). A micro-step reads
and writes neither the contexts nor the events to come, so an operation runs alike alone and as events of its agent. -/

namespace Sys2Proof.Machine

/-! ## A micro-step does not look at the contexts -/

/-- The state in other contexts and with other events to come. -/
def State.inContexts (s : State) (main : Option Activity) (irq : List Activity) (agenda : List Event) : State :=
  { s with main := main, irq := irq, agenda := agenda }

/-- What a micro-step answers, in other contexts. -/
def outInContexts {α : Type} (main : Option Activity) (irq : List Activity) (agenda : List Event)
    (r : Except Fault (State × α)) : Except Fault (State × α) :=
  r.map fun p => (p.1.inContexts main irq agenda, p.2)

section

variable (s : State) (m : Option Activity) (q : List Activity) (g : List Event)

theorem storeSlot_inContexts (b : BufId) (h : Nat) (v : Byte) :
    (s.inContexts m q g).storeSlot b h v = (s.storeSlot b h v).map fun t => t.inContexts m q g := by
  have hring : (s.inContexts m q g).ring b = s.ring b := rfl
  simp only [State.storeSlot, hring]
  cases Memory.write (s.ring b).slots h v <;> rfl

theorem writePin_inContexts (i : Fin 4) (level : Bool) :
    (s.inContexts m q g).writePin i level = (s.writePin i level).map fun t => t.inContexts m q g := by
  have hio : (s.inContexts m q g).io = s.io := rfl
  have hcfg : (s.inContexts m q g).cfg = s.cfg := rfl
  simp only [State.writePin, hio, hcfg]
  cases Memory.read s.io (s.cfg.pins.get i).loc with
  | none => rfl
  | some v =>
    dsimp only
    cases Memory.write s.io (s.cfg.pins.get i).loc (pinByte (s.cfg.pins.get i) level v) <;> rfl

theorem microWrite_inContexts (b : BufId) (v : Byte) (pos : WriteAt) :
    microWrite (s.inContexts m q g) b v pos = outInContexts m q g (microWrite s b v pos) := by
  cases pos with
  | w1 => rfl
  | w2 h t =>
    have hcap : (s.inContexts m q g).cap b = s.cap b := rfl
    simp only [microWrite, hcap]
    split <;> rfl
  | w3 h =>
    simp only [microWrite, storeSlot_inContexts]
    cases s.storeSlot b h v <;> rfl
  | w4 h => rfl

theorem microRead_inContexts (b : BufId) (pos : ReadAt) :
    microRead (s.inContexts m q g) b pos = outInContexts m q g (microRead s b pos) := by
  cases pos with
  | q1 => rfl
  | q2 t h =>
    simp only [microRead]
    split <;> rfl
  | q3 t =>
    have hload : (s.inContexts m q g).loadSlot b t = s.loadSlot b t := rfl
    simp only [microRead, hload]
    cases s.loadSlot b t <;> rfl
  | q4 t v => rfl

theorem microEnqb_inContexts (v : Byte) (pos : EnqAt) :
    microEnqb (s.inContexts m q g) v pos = outInContexts m q g (microEnqb s v pos) := by
  cases pos with
  | a1 => rfl
  | write w =>
    simp only [microEnqb, microWrite_inContexts]
    rcases microWrite s .tx v w with _ | ⟨s1, w' | _ | _⟩ <;> rfl

theorem microEnqm_inContexts (todo : List Byte) (eOut : Bool) (pos : MsgAt) :
    microEnqm (s.inContexts m q g) todo eOut pos = outInContexts m q g (microEnqm s todo eOut pos) := by
  cases todo with
  | nil => rfl
  | cons b rest =>
    cases pos with
    | l1 =>
      have hfull : (s.inContexts m q g).isFull .tx = s.isFull .tx := rfl
      simp only [microEnqm, hfull]
      split <;> rfl
    | l2 e =>
      simp only [microEnqm, microEnqb_inContexts]
      rcases microEnqb s b e with _ | ⟨s1, e' | err⟩ <;> rfl
    | l3 err => cases rest <;> cases err <;> rfl

theorem microTxrdy_inContexts (pos : TxAt) :
    microTxrdy (s.inContexts m q g) pos = outInContexts m q g (microTxrdy s pos) := by
  cases pos with
  | x1 =>
    have hempty : (s.inContexts m q g).isEmpty .tx = s.isEmpty .tx := rfl
    simp only [microTxrdy, hempty]
    split <;> rfl
  | x2 r =>
    simp only [microTxrdy, microRead_inContexts]
    rcases microRead s .tx r with _ | ⟨s1, r' | v⟩ <;> rfl
  | x3 v => rfl
  | x4 => rfl

theorem microRxrdy_inContexts (pos : RxAt) :
    microRxrdy (s.inContexts m q g) pos = outInContexts m q g (microRxrdy s pos) := by
  cases pos with
  | v1 =>
    have hrc : (s.inContexts m q g).rcReg = s.rcReg := rfl
    simp only [microRxrdy, State.consumeRcreg, hrc]
    cases s.rcReg <;> rfl
  | v2 r =>
    have hfull : (s.inContexts m q g).isFull .rx = s.isFull .rx := rfl
    simp only [microRxrdy, hfull]
    split <;> rfl
  | v3 r w =>
    simp only [microRxrdy, microWrite_inContexts]
    rcases microWrite s .rx r w with _ | ⟨s1, w' | o⟩ <;> rfl

theorem microStart_inContexts (distance : Nat) (dir : Direction) (speed : Nat) (pos : StartAt) :
    microStart (s.inContexts m q g) distance dir speed pos
      = ((microStart s distance dir speed pos).1.inContexts m q g, (microStart s distance dir speed pos).2) := by
  cases pos with
  | s5 => 
    simp only [microStart, State.startS5_eq]
    rfl
  | _ => rfl

theorem microTick_inContexts (pos : TickAt) :
    microTick (s.inContexts m q g) pos = outInContexts m q g (microTick s pos) := by
  cases pos with
  | t2 i =>
    have hrow : (s.inContexts m q g).phaseRow = s.phaseRow := rfl
    simp only [microTick, writePin_inContexts, hrow]
    cases s.writePin i (s.phaseRow.getLsbD i.val) with
    | error f => rfl
    | ok s1 =>
      dsimp only [Except.map]
      cases nextPin i <;> rfl
  | _ => rfl

theorem microStep_inContexts (a : Agent) (x : Activity) :
    microStep (s.inContexts m q g) a x = outInContexts m q g (microStep s a x) := by
  cases x with
  | rbWrite b v pos =>
    simp only [microStep, microWrite_inContexts]
    rcases microWrite s b v pos with _ | ⟨s1, w' | _ | _⟩ <;> rfl
  | rbRead b pos =>
    simp only [microStep, microRead_inContexts]
    rcases microRead s b pos with _ | ⟨s1, r' | _ | _⟩ <;> rfl
  | slEnqb v pos =>
    simp only [microStep, microEnqb_inContexts]
    rcases microEnqb s v pos with _ | ⟨s1, e' | _ | _⟩ <;> rfl
  | slEnqm todo eOut pos =>
    simp only [microStep, microEnqm_inContexts]
    rcases microEnqm s todo eOut pos with _ | ⟨s1, ⟨todo', eOut', pos'⟩ | e⟩ <;> rfl
  | slDeqb pos =>
    simp only [microStep, microRead_inContexts]
    rcases microRead s .rx pos with _ | ⟨s1, r' | _ | _⟩ <;> rfl
  | slTxrdy pos =>
    simp only [microStep, microTxrdy_inContexts]
    rcases microTxrdy s pos with _ | ⟨s1, pos' | _⟩ <;> rfl
  | slRxrdy pos =>
    simp only [microStep, microRxrdy_inContexts]
    rcases microRxrdy s pos with _ | ⟨s1, pos' | _⟩ <;> rfl
  | ssStart distance dir speed pos =>
    simp only [microStep, microStart_inContexts]
    rcases microStart s distance dir speed pos with ⟨s1, pos' | _⟩ <;> rfl
  | ssRelease i =>
    simp only [microStep, writePin_inContexts]
    cases s.writePin i false with
    | error f => rfl
    | ok s1 =>
      dsimp only [Except.map]
      cases nextPin i <;> rfl
  | ssTick pos =>
    simp only [microStep, microTick_inContexts]
    rcases microTick s pos with _ | ⟨s1, pos' | _⟩ <;> rfl
  | rbIsFull | rbIsEmpty | ssIsfin => rfl

end

/-! ## Micro-steps of one operation, one after the other -/

/-- From one state and position of an operation of agent `a` to another by micro-steps of that operation alone. -/
abbrev MicroRun (a : Agent) : State × Option Activity → State × Option Activity → Prop :=
  Relation.ReflTransGen fun p p' => ∃ x, p.2 = some x ∧ microStep p.1 a x = .ok p'

section Runs

variable {a : Agent} {s t : State} {x : Activity} {p p' : State × Option Activity}

theorem MicroRun.head (hm : microStep s a x = .ok p) (h : MicroRun a p p') : MicroRun a (s, some x) p' :=
  Relation.ReflTransGen.head ⟨x, rfl, hm⟩ h

theorem MicroRun.single (hm : microStep s a x = .ok p) : MicroRun a (s, some x) p := .head hm .refl

theorem MicroRun.tail (h : MicroRun a p (s, some x)) (hm : microStep s a x = .ok p') : MicroRun a p p' :=
  Relation.ReflTransGen.tail h ⟨x, rfl, hm⟩

theorem SameControl.trans {s t u : State} (h1 : SameControl s t) (h2 : SameControl t u) : SameControl s u :=
  ⟨h2.cfg.trans h1.cfg, h2.epoch.trans h1.epoch, h2.initDone.trans h1.initDone, h2.main.trans h1.main,
    h2.irq.trans h1.irq, h2.ports.trans h1.ports, h2.roles.trans h1.roles, h2.directWriteTx.trans h1.directWriteTx,
    h2.directReadTx.trans h1.directReadTx, h2.agenda.trans h1.agenda, h2.stream.trans h1.stream⟩

theorem MicroRun.sameControl (h : MicroRun a p p') : SameControl p.1 p'.1 := by
  induction h with
  | refl => exact SameControl.refl _
  | tail _ hstep ih =>
    obtain ⟨x, -, hm⟩ := hstep
    exact ih.trans (microStep_writes hm).sameControl

/-- A `write` inside an operation: the operation at position `wrap pos` does the `write`'s micro-steps, and the last one
leaves `p`. -/
theorem microRun_of_writeBuf {b : BufId} {v : Byte} {o : Bool} {wrap : WriteAt → Activity}
    (hgo : ∀ u u' pos pos', microWrite u b v pos = .ok (u', .going pos') →
      microStep u a (wrap pos) = .ok (u', some (wrap pos')))
    (hdone : ∀ u pos, microWrite u b v pos = .ok (t, .done o) → microStep u a (wrap pos) = .ok p)
    (h : s.writeBuf b v = .ok (o, t)) : MicroRun a (s, some (wrap .w1)) p := by
  refine .head (hgo s s .w1 _ rfl) ?_
  obtain ⟨hfull, rfl, rfl⟩ | ⟨hfull, rfl, s1, hst, rfl⟩ := writeBuf_ok h
  · have hfull' : incC (t.cap b) (t.ring b).head = (t.ring b).tail := Ring.full_iff.1 hfull
    exact .single (hdone t _ (by simp only [microWrite, if_pos hfull']))
  · have hroom : ¬ incC (s.cap b) (s.ring b).head = (s.ring b).tail := fun he => by
      rw [State.isFull, Ring.full_iff.2 he] at hfull
      cases hfull
    refine .head (hgo s s _ (.w3 (s.ring b).head) (by simp only [microWrite, if_neg hroom])) ?_
    refine .head (hgo s s1 _ (.w4 (s.ring b).head) (by simp only [microWrite, hst])) ?_
    exact .single (hdone s1 _ rfl)

/-- A `read` inside an operation. -/
theorem microRun_of_readBuf {b : BufId} {r : Option Byte} {wrap : ReadAt → Activity}
    (hgo : ∀ u u' pos pos', microRead u b pos = .ok (u', .going pos') →
      microStep u a (wrap pos) = .ok (u', some (wrap pos')))
    (hdone : ∀ u pos, microRead u b pos = .ok (t, .done r) → microStep u a (wrap pos) = .ok p)
    (h : s.readBuf b = .ok (r, t)) : MicroRun a (s, some (wrap .q1)) p := by
  refine .head (hgo s s .q1 _ rfl) ?_
  obtain ⟨hempty, rfl, rfl⟩ | ⟨hempty, v, rfl, hread, rfl⟩ := readBuf_ok h
  · have hempty' : (t.ring b).head = (t.ring b).tail := Ring.empty_iff.1 hempty
    exact .single (hdone t _ (by simp only [microRead, if_pos hempty']))
  · have hbyte : ¬ (s.ring b).head = (s.ring b).tail := fun he => by
      rw [State.isEmpty, Ring.empty_iff.2 he] at hempty
      cases hempty
    refine .head (hgo s s _ (.q3 (s.ring b).tail) (by simp only [microRead, if_neg hbyte])) ?_
    refine .head (hgo s s _ (.q4 (s.ring b).tail v) (by simp only [microRead, State.loadSlot, hread])) ?_
    exact .single (hdone s _ rfl)

/-! ## The meaning of each operation -/

theorem microRun_rbWrite {b : BufId} {v : Byte} (h : meaning (.rbWrite a b v) s = .ok t) :
    MicroRun a (s, some (.rbWrite b v .w1)) (t, none) := by
  obtain ⟨o, s1, hw, rfl⟩ := meaning_rbWrite_ok h
  exact microRun_of_writeBuf (wrap := .rbWrite b v) (fun u u' pos pos' hm => by simp only [microStep, hm])
    (fun u pos hm => by simp only [microStep, hm]) hw

theorem microRun_rbRead {b : BufId} (h : meaning (.rbRead a b) s = .ok t) :
    MicroRun a (s, some (.rbRead b .q1)) (t, none) := by
  obtain ⟨r, s1, hr, rfl⟩ := meaning_rbRead_ok h
  exact microRun_of_readBuf (wrap := .rbRead b) (fun u u' pos pos' hm => by simp only [microStep, hm])
    (fun u pos hm => by simp only [microStep, hm]) hr

theorem microRun_slEnqb {v : Byte} (h : meaning (.slEnqb v) s = .ok t) :
    MicroRun .M (s, some (.slEnqb v (.write .w1))) (t, none) := by
  obtain ⟨e, s1, he, rfl⟩ := meaning_slEnqb_ok h
  obtain ⟨s2, hw, rfl⟩ := enqueueByte_ok he
  have hgo : ∀ u u' pos pos', microWrite u .tx v pos = .ok (u', .going pos') →
      microStep u .M (.slEnqb v (.write pos)) = .ok (u', some (.slEnqb v (.write pos'))) :=
    fun u u' pos pos' hm => by simp only [microStep, microEnqb, hm]
  cases e with
  | true =>
    exact microRun_of_writeBuf (wrap := fun pos => .slEnqb v (.write pos)) hgo
      (fun u pos hm => by simp only [microStep, microEnqb, hm, if_true]) hw
  | false =>
    have hrun : MicroRun .M (s, some (.slEnqb v (.write .w1))) (s2, some (.slEnqb v .a1)) :=
      microRun_of_writeBuf (wrap := fun pos => .slEnqb v (.write pos)) hgo
        (fun u pos hm => by simp only [microStep, microEnqb, hm]) hw
    exact hrun.tail rfl

theorem microRun_slDeqb (h : meaning .slDeqb s = .ok t) : MicroRun .M (s, some (.slDeqb .q1)) (t, none) := by
  obtain ⟨r, s1, hr, rfl⟩ := meaning_slDeqb_ok h
  exact microRun_of_readBuf (wrap := .slDeqb) (fun u u' pos pos' hm => by simp only [microStep, hm])
    (fun u pos hm => by simp only [microStep, hm]) hr

theorem microRun_slTxrdy (h : s.onTransmitReady = .ok t) : MicroRun .I (s, some (.slTxrdy .x1)) (t, none) := by
  cases he : s.isEmpty .tx with
  | true =>
    simp only [State.onTransmitReady, he] at h
    cases h
    exact .head (p := (s, some (.slTxrdy .x4))) (by simp only [microStep, microTxrdy, he, if_true]) (.single rfl)
  | false =>
    obtain ⟨hempty, -⟩ | ⟨r, s1, hr, rfl⟩ := onTransmitReady_ok h
    · cases he.symm.trans hempty
    · have hrun : MicroRun .I (s, some (.slTxrdy (.x2 .q1))) (s1, some (.slTxrdy (.x3 (r.getD 0#8)))) :=
        microRun_of_readBuf (wrap := fun pos => .slTxrdy (.x2 pos))
          (fun u u' pos pos' hm => by simp only [microStep, microTxrdy, hm])
          (fun u pos hm => by simp only [microStep, microTxrdy, hm]) hr
      exact .head (by simp only [microStep, microTxrdy, he]; rfl) (hrun.tail rfl)

theorem microRun_slRxrdy (h : s.onReceiveReady = .ok t) : MicroRun .I (s, some (.slRxrdy .v1)) (t, none) := by
  obtain ⟨r, s1, hc, hrest⟩ := onReceiveReady_ok h
  refine .head (p := (s1, some (.slRxrdy (.v2 r)))) (by simp only [microStep, microRxrdy, hc]) ?_
  cases hf : s1.isFull .rx with
  | true =>
    obtain ⟨-, rfl⟩ | ⟨o, hw⟩ := hrest
    · exact .single (by simp only [microStep, microRxrdy, hf, if_true])
    · rw [writeBuf_of_full r hf] at hw
      cases hw
      exact .single (by simp only [microStep, microRxrdy, hf, if_true])
  | false =>
    obtain ⟨hfull, -⟩ | ⟨o, hw⟩ := hrest
    · cases hf.symm.trans hfull
    · refine .head (p := (s1, some (.slRxrdy (.v3 r .w1)))) (by simp only [microStep, microRxrdy, hf]; rfl) ?_
      exact microRun_of_writeBuf (wrap := fun pos => .slRxrdy (.v3 r pos))
        (fun u u' pos pos' hm => by simp only [microStep, microRxrdy, hm])
        (fun u pos hm => by simp only [microStep, microRxrdy, hm]) hw

/-- One byte of a message, from its poll to its result, where `tx` is not full. -/
theorem microRun_messageByte {v : Byte} {rest : List Byte} (hf : s.isFull .tx = false)
    (hw : s.writeBuf .tx v = .ok (false, t)) :
    MicroRun .M (s, some (.slEnqm (v :: rest) false .l1)) (t.armTx, some (.slEnqm (v :: rest) false (.l3 false))) := by
  have hrun : MicroRun .M (s, some (.slEnqm (v :: rest) false (.l2 (.write .w1))))
      (t, some (.slEnqm (v :: rest) false (.l2 .a1))) :=
    microRun_of_writeBuf (wrap := fun pos => .slEnqm (v :: rest) false (.l2 (.write pos)))
      (fun u u' pos pos' hm => by simp only [microStep, microEnqm, microEnqb, hm])
      (fun u pos hm => by simp only [microStep, microEnqm, microEnqb, hm]) hw
  exact .head (by simp only [microStep, microEnqm, hf]; rfl) (hrun.tail rfl)

/-- The loop of `enqueueMessage` runs to its end, or to the poll at which the message is held. -/
theorem microRun_slEnqm {v : Byte} {rest : List Byte} (h : s.enqueueBytes false (v :: rest) = .ok t) :
    MicroRun .M (s, some (.slEnqm (v :: rest) false .l1)) (t, none)
      ∨ ∃ u held, MicroRun .M (s, some (.slEnqm (v :: rest) false .l1)) (u, some held) ∧ t = u.enterMain held := by
  induction rest generalizing s v with
  | nil =>
    obtain ⟨hn, -⟩ | ⟨_, _, hc, ⟨-, rfl⟩ | ⟨s1, hw, hrest⟩⟩ := enqueueBytes_ok h
    · cases hn
    · exact .inr ⟨s, _, .refl, rfl⟩
    · cases hc
      cases hrest
      obtain ⟨-, hov, -⟩ | ⟨hf, -⟩ := writeBuf_ok hw
      · cases hov
      · exact .inl ((microRun_messageByte hf hw).tail rfl)
  | cons v' rest ih =>
    obtain ⟨hn, -⟩ | ⟨_, _, hc, ⟨-, rfl⟩ | ⟨s1, hw, hrest⟩⟩ := enqueueBytes_ok h
    · cases hn
    · exact .inr ⟨s, _, .refl, rfl⟩
    · cases hc
      obtain ⟨-, hov, -⟩ | ⟨hf, -⟩ := writeBuf_ok hw
      · cases hov
      · have hbyte : MicroRun .M (s, some (.slEnqm (v :: v' :: rest) false .l1))
            (s1.armTx, some (.slEnqm (v' :: rest) false .l1)) :=
          (microRun_messageByte hf hw).tail rfl
        exact (ih hrest).imp hbyte.trans fun ⟨u, held, hu, ht⟩ => ⟨u, held, hbyte.trans hu, ht⟩

theorem microRun_ssStart (s : State) (distance : Nat) (dir : Direction) (speed : Nat) :
    MicroRun .M (s, some (.ssStart distance dir speed .s1)) (s.startMotion distance dir speed, none) :=
  .head rfl (.head rfl (.head rfl (.head rfl (.head rfl (.single rfl)))))

theorem writePins_cons_ok {row : BitVec 4} {i : Fin 4} {is : List (Fin 4)} (h : s.writePins row (i :: is) = .ok t) :
    ∃ s1, s.writePin i (row.getLsbD i.val) = .ok s1 ∧ s1.writePins row is = .ok t := by
  simp only [State.writePins] at h
  split at h
  · cases h
  next s1 h1 => exact ⟨s1, h1, h⟩

/-- The four pins are written one after the other (D15). -/
theorem writePins_pinOrder_ok {row : BitVec 4} (h : s.writePins row pinOrder = .ok t) :
    ∃ s0 s1 s2, s.writePin 0 (row.getLsbD (0 : Fin 4).val) = .ok s0
      ∧ s0.writePin 1 (row.getLsbD (1 : Fin 4).val) = .ok s1 ∧ s1.writePin 2 (row.getLsbD (2 : Fin 4).val) = .ok s2
      ∧ s2.writePin 3 (row.getLsbD (3 : Fin 4).val) = .ok t := by
  obtain ⟨s0, h0, h⟩ := writePins_cons_ok h
  obtain ⟨s1, h1, h⟩ := writePins_cons_ok h
  obtain ⟨s2, h2, h⟩ := writePins_cons_ok h
  obtain ⟨s3, h3, h⟩ := writePins_cons_ok h
  cases h
  exact ⟨s0, s1, s2, h0, h1, h2, h3⟩

theorem microRun_ssRelease (h : s.writePins 0#4 pinOrder = .ok t) : MicroRun .M (s, some (.ssRelease 0)) (t, none) := by
  obtain ⟨s0, s1, s2, h0, h1, h2, h3⟩ := writePins_pinOrder_ok h
  simp only [BitVec.getLsbD_zero] at h0 h1 h2 h3
  refine .head (p := (s0, some (.ssRelease 1))) (by simp only [microStep, h0]; rfl) ?_
  refine .head (p := (s1, some (.ssRelease 2))) (by simp only [microStep, h1]; rfl) ?_
  refine .head (p := (s2, some (.ssRelease 3))) (by simp only [microStep, h2]; rfl) ?_
  exact .single (by simp only [microStep, h3]; rfl)

/-- T2 leaves the phase, so the row to be asserted, alone. -/
theorem writePin_phaseRow {i : Fin 4} {level : Bool} (h : s.writePin i level = .ok t) : t.phaseRow = s.phaseRow := by
  obtain ⟨v, io, -, -, rfl⟩ := writePin_ok h
  rfl

theorem microRun_ssTick (h : s.onTick = .ok t) : MicroRun .I (s, some (.ssTick .t1)) (t, none) := by
  obtain ⟨s4, hp, rfl⟩ := onTick_ok h
  obtain ⟨s0, s1, s2, h0, h1, h2, h3⟩ := writePins_pinOrder_ok hp
  have hrow0 := writePin_phaseRow h0
  have hrow1 := (writePin_phaseRow h1).trans hrow0
  have hrow2 := (writePin_phaseRow h2).trans hrow1
  rw [← hrow0] at h1
  rw [← hrow1] at h2
  rw [← hrow2] at h3
  refine .head (p := (s.tickT1, some (.ssTick (.t2 0)))) rfl ?_
  refine .head (p := (s0, some (.ssTick (.t2 1)))) (by simp only [microStep, microTick, h0]; rfl) ?_
  refine .head (p := (s1, some (.ssTick (.t2 2)))) (by simp only [microStep, microTick, h1]; rfl) ?_
  refine .head (p := (s2, some (.ssTick (.t2 3)))) (by simp only [microStep, microTick, h2]; rfl) ?_
  refine .head (p := (s4, some (.ssTick .t3))) (by simp only [microStep, microTick, h3]; rfl) ?_
  exact .head rfl (.single rfl)

/-- From its first micro-step every operation reaches the state that its meaning answers; a held message is still in
progress there. -/
theorem microRun_of_meaning {i : Instr} (hx : Opens i x) (h : meaning i s = .ok t) :
    MicroRun (issuer i) (s.prepare i, some x) (t, none)
      ∨ ∃ u held, issuer i = .M ∧ MicroRun (issuer i) (s.prepare i, some x) (u, some held) ∧ t = u.enterMain held := by
  cases hx with
  | slEnqm v rest =>
    exact (microRun_slEnqm h).imp_right fun ⟨u, held, hu, ht⟩ => ⟨u, held, rfl, hu, ht⟩
  | rbWrite a b v => exact .inl (microRun_rbWrite h)
  | rbRead a b => exact .inl (microRun_rbRead h)
  | slEnqb v => exact .inl (microRun_slEnqb h)
  | slDeqb => exact .inl (microRun_slDeqb h)
  | slTxrdy => exact .inl (microRun_slTxrdy h)
  | slRxrdy r => exact .inl (microRun_slRxrdy h)
  | ssStart distance dir speed =>
    cases h
    exact .inl (microRun_ssStart s distance dir speed)
  | ssRelease => exact .inl (microRun_ssRelease h)
  | ssTick => exact .inl (microRun_ssTick h)
  | rbIsFull | rbIsEmpty | ssIsfin =>
    cases h
    exact .inl (.single rfl)

end Runs

/-! ## Micro-steps as events of the agent -/

/-- Agent `a` is in the operation `x` on top of what `s` is in, with the events `agenda` to come. -/
def State.placed (s : State) (a : Agent) (x : Option Activity) (agenda : List Event) : State :=
  match a with
  | .M => s.inContexts x s.irq agenda
  | .I => s.inContexts s.main (x.toList ++ s.irq) agenda

/-- The event "advance" performs one micro-step. -/
theorem step_placed {s s1 : State} {a : Agent} {x : Activity} {x' : Option Activity} (agenda : List Event)
    (hw : s.cfg.wf = true) (hadv : a = .M → mainMayAdvance s x = true) (hm : microStep s a x = .ok (s1, x')) :
    step (s.placed a (some x) (.advance a :: agenda)) = .next (s1.placed a x' agenda) := by
  have hctl := (microStep_writes hm).sameControl
  cases a with
  | M =>
    have hadv' : mainMayAdvance (s.inContexts (some x) s.irq agenda) x = true := hadv rfl
    have hmain : advanceMain (s.inContexts (some x) s.irq agenda) = .next (s1.inContexts x' s1.irq agenda) := by
      unfold advanceMain
      simp only [show (s.inContexts (some x) s.irq agenda).main = some x from rfl, hadv', if_true,
        microStep_inContexts, hm, hctl.irq]
      cases x' <;> rfl
    rw [step_event (s := s.placed .M (some x) (.advance .M :: agenda)) hw rfl]
    exact hmain
  | I =>
    have hirq : advanceIrq (s.inContexts s.main (x :: s.irq) agenda)
        = .next (s1.inContexts s1.main (x'.toList ++ s1.irq) agenda) := by
      unfold advanceIrq
      simp only [show (s.inContexts s.main (x :: s.irq) agenda).irq = x :: s.irq from rfl,
        microStep_inContexts, hm, hctl.irq, hctl.main]
      cases x' <;> rfl
    rw [step_event (s := s.placed .I (some x) (.advance .I :: agenda)) hw rfl]
    exact hirq

/-- One step and then `k` more. -/
theorem run_succ {s s1 : State} {k : Nat} (h : step s = .next s1) :
    Host.Core.run Sys2Proof.core (k + 1) s = Host.Core.run Sys2Proof.core k s1 := by
  have hcore : Sys2Proof.core.step s = .next s1 := h
  simp only [Host.Core.run, hcore]

/-- The first step of a run that ends in a next state. -/
theorem run_succ_next {s t : State} {k : Nat} (h : Host.Core.run Sys2Proof.core (k + 1) s = .next t) :
    ∃ s1, step s = .next s1 ∧ Host.Core.run Sys2Proof.core k s1 = .next t := by
  cases hst : step s with
  | next s1 => exact ⟨s1, rfl, (run_succ hst).symm.trans h⟩
  | fault f =>
    have hcore : Sys2Proof.core.step s = .fault f := hst
    simp only [Host.Core.run, hcore] at h
    cases h
  | refused r =>
    have hcore : Sys2Proof.core.step s = .refused r := hst
    simp only [Host.Core.run, hcore] at h
    cases h

/-- The mainline may advance also at the operation's next position. -/
theorem mainMayAdvance_continues {s s1 : State} {x x' : Activity} (hctl : SameControl s s1) (hx : Continues x x')
    (h : mainMayAdvance s x = true) : mainMayAdvance s1 x' = true := by
  simpa only [mainMayAdvance, State.freeFifo, Activity.isRb, hctl.irq, hx.component] using h

/-- Micro-steps of an operation alone are as many events "advance" of its agent. -/
theorem run_of_microRun {a : Agent} {p p' : State × Option Activity} (h : MicroRun a p p') (hw : p.1.cfg.wf = true)
    (hadv : a = .M → ∀ x ∈ p.2, mainMayAdvance p.1 x = true) :
    ∃ k, Host.Core.run Sys2Proof.core k (p.1.placed a p.2 (List.replicate k (.advance a)))
      = .next (p'.1.placed a p'.2 []) := by
  induction h using Relation.ReflTransGen.head_induction_on with
  | refl => exact ⟨0, rfl⟩
  | @head p p1 hstep _ ih =>
    obtain ⟨s, x?⟩ := p
    obtain ⟨s1, x1⟩ := p1
    obtain ⟨x, rfl, hm⟩ := hstep
    have hctl : SameControl s s1 := (microStep_writes hm).sameControl
    obtain ⟨k, hk⟩ := ih (by rw [hctl.cfg]; exact hw) fun ha y hy => by
      cases hy
      exact mainMayAdvance_continues hctl (microStep_continues hm) (hadv ha x rfl)
    exact ⟨k + 1, (run_succ (step_placed _ hw (fun ha => hadv ha x rfl) hm)).trans hk⟩

/-! ## A whole operation -/

/-- An operation is entered on top of what its agent is in. -/
theorem beginOp_eq_placed {i : Instr} {x : Activity} (hx : Opens i x) (s : State) (agenda : List Event) :
    beginOp { s with agenda := agenda } i = (s.prepare i).placed (issuer i) (some x) agenda := by
  cases hx with
  | rbWrite a | rbRead a | rbIsFull a | rbIsEmpty a => cases a <;> rfl
  | _ => rfl

/-- The mainline may go on with an operation that it may begin. -/
theorem mainMayAdvance_of_mayBegin {s : State} {i : Instr} {x : Activity} (hi : issuer i = .M) (hx : Opens i x)
    (hb : mayBegin s i = true) : mainMayAdvance s x = true := by
  simp only [mayBegin, hi, Bool.and_eq_true] at hb
  simpa only [mainMayAdvance, Activity.isRb, hx.component] using hb.2

/-- An operation that `exec` completes is admitted as an event too, whatever is to come after it. -/
theorem step_start_of_exec {i : Instr} {s t : State} (h : exec i s = .next t) :
    s.cfg.wf = true ∧ mayBegin s i = true ∧ ∃ roles,
      (gateOpen i s = false ∧ t = s.withRoles i roles
        ∧ ∀ agenda, step { s with agenda := .start i :: agenda }
          = .next { s.withRoles i roles with agenda := agenda })
      ∨ (gateOpen i s = true ∧ meaning i (s.withRoles i roles) = .ok t
        ∧ ∀ agenda, step { s with agenda := .start i :: agenda }
          = .next (beginOp { s.withRoles i roles with agenda := agenda } i)) := by
  rw [exec_eq_issue_meaning] at h
  obtain ⟨hc, s1, hadm, hcase⟩ := issue_next h
  obtain ⟨hinit, roles, hclaim, rfl⟩ := admitRun_ok hadm
  obtain ⟨hw, -, hb⟩ := admitContext_ok.1 hc
  have hstep : ∀ agenda, step { s with agenda := .start i :: agenda }
      = issue { s with agenda := agenda } i (fun s1 => .ok (beginOp s1 i)) := fun agenda =>
    step_start_of_mayBegin (s := { s with agenda := .start i :: agenda }) hw hb rfl
  have hadm' : ∀ agenda, admitRun { s with agenda := agenda } i = .ok { s.withRoles i roles with agenda := agenda } := by
    intro agenda
    have hgate : gateOpen i { s with agenda := agenda } = gateOpen i s := by cases i <;> rfl
    have hdone : (gateOpen i s && !s.initDone) = false := by
      cases hg : gateOpen i s
      · rfl
      · simp [hinit hg]
    simp only [admitRun, hgate, hclaim, hdone]
    rfl
  refine ⟨hw, hb, roles, ?_⟩
  obtain ⟨hg, rfl⟩ | ⟨hg, hm⟩ := hcase
  · refine .inl ⟨hg, rfl, fun agenda => (hstep agenda).trans ?_⟩
    exact issue_closed (s := { s with agenda := agenda }) hc (by cases i <;> exact hg) (hadm' agenda)
  · refine .inr ⟨hg, hm, fun agenda => (hstep agenda).trans ?_⟩
    rw [issue_admitted (s := { s with agenda := agenda }) hc (by cases i <;> exact hg) (hadm' agenda)]
    rfl

/-- An operation that has ended leaves its agent in what it was in before. -/
theorem placed_none {s : State} {a : Agent} (ha : s.agenda = []) (hmain : a = .M → s.main = none) :
    s.placed a none [] = s := by
  cases a with
  | M =>
    rw [← ha, ← hmain rfl]
    rfl
  | I =>
    rw [← ha]
    rfl

/-- Settles O60: the operation is entered in the state that its meaning starts from, and its micro-steps alone reach the
state that its meaning answers. -/
theorem meaningIsItsMicroSteps : Obligations.MeaningIsItsMicroSteps := by
  unfold Obligations.MeaningIsItsMicroSteps
  intro i s t hagenda h
  obtain ⟨hw, hb, roles, ⟨-, rfl, hstep⟩ | ⟨-, hm, hstep⟩⟩ := step_start_of_exec h
  · refine ⟨0, (run_succ (hstep [])).trans ?_⟩
    rw [← hagenda]
    rfl
  obtain ⟨rfl, hbegin⟩ | ⟨x, hx, -⟩ := beginOp_cases (s.withRoles i roles) i
  · refine ⟨0, (run_succ (hstep [])).trans ?_⟩
    cases hm
    rw [← hagenda]
    rfl
  have hprep : SameControl (s.withRoles i roles) ((s.withRoles i roles).prepare i) := (prepare_writes _ i).sameControl
  have hcfg : ((s.withRoles i roles).prepare i).cfg.wf = true := by
    rw [hprep.cfg]
    exact hw
  have hadv : issuer i = .M → ∀ y ∈ some x, mainMayAdvance ((s.withRoles i roles).prepare i) y = true := by
    rintro hi y ⟨⟩
    have hirq : ((s.withRoles i roles).prepare i).irq = s.irq := hprep.irq
    simpa only [mainMayAdvance, State.freeFifo, hirq] using mainMayAdvance_of_mayBegin hi hx hb
  obtain hrun | ⟨u, held, hi, hrun, rfl⟩ := microRun_of_meaning hx hm
  all_goals
    have hctl := hprep.trans hrun.sameControl
    obtain ⟨k, hk⟩ := run_of_microRun hrun hcfg hadv
    refine ⟨k, (run_succ (hstep _)).trans ?_⟩
    rw [beginOp_eq_placed hx, hk]
  · exact congrArg _ (placed_none (hctl.agenda.trans hagenda) fun hi =>
      hctl.main.trans (main_eq_none_of_mayBegin hi hb))
  · have hu : u.agenda = [] := hctl.agenda.trans hagenda
    rw [hi, ← hu]
    rfl

end Sys2Proof.Machine
end

section
/-! PROOFS. Runs from reset: first in first out on both buffers (R127), and the transmit order (R146). Without a direct
`RB.READ` of `tx` only `onTransmitReady` takes bytes out of `tx`, and it puts each of them on the line. -/

namespace Sys2Proof.Machine

/-! ## What an operation that does not read from `tx` leaves alone -/

/-- No byte is taken out of `tx` and none is put on the line. -/
structure SameOutput (s t : State) : Prop where
  delivered : t.delivered.tx = s.delivered.tx
  txOut : t.txOut = s.txOut

theorem SameOutput.refl (s : State) : SameOutput s s := ⟨rfl, rfl⟩

theorem SameOutput.trans {s t u : State} (h1 : SameOutput s t) (h2 : SameOutput t u) : SameOutput s u :=
  ⟨h2.delivered.trans h1.delivered, h2.txOut.trans h1.txOut⟩

theorem SameQueues.sameOutput {s t : State} (h : SameQueues s t) (hout : t.txOut = s.txOut) : SameOutput s t :=
  ⟨congrArg ByBuf.tx h.delivered, hout⟩

section Output

variable {s t : State}

/-- Updates outside `tx` and its channel. -/
theorem Writes.sameOutput {sc : Scope} (h : Writes sc s t) (hb : sc.buf ≠ some .tx) : SameOutput s t := by
  have hout := (h.sameTransmitter fun hsc => hb (by rw [hsc]; rfl)).2.2
  cases hbuf : sc.buf with
  | none => exact (h.sameQueues hbuf).sameOutput hout
  | some b =>
    have hne : BufId.tx ≠ b := fun heq => hb (heq ▸ hbuf)
    exact ⟨(h.otherBuffer hbuf hne).2.2, hout⟩

theorem microWrite_sameOutput {b : BufId} {v : Byte} {pos : WriteAt} {p : Progress WriteAt Bool}
    (h : microWrite s b v pos = .ok (t, p)) : SameOutput s t := by
  refine ⟨?_, ((microWrite_writes (sc := .ring b) rfl h).sameTransmitter (by simp)).2.2⟩
  cases pos with
  | w1 =>
    cases h
    rfl
  | w2 hd tl =>
    simp only [microWrite] at h
    split at h <;> cases h <;> rfl
  | w3 hd =>
    simp only [microWrite] at h
    split at h <;> cases h
    next hst =>
      obtain ⟨slots, -, rfl⟩ := storeSlot_ok hst
      rfl
  | w4 hd =>
    cases h
    rfl

theorem writeBuf_sameOutput {b : BufId} {v : Byte} {o : Bool} (h : s.writeBuf b v = .ok (o, t)) : SameOutput s t := by
  obtain ⟨-, -, rfl⟩ | ⟨-, -, s1, hst, rfl⟩ := writeBuf_ok h
  · exact .refl _
  · obtain ⟨slots, -, rfl⟩ := storeSlot_ok hst
    exact ⟨rfl, rfl⟩

theorem recordErr_sameOutput (s : State) (a : Agent) (e : Bool) : SameOutput s (s.recordErr a e) := by
  cases e <;> exact ⟨rfl, rfl⟩

theorem returnErr_sameOutput (s : State) (a : Agent) (e : Bool) : SameOutput s (s.returnErr a e) := by
  cases e <;> exact ⟨rfl, rfl⟩

theorem returnWrite_sameOutput (s : State) (a : Agent) (o : Bool) : SameOutput s (s.returnWrite a o) := by
  cases o <;> exact ⟨rfl, rfl⟩

theorem microEnqb_sameOutput {v : Byte} {pos : EnqAt} {p : Progress EnqAt Bool} (h : microEnqb s v pos = .ok (t, p)) :
    SameOutput s t := by
  obtain ⟨-, rfl, -⟩ | ⟨w, q, -, hw, -⟩ := microEnqb_ok h
  · exact ⟨rfl, rfl⟩
  · exact microWrite_sameOutput hw

theorem microEnqm_sameOutput {todo : List Byte} {eOut : Bool} {pos : MsgAt}
    {p : Progress (List Byte × Bool × MsgAt) Bool} (h : microEnqm s todo eOut pos = .ok (t, p)) : SameOutput s t := by
  cases todo with
  | nil =>
    cases h
    exact .refl _
  | cons b rest =>
    obtain ⟨-, rfl, -⟩ | ⟨e, q, -, he, -⟩ | ⟨err, -, rfl, -⟩ := microEnqm_ok h
    · exact .refl _
    · exact microEnqb_sameOutput he
    · exact recordErr_sameOutput s .M err

/-- Among the operations that update `tx`, only those that read from it take a byte out or put one on the line. -/
theorem microStep_sameOutput {a : Agent} {x : Activity} {x' : Option Activity} (hx : x.uses .read ≠ some .tx)
    (h : microStep s a x = .ok (t, x')) : SameOutput s t := by
  by_cases hb : x.scope.buf = some .tx
  · cases x with
    | rbWrite b v pos =>
      simp only [microStep] at h
      split at h <;> cases h
      next hm => exact microWrite_sameOutput hm
      next o hm => exact (microWrite_sameOutput hm).trans (returnWrite_sameOutput _ a o)
    | slEnqb v pos =>
      simp only [microStep] at h
      split at h <;> cases h
      next hm => exact microEnqb_sameOutput hm
      next e hm => exact (microEnqb_sameOutput hm).trans (returnErr_sameOutput _ a e)
    | slEnqm todo eOut pos =>
      simp only [microStep] at h
      split at h <;> cases h
      next hm => exact microEnqm_sameOutput hm
      next e hm => exact (microEnqm_sameOutput hm).trans ⟨rfl, rfl⟩
    | rbIsFull | rbIsEmpty =>
      cases h
      exact ⟨rfl, rfl⟩
    | rbRead b pos => exact absurd hb hx
    | slTxrdy pos => exact absurd rfl hx
    | slDeqb | slRxrdy | ssStart | ssIsfin | ssRelease | ssTick => cases hb
  · exact (microStep_writes h).sameOutput hb

theorem enqueueBytes_sameOutput {eOut : Bool} {bytes : List Byte} (h : s.enqueueBytes eOut bytes = .ok t) :
    SameOutput s t := by
  induction bytes generalizing s with
  | nil =>
    cases h
    exact ⟨rfl, rfl⟩
  | cons v rest ih =>
    obtain ⟨hn, -⟩ | ⟨v, rest, hc, ⟨-, rfl⟩ | ⟨s1, hw, hrest⟩⟩ := enqueueBytes_ok h
    · cases hn
    · exact ⟨rfl, rfl⟩
    · cases hc
      have harm : SameOutput s1 s1.armTx := ⟨rfl, rfl⟩
      exact ((writeBuf_sameOutput hw).trans harm).trans (ih hrest)

theorem meaning_sameOutput {i : Instr} (hi : sideUsed i .read ≠ some .tx) (h : meaning i s = .ok t) :
    SameOutput s t := by
  by_cases hb : (scopeOf i).buf = some .tx
  · cases i with
    | rbWrite a b v =>
      obtain ⟨o, s1, hw, rfl⟩ := meaning_rbWrite_ok h
      exact (writeBuf_sameOutput hw).trans (returnWrite_sameOutput s1 a o)
    | slEnqb v =>
      obtain ⟨e, s1, he, rfl⟩ := meaning_slEnqb_ok h
      obtain ⟨s2, hw, rfl⟩ := enqueueByte_ok he
      have harm : SameOutput s2 (if e then s2 else s2.armTx) := by cases e <;> exact ⟨rfl, rfl⟩
      exact ((writeBuf_sameOutput hw).trans harm).trans (returnErr_sameOutput _ .M e)
    | slEnqm bytes => exact enqueueBytes_sameOutput h
    | rbIsFull | rbIsEmpty =>
      cases h
      exact ⟨rfl, rfl⟩
    | rbRead a b => exact absurd hb hi
    | slTxrdy => exact absurd rfl hi
    | slDeqb | slRxrdy | ssStart | ssIsfin | ssRelease | ssTick => cases hb
  · obtain ⟨u, hu, rfl | ⟨bytes, rest, rfl, -⟩⟩ := meaning_writes h
    · exact hu.sameOutput hb
    · exact absurd rfl hb

end Output

/-! ## The byte in flight -/

/-- Only `onTransmitReady` holds a byte in flight. -/
theorem inFlight_cons {x : Activity} (hx : x.uses .read ≠ some .tx) (xs : List Activity) :
    inFlight (x :: xs) = inFlight xs := by
  cases x with
  | slTxrdy pos => exact absurd rfl hx
  | _ => rfl

theorem inFlight_eq_nil {xs : List Activity} (h : Unused xs .read .tx) : inFlight xs = [] := by
  induction xs with
  | nil => rfl
  | cons x xs ih =>
    obtain ⟨hx, hxs⟩ := List.forall_mem_cons.1 h
    rw [inFlight_cons hx, ih hxs]

theorem Opens.inFlight_cons {i : Instr} {x : Activity} (h : Opens i x) (xs : List Activity) :
    inFlight (x :: xs) = inFlight xs := by
  cases h <;> rfl

theorem Opens.readsTx {i : Instr} {x : Activity} (h : Opens i x) : x.readsTx = readsTxDirectly i := by
  cases h with
  | rbRead a b => cases b <;> rfl
  | _ => rfl

theorem Continues.uses {x x' : Activity} (h : Continues x x') (side : Side) : x'.uses side = x.uses side := by
  cases h <;> cases side <;> rfl

theorem Continues.readsTx {x x' : Activity} (h : Continues x x') : x'.readsTx = x.readsTx := by
  cases h with
  | rbRead b pos pos' => cases b <;> rfl
  | _ => rfl

/-- What reads from `tx` is a direct `RB.READ` or `onTransmitReady`. -/
theorem uses_read_tx {x : Activity} (hx : x.readsTx = false) (hu : x.uses .read = some .tx) :
    ∃ pos, x = .slTxrdy pos := by
  cases x with
  | rbRead b pos =>
    cases hu
    cases hx
  | slTxrdy pos => exact ⟨pos, rfl⟩
  | _ => cases hu

/-- A micro-step of a `read` changes the state only at Q4. -/
theorem microRead_ok {s t : State} {b : BufId} {pos : ReadAt} {p : Progress ReadAt (Option Byte)}
    (h : microRead s b pos = .ok (t, p)) :
    (t = s ∧ ∀ v, p ≠ .done (some v)) ∨ ∃ tl v, t = s.releaseTail b tl v ∧ p = .done (some v) := by
  cases pos with
  | q1 =>
    cases h
    exact .inl ⟨rfl, by simp⟩
  | q2 tl hd =>
    simp only [microRead] at h
    split at h <;> cases h <;> exact .inl ⟨rfl, by simp⟩
  | q3 tl =>
    simp only [microRead] at h
    split at h <;> cases h
    exact .inl ⟨rfl, by simp⟩
  | q4 tl v =>
    cases h
    exact .inr ⟨tl, v, rfl, rfl⟩

/-- X2 puts the byte it takes out of `tx` in flight, and X3 puts it on the line. -/
theorem microTxrdy_order {s t : State} {a : Agent} {pos : TxAt} {x' : Option Activity}
    (htest : s.testsHold (.slTxrdy pos) = true) (ho : s.delivered.tx = s.txOut ++ inFlight [.slTxrdy pos])
    (h : microStep s a (.slTxrdy pos) = .ok (t, x')) : t.delivered.tx = t.txOut ++ inFlight x'.toList := by
  simp only [microStep] at h
  split at h <;> cases h
  next pos' hm =>
    obtain ⟨rfl, rfl, ⟨-, hp⟩ | ⟨-, hp⟩⟩ | ⟨q, r, rfl, hr, hgo⟩ | ⟨_, -, -, hp⟩ | ⟨-, -, hp⟩ := microTxrdy_ok hm
    · cases hp
      exact ho
    · cases hp
      exact ho
    · obtain ⟨rfl, hnone⟩ | ⟨tl, v, rfl, rfl⟩ := microRead_ok hr
      · obtain ⟨q', rfl, hp⟩ | ⟨v, rfl, hp⟩ := hgo
        · cases hp
          exact ho
        · cases v with
          | none => exact absurd rfl (microRead_cannotUnderflow htest hr).1
          | some v => exact absurd rfl (hnone v)
      · obtain ⟨q', hg, -⟩ | ⟨v', hd, hp⟩ := hgo
        · cases hg
        · cases hd
          cases hp
          exact congrArg (· ++ [v]) (ho.trans (List.append_nil _))
    · cases hp
    · cases hp
  next hm =>
    obtain ⟨-, -, ⟨-, hp⟩ | ⟨-, hp⟩⟩ | ⟨_, _, -, -, ⟨_, -, hp⟩ | ⟨_, -, hp⟩⟩ | ⟨v, rfl, rfl, -⟩ | ⟨rfl, rfl, -⟩ :=
      microTxrdy_ok hm
    · cases hp
    · cases hp
    · cases hp
    · cases hp
    · exact ho.trans (List.append_nil _).symm
    · exact ho

/-- A whole `onTransmitReady` takes a byte out of `tx` and puts it on the line, or does neither. -/
theorem onTransmitReady_order {s t : State} (ho : s.delivered.tx = s.txOut) (h : s.onTransmitReady = .ok t) :
    t.delivered.tx = t.txOut := by
  cases he : s.isEmpty .tx with
  | true =>
    simp only [State.onTransmitReady, he] at h
    cases h
    exact ho
  | false =>
    obtain ⟨hempty, -⟩ | ⟨r, s1, hr, rfl⟩ := onTransmitReady_ok h
    · cases he.symm.trans hempty
    · obtain ⟨hempty, -⟩ | ⟨-, v, rfl, -, rfl⟩ := readBuf_ok hr
      · cases he.symm.trans hempty
      · exact congrArg (· ++ [v]) ho

/-! ## Every step keeps the transmit order -/

/-- The bytes read from `tx` are `tx_out` and the byte in flight, and no direct `RB.READ` of `tx` is in progress. -/
structure TxOrdered (s : State) : Prop where
  order : s.delivered.tx = s.txOut ++ inFlight s.irq
  indirect : ∀ x ∈ s.inProgress, x.readsTx = false

theorem State.txOrderOk_iff {s : State} : s.txOrderOk = true ↔ (s.directReadTx = false → TxOrdered s) := by
  have hall := s.forall_inProgress (P := fun x => !x.readsTx)
  simp only [Bool.not_eq_true'] at hall
  have hord : TxOrdered s ↔ s.delivered.tx = s.txOut ++ inFlight s.irq ∧ ∀ x ∈ s.inProgress, x.readsTx = false :=
    ⟨fun h => ⟨h.order, h.indirect⟩, fun h => ⟨h.1, h.2⟩⟩
  rw [hord, hall, State.txOrderOk]
  cases s.directReadTx <;> simp [and_assoc]

/-- Only the beginning of an operation and a reset touch the record of direct reads. -/
theorem TxOrdered.enter {s : State} {a : Agent} {x : Activity} (h : TxOrdered s)
    (hfly : inFlight (x :: s.irq) = inFlight s.irq) (hx : x.readsTx = false) : TxOrdered (s.enter a x) := by
  refine ⟨?_, fun y hy => ?_⟩
  · cases a
    · exact h.order
    · exact h.order.trans (congrArg _ hfly.symm)
  · rcases List.mem_cons.1 (mem_inProgress_enter hy) with rfl | hy
    · exact hx
    · exact h.indirect y hy

theorem stepCase_txOrderOk {s t : State} (h : StepCase s t) (hgood : Good s) (htests : s.testsOk = true)
    (ho : s.txOrderOk = true) : t.txOrderOk = true := by
  obtain ⟨-, hc, hr, -, -⟩ := hgood
  rw [State.txOrderOk_iff] at ho ⊢
  cases h with
  | same => exact ho
  | @undelivered i roles hclaim =>
    intro hd
    obtain ⟨hord, hind⟩ := ho (Bool.or_eq_false_iff.1 hd).1
    exact ⟨hord, hind⟩
  | @begins i roles ha hclaim =>
    have hctl := (prepare_writes (s.withRoles i roles) i).sameControl
    obtain ⟨-, hbegin⟩ | ⟨x, hx, hbegin⟩ := beginOp_cases (s.withRoles i roles) i
    · rw [hbegin]
      intro hd
      obtain ⟨hord, hind⟩ := ho (Bool.or_eq_false_iff.1 hd).1
      exact ⟨hord, hind⟩
    · rw [hbegin]
      intro hd
      have hflag : ((s.withRoles i roles).prepare i).directReadTx = false := by
        revert hd
        cases issuer i <;> exact id
      rw [hctl.directReadTx] at hflag
      obtain ⟨hs, hi⟩ := Bool.or_eq_false_iff.1 hflag
      obtain ⟨hord, hind⟩ := ho hs
      have hprep : TxOrdered ((s.withRoles i roles).prepare i) := by cases i <;> exact ⟨hord, hind⟩
      exact hprep.enter (hx.inFlight_cons _) (hx.readsTx.trans hi)
  | @whole i roles t ha hclaim hm =>
    intro hd
    have hdir : t.directReadTx = (s.directReadTx || readsTxDirectly i) := by
      obtain ⟨u, hu, rfl | ⟨bytes, rest, -, rfl⟩⟩ := meaning_writes hm
      · exact hu.sameControl.directReadTx
      · exact hu.sameControl.directReadTx
    obtain ⟨hs, hi⟩ := Bool.or_eq_false_iff.1 (hdir ▸ hd)
    obtain ⟨hord, hind⟩ := ho hs
    refine ⟨?_, fun y hy => ?_⟩
    · rw [meaning_irq hm]
      by_cases hread : sideUsed i .read = some .tx
      · have hfly : inFlight s.irq = [] := inFlight_eq_nil fun y hy =>
          unused_admitted hc hr hclaim (admitContext_ok.1 ha).2.2 hread y (mem_inProgress.2 (.inr hy))
        rw [hfly, List.append_nil] at hord
        have htx : i = .slTxrdy := by
          cases i with
          | rbRead a b =>
            cases hread
            cases hi
          | slTxrdy => rfl
          | _ => cases hread
        subst htx
        exact (onTransmitReady_order (s := s.withRoles .slTxrdy roles) hord hm).trans
          (by rw [State.withRoles_irq, hfly, List.append_nil])
      · have hsame := meaning_sameOutput hread hm
        rw [hsame.delivered, hsame.txOut]
        exact hord
    · rcases mem_inProgress.1 hy with hy | hy
      · obtain hmain | ⟨v, rest, hmain⟩ := meaning_main hm
        · rw [hmain] at hy
          exact hind y (mem_inProgress.2 (.inl hy))
        · rw [hmain] at hy
          cases hy
          rfl
      · rw [meaning_irq hm] at hy
        exact hind y (mem_inProgress.2 (.inr hy))
  | @mainline x x' s1 hx ha hm =>
    intro hd
    have hctl := (microStep_writes hm).sameControl
    obtain ⟨hord, hind⟩ := ho (hctl.directReadTx ▸ hd)
    have hxr : x.readsTx = false := hind x (mem_inProgress.2 (.inl hx))
    have hread : x.uses .read ≠ some .tx := fun hu => by
      obtain ⟨pos, rfl⟩ := uses_read_tx hxr hu
      cases (State.contextsOk_iff.1 hc).1 _ hx
    have hsame := microStep_sameOutput hread hm
    refine ⟨?_, fun y hy => ?_⟩
    · exact hsame.delivered.trans (hord.trans (by rw [← hsame.txOut, ← hctl.irq]))
    · rcases mem_inProgress.1 hy with hy | hy
      · obtain rfl : x' = some y := hy
        rw [(microStep_continues hm).readsTx]
        exact hxr
      · exact hind y (mem_inProgress.2 (.inr (hctl.irq ▸ hy)))
  | @interrupt x rest x' s1 hx hm =>
    intro hd
    have hctl := (microStep_writes hm).sameControl
    obtain ⟨hord, hind⟩ := ho (hctl.directReadTx ▸ hd)
    have hmem : x ∈ s.inProgress := mem_inProgress.2 (.inr (by simp [hx]))
    refine ⟨?_, fun y hy => ?_⟩
    · rw [hx] at hord
      by_cases hread : x.uses .read = some .tx
      · have hfly : inFlight rest = [] := inFlight_eq_nil fun y hy =>
          unused_irq hc hr hx hread y (List.mem_append_right _ hy)
        obtain ⟨pos, rfl⟩ := uses_read_tx (hind x hmem) hread
        have hone : inFlight (.slTxrdy pos :: rest) = inFlight [.slTxrdy pos] := by
          cases pos <;> simp [inFlight, hfly]
        have hnew := microTxrdy_order (State.testsOk_iff.1 htests _ hmem) (hone ▸ hord) hm
        refine hnew.trans (congrArg _ ?_)
        cases x' with
        | none => exact hfly.symm
        | some y =>
          cases microStep_continues hm with
          | slTxrdy pos pos' => cases pos' <;> simp [inFlight, hfly]
      · have hsame := microStep_sameOutput hread hm
        rw [inFlight_cons hread] at hord
        have hrest : inFlight (x'.toList ++ rest) = inFlight rest := by
          cases x' with
          | none => rfl
          | some y => exact inFlight_cons ((microStep_continues hm).uses .read ▸ hread) rest
        exact hsame.delivered.trans (hord.trans (by rw [hrest, ← hsame.txOut]))
    · rcases mem_inProgress.1 hy with hy | hy
      · exact hind y (mem_inProgress.2 (.inl (hctl.main ▸ hy)))
      · rcases List.mem_append.1 hy with hy | hy
        · obtain rfl := Option.mem_toList.1 hy
          rw [(microStep_continues hm).readsTx]
          exact hind x hmem
        · exact hind y (mem_inProgress.2 (.inr (by simp [hx, hy])))
  | restart => exact fun _ => ⟨rfl, fun x hx => by cases hx⟩

/-! ## Runs -/

/-- What every step keeps, a run keeps. -/
theorem run_keeps {P : State → Prop} (hstep : ∀ s t, P s → step s = .next t → P t) {k : Nat} {s t : State} (hs : P s)
    (h : Host.Core.run Sys2Proof.core k s = .next t) : P t := by
  induction k generalizing s with
  | zero =>
    cases h
    exact hs
  | succ k ih =>
    obtain ⟨s1, hst, hrest⟩ := run_succ_next h
    exact ih (hstep s s1 hs hst) hrest

/-- The invariants that the order of the bytes rests on, with the parameters `p`. -/
structure RunOk (p : Params) (s : State) : Prop where
  cfg : s.cfg = p
  good : Good s
  tests : s.testsOk = true
  order : s.txOrderOk = true

theorem step_runOk {p : Params} {s t : State} (hs : RunOk p s) (h : step s = .next t) : RunOk p t := by
  obtain ⟨hcfg, hgood, htests, ho⟩ := hs
  obtain ⟨s', ⟨_, _, _, _, rfl⟩, hst⟩ := step_next_cases h
  exact ⟨(stepCase_wf hst hgood.1).2.trans hcfg, stepCase_good hst hgood, stepCase_testsOk hst hgood htests,
    stepCase_txOrderOk hst hgood htests ho⟩

/-- Settles O58: the invariants hold after reset and every step keeps them, so the bytes written are those read and
those resident, and those read from `tx` begin with `tx_out`. -/
theorem everyRunIsFirstInFirstOut : Obligations.EveryRunIsFirstInFirstOut := by
  unfold Obligations.EveryRunIsFirstInFirstOut
  intro p epoch k agenda stream t hp h
  obtain ⟨rfl, hgood, -, ho⟩ := run_keeps (P := RunOk p) (fun _ _ => step_runOk)
    ⟨rfl, initial_good hp epoch agenda stream, rfl, rfl⟩ h
  obtain ⟨hwf, -, -, hfifo, -⟩ := hgood
  have horder := (State.fifoOk_iff.1 hfifo).1
  refine ⟨fun b => ⟨horder b, ?_⟩, fun hd => ?_⟩
  · obtain ⟨-, hh, ht⟩ := Ring.wf_iff.1 ((State.wf_iff.1 hwf).1.ring b)
    have hlt : (t.ring b).count (t.cfg.cap b) < t.cfg.cap b := Ring.count_lt hh ht
    omega
  · have htx : t.accepted.tx = t.delivered.tx ++ (t.ring .tx).contents (t.cap .tx) := horder .tx
    refine ⟨inFlight t.irq ++ (t.ring .tx).contents (t.cap .tx), ?_⟩
    rw [htx, (State.txOrderOk_iff.1 ho hd).order, List.append_assoc]

end Sys2Proof.Machine
end

section
/-! PROOFS. A `write` of one agent and a `read` of the other on one buffer (R128): how far each of them has come
determines the buffer, whatever the interleaving, and the ends that both can come to are those of one of their orders. -/

namespace Sys2Proof.Machine

/-! ## How far the two have come -/

/-- The `read` has taken its byte. -/
def Taken (rd : Progress ReadAt (Option Byte)) : Prop := ∃ x, rd = .done (some x)

/-- The `write` has published its byte. -/
def Stored (wr : Progress WriteAt Bool) : Prop := wr = .done false

/-- The byte a `read` of the buffer `r` gives: the oldest resident one, and on an empty buffer the byte `v` that is written
meanwhile. -/
def oldestByte (r : Ring) (v : Byte) : Option Byte := if r.empty then some v else Memory.read r.slots r.tail

/-- How far a `write` of `v` on the buffer `r` has come, with the slots and the head it has left, where `taken` says
whether the `read` beside it has taken its byte. -/
inductive WriteStage (c : Nat) (r : Ring) (v : Byte) (taken : Prop) : Progress WriteAt Bool → Memory → Nat → Prop
  | w1 : WriteStage c r v taken (.going .w1) r.slots r.head
  | w2 {t : Nat} (ht : t = r.tail ∨ taken ∧ t = incC c r.tail) :
      WriteStage c r v taken (.going (.w2 r.head t)) r.slots r.head
  | w3 (hroom : r.full c = false ∨ taken) : WriteStage c r v taken (.going (.w3 r.head)) r.slots r.head
  | w4 {slots : Memory} (hroom : r.full c = false ∨ taken) (hs : Memory.write r.slots r.head v = some slots) :
      WriteStage c r v taken (.going (.w4 r.head)) slots r.head
  | stored {slots : Memory} (hroom : r.full c = false ∨ taken) (hs : Memory.write r.slots r.head v = some slots) :
      WriteStage c r v taken (.done false) slots (incC c r.head)
  | overflowed (hfull : r.full c = true) : WriteStage c r v taken (.done true) r.slots r.head

/-- How far a `read` on the buffer `r` has come, with the tail it has left, where `stored` says whether the `write` of `v`
beside it has published its byte. -/
inductive ReadStage (c : Nat) (r : Ring) (v : Byte) (stored : Prop) : Progress ReadAt (Option Byte) → Nat → Prop
  | q1 : ReadStage c r v stored (.going .q1) r.tail
  | q2 {h : Nat} (hh : h = r.head ∨ stored ∧ h = incC c r.head) :
      ReadStage c r v stored (.going (.q2 r.tail h)) r.tail
  | q3 (hbyte : r.empty = false ∨ stored) : ReadStage c r v stored (.going (.q3 r.tail)) r.tail
  | q4 {x : Byte} (hbyte : r.empty = false ∨ stored) (hx : oldestByte r v = some x) :
      ReadStage c r v stored (.going (.q4 r.tail x)) r.tail
  | taken {x : Byte} (hbyte : r.empty = false ∨ stored) (hx : oldestByte r v = some x) :
      ReadStage c r v stored (.done (some x)) (incC c r.tail)
  | underflowed (hempty : r.empty = true) : ReadStage c r v stored (.done none) r.tail

section Stages

variable {c : Nat} {r : Ring} {v : Byte} {taken taken' stored stored' : Prop} {wr : Progress WriteAt Bool}
  {rd : Progress ReadAt (Option Byte)} {slots : Memory} {hd tl : Nat}

theorem WriteStage.mono (h : WriteStage c r v taken wr slots hd) (himp : taken → taken') :
    WriteStage c r v taken' wr slots hd := by
  cases h with
  | w1 => exact .w1
  | w2 ht => exact .w2 (ht.imp_right fun ht => ⟨himp ht.1, ht.2⟩)
  | w3 hroom => exact .w3 (hroom.imp_right himp)
  | w4 hroom hs => exact .w4 (hroom.imp_right himp) hs
  | stored hroom hs => exact .stored (hroom.imp_right himp) hs
  | overflowed hfull => exact .overflowed hfull

theorem ReadStage.mono (h : ReadStage c r v stored rd tl) (himp : stored → stored') :
    ReadStage c r v stored' rd tl := by
  cases h with
  | q1 => exact .q1
  | q2 hh => exact .q2 (hh.imp_right fun hh => ⟨himp hh.1, hh.2⟩)
  | q3 hbyte => exact .q3 (hbyte.imp_right himp)
  | q4 hbyte hx => exact .q4 (hbyte.imp_right himp) hx
  | taken hbyte hx => exact .taken (hbyte.imp_right himp) hx
  | underflowed hempty => exact .underflowed hempty

theorem WriteStage.head (h : WriteStage c r v taken wr slots hd) : hd = r.head ∨ Stored wr ∧ hd = incC c r.head := by
  cases h with
  | stored hroom hs => exact .inr ⟨rfl, rfl⟩
  | _ => exact .inl rfl

/-- Only the slot at the head is ever another, and that only with the new byte; it is the new byte once that is
published. -/
theorem WriteStage.slots_eq_or_write (h : WriteStage c r v taken wr slots hd) :
    (slots = r.slots ∧ ¬ Stored wr) ∨ Memory.write r.slots r.head v = some slots := by
  cases h with
  | w4 hroom hs | stored hroom hs => exact .inr hs
  | w1 | w2 | w3 | overflowed => exact .inl ⟨rfl, by simp [Stored]⟩

theorem ReadStage.tail (h : ReadStage c r v stored rd tl) : tl = r.tail ∨ Taken rd ∧ tl = incC c r.tail := by
  cases h with
  | taken hbyte hx => exact .inr ⟨⟨_, rfl⟩, rfl⟩
  | _ => exact .inl rfl

/-- A byte taken before the `write` has published its own was resident. -/
theorem ReadStage.empty_of_taken (h : ReadStage c r v stored rd tl) (ht : Taken rd) (hs : ¬ stored) :
    r.empty = false := by
  obtain ⟨x, rfl⟩ := ht
  cases h with
  | taken hbyte hx => exact hbyte.resolve_right hs

/-- A byte published before the `read` has taken its own had room. -/
theorem WriteStage.full_of_stored (h : WriteStage c r v taken wr slots hd) (hs : Stored wr) (ht : ¬ taken) :
    r.full c = false := by
  cases hs
  cases h with
  | stored hroom _ => exact hroom.resolve_right ht

/-- The oldest byte stands at the tail, once there is one. -/
theorem read_tail_eq_oldestByte (h : WriteStage c r v taken wr slots hd) (hbyte : r.empty = false ∨ Stored wr) :
    Memory.read slots r.tail = oldestByte r v := by
  cases he : r.empty with
  | true =>
    have hstored : Stored wr := hbyte.resolve_left (by simp [he])
    have hs := h.slots_eq_or_write.resolve_left fun hn => hn.2 hstored
    have hidx := Ring.empty_iff.1 he
    rw [oldestByte, he, if_pos rfl, ← hidx, Memory.read_write_same hs]
  | false =>
    have hne : r.tail ≠ r.head := fun heq => by simp [Ring.empty_iff.2 heq.symm] at he
    rw [oldestByte, he, if_neg Bool.false_ne_true]
    obtain ⟨rfl, -⟩ | hs := h.slots_eq_or_write
    · rfl
    · exact Memory.read_write_other hs hne

end Stages

/-! ## One micro-step of either -/

/-- `w_1, w_2, ...` after a `write` of `v` that has come to `wr`. -/
def acceptedBy (v : Byte) (wr : Progress WriteAt Bool) (old : List Byte) : List Byte :=
  match wr with
  | .done false => old ++ [v]
  | _ => old

/-- `r_1, r_2, ...` after a `read` that has come to `rd`. -/
def deliveredBy (rd : Progress ReadAt (Option Byte)) (old : List Byte) : List Byte :=
  match rd with
  | .done (some x) => old ++ [x]
  | _ => old

section Steps

variable {c : Nat} {r : Ring} {v : Byte} {t t1 : State} {b : BufId} {slots : Memory} {hd tl : Nat}

/-- Replacing a buffer by itself and a history by itself changes nothing. -/
theorem accepted_self (hring : t.ring b = ⟨slots, hd, tl⟩) :
    t = { t with rings := t.rings.set b ⟨slots, hd, tl⟩, accepted := t.accepted.set b (t.accepted.get b) } := by
  simp only [← hring, State.ring, ByBuf.set_get]

theorem delivered_self (hring : t.ring b = ⟨slots, hd, tl⟩) :
    t = { t with rings := t.rings.set b ⟨slots, hd, tl⟩, delivered := t.delivered.set b (t.delivered.get b) } := by
  simp only [← hring, State.ring, ByBuf.set_get]

/-- A micro-step of the `write`: the next stage, with its slots, its head and its history. -/
theorem WriteStage.step {taken : Prop} {pos : WriteAt} {wr : Progress WriteAt Bool} (hwf : r.wf c = true)
    (h : WriteStage c r v taken (.going pos) slots hd) (hcap : t.cap b = c) (hring : t.ring b = ⟨slots, hd, tl⟩)
    (htl : tl = r.tail ∨ taken ∧ tl = incC c r.tail) (hbyte : taken → r.empty = false)
    (hm : microWrite t b v pos = .ok (t1, wr)) :
    ∃ slots' hd', WriteStage c r v taken wr slots' hd'
      ∧ t1 = { t with
          rings := t.rings.set b ⟨slots', hd', tl⟩
          accepted := t.accepted.set b (acceptedBy v wr (t.accepted.get b)) } := by
  obtain ⟨-, hh, ht⟩ := Ring.wf_iff.1 hwf
  have hself := accepted_self hring
  cases h with
  | w1 =>
    cases hm
    rw [hring]
    exact ⟨r.slots, r.head, .w2 htl, hself⟩
  | @w2 tl' ht' =>
    simp only [microWrite, hcap] at hm
    split at hm <;> cases hm
    next heq =>
      refine ⟨r.slots, r.head, .overflowed (Ring.full_iff.2 ?_), hself⟩
      obtain rfl | ⟨htaken, rfl⟩ := ht'
      · exact heq
      · -- a head that meets the tail after one release met it before: the buffer was empty
        have hne : r.head ≠ r.tail := fun hidx => by simpa [Ring.empty_iff.2 hidx] using hbyte htaken
        rw [incC_of_lt hh, incC_of_lt ht] at heq
        split_ifs at heq <;> omega
    next hne =>
      refine ⟨r.slots, r.head, .w3 ?_, hself⟩
      obtain rfl | ⟨htaken, -⟩ := ht'
      · exact .inl (by rw [Bool.eq_false_iff, ne_eq, Ring.full_iff]; exact hne)
      · exact .inr htaken
  | w3 hroom =>
    simp only [microWrite] at hm
    split at hm <;> cases hm
    next hst =>
      obtain ⟨slots', hs, rfl⟩ := storeSlot_ok hst
      rw [hring] at hs ⊢
      refine ⟨slots', r.head, .w4 hroom hs, ?_⟩
      simp [State.setRing, acceptedBy]
  | w4 hroom hs =>
    cases hm
    refine ⟨slots, incC c r.head, .stored hroom hs, ?_⟩
    simp [State.publishHead, State.setRing, hring, hcap, acceptedBy]

/-- A micro-step of the `read`: the next stage, with its tail and its history. -/
theorem ReadStage.step {taken : Prop} {pos : ReadAt} {wr : Progress WriteAt Bool}
    {rd : Progress ReadAt (Option Byte)} (h : ReadStage c r v (Stored wr) (.going pos) tl)
    (hwr : WriteStage c r v taken wr slots hd) (hcap : t.cap b = c) (hring : t.ring b = ⟨slots, hd, tl⟩)
    (hroom : Stored wr → r.full c = false) (hm : microRead t b pos = .ok (t1, rd)) :
    ∃ tl', ReadStage c r v (Stored wr) rd tl'
      ∧ t1 = { t with
          rings := t.rings.set b ⟨slots, hd, tl'⟩
          delivered := t.delivered.set b (deliveredBy rd (t.delivered.get b)) } := by
  have hself := delivered_self hring
  cases h with
  | q1 =>
    cases hm
    rw [hring]
    exact ⟨r.tail, .q2 hwr.head, hself⟩
  | @q2 hd' hh' =>
    simp only [microRead] at hm
    split at hm <;> cases hm
    next heq =>
      refine ⟨r.tail, .underflowed (Ring.empty_iff.2 ?_), hself⟩
      obtain rfl | ⟨hstored, rfl⟩ := hh'
      · exact heq
      · exact absurd (Ring.full_iff.2 heq) (by simp [hroom hstored])
    next hne =>
      refine ⟨r.tail, .q3 ?_, hself⟩
      obtain rfl | ⟨hstored, -⟩ := hh'
      · exact .inl (by rw [Bool.eq_false_iff, ne_eq, Ring.empty_iff]; exact hne)
      · exact .inr hstored
  | q3 hbyte =>
    simp only [microRead] at hm
    split at hm <;> cases hm
    next x hload =>
      have hx := loadSlot_ok hload
      rw [hring, read_tail_eq_oldestByte hwr hbyte] at hx
      exact ⟨r.tail, .q4 hbyte hx, hself⟩
  | q4 hbyte hx =>
    cases hm
    refine ⟨incC c r.tail, .taken hbyte hx, ?_⟩
    simp [State.releaseTail, State.setRing, hring, hcap, deliveredBy]

end Steps

/-! ## Both in progress -/

/-- The operations agent `a` is in. -/
def State.opsOf (s : State) : Agent → List Activity
  | .M => s.main.toList
  | .I => s.irq

/-- A micro-step of an agent, as an event: what its innermost operation does, in the state that is left but for the
contexts. -/
theorem advance_next {s t : State} {a : Agent} (h : advance s a = .next t) :
    ∃ x rest s1 x' main irq, s.opsOf a = x :: rest ∧ microStep s a x = .ok (s1, x')
      ∧ t = s1.inContexts main irq s.agenda ∧ t.opsOf a = x'.toList ++ rest
      ∧ t.opsOf (otherAgent a) = s.opsOf (otherAgent a) := by
  cases a with
  | M =>
    obtain ⟨x, hx, -, ⟨s1, hm, rfl⟩ | ⟨s1, x', hm, rfl⟩⟩ := advanceMain_next h
    all_goals
      have hctl := (microStep_writes hm).sameControl
      exact ⟨x, [], s1, _, _, _, by rw [State.opsOf, hx]; rfl, hm, by rw [← hctl.agenda]; rfl, rfl, hctl.irq⟩
  | I =>
    obtain ⟨x, rest, hx, ⟨s1, hm, rfl⟩ | ⟨s1, x', hm, rfl⟩⟩ := advanceIrq_next h
    all_goals
      have hctl := (microStep_writes hm).sameControl
      have hirq : s1.irq = x :: rest := hctl.irq.trans hx
      exact ⟨x, rest, s1, _, _, _, hx, hm, by rw [← hctl.agenda]; rfl,
        by simp [State.opsOf, State.leaveInterrupt, State.enterInterrupt, hirq], congrArg Option.toList hctl.main⟩

/-- From `s` to `t` agent `a` has received the result `x` or none, and a failure has put its code in the agent's error
slot (R191, R192). -/
structure Reported (s t : State) (a : Agent) (x : Option Reply) : Prop where
  errSlot : t.errSlot.get a = (x.bind Reply.failCode).getD (s.errSlot.get a)
  replies : t.repliesTo a = s.repliesTo a ++ x.toList

theorem Reported.refl (s : State) (a : Agent) : Reported s s a none := ⟨rfl, (List.append_nil _).symm⟩

theorem otherAgent_ne (a : Agent) : otherAgent a ≠ a := by cases a <;> decide

theorem otherAgent_otherAgent (a : Agent) : otherAgent (otherAgent a) = a := by cases a <;> rfl

theorem eq_otherAgent_of_ne {a a' : Agent} (h : a' ≠ a) : a' = otherAgent a := by
  cases a <;> cases a' <;> simp_all [otherAgent]

section Reports

variable {s t u : State} {a : Agent}

theorem Reported.before {x : Option Reply} (h1 : Reported s t a none) (h2 : Reported t u a x) : Reported s u a x :=
  ⟨by rw [h2.errSlot, h1.errSlot]; rfl, by rw [h2.replies, h1.replies, Option.toList_none, List.append_nil]⟩

theorem Reported.after {x : Option Reply} (h1 : Reported s t a x) (h2 : Reported t u a none) : Reported s u a x :=
  ⟨h2.errSlot.trans h1.errSlot, by rw [h2.replies, h1.replies, Option.toList_none, List.append_nil]⟩

/-- One result and the code of its failure go to one agent alone. -/
theorem reported_of_reply {x : Reply} (hr : t.replies = s.replies ++ [(a, x)])
    (he : t.errSlot = s.errSlot.set a (x.failCode.getD (s.errSlot.get a))) :
    Reported s t a (some x) ∧ Reported s t (otherAgent a) none := by
  have hne := otherAgent_ne a
  refine ⟨⟨by rw [he, ByAgent.get_set_same]; rfl, ?_⟩, ⟨by rw [he, ByAgent.get_set_other _ _ hne]; rfl, ?_⟩⟩
  · simp [State.repliesTo, hr]
  · simp [State.repliesTo, hr, hne.symm]

theorem ByAgent.set_get {α : Type} (x : ByAgent α) (a : Agent) : x.set a (x.get a) = x := by cases a <;> rfl

theorem returnWrite_reported (s : State) (a : Agent) (o : Bool) :
    Reported s (s.returnWrite a o) a (some (.status (if o then .overflow else .ok)))
      ∧ Reported s (s.returnWrite a o) (otherAgent a) none := by
  cases o
  · exact reported_of_reply rfl (ByAgent.set_get _ _).symm
  · exact reported_of_reply rfl rfl

theorem returnRead_reported (s : State) (a : Agent) (r : Option Byte) :
    Reported s (s.returnRead a r) a
        (some (r.elim (.statusByte .underflow 0#8) fun x => .statusByte .ok x))
      ∧ Reported s (s.returnRead a r) (otherAgent a) none := by
  cases r
  · exact reported_of_reply rfl rfl
  · exact reported_of_reply rfl (ByAgent.set_get _ _).symm

end Reports

/-- What the agent of a `write` that has come to `wr` is in, and the result it has received. -/
def writerOps (b : BufId) (v : Byte) : Progress WriteAt Bool → List Activity
  | .going pos => [.rbWrite b v pos]
  | .done _ => []

def writerReply : Progress WriteAt Bool → Option Reply
  | .going _ => none
  | .done o => some (.status (if o then .overflow else .ok))

/-- The same for the agent of a `read`. -/
def readerOps (b : BufId) : Progress ReadAt (Option Byte) → List Activity
  | .going pos => [.rbRead b pos]
  | .done _ => []

def readerReply : Progress ReadAt (Option Byte) → Option Reply
  | .going _ => none
  | .done r => some (r.elim (.statusByte .underflow 0#8) fun x => .statusByte .ok x)

/-- From `s`, where neither was in an operation, agent `a` has come to `wr` in a `write` of `v` and the other agent to
`rd` in a `read`, on buffer `b`, and nothing else has happened. -/
structure Crossing (s t : State) (a : Agent) (b : BufId) (v : Byte) (wr : Progress WriteAt Bool)
    (rd : Progress ReadAt (Option Byte)) : Prop where
  cfg : t.cfg = s.cfg
  writer : t.opsOf a = writerOps b v wr
  reader : t.opsOf (otherAgent a) = readerOps b rd
  buffer : ∃ slots hd tl, t.rings = s.rings.set b ⟨slots, hd, tl⟩
    ∧ WriteStage (s.cap b) (s.ring b) v (Taken rd) wr slots hd ∧ ReadStage (s.cap b) (s.ring b) v (Stored wr) rd tl
  accepted : t.accepted = s.accepted.set b (acceptedBy v wr (s.accepted.get b))
  delivered : t.delivered = s.delivered.set b (deliveredBy rd (s.delivered.get b))
  written : Reported s t a (writerReply wr)
  read : Reported s t (otherAgent a) (readerReply rd)

/-- A micro-step of an `RB.WRITE` is one of its `write`; the last one returns its result. -/
theorem microStep_rbWrite_ok {s s1 : State} {a : Agent} {b : BufId} {v : Byte} {pos : WriteAt} {x' : Option Activity}
    (h : microStep s a (.rbWrite b v pos) = .ok (s1, x')) :
    ∃ s2 wr, microWrite s b v pos = .ok (s2, wr) ∧ SameQueues s2 s1 ∧ x'.toList = writerOps b v wr
      ∧ Reported s2 s1 a (writerReply wr) ∧ Reported s2 s1 (otherAgent a) none := by
  simp only [microStep] at h
  split at h <;> cases h
  next hm => exact ⟨_, _, hm, .refl _, rfl, .refl _ _, .refl _ _⟩
  next o hm => exact ⟨_, _, hm, returnWrite_sameQueues _ a o, rfl, returnWrite_reported _ a o⟩

/-- A micro-step of an `RB.READ` likewise. -/
theorem microStep_rbRead_ok {s s1 : State} {a : Agent} {b : BufId} {pos : ReadAt} {x' : Option Activity}
    (h : microStep s a (.rbRead b pos) = .ok (s1, x')) :
    ∃ s2 rd, microRead s b pos = .ok (s2, rd) ∧ SameQueues s2 s1 ∧ x'.toList = readerOps b rd
      ∧ Reported s2 s1 a (readerReply rd) ∧ Reported s2 s1 (otherAgent a) none := by
  simp only [microStep] at h
  split at h <;> cases h
  next hm => exact ⟨_, _, hm, .refl _, rfl, .refl _ _, .refl _ _⟩
  next r hm => exact ⟨_, _, hm, returnRead_sameQueues _ a r, rfl, returnRead_reported _ a r⟩

section Cross

variable {s t t' : State} {a : Agent} {b : BufId} {v : Byte} {wr : Progress WriteAt Bool}
  {rd : Progress ReadAt (Option Byte)}

/-- The writer's next micro-step. -/
theorem Crossing.advance_writer (hwf : (s.ring b).wf (s.cap b) = true) (h : Crossing s t a b v wr rd)
    (hadv : advance t a = .next t') : ∃ wr', Crossing s t' a b v wr' rd := by
  obtain ⟨hcfg, hwriter, hreader, ⟨slots, hd, tl, hrings, hws, hrs⟩, hacc, hdel, hwritten, hread⟩ := h
  obtain ⟨x, rest, s1, x', m, q, hops, hm, rfl, hops', hother⟩ := advance_next hadv
  rw [hwriter] at hops
  cases wr with
  | done o => cases hops
  | going pos =>
    cases hops
    obtain ⟨t1, wr', hmw, hsame, hx', hrep, hrep'⟩ := microStep_rbWrite_ok hm
    have hns : ¬ Stored (.going pos) := by simp [Stored]
    have hcap : t.cap b = s.cap b := by rw [State.cap, hcfg, State.cap]
    have hring : t.ring b = ⟨slots, hd, tl⟩ := by rw [State.ring, hrings, ByBuf.get_set_same]
    obtain ⟨slots', hd', hws', rfl⟩ :=
      hws.step hwf hcap hring hrs.tail (fun htaken => hrs.empty_of_taken htaken hns) hmw
    refine ⟨wr', hsame.cfg.trans hcfg, ?_, hother.trans hreader,
      ⟨slots', hd', tl, hsame.rings.trans ?_, hws', hrs.mono fun hs => absurd hs hns⟩, hsame.accepted.trans ?_,
      hsame.delivered.trans hdel, hwritten.before ⟨hrep.errSlot, hrep.replies⟩,
      hread.after ⟨hrep'.errSlot, hrep'.replies⟩⟩
    · rw [hops', hx', List.append_nil]
    · simp only [hrings, ByBuf.set_set]
    · simp only [hacc, ByBuf.get_set_same, ByBuf.set_set]
      rfl

/-- The reader's next micro-step. -/
theorem Crossing.advance_reader (h : Crossing s t a b v wr rd) (hadv : advance t (otherAgent a) = .next t') :
    ∃ rd', Crossing s t' a b v wr rd' := by
  obtain ⟨hcfg, hwriter, hreader, ⟨slots, hd, tl, hrings, hws, hrs⟩, hacc, hdel, hwritten, hread⟩ := h
  obtain ⟨x, rest, s1, x', m, q, hops, hm, rfl, hops', hother⟩ := advance_next hadv
  rw [hreader] at hops
  rw [otherAgent_otherAgent] at hother
  cases rd with
  | done r => cases hops
  | going pos =>
    cases hops
    obtain ⟨t1, rd', hmr, hsame, hx', hrep, hrep'⟩ := microStep_rbRead_ok hm
    rw [otherAgent_otherAgent] at hrep'
    have hnt : ¬ Taken (.going pos) := by simp [Taken]
    have hcap : t.cap b = s.cap b := by rw [State.cap, hcfg, State.cap]
    have hring : t.ring b = ⟨slots, hd, tl⟩ := by rw [State.ring, hrings, ByBuf.get_set_same]
    obtain ⟨tl', hrs', rfl⟩ := hrs.step hws hcap hring (fun hs => hws.full_of_stored hs hnt) hmr
    refine ⟨rd', hsame.cfg.trans hcfg, hother.trans hwriter, ?_,
      ⟨slots, hd, tl', hsame.rings.trans ?_, hws.mono fun ht => absurd ht hnt, hrs'⟩, hsame.accepted.trans hacc,
      hsame.delivered.trans ?_, hwritten.after ⟨hrep'.errSlot, hrep'.replies⟩,
      hread.before ⟨hrep.errSlot, hrep.replies⟩⟩
    · rw [hops', hx', List.append_nil]
    · simp only [hrings, ByBuf.set_set]
    · simp only [hdel, ByBuf.get_set_same, ByBuf.set_set]
      rfl

theorem Crossing.advance (hwf : (s.ring b).wf (s.cap b) = true) (h : Crossing s t a b v wr rd) {a' : Agent}
    (hadv : advance t a' = .next t') : ∃ wr' rd', Crossing s t' a b v wr' rd' := by
  by_cases ha : a' = a
  · subst ha
    obtain ⟨wr', hc⟩ := h.advance_writer hwf hadv
    exact ⟨wr', rd, hc⟩
  · obtain rfl := eq_otherAgent_of_ne ha
    obtain ⟨rd', hc⟩ := h.advance_reader hadv
    exact ⟨wr, rd', hc⟩

/-- Every interleaving of their micro-steps. -/
theorem Crossing.run (hw : s.wf = true) {order : List Agent} (h : Crossing s t a b v wr rd)
    (hagenda : t.agenda = order.map .advance) (hrun : Host.Core.run Sys2Proof.core order.length t = .next t') :
    ∃ wr' rd', Crossing s t' a b v wr' rd' := by
  induction order generalizing t wr rd with
  | nil =>
    cases hrun
    exact ⟨wr, rd, h⟩
  | cons a' order ih =>
    obtain ⟨t1, hst, hrest⟩ := run_succ_next hrun
    have hhw := (State.wf_iff.1 hw).1
    rw [step_event (h.cfg ▸ hhw.params) hagenda] at hst
    have hadv : Machine.advance { t with agenda := order.map .advance } a' = .next t1 := hst
    obtain ⟨h1, h2, h3, h4, h5, h6, ⟨h7, h7'⟩, ⟨h8, h8'⟩⟩ := h
    have hcross : Crossing s { t with agenda := order.map .advance } a b v wr rd :=
      ⟨h1, h2, h3, h4, h5, h6, ⟨h7, h7'⟩, ⟨h8, h8'⟩⟩
    obtain ⟨wr', rd', hc⟩ := hcross.advance (hhw.ring b) hadv
    obtain ⟨x, rest, s1, x', m, q, -, -, rfl, -, -⟩ := advance_next hadv
    exact ih hc rfl hrest

end Cross

/-! ## The two whole operations, one after the other -/

/-- A whole operation of agent `a` from `s` to `u`: the buffer `b` and its histories after it, and its result. -/
structure Ended (s u : State) (a : Agent) (b : BufId) (ring : Ring) (acc del : List Byte) (x : Reply) : Prop where
  rings : u.rings = s.rings.set b ring
  accepted : u.accepted = s.accepted.set b acc
  delivered : u.delivered = s.delivered.set b del
  own : Reported s u a (some x)
  other : Reported s u (otherAgent a) none

/-- What the `write` of agent `a` and the `read` of the other have come to together. -/
structure BothEnded (s t : State) (a : Agent) (b : BufId) (ring : Ring) (acc del : List Byte) (x y : Reply) : Prop where
  rings : t.rings = s.rings.set b ring
  accepted : t.accepted = s.accepted.set b acc
  delivered : t.delivered = s.delivered.set b del
  written : Reported s t a (some x)
  read : Reported s t (otherAgent a) (some y)

section Sequence

variable {s t u w : State} {a : Agent} {b : BufId} {v x : Byte} {ring ring1 : Ring} {acc acc1 del del1 : List Byte}
  {slots : Memory} {rx ry : Reply}

theorem ByAgent.ext_otherAgent {α : Type} {p q : ByAgent α} (a : Agent) (h : p.get a = q.get a)
    (h' : p.get (otherAgent a) = q.get (otherAgent a)) : p = q := by
  obtain ⟨pm, pi⟩ := p
  obtain ⟨qm, qi⟩ := q
  cases a
  · exact congrArg₂ ByAgent.mk h h'
  · exact congrArg₂ ByAgent.mk h' h

/-- The end of both determines the buffers, the histories, the error slots and the results. -/
theorem BothEnded.agree (ht : BothEnded s t a b ring acc del rx ry) (hw : BothEnded s w a b ring acc del rx ry) :
    t.rings = w.rings ∧ t.accepted = w.accepted ∧ t.delivered = w.delivered ∧ t.errSlot = w.errSlot
      ∧ ∀ a', t.repliesTo a' = w.repliesTo a' := by
  refine ⟨ht.rings.trans hw.rings.symm, ht.accepted.trans hw.accepted.symm, ht.delivered.trans hw.delivered.symm,
    ByAgent.ext_otherAgent a (ht.written.errSlot.trans hw.written.errSlot.symm)
      (ht.read.errSlot.trans hw.read.errSlot.symm), fun a' => ?_⟩
  by_cases ha : a' = a
  · subst ha
    exact ht.written.replies.trans hw.written.replies.symm
  · obtain rfl := eq_otherAgent_of_ne ha
    exact ht.read.replies.trans hw.read.replies.symm

theorem Ended.write_read (h1 : Ended s u a b ring1 acc1 del1 rx) (h2 : Ended u w (otherAgent a) b ring acc del ry) :
    BothEnded s w a b ring acc del rx ry :=
  ⟨by rw [h2.rings, h1.rings, ByBuf.set_set], by rw [h2.accepted, h1.accepted, ByBuf.set_set],
    by rw [h2.delivered, h1.delivered, ByBuf.set_set], h1.own.after (otherAgent_otherAgent a ▸ h2.other),
    h1.other.before h2.own⟩

theorem Ended.read_write (h1 : Ended s u (otherAgent a) b ring1 acc1 del1 ry) (h2 : Ended u w a b ring acc del rx) :
    BothEnded s w a b ring acc del rx ry :=
  ⟨by rw [h2.rings, h1.rings, ByBuf.set_set], by rw [h2.accepted, h1.accepted, ByBuf.set_set],
    by rw [h2.delivered, h1.delivered, ByBuf.set_set], Reported.before (otherAgent_otherAgent a ▸ h1.other) h2.own,
    h1.own.after h2.other⟩

theorem exec_rbWrite_stores (hready : Ready s (.rbWrite a b v)) (hf : s.isFull b = false)
    (hs : Memory.write (s.ring b).slots (s.ring b).head v = some slots) :
    ∃ u, exec (.rbWrite a b v) s = .next u
      ∧ Ended s u a b ⟨slots, incC (s.cap b) (s.ring b).head, (s.ring b).tail⟩ (s.accepted.get b ++ [v])
        (s.delivered.get b) (.status .ok) := by
  obtain ⟨hown, hother⟩ := reported_of_reply (s := s) (a := a) (x := .status .ok)
    (t := { s with replies := s.replies ++ [(a, .status .ok)] }) rfl (ByAgent.set_get _ _).symm
  exact ⟨_, exec_rbWrite_of_room hready hf hs, rfl, rfl, (ByBuf.set_get _ _).symm, ⟨hown.errSlot, hown.replies⟩,
    ⟨hother.errSlot, hother.replies⟩⟩

theorem exec_rbWrite_overflows (hready : Ready s (.rbWrite a b v)) (hf : s.isFull b = true) :
    ∃ u, exec (.rbWrite a b v) s = .next u
      ∧ Ended s u a b (s.ring b) (s.accepted.get b) (s.delivered.get b) (.status .overflow) := by
  obtain ⟨hown, hother⟩ := reported_of_reply (s := s) (a := a) (x := .status .overflow)
    (t := { s with errSlot := s.errSlot.set a 1#2, replies := s.replies ++ [(a, .status .overflow)] }) rfl rfl
  exact ⟨_, exec_rbWrite_of_full hready hf, (ByBuf.set_get _ _).symm, (ByBuf.set_get _ _).symm,
    (ByBuf.set_get _ _).symm, ⟨hown.errSlot, hown.replies⟩, ⟨hother.errSlot, hother.replies⟩⟩

theorem exec_rbRead_takes (hready : Ready s (.rbRead a b)) (he : s.isEmpty b = false)
    (hx : Memory.read (s.ring b).slots (s.ring b).tail = some x) :
    ∃ u, exec (.rbRead a b) s = .next u
      ∧ Ended s u a b ⟨(s.ring b).slots, (s.ring b).head, incC (s.cap b) (s.ring b).tail⟩ (s.accepted.get b)
        (s.delivered.get b ++ [x]) (.statusByte .ok x) := by
  obtain ⟨hown, hother⟩ := reported_of_reply (s := s) (a := a) (x := .statusByte .ok x)
    (t := { s with replies := s.replies ++ [(a, .statusByte .ok x)] }) rfl (ByAgent.set_get _ _).symm
  exact ⟨_, exec_rbRead_of_byte hready he hx, rfl, (ByBuf.set_get _ _).symm, rfl, ⟨hown.errSlot, hown.replies⟩,
    ⟨hother.errSlot, hother.replies⟩⟩

theorem exec_rbRead_underflows (hready : Ready s (.rbRead a b)) (he : s.isEmpty b = true) :
    ∃ u, exec (.rbRead a b) s = .next u
      ∧ Ended s u a b (s.ring b) (s.accepted.get b) (s.delivered.get b) (.statusByte .underflow 0#8) := by
  obtain ⟨hown, hother⟩ := reported_of_reply (s := s) (a := a) (x := .statusByte .underflow 0#8)
    (t := { s with errSlot := s.errSlot.set a 2#2, replies := s.replies ++ [(a, .statusByte .underflow 0#8)] })
    rfl rfl
  exact ⟨_, exec_rbRead_of_empty hready he, (ByBuf.set_get _ _).symm, (ByBuf.set_get _ _).symm,
    (ByBuf.set_get _ _).symm, ⟨hown.errSlot, hown.replies⟩, ⟨hother.errSlot, hother.replies⟩⟩

end Sequence

end Sys2Proof.Machine
end

section
/-! PROOFS. The `write` and the `read` that cross linearise (R128). -/

namespace Sys2Proof.Machine

section

variable {s t : State} {a : Agent} {b : BufId} {v : Byte}

/-- Nothing in progress is no operation of either agent. -/
theorem opsOf_eq_nil (hmain : s.main = none) (hirq : s.irq = []) (a : Agent) : s.opsOf a = [] := by
  cases a
  · exact congrArg Option.toList hmain
  · exact hirq

/-- With both agents in no operation every operation may begin. -/
theorem mayBegin_of_free (i : Instr) (hmain : s.main = none) (hirq : s.irq = []) : mayBegin s i = true := by
  cases hi : issuer i <;> simp [mayBegin, hi, hmain, hirq]

/-- What both sides can claim in one order they can claim in the other. -/
theorem claimRoles_swap {r r1 r2 : Roles} (h1 : claimRoles r (.rbWrite a b v) = some r1)
    (h2 : claimRoles r1 (.rbRead (otherAgent a) b) = some r2) :
    ∃ r', claimRoles r (.rbRead (otherAgent a) b) = some r' ∧ (claimRoles r' (.rbWrite a b v)).isSome = true := by
  cases b with
  | tx =>
    simp only [claimRoles] at h1
    split at h1 <;> cases h1
    next hp =>
      simp only [claimRoles] at h2
      split at h2 <;> cases h2
      next hc => exact ⟨_, if_pos hc, by simp [claimRoles, hp]⟩
  | rx =>
    cases a with
    | M => cases h1
    | I =>
      obtain ⟨hlink, -⟩ := Roles.link_eq_some.1 h1
      exact ⟨linkRoles, Roles.link_eq_some.2 ⟨hlink, rfl⟩, rfl⟩

/-- After a whole operation that is not held, from a state with nothing in progress, another one is ready if it can claim
its roles. -/
theorem Ready.after {i j : Instr} {u : State} (hgood : Good s) (hmain : s.main = none) (hirq : s.irq = [])
    (hi : Ready s i) (he : exec i s = .next u) (hmsg : ∀ bytes, i ≠ .slEnqm bytes) (hj : j.operandsOk u.cfg = true)
    (hclaim : ∀ r, claimRoles s.roles i = some r → (claimRoles r j).isSome = true) : Ready u j ∧ u.cap = s.cap := by
  have hwf := (stepCase_good (stepCase_of_exec he) hgood).1
  have hroles := hclaim _ (claimRoles_of_exec he)
  obtain ⟨roles, u', -, hw, rfl | ⟨bytes, rest, rfl, -⟩⟩ := exec_writes he
  · have hctl := hw.sameControl
    refine ⟨⟨hwf, hj, hctl.initDone.trans hi.2.2.1,
      mayBegin_of_free j (hctl.main.trans hmain) (hctl.irq.trans hirq), hroles⟩, ?_⟩
    funext b'
    rw [State.cap, hctl.cfg]
    rfl
  · exact absurd rfl (hmsg bytes)

/-! ## The two starts -/

/-- An operation that may begin and whose gate is open is entered with its roles claimed. -/
theorem step_start_next {i : Instr} {rest : List Event} (h : step s = .next t) (hw : s.cfg.wf = true)
    (hb : mayBegin s i = true) (hg : gateOpen i s = true) (hagenda : s.agenda = .start i :: rest) :
    s.initDone = true ∧ ∃ roles, claimRoles s.roles i = some roles
      ∧ t = beginOp { s.withRoles i roles with agenda := rest } i := by
  rw [step_start_of_mayBegin hw hb hagenda] at h
  have hg' : gateOpen i { s with agenda := rest } = true := by cases i <;> exact hg
  obtain ⟨-, s1, hadm, ⟨hclosed, -⟩ | ⟨-, hbegin⟩⟩ := issue_next h
  · cases hg'.symm.trans hclosed
  · obtain ⟨hinit, roles, hclaim, rfl⟩ := admitRun_ok hadm
    cases hbegin
    exact ⟨hinit hg', roles, hclaim, rfl⟩

/-- From `s` to `t` agent `a`, which was in no operation, has entered one, and nothing else of what the operations of the
buffers act on has changed. -/
structure Entered (s t : State) (a : Agent) (x : Activity) : Prop where
  queues : SameQueues s t
  own : t.opsOf a = [x]
  other : t.opsOf (otherAgent a) = s.opsOf (otherAgent a)
  silent : ∀ a', Reported s t a' none

/-- The start of an operation that may begin and whose gate is open enters it with its roles claimed. -/
theorem step_start_entered {i : Instr} {x : Activity} {rest : List Event} (h : step s = .next t)
    (hbegin : ∀ u, beginOp u i = u.enter a x) (hfree : s.opsOf a = []) (hw : s.cfg.wf = true)
    (hb : mayBegin s i = true) (hg : gateOpen i s = true) (hagenda : s.agenda = .start i :: rest) :
    s.initDone = true ∧ claimRoles s.roles i = some t.roles ∧ t.agenda = rest ∧ Entered s t a x := by
  obtain ⟨hinit, roles, hclaim, rfl⟩ := step_start_next h hw hb hg hagenda
  rw [hbegin]
  have hsilent : ∀ a', s.repliesTo a' = s.repliesTo a' ++ [] := fun _ => (List.append_nil _).symm
  cases a with
  | M => exact ⟨hinit, hclaim, rfl, ⟨rfl, rfl, rfl, rfl⟩, rfl, rfl, fun a' => ⟨rfl, hsilent a'⟩⟩
  | I => exact ⟨hinit, hclaim, rfl, ⟨rfl, rfl, rfl, rfl⟩, congrArg (x :: ·) hfree, rfl, fun a' => ⟨rfl, hsilent a'⟩⟩

/-- A `read` may begin beside a `write` of the other agent (R72). -/
theorem mayBegin_rbRead_beside {pos : WriteAt} (hwriter : s.opsOf a = [.rbWrite b v pos])
    (hreader : s.opsOf (otherAgent a) = []) : mayBegin s (.rbRead (otherAgent a) b) = true := by
  cases a with
  | M =>
    have hirq : s.irq = [] := hreader
    simp [mayBegin, issuer, otherAgent, hirq]
  | I =>
    have hmain : s.main = none := Option.toList_eq_nil_iff.1 hreader
    have hirq : s.irq = [.rbWrite b v pos] := hwriter
    simp [mayBegin, issuer, otherAgent, State.freeFifo, componentOf, Activity.isRb,
      Activity.component, hmain, hirq]

/-- The run begins with both operations entered, with their roles claimed one after the other. -/
theorem crossing_of_starts {order : List Agent} (hw : s.cfg.wf = true) (hfree : ∀ a', s.opsOf a' = [])
    (hb : mayBegin s (.rbWrite a b v) = true)
    (h : Host.Core.run Sys2Proof.core (order.length + 2)
      { s with agenda := .start (.rbWrite a b v) :: .start (.rbRead (otherAgent a) b) :: order.map .advance }
        = .next t) :
    s.initDone = true ∧ ∃ r1 r2 t2, claimRoles s.roles (.rbWrite a b v) = some r1
      ∧ claimRoles r1 (.rbRead (otherAgent a) b) = some r2
      ∧ Crossing s t2 a b v (.going .w1) (.going .q1) ∧ t2.agenda = order.map .advance
      ∧ Host.Core.run Sys2Proof.core order.length t2 = .next t := by
  obtain ⟨s1, hstep1, h⟩ := run_succ_next h
  obtain ⟨s2, hstep2, h⟩ := run_succ_next h
  obtain ⟨hinit, hclaim1, hagenda1, hent1⟩ :=
    step_start_entered hstep1 (fun _ => rfl) (hfree a) hw hb rfl rfl
  have hfree' : s1.opsOf (otherAgent a) = [] := hent1.other.trans (hfree _)
  obtain ⟨-, hclaim2, hagenda2, hent2⟩ := step_start_entered hstep2 (fun _ => rfl) hfree'
    (hent1.queues.cfg ▸ hw) (mayBegin_rbRead_beside hent1.own hfree') rfl hagenda1
  have hrings : s2.rings = s.rings := hent2.queues.rings.trans hent1.queues.rings
  have hacc : s2.accepted = s.accepted := hent2.queues.accepted.trans hent1.queues.accepted
  have hdel : s2.delivered = s.delivered := hent2.queues.delivered.trans hent1.queues.delivered
  have hsilent : ∀ a', Reported s s2 a' none := fun a' => by
    obtain ⟨he, hr⟩ := hent1.silent a'
    exact Reported.before ⟨he, hr⟩ (hent2.silent a')
  have hother := hent2.other
  rw [otherAgent_otherAgent, hent1.own] at hother
  exact ⟨hinit, _, _, s2, hclaim1, hclaim2,
    ⟨hent2.queues.cfg.trans hent1.queues.cfg, hother, hent2.own,
      ⟨_, _, _, hrings.trans (ByBuf.set_get _ _).symm, .w1, .q1⟩, hacc.trans (ByBuf.set_get _ _).symm,
      hdel.trans (ByBuf.set_get _ _).symm, hsilent a, hsilent _⟩, hagenda2, h⟩

/-! ## The two ends -/

/-- The whole `write` and the whole `read` in one of their two orders come to `ring`, `acc`, `del`, `x` and `y`. -/
def Linearised (s : State) (a : Agent) (b : BufId) (v : Byte) (ring : Ring) (acc del : List Byte) (x y : Reply) : Prop :=
  ∃ u w, ((exec (.rbWrite a b v) s = .next u ∧ exec (.rbRead (otherAgent a) b) u = .next w)
      ∨ (exec (.rbRead (otherAgent a) b) s = .next u ∧ exec (.rbWrite a b v) u = .next w))
    ∧ BothEnded s w a b ring acc del x y

/-- A whole `read` that finds a byte, after the whole `write`. -/
theorem Ended.then_takes {u : State} {ring : Ring} {acc del : List Byte} {x : Byte} {rx : Reply}
    (h : Ended s u a b ring acc del rx) (hu : Ready u (.rbRead (otherAgent a) b) ∧ u.cap = s.cap)
    (he : ring.empty = false) (hx : Memory.read ring.slots ring.tail = some x) :
    ∃ w, exec (.rbRead (otherAgent a) b) u = .next w
      ∧ BothEnded s w a b ⟨ring.slots, ring.head, incC (s.cap b) ring.tail⟩ acc (del ++ [x]) rx (.statusByte .ok x) := by
  obtain ⟨hready, hcap⟩ := hu
  have hring : u.ring b = ring := by rw [State.ring, h.rings, ByBuf.get_set_same]
  obtain ⟨w, hw, hread⟩ := exec_rbRead_takes hready ((congrArg Ring.empty hring).trans he) (hring.symm ▸ hx)
  rw [hring, hcap, h.accepted, h.delivered, ByBuf.get_set_same, ByBuf.get_set_same] at hread
  exact ⟨w, hw, h.write_read hread⟩

/-- A whole `write` that finds room, after the whole `read`. -/
theorem Ended.then_stores {u : State} {ring : Ring} {acc del : List Byte} {slots : Memory} {ry : Reply}
    (h : Ended s u (otherAgent a) b ring acc del ry) (hu : Ready u (.rbWrite a b v) ∧ u.cap = s.cap)
    (hf : ring.full (s.cap b) = false) (hs : Memory.write ring.slots ring.head v = some slots) :
    ∃ w, exec (.rbWrite a b v) u = .next w
      ∧ BothEnded s w a b ⟨slots, incC (s.cap b) ring.head, ring.tail⟩ (acc ++ [v]) del (.status .ok) ry := by
  obtain ⟨hready, hcap⟩ := hu
  have hring : u.ring b = ring := by rw [State.ring, h.rings, ByBuf.get_set_same]
  obtain ⟨w, hw, hwrite⟩ :=
    exec_rbWrite_stores hready (by rw [State.isFull, hring, hcap, hf]) (hring.symm ▸ hs)
  rw [hring, hcap, h.accepted, h.delivered, ByBuf.get_set_same, ByBuf.get_set_same] at hwrite
  exact ⟨w, hw, h.read_write hwrite⟩

section Orders

variable {r1 r2 : Roles} (hgood : Good s) (hmain : s.main = none) (hirq : s.irq = []) (hinit : s.initDone = true)
  (hclaim1 : claimRoles s.roles (.rbWrite a b v) = some r1)
  (hclaim2 : claimRoles r1 (.rbRead (otherAgent a) b) = some r2)
include hgood hmain hirq hinit hclaim1 hclaim2

/-- What the two have come to when both have ended is what they come to in one of their orders. -/
theorem linearised_of_stages {o : Bool} {y : Option Byte} {slots : Memory} {hd tl : Nat}
    (hws : WriteStage (s.cap b) (s.ring b) v (Taken (.done y)) (.done o) slots hd)
    (hrs : ReadStage (s.cap b) (s.ring b) v (Stored (.done o)) (.done y) tl) :
    Linearised s a b v ⟨slots, hd, tl⟩ (acceptedBy v (.done o) (s.accepted.get b))
      (deliveredBy (.done y) (s.delivered.get b)) (.status (if o then .overflow else .ok))
      (y.elim (.statusByte .underflow 0#8) fun x => .statusByte .ok x) := by
  have hhw := (State.wf_iff.1 hgood.1).1
  have hring := hhw.ring b
  obtain ⟨-, hh, ht⟩ := Ring.wf_iff.1 hring
  have hcap := hhw.two_le_cap b
  have hwr : Ready s (.rbWrite a b v) := ⟨hgood.1, rfl, hinit, mayBegin_of_free _ hmain hirq, by simp [hclaim1]⟩
  obtain ⟨r', hclaim', hclaim''⟩ := claimRoles_swap hclaim1 hclaim2
  have hrr : Ready s (.rbRead (otherAgent a) b) :=
    ⟨hgood.1, rfl, hinit, mayBegin_of_free _ hmain hirq, by simp [hclaim']⟩
  have hthenRead : ∀ {u}, exec (.rbWrite a b v) s = .next u → Ready u (.rbRead (otherAgent a) b) ∧ u.cap = s.cap :=
    fun hu => hwr.after hgood hmain hirq hu (by simp) rfl fun r hr => by
      cases hclaim1.symm.trans hr
      simp [hclaim2]
  have hthenWrite : ∀ {u}, exec (.rbRead (otherAgent a) b) s = .next u → Ready u (.rbWrite a b v) ∧ u.cap = s.cap :=
    fun hu => hrr.after hgood hmain hirq hu (by simp) rfl fun r hr => by
      cases hclaim'.symm.trans hr
      exact hclaim''
  have hresident (he : (s.ring b).empty = false) :
      oldestByte (s.ring b) v = Memory.read (s.ring b).slots (s.ring b).tail :=
    if_neg (by simp [he])
  cases hws with
  | overflowed hfull =>
    cases hrs with
    | underflowed hempty =>
      -- a buffer of capacity 2 or more is not both full and empty
      have h1 := (Ring.full_iff_count hh ht).1 hfull
      have h2 := (Ring.empty_iff_count hh ht).1 hempty
      omega
    | taken hbyte hx =>
      have hempty : (s.ring b).empty = false := hbyte.resolve_right (by simp [Stored])
      obtain ⟨u, hu, hwrite⟩ := exec_rbWrite_overflows hwr hfull
      obtain ⟨w, hw, hboth⟩ := hwrite.then_takes (hthenRead hu) hempty ((hresident hempty).symm.trans hx)
      exact ⟨u, w, .inl ⟨hu, hw⟩, hboth⟩
  | stored hroom hs =>
    cases hrs with
    | underflowed hempty =>
      have hfull : (s.ring b).full (s.cap b) = false := hroom.resolve_right (by simp [Taken])
      obtain ⟨u, hu, hread⟩ := exec_rbRead_underflows hrr hempty
      obtain ⟨w, hw, hboth⟩ := hread.then_stores (hthenWrite hu) hfull hs
      exact ⟨u, w, .inr ⟨hu, hw⟩, hboth⟩
    | taken hbyte hx =>
      cases hfull : (s.ring b).full (s.cap b) with
      | false =>
        -- the `write` finds room first, and the `read` then a byte
        have hbyte' := (read_tail_eq_oldestByte (.stored hroom hs) hbyte).trans hx
        obtain ⟨u, hu, hwrite⟩ := exec_rbWrite_stores hwr hfull hs
        obtain ⟨w, hw, hboth⟩ := hwrite.then_takes (hthenRead hu) (Ring.empty_publish hfull) hbyte'
        exact ⟨u, w, .inl ⟨hu, hw⟩, hboth⟩
      | true =>
        -- a full buffer has a byte, and the `read` makes room
        have hempty : (s.ring b).empty = false := by
          rw [Bool.eq_false_iff, ne_eq, Ring.empty_iff_count hh ht, (Ring.full_iff_count hh ht).1 hfull]
          omega
        obtain ⟨u, hu, hread⟩ := exec_rbRead_takes hrr hempty ((hresident hempty).symm.trans hx)
        obtain ⟨w, hw, hboth⟩ := hread.then_stores (hthenWrite hu) (Ring.full_release hring hempty) hs
        exact ⟨u, w, .inr ⟨hu, hw⟩, hboth⟩

end Orders

/-- Where neither agent is in an operation any more, the `write` and the `read` have ended. -/
theorem Crossing.ended {wr : Progress WriteAt Bool} {rd : Progress ReadAt (Option Byte)}
    (h : Crossing s t a b v wr rd) (hfree : ∀ a', t.opsOf a' = []) : ∃ o y, wr = .done o ∧ rd = .done y := by
  have hwriter := h.writer.symm.trans (hfree a)
  have hreader := h.reader.symm.trans (hfree (otherAgent a))
  cases wr with
  | going pos => cases hwriter
  | done o =>
    cases rd with
    | going pos => cases hreader
    | done y => exact ⟨o, y, rfl, rfl⟩

/-- Settles O59: an overflow is the whole `write` first and an underflow the whole `read` first; where both succeed, a full
buffer was read first and any other one can have been written first. -/
theorem writeAndReadLinearise : Obligations.WriteAndReadLinearise := by
  unfold Obligations.WriteAndReadLinearise
  intro s t b a v order hgood hidle hrun hm hi
  obtain ⟨hmain, hirq, -⟩ := hidle
  have hwf := (State.wf_iff.1 hgood.1).1.params
  obtain ⟨hinit, r1, r2, t2, hclaim1, hclaim2, hcross, hagenda, hrun'⟩ :=
    crossing_of_starts hwf (opsOf_eq_nil hmain hirq) (mayBegin_of_free _ hmain hirq) hrun
  obtain ⟨wr, rd, hend⟩ := hcross.run hgood.1 hagenda hrun'
  obtain ⟨o, y, rfl, rfl⟩ := hend.ended (opsOf_eq_nil hm hi)
  obtain ⟨slots, hd, tl, hrings, hws, hrs⟩ := hend.buffer
  obtain ⟨u, w, horder, hw⟩ := linearised_of_stages hgood hmain hirq hinit hclaim1 hclaim2 hws hrs
  have ht : BothEnded s t a b ⟨slots, hd, tl⟩ _ _ _ _ :=
    ⟨hrings, hend.accepted, hend.delivered, hend.written, hend.read⟩
  exact ⟨u, w, horder, ht.agree hw⟩

end

end Sys2Proof.Machine
end

section
/-! PROOFS. The serial client's two invariants as step lemmas (41_seriallink.md R145, R146). A byte that is put into `tx` is
followed by A1, and `onTransmitReady` disarms only while `tx` is empty. -/

namespace Sys2Proof.Machine

/-- Settles O55: this order is the one that the runs of O58 keep, one case of a step at a time. -/
theorem stepKeepsTransmitOrder : Obligations.StepKeepsTransmitOrder := by
  unfold Obligations.StepKeepsTransmitOrder
  intro s t hgood htests ho h
  obtain ⟨s', ⟨_, _, _, _, rfl⟩, hst⟩ := step_next_cases h
  exact stepCase_txOrderOk hst hgood htests ho

/-- No byte waits in `tx`, or the interrupt that takes it out is armed. -/
def State.TxServed (s : State) : Prop := s.isEmpty .tx = true ∨ s.txArmed = true

section Served

variable {s t : State}

/-- While nothing fills `tx`, it stays served unless the interrupt is disarmed with a byte in it. -/
theorem LevelsMove.txServed {wr rd : Option BufId} (h : LevelsMove wr rd s t) (hwr : wr ≠ some .tx)
    (harm : s.txArmed = true → t.TxServed) (hs : s.TxServed) : t.TxServed :=
  hs.elim (fun he => .inl (h.empty .tx hwr he)) harm

/-! ## Operations that do not fill `tx` -/

/-- `onTransmitReady` disarms only at X4, where `tx` is still empty. -/
theorem microTxrdy_armed {pos : TxAt} {p : Progress TxAt Unit} (htest : s.testsHold (.slTxrdy pos) = true)
    (h : microTxrdy s pos = .ok (t, p)) (harm : s.txArmed = true) : t.TxServed := by
  obtain ⟨-, rfl, -⟩ | ⟨q, r, -, hr, -⟩ | ⟨v, -, rfl, -⟩ | ⟨rfl, rfl, -⟩ := microTxrdy_ok h
  · exact .inr harm
  · exact .inr (((microRead_writes (sc := .ring .tx) rfl hr).sameTransmitter (by simp)).1.trans harm)
  · exact .inr harm
  · exact .inl htest

theorem microStep_txServed {a : Agent} {x : Activity} {x' : Option Activity} (hx : x.uses .write ≠ some .tx)
    (htest : s.testsHold x = true) (hlev : LevelsMove (x.uses .write) (x.uses .read) s t)
    (h : microStep s a x = .ok (t, x')) (hs : s.TxServed) : t.TxServed := by
  refine hlev.txServed hx (fun harm => ?_) hs
  by_cases hsc : x.scope = .link .tx
  · cases x with
    | slTxrdy pos =>
      simp only [microStep] at h
      split at h <;> cases h
      all_goals exact microTxrdy_armed htest (by assumption) harm
    | slEnqb | slEnqm => exact absurd rfl hx
    | _ => cases hsc
  · exact .inr (((microStep_writes h).sameTransmitter hsc).1.trans harm)

/-! ## Micro-steps that fill `tx`: the window W4..A1 -/

/-- Only W4, which ends a `write` with success, fills a buffer. -/
theorem microWrite_txServed {v : Byte} {pos : WriteAt} {p : Progress WriteAt Bool}
    (h : microWrite s .tx v pos = .ok (t, p)) (hp : p ≠ .done false) (hs : s.TxServed) : t.TxServed := by
  cases pos with
  | w1 =>
    cases h
    exact hs
  | w2 hd tl =>
    simp only [microWrite] at h
    split at h <;> cases h <;> exact hs
  | w3 hd =>
    simp only [microWrite] at h
    split at h <;> cases h
    next hst =>
      obtain ⟨slots, -, rfl⟩ := storeSlot_ok hst
      exact hs
  | w4 hd =>
    cases h
    exact absurd rfl hp

/-- After the W4 of an `enqueueByte` comes its A1, which arms. -/
theorem microEnqb_txServed {v : Byte} {pos : EnqAt} {p : Progress EnqAt Bool} (h : microEnqb s v pos = .ok (t, p))
    (hs : s.TxServed ∨ pos = .a1) : t.TxServed ∨ p = .going .a1 := by
  obtain ⟨-, rfl, -⟩ | ⟨w, q, rfl, hw, hgo⟩ := microEnqb_ok h
  · exact .inl (.inr rfl)
  · have hserved : q ≠ .done false → t.TxServed := fun hq => microWrite_txServed hw hq (hs.resolve_right (by simp))
    obtain ⟨w', rfl, -⟩ | ⟨rfl, -⟩ | ⟨-, hp⟩ := hgo
    · exact .inl (hserved (by simp))
    · exact .inl (hserved (by simp))
    · exact .inr hp

theorem recordErr_txServed (a : Agent) (e : Bool) (hs : s.TxServed) : (s.recordErr a e).TxServed := by
  cases e <;> exact hs

theorem microEnqm_txServed {v : Byte} {rest : List Byte} {eOut : Bool} {pos : MsgAt}
    {p : Progress (List Byte × Bool × MsgAt) Bool} (h : microEnqm s (v :: rest) eOut pos = .ok (t, p))
    (hs : s.TxServed ∨ pos = .l2 .a1) : t.TxServed ∨ ∃ todo e, p = .going (todo, e, .l2 .a1) := by
  obtain ⟨rfl, rfl, -⟩ | ⟨e, q, rfl, he, hgo⟩ | ⟨err, rfl, rfl, -⟩ := microEnqm_ok h
  · exact .inl (hs.resolve_right (by simp))
  · obtain hserved | rfl := microEnqb_txServed he (hs.imp_right MsgAt.l2.inj)
    · exact .inl hserved
    · obtain ⟨e', hg, hp⟩ | ⟨err, hd, -⟩ := hgo
      · cases hg
        exact .inr ⟨_, _, hp⟩
      · cases hd
  · exact .inl (recordErr_txServed .M err (hs.resolve_right (by simp)))

/-- An operation that fills `tx` other than directly is in the window until it has armed. -/
theorem microStep_txServed_or_window {a : Agent} {x : Activity} {x' : Option Activity} (hx : x.uses .write = some .tx)
    (hind : x.writesTx = false) (htest : s.testsHold x = true) (h : microStep s a x = .ok (t, x'))
    (hs : s.TxServed ∨ armWindow (some x) = true) : t.TxServed ∨ armWindow x' = true := by
  cases x with
  | rbWrite b v pos =>
    cases hx
    cases hind
  | slEnqb v pos =>
    have hpos : s.TxServed ∨ pos = .a1 := hs.imp_right fun hwin => by
      cases pos with
      | write => cases hwin
      | a1 => rfl
    simp only [microStep] at h
    split at h <;> cases h
    next pos' hm => exact (microEnqb_txServed hm hpos).imp_right fun hp => by cases hp; rfl
    next s1 e hm =>
      obtain hserved | hp := microEnqb_txServed hm hpos
      · exact .inl (recordErr_txServed a e hserved)
      · cases hp
  | slEnqm todo eOut pos =>
    cases todo with
    | nil => cases htest
    | cons v rest =>
      have hpos : s.TxServed ∨ pos = .l2 .a1 := hs.imp_right fun hwin => by
        cases pos with
        | l2 e =>
          cases e with
          | write => cases hwin
          | a1 => rfl
        | l1 | l3 => cases hwin
      simp only [microStep] at h
      split at h <;> cases h
      next hm => exact (microEnqm_txServed hm hpos).imp_right fun ⟨_, _, hp⟩ => by cases hp; rfl
      next hm =>
        obtain hserved | ⟨_, _, hp⟩ := microEnqm_txServed hm hpos
        · exact .inl hserved
        · cases hp
  | _ => cases hx

/-! ## Whole operations -/

theorem onTransmitReady_txServed (h : s.onTransmitReady = .ok t) (harm : s.txArmed = true) : t.TxServed := by
  obtain ⟨he, rfl⟩ | ⟨r, s1, hr, rfl⟩ := onTransmitReady_ok h
  · exact .inl he
  · exact .inr (((readBuf_writes (sc := .ring .tx) rfl hr).sameTransmitter (by simp)).1.trans harm)

theorem enqueueByte_txServed {v : Byte} {e : Bool} (h : s.enqueueByte v = .ok (e, t)) (hs : s.TxServed) :
    t.TxServed := by
  obtain ⟨s1, hw, rfl⟩ := enqueueByte_ok h
  obtain ⟨-, rfl, rfl⟩ | ⟨-, rfl, -⟩ := writeBuf_ok hw
  · exact hs
  · exact .inr rfl

theorem enqueueBytes_txServed {eOut : Bool} {bytes : List Byte} (h : s.enqueueBytes eOut bytes = .ok t)
    (hs : s.TxServed) : t.TxServed := by
  induction bytes generalizing s with
  | nil =>
    cases h
    exact hs
  | cons v rest ih =>
    obtain ⟨hn, -⟩ | ⟨v, rest, hc, ⟨-, rfl⟩ | ⟨s1, -, hrest⟩⟩ := enqueueBytes_ok h
    · cases hn
    · exact hs
    · cases hc
      exact ih hrest (.inr rfl)

/-- A whole operation other than a direct `RB.WRITE` leaves `tx` served. -/
theorem meaning_txServed {i : Instr} (hw : ∀ b, (s.ring b).wf (s.cap b) = true) (hind : writesTxDirectly i = false)
    (h : meaning i s = .ok t) (hs : s.TxServed) : t.TxServed := by
  by_cases hi : sideUsed i .write = some .tx
  · cases i with
    | rbWrite a b v =>
      cases hi
      cases hind
    | slEnqb v =>
      obtain ⟨e, s1, he, rfl⟩ := meaning_slEnqb_ok h
      exact recordErr_txServed .M e (enqueueByte_txServed he hs)
    | slEnqm bytes => exact enqueueBytes_txServed h hs
    | _ => cases hi
  · refine (meaning_levelsMove hw h).txServed hi (fun harm => ?_) hs
    by_cases hsc : scopeOf i = .link .tx
    · cases i with
      | slTxrdy => exact onTransmitReady_txServed h harm
      | slEnqb | slEnqm => exact absurd rfl hi
      | _ => cases hsc
    · obtain ⟨u, hu, rfl | ⟨bytes, rest, rfl, -⟩⟩ := meaning_writes h
      · exact .inr ((hu.sameTransmitter hsc).1.trans harm)
      · exact absurd rfl hsc

end Served

/-! ## Every step keeps the arm/disarm invariant -/

/-- Outside the window W4..A1 `tx` is served, and no direct `RB.WRITE` of `tx` is in progress. -/
structure TxAttended (s : State) : Prop where
  served : s.TxServed ∨ armWindow s.main = true
  indirect : ∀ x ∈ s.inProgress, x.writesTx = false

theorem State.armOk_iff {s : State} : s.armOk = true ↔ (s.directWriteTx = false → TxAttended s) := by
  have hall := s.forall_inProgress (P := fun x => !x.writesTx)
  simp only [Bool.not_eq_true'] at hall
  have hatt : TxAttended s ↔ (s.TxServed ∨ armWindow s.main = true) ∧ ∀ x ∈ s.inProgress, x.writesTx = false :=
    ⟨fun h => ⟨h.served, h.indirect⟩, fun h => ⟨h.1, h.2⟩⟩
  rw [hatt, hall, State.armOk, State.TxServed]
  cases s.directWriteTx <;> simp [and_assoc]

theorem Opens.writesTx {i : Instr} {x : Activity} (h : Opens i x) : x.writesTx = writesTxDirectly i := by
  cases h with
  | rbWrite a b v => cases b <;> rfl
  | _ => rfl

theorem Continues.writesTx {x x' : Activity} (h : Continues x x') : x'.writesTx = x.writesTx := by
  cases h with
  | rbWrite b v pos pos' => cases b <;> rfl
  | _ => rfl

/-- Only an operation that fills `tx` is in the window. -/
theorem uses_write_of_armWindow {x : Activity} (h : armWindow (some x) = true) : x.uses .write = some .tx := by
  cases x with
  | slEnqb | slEnqm => rfl
  | _ => cases h

/-- The interrupt context fills `tx` only directly. -/
theorem uses_write_ne_tx_of_ofIrq {x : Activity} (hc : x.ofIrq = true) (hx : x.writesTx = false) :
    x.uses .write ≠ some .tx := by
  intro hu
  cases x with
  | rbWrite b v pos =>
    cases hu
    cases hx
  | slEnqb | slEnqm => cases hc
  | _ => cases hu

/-- When an operation of the mainline may begin, the window is closed. -/
theorem TxAttended.served_of_mayBegin {s : State} {i : Instr} (h : TxAttended s) (hi : issuer i = .M)
    (hb : mayBegin s i = true) : s.TxServed :=
  h.served.resolve_right (by simp [main_eq_none_of_mayBegin hi hb, armWindow])

theorem stepCase_armOk {s t : State} (h : StepCase s t) (hgood : Good s) (htests : s.testsOk = true)
    (ho : s.armOk = true) : t.armOk = true := by
  obtain ⟨hw, hc, -, hf, -⟩ := hgood
  have hq : Queues s s.inProgress := (queues_iff hw).1 hf
  have htest := State.testsOk_iff.1 htests
  obtain ⟨-, hirqctx, -⟩ := State.contextsOk_iff.1 hc
  rw [State.armOk_iff] at ho ⊢
  cases h with
  | same => exact ho
  | @undelivered i roles hclaim =>
    intro hd
    obtain ⟨hserved, hind⟩ := ho (Bool.or_eq_false_iff.1 hd).1
    exact ⟨hserved, hind⟩
  | @begins i roles ha hclaim =>
    have hctl := (prepare_writes (s.withRoles i roles) i).sameControl
    obtain ⟨-, hbegin⟩ | ⟨x, hx, hbegin⟩ := beginOp_cases (s.withRoles i roles) i
    · rw [hbegin]
      intro hd
      obtain ⟨hserved, hind⟩ := ho (Bool.or_eq_false_iff.1 hd).1
      exact ⟨hserved, hind⟩
    · rw [hbegin]
      intro hd
      have hflag : ((s.withRoles i roles).prepare i).directWriteTx = false := by
        revert hd
        cases issuer i <;> exact id
      rw [hctl.directWriteTx] at hflag
      obtain ⟨hs, hi⟩ := Bool.or_eq_false_iff.1 hflag
      have hatt := ho hs
      have hprep : s.TxServed → ((s.withRoles i roles).prepare i).TxServed := by cases i <;> exact id
      refine ⟨?_, fun y hy => ?_⟩
      · cases hiss : issuer i with
        | M => exact .inl (hprep (hatt.served_of_mayBegin hiss (admitContext_ok.1 ha).2.2))
        | I =>
          refine hatt.served.imp hprep fun hwin => ?_
          exact (congrArg armWindow hctl.main).trans hwin
      · rcases List.mem_cons.1 (mem_inProgress_enter hy) with rfl | hy
        · exact hx.writesTx.trans hi
        · exact hatt.indirect y (hctl.inProgress ▸ hy)
  | @whole i roles t ha hclaim hm =>
    intro hd
    have hdir : t.directWriteTx = (s.directWriteTx || writesTxDirectly i) := by
      obtain ⟨u, hu, rfl | ⟨bytes, rest, -, rfl⟩⟩ := meaning_writes hm
      · exact hu.sameControl.directWriteTx
      · exact hu.sameControl.directWriteTx
    obtain ⟨hs, hi⟩ := Bool.or_eq_false_iff.1 (hdir ▸ hd)
    have hatt := ho hs
    have hserved : s.TxServed → t.TxServed :=
      meaning_txServed (s := s.withRoles i roles) (fun b => (hq b).wf) hi hm
    refine ⟨?_, fun y hy => ?_⟩
    · cases hiss : issuer i with
      | M => exact .inl (hserved (hatt.served_of_mayBegin hiss (admitContext_ok.1 ha).2.2))
      | I =>
        obtain ⟨u, hu, rfl | ⟨bytes, rest, rfl, -⟩⟩ := meaning_writes hm
        · exact hatt.served.imp hserved fun hwin => (congrArg armWindow hu.sameControl.main).trans hwin
        · cases hiss
    · rcases mem_inProgress.1 hy with hy | hy
      · obtain hmain | ⟨v, rest, hmain⟩ := meaning_main hm
        · rw [hmain] at hy
          exact hatt.indirect y (mem_inProgress.2 (.inl hy))
        · rw [hmain] at hy
          cases hy
          rfl
      · rw [meaning_irq hm] at hy
        exact hatt.indirect y (mem_inProgress.2 (.inr hy))
  | @mainline x x' s1 hx ha hm =>
    intro hd
    have hctl := (microStep_writes hm).sameControl
    obtain ⟨hserved, hind⟩ := ho (hctl.directWriteTx ▸ hd)
    have hmem : x ∈ s.inProgress := mem_inProgress.2 (.inl hx)
    rw [hx] at hserved
    have hnow : s1.TxServed ∨ armWindow x' = true := by
      by_cases hu : x.uses .write = some .tx
      · exact microStep_txServed_or_window hu (hind x hmem) (htest x hmem) hm hserved
      · exact .inl (microStep_txServed hu (htest x hmem) (microStep_levelsMove hq hmem hm) hm
          (hserved.resolve_right fun hwin => hu (uses_write_of_armWindow hwin)))
    refine ⟨hnow, fun y hy => ?_⟩
    rcases mem_inProgress.1 hy with hy | hy
    · obtain rfl : x' = some y := hy
      rw [(microStep_continues hm).writesTx]
      exact hind x hmem
    · exact hind y (mem_inProgress.2 (.inr (hctl.irq ▸ hy)))
  | @interrupt x rest x' s1 hx hm =>
    intro hd
    have hctl := (microStep_writes hm).sameControl
    obtain ⟨hserved, hind⟩ := ho (hctl.directWriteTx ▸ hd)
    have hirq : x ∈ s.irq := by simp [hx]
    have hmem : x ∈ s.inProgress := mem_inProgress.2 (.inr hirq)
    have hnow : s.TxServed → s1.TxServed :=
      microStep_txServed (uses_write_ne_tx_of_ofIrq (hirqctx x hirq) (hind x hmem)) (htest x hmem)
        (microStep_levelsMove hq hmem hm) hm
    refine ⟨hserved.imp hnow fun hwin => (congrArg armWindow hctl.main).trans hwin, fun y hy => ?_⟩
    rcases mem_inProgress.1 hy with hy | hy
    · exact hind y (mem_inProgress.2 (.inl (hctl.main ▸ hy)))
    · rcases List.mem_append.1 hy with hy | hy
      · obtain rfl := Option.mem_toList.1 hy
        rw [(microStep_continues hm).writesTx]
        exact hind x hmem
      · exact hind y (mem_inProgress.2 (.inr (by simp [hx, hy])))
  | restart => exact fun _ => ⟨.inl (.inl (initial_isEmpty _ _ _)), fun x hx => by cases hx⟩

/-- Settles O54: what does not fill `tx` disarms it only while it is empty, and what fills it arms next, in the window that
is left out. -/
theorem stepKeepsTheArmInvariant : Obligations.StepKeepsTheArmInvariant := by
  unfold Obligations.StepKeepsTheArmInvariant
  intro s t hgood htests ho h
  obtain ⟨s', ⟨_, _, _, _, rfl⟩, hst⟩ := step_next_cases h
  exact stepCase_armOk hst hgood htests ho

end Sys2Proof.Machine
end

section
/-! PROOFS. The operations of the `SerialLink` on single bytes, where they are ready to run (41_seriallink.md R140, R142 to
R144), and a message that is held (R141). -/

namespace Sys2Proof.Machine

section

variable {s s1 : State} {v : Byte} {slots : Memory}

/-! ## `SL.ENQB` -/

/-- `enqueueByte` on a `tx` with room stores the byte at `head`, advances it, and arms. -/
theorem enqueueByte_of_room (hf : s.isFull .tx = false)
    (hs : Memory.write (s.ring .tx).slots (s.ring .tx).head v = some slots) :
    s.enqueueByte v = .ok (false, { s with
      rings := s.rings.set .tx ⟨slots, ((s.ring .tx).head + 1) % s.cap .tx, (s.ring .tx).tail⟩
      txArmed := true
      accepted := s.accepted.set .tx (s.accepted.tx ++ [v]) }) := by
  rw [State.enqueueByte, writeBuf_of_room hf hs]
  rfl

theorem enqueueByte_of_full (v : Byte) (hf : s.isFull .tx = true) : s.enqueueByte v = .ok (true, s) := by
  rw [State.enqueueByte, writeBuf_of_full v hf]

theorem meaning_slEnqb_of_enqueueByte {e : Bool} (h : s.enqueueByte v = .ok (e, s1)) :
    meaning (.slEnqb v) s = .ok (s1.returnErr .M e) := by
  simp only [meaning, h]

theorem exec_slEnqb_of_room (hready : Ready s (.slEnqb v)) (hf : s.isFull .tx = false)
    (hs : Memory.write (s.ring .tx).slots (s.ring .tx).head v = some slots) :
    exec (.slEnqb v) s = .next
      { s.admitted (.slEnqb v) with
        rings := s.rings.set .tx ⟨slots, ((s.ring .tx).head + 1) % s.cap .tx, (s.ring .tx).tail⟩
        txArmed := true
        accepted := s.accepted.set .tx (s.accepted.tx ++ [v])
        replies := s.replies ++ [(.M, .err false)] } := by
  rw [hready.exec_eq rfl, meaning_slEnqb_of_enqueueByte (enqueueByte_of_room (s := s.admitted (.slEnqb v)) hf hs)]
  rfl

theorem exec_slEnqb_of_full (hready : Ready s (.slEnqb v)) (hf : s.isFull .tx = true) :
    exec (.slEnqb v) s = .next
      { s.admitted (.slEnqb v) with
        errSlot := s.errSlot.set .M 1#2
        replies := s.replies ++ [(.M, .err true)] } := by
  rw [hready.exec_eq rfl, meaning_slEnqb_of_enqueueByte (enqueueByte_of_full (s := s.admitted (.slEnqb v)) v hf)]
  rfl

/-! ## `SL.DEQB` -/

theorem meaning_slDeqb_of_readBuf {r : Option Byte} (h : s.readBuf .rx = .ok (r, s1)) :
    meaning .slDeqb s = .ok (s1.returnDeq .M r) := by
  simp only [meaning, h]

theorem exec_slDeqb_of_byte (hready : Ready s .slDeqb) (he : s.isEmpty .rx = false)
    (hv : Memory.read (s.ring .rx).slots (s.ring .rx).tail = some v) :
    exec .slDeqb s = .next
      { s.admitted .slDeqb with
        rings := s.rings.set .rx ⟨(s.ring .rx).slots, (s.ring .rx).head, ((s.ring .rx).tail + 1) % s.cap .rx⟩
        delivered := s.delivered.set .rx (s.delivered.rx ++ [v])
        replies := s.replies ++ [(.M, .errByte false v)] } := by
  rw [hready.exec_eq rfl, meaning_slDeqb_of_readBuf (readBuf_of_byte (s := s.admitted .slDeqb) he hv)]
  rfl

theorem exec_slDeqb_of_empty (hready : Ready s .slDeqb) (he : s.isEmpty .rx = true) :
    exec .slDeqb s = .next
      { s.admitted .slDeqb with
        errSlot := s.errSlot.set .M 1#2
        replies := s.replies ++ [(.M, .errByte true 0#8)] } := by
  rw [hready.exec_eq rfl, meaning_slDeqb_of_readBuf (readBuf_of_empty (s := s.admitted .slDeqb) he)]
  rfl

/-! ## `SL.TXRDY` -/

theorem onTransmitReady_of_readBuf (he : s.isEmpty .tx = false) (h : s.readBuf .tx = .ok (some v, s1)) :
    s.onTransmitReady = .ok (s1.transmit v) := by
  simp [State.onTransmitReady, he, h]

theorem onTransmitReady_of_empty (he : s.isEmpty .tx = true) : s.onTransmitReady = .ok s.disarmTx := by
  simp [State.onTransmitReady, he]

theorem exec_slTxrdy_of_byte (hready : Ready s .slTxrdy) (harm : s.txArmed = true) (he : s.isEmpty .tx = false)
    (hv : Memory.read (s.ring .tx).slots (s.ring .tx).tail = some v) :
    exec .slTxrdy s = .next
      { s.admitted .slTxrdy with
        rings := s.rings.set .tx ⟨(s.ring .tx).slots, (s.ring .tx).head, ((s.ring .tx).tail + 1) % s.cap .tx⟩
        delivered := s.delivered.set .tx (s.delivered.tx ++ [v])
        txReg := v
        txOut := s.txOut ++ [v] } := by
  rw [hready.exec_eq harm, meaning,
    onTransmitReady_of_readBuf (s := s.admitted .slTxrdy) he (readBuf_of_byte (s := s.admitted .slTxrdy) he hv)]
  rfl

theorem exec_slTxrdy_of_empty (hready : Ready s .slTxrdy) (harm : s.txArmed = true) (he : s.isEmpty .tx = true) :
    exec .slTxrdy s = .next { s.admitted .slTxrdy with txArmed := false } := by
  rw [hready.exec_eq harm, meaning, onTransmitReady_of_empty (s := s.admitted .slTxrdy) he]
  rfl

/-! ## `SL.RXRDY` -/

/-- The presented byte is consumed, and written to an `rx` that is not full. -/
theorem meaning_slRxrdy_of_writeBuf {o : Bool} (hf : s.isFull .rx = false)
    (h : ({ s with rcReg := none } : State).writeBuf .rx v = .ok (o, s1)) : meaning (.slRxrdy v) s = .ok s1 := by
  have hc : (s.presentByte v).consumeRcreg = .ok (v, { s with rcReg := none }) := rfl
  have hf' : ({ s with rcReg := none } : State).isFull .rx = false := hf
  simp [meaning, State.onReceiveReady, hc, hf', h]

/-- The presented byte is consumed, and dropped where `rx` is full. -/
theorem meaning_slRxrdy_of_full (v : Byte) (hf : s.isFull .rx = true) :
    meaning (.slRxrdy v) s = .ok { s with rcReg := none } := by
  have hc : (s.presentByte v).consumeRcreg = .ok (v, { s with rcReg := none }) := rfl
  have hf' : ({ s with rcReg := none } : State).isFull .rx = true := hf
  simp [meaning, State.onReceiveReady, hc, hf']

theorem exec_slRxrdy_of_room (hready : Ready s (.slRxrdy v)) (hf : s.isFull .rx = false)
    (hs : Memory.write (s.ring .rx).slots (s.ring .rx).head v = some slots) :
    exec (.slRxrdy v) s = .next
      { s.admitted (.slRxrdy v) with
        rings := s.rings.set .rx ⟨slots, ((s.ring .rx).head + 1) % s.cap .rx, (s.ring .rx).tail⟩
        accepted := s.accepted.set .rx (s.accepted.rx ++ [v])
        rcReg := none } := by
  rw [hready.exec_eq rfl, meaning_slRxrdy_of_writeBuf (s := s.admitted (.slRxrdy v)) hf
    (writeBuf_of_room (s := { s.admitted (.slRxrdy v) with rcReg := none }) hf hs)]
  rfl

theorem exec_slRxrdy_of_full (hready : Ready s (.slRxrdy v)) (hf : s.isFull .rx = true) :
    exec (.slRxrdy v) s = .next { s.admitted (.slRxrdy v) with rcReg := none } := by
  rw [hready.exec_eq rfl, meaning_slRxrdy_of_full (s := s.admitted (.slRxrdy v)) v hf]
  rfl

end

/-! ## The statements -/

/-- Settles O18: `enqueueByte` is the `write`, whose two paths are told apart by "full", and A1 on success alone. -/
theorem enqbQueuesAndArmsOrFails : Obligations.EnqbQueuesAndArmsOrFails := by
  unfold Obligations.EnqbQueuesAndArmsOrFails
  intro s v hready
  refine ⟨fun hf => ?_, exec_slEnqb_of_full hready⟩
  obtain ⟨slots, hs⟩ := Ring.write_of_wf (hready.ring_wf .tx) v
  exact ⟨slots, slotStored_of_write hs, exec_slEnqb_of_room hready hf hs⟩

/-- Settles O23: the meaning is the `read` of `rx`, whose two paths are told apart by "empty". -/
theorem deqbTakesAByteOfRx : Obligations.DeqbTakesAByteOfRx := by
  unfold Obligations.DeqbTakesAByteOfRx
  intro s hready
  refine ⟨fun he => ?_, exec_slDeqb_of_empty hready⟩
  have hw := hready.ring_wf .rx
  obtain ⟨v, hv⟩ := Ring.read_of_wf hw (Ring.wf_iff.1 hw).2.2
  exact ⟨v, hv, exec_slDeqb_of_byte hready he hv⟩

/-- Settles O24: X1 tells the two paths apart, and after it the `read` of `tx` finds a byte. -/
theorem txrdyTransmitsOrDisarms : Obligations.TxrdyTransmitsOrDisarms := by
  unfold Obligations.TxrdyTransmitsOrDisarms
  intro s hready harm
  refine ⟨fun he => ?_, exec_slTxrdy_of_empty hready harm⟩
  have hw := hready.ring_wf .tx
  obtain ⟨v, hv⟩ := Ring.read_of_wf hw (Ring.wf_iff.1 hw).2.2
  exact ⟨v, hv, exec_slTxrdy_of_byte hready harm he hv⟩

/-- Settles O26: V1 consumes the presented byte on both paths, and V2 tells them apart. -/
theorem rxrdyStoresOrDrops : Obligations.RxrdyStoresOrDrops := by
  unfold Obligations.RxrdyStoresOrDrops
  intro s r hready
  refine ⟨fun hf => ?_, exec_slRxrdy_of_full hready⟩
  obtain ⟨slots, hs⟩ := Ring.write_of_wf (hready.ring_wf .rx) r
  exact ⟨slots, slotStored_of_write hs, exec_slRxrdy_of_room hready hf hs⟩

/-- L1 is a poll that changes nothing, and goes on to the `write` of the byte once there is room. -/
theorem microStep_slEnqm_l1 (s : State) (a : Agent) (b : Byte) (rest : List Byte) (e : Bool) :
    microStep s a (.slEnqm (b :: rest) e .l1)
      = .ok (s, some (.slEnqm (b :: rest) e (if s.isFull .tx then .l1 else .l2 (.write .w1)))) := by
  simp only [microStep, microEnqm]
  cases s.isFull .tx <;> rfl

/-- With nothing to come and nothing in the interrupt context, a step is the mainline's next micro-step. -/
theorem step_of_mainline {s s1 : State} {x x' : Activity} (hw : s.cfg.wf = true) (ha : s.agenda = [])
    (hirq : s.irq = []) (hx : s.main = some x) (hm : microStep s .M x = .ok (s1, some x')) :
    step s = .next (s1.enterMain x') := by
  rw [step_of_wf hw]
  simp only [stepOnce, ha, hirq, hx, advanceMain, mainMayAdvance, hm, List.isEmpty_nil, Bool.true_or, if_true]

/-- Settles O22: the step is the mainline's L1. -/
theorem heldMessagePollsUntilThereIsRoom : Obligations.HeldMessagePollsUntilThereIsRoom := by
  unfold Obligations.HeldMessagePollsUntilThereIsRoom
  intro s b rest e hw ha hirq hx
  rw [step_of_mainline hw ha hirq hx (microStep_slEnqm_l1 s .M b rest e)]
  refine ⟨fun hf => ?_, fun hf => ?_⟩
  · simp only [hf, if_true, State.enterMain, ← hx]
  · simp [hf, State.enterMain]

end Sys2Proof.Machine
end

section
/-! PROOFS. `enqueueMessage` (41_seriallink.md R141): the loop queues as many bytes as there is room for, one after the
other, and is then held or ends. -/

namespace Sys2Proof.Machine

/-! ## Bytes pushed into a buffer -/

/-- The buffer after a `write` of a byte: the slot at `head` holds it, and `head` is advanced (R121). -/
def Ring.push (c : Nat) (r : Ring) (v : Byte) : Ring :=
  ⟨(Memory.write r.slots r.head v).getD r.slots, incC c r.head, r.tail⟩

/-- The buffer after a `write` of each byte in turn. -/
def Ring.pushes (c : Nat) (r : Ring) (bytes : List Byte) : Ring := bytes.foldl (Ring.push c) r

section Push

variable {c : Nat} {r : Ring}

theorem Ring.push_of_write {v : Byte} {slots : Memory} (hs : Memory.write r.slots r.head v = some slots) :
    r.push c v = ⟨slots, incC c r.head, r.tail⟩ := by
  rw [Ring.push, hs, Option.getD_some]

theorem Ring.pushes_cons (v : Byte) (bytes : List Byte) :
    r.pushes c (v :: bytes) = (r.push c v).pushes c bytes := rfl

theorem Ring.full_iff_room (hw : r.wf c = true) : r.full c = true ↔ r.room c = 0 := by
  obtain ⟨-, hh, ht⟩ := Ring.wf_iff.1 hw
  have hlt := Ring.count_lt hh ht
  rw [Ring.full_iff_count hh ht, Ring.room]
  omega

theorem Ring.wf_push (hw : r.wf c = true) (v : Byte) : (r.push c v).wf c = true := by
  obtain ⟨slots, hs⟩ := Ring.write_of_wf hw v
  rw [Ring.push_of_write hs]
  exact Ring.wf_publish (Ring.wf_store hw hs)

theorem Ring.room_push (hw : r.wf c = true) (hf : r.full c = false) (v : Byte) :
    r.room c = (r.push c v).room c + 1 := by
  obtain ⟨-, hh, ht⟩ := Ring.wf_iff.1 hw
  obtain ⟨-, hh', ht'⟩ := Ring.wf_iff.1 (Ring.wf_push hw v)
  have hcount : (r.push c v).count c = r.count c + 1 := Ring.count_publish hh ht hf
  have hlt := Ring.count_lt hh' ht'
  simp only [Ring.room, hcount] at hlt ⊢
  omega

theorem Ring.wf_pushes (hw : r.wf c = true) (bytes : List Byte) : (r.pushes c bytes).wf c = true := by
  induction bytes generalizing r with
  | nil => exact hw
  | cons v rest ih => exact ih (Ring.wf_push hw v)

theorem Ring.room_pushes {bytes : List Byte} (hw : r.wf c = true) (hroom : bytes.length ≤ r.room c) :
    r.room c = (r.pushes c bytes).room c + bytes.length := by
  induction bytes generalizing r with
  | nil => rfl
  | cons v rest ih =>
    simp only [List.length_cons] at hroom ⊢
    have hf : r.full c = false := by
      rw [Bool.eq_false_iff, ne_eq, Ring.full_iff_room hw]
      omega
    have hpush := Ring.room_push hw hf v
    rw [hpush, Ring.pushes_cons, ih (Ring.wf_push hw v) (by omega), Nat.add_assoc]

theorem Ring.pushes_tail (bytes : List Byte) : (r.pushes c bytes).tail = r.tail := by
  induction bytes generalizing r with
  | nil => rfl
  | cons v rest ih => exact ih

theorem Ring.pushes_head (hh : r.head < c) (bytes : List Byte) :
    (r.pushes c bytes).head = (r.head + bytes.length) % c := by
  induction bytes generalizing r with
  | nil => exact (Nat.mod_eq_of_lt hh).symm
  | cons v rest ih => exact (ih (Nat.mod_lt _ (by omega))).trans incC_add_mod

/-- The buffer after pushes by its parts. -/
theorem Ring.pushes_eq (hw : r.wf c = true) (bytes : List Byte) :
    r.pushes c bytes = ⟨(r.pushes c bytes).slots, (r.head + bytes.length) % c, r.tail⟩ := by
  rw [← Ring.pushes_head (Ring.wf_iff.1 hw).2.1, ← Ring.pushes_tail bytes]

/-- Each byte is in the slot that was at `head` in its turn, and the other slots read as before. -/
theorem Ring.bytesStored_pushes {bytes : List Byte} (hw : r.wf c = true) (hlen : bytes.length ≤ c) :
    BytesStored c r r.head bytes (r.pushes c bytes).slots := by
  induction bytes generalizing r with
  | nil => exact ⟨rfl, by simp, fun _ _ => rfl⟩
  | cons v rest ih =>
    obtain ⟨slots, hs⟩ := Ring.write_of_wf hw v
    obtain ⟨-, hh, -⟩ := Ring.wf_iff.1 hw
    rw [List.length_cons] at hlen
    obtain ⟨haddr, hin, hout⟩ := ih (Ring.wf_push hw v) (by omega)
    rw [← Ring.pushes_cons, Ring.push_of_write hs] at haddr hin hout
    simp only [incC_add_mod] at hin hout
    have hnext : ∀ k, k < rest.length → r.head ≠ (r.head + (k + 1)) % c := fun k hk => by
      rw [add_mod_of_lt hh (by omega)]
      split <;> omega
    refine ⟨haddr.trans (Memory.write_addrs hs), fun k hk => ?_, fun j hj => ?_⟩
    · cases k with
      | zero =>
        rw [Nat.add_zero, Nat.mod_eq_of_lt hh, hout _ hnext]
        exact Memory.read_write_same hs
      | succ k => exact hin k (Nat.lt_of_succ_lt_succ hk)
    · have hne : j ≠ r.head := by
        have hzero := hj 0 (Nat.zero_lt_succ _)
        rwa [Nat.add_zero, Nat.mod_eq_of_lt hh] at hzero
      rw [hout j fun k hk => hj (k + 1) (Nat.succ_lt_succ hk)]
      exact Memory.read_write_other hs hne

end Push

/-! ## The loop of `enqueueMessage` -/

/-- The state with the bytes queued in `tx`, which arms unless there are none. -/
def State.queued (s : State) (bytes : List Byte) : State :=
  { s with
    rings := s.rings.set .tx ((s.ring .tx).pushes (s.cap .tx) bytes)
    txArmed := s.txArmed || !bytes.isEmpty
    accepted := s.accepted.set .tx (s.accepted.tx ++ bytes) }

section Loop

variable {s : State}

theorem State.queued_nil (s : State) : s.queued [] = s := by
  have hrings : s.rings.set .tx (s.ring .tx) = s.rings := ByBuf.set_get _ _
  have haccepted : s.accepted.set .tx s.accepted.tx = s.accepted := ByBuf.set_get _ _
  simp [State.queued, Ring.pushes, hrings, haccepted]

theorem State.queued_queued (s : State) (xs ys : List Byte) : (s.queued xs).queued ys = s.queued (xs ++ ys) := by
  have harm : (s.txArmed || !xs.isEmpty || !ys.isEmpty) = (s.txArmed || !(xs ++ ys).isEmpty) := by
    cases xs <;> simp
  simp [State.queued, Ring.pushes, State.ring, State.cap, harm]

/-- `enqueueByte` on a `tx` with room queues the byte. -/
theorem enqueueByte_eq_queued (hw : (s.ring .tx).wf (s.cap .tx) = true) (hf : s.isFull .tx = false) (v : Byte) :
    s.enqueueByte v = .ok (false, s.queued [v]) := by
  obtain ⟨slots, hs⟩ := Ring.write_of_wf hw v
  rw [enqueueByte_of_room hf hs]
  simp [State.queued, Ring.pushes, Ring.push_of_write hs, incC]

/-- The bytes at the front that there is room for are queued, and the loop goes on with the others. -/
theorem enqueueBytes_append {xs : List Byte} (hw : (s.ring .tx).wf (s.cap .tx) = true)
    (hroom : xs.length ≤ (s.ring .tx).room (s.cap .tx)) (rest : List Byte) :
    s.enqueueBytes false (xs ++ rest) = (s.queued xs).enqueueBytes false rest := by
  induction xs generalizing s with
  | nil => rw [State.queued_nil, List.nil_append]
  | cons v xs ih =>
    rw [List.length_cons] at hroom
    have hf : s.isFull .tx = false := by
      rw [Bool.eq_false_iff, ne_eq, State.isFull, Ring.full_iff_room hw]
      omega
    have hroom' : xs.length ≤ ((s.ring .tx).push (s.cap .tx) v).room (s.cap .tx) := by
      rw [Ring.room_push hw hf v] at hroom
      exact Nat.le_of_succ_le_succ hroom
    calc s.enqueueBytes false (v :: xs ++ rest)
        = (s.queued [v]).enqueueBytes false (xs ++ rest) := by
          simp [State.enqueueBytes, hf, enqueueByte_eq_queued hw hf v, State.recordErr]
      _ = ((s.queued [v]).queued xs).enqueueBytes false rest :=
          ih (Ring.wf_push hw v) hroom'
      _ = (s.queued (v :: xs)).enqueueBytes false rest := by rw [State.queued_queued, List.singleton_append]

/-- With no room the loop is held at L1. -/
theorem enqueueBytes_of_full {bytes : List Byte} (hf : s.isFull .tx = true) (hne : bytes ≠ []) (e : Bool) :
    s.enqueueBytes e bytes = .ok (s.enterMain (.slEnqm bytes e .l1)) := by
  cases bytes with
  | nil => exact absurd rfl hne
  | cons v rest => simp [State.enqueueBytes, hf]

/-! ## `SL.ENQM` -/

/-- An operation of the `SerialLink` fixes the record of roles and changes nothing else on admission. -/
theorem Ready.admitted_of_sl {i : Instr} (h : Ready s i) (hi : componentOf i = .sl) :
    s.admitted i = { s with roles := linkRoles } := by
  have hu : usesLink i = true ∧ writesTxDirectly i = false ∧ readsTxDirectly i = false := by
    cases i with
    | slEnqb | slEnqm | slDeqb | slTxrdy | slRxrdy => exact ⟨rfl, rfl, rfl⟩
    | _ => cases hi
  obtain ⟨hlink, hw, hr⟩ := hu
  obtain ⟨roles, hroles⟩ := Option.isSome_iff_exists.1 h.2.2.2.2
  obtain ⟨-, rfl⟩ := claimRoles_usesLink hlink hroles
  simp [State.admitted, hroles, State.withRoles, hw, hr]

theorem Ready.exec_slEnqm {bytes : List Byte} (h : Ready s (.slEnqm bytes)) :
    exec (.slEnqm bytes) s = outcomeOf ((s.admitted (.slEnqm bytes)).enqueueBytes false bytes) := h.exec_eq rfl

/-- A message that fits is queued whole and returns 0. -/
theorem exec_slEnqm_of_room {bytes : List Byte} (hready : Ready s (.slEnqm bytes))
    (hroom : bytes.length ≤ (s.ring .tx).room (s.cap .tx)) :
    exec (.slEnqm bytes) s = .next (((s.admitted (.slEnqm bytes)).queued bytes).reply .M (.err false)) := by
  have hloop := enqueueBytes_append (s := s.admitted (.slEnqm bytes)) (hready.ring_wf .tx) hroom []
  rw [List.append_nil] at hloop
  rw [hready.exec_slEnqm, hloop]
  rfl

/-- A longer message is held with what does not fit. -/
theorem exec_slEnqm_of_no_room {bytes : List Byte} {n : Nat} (hready : Ready s (.slEnqm bytes))
    (hroom : n = (s.ring .tx).room (s.cap .tx)) (hlt : n < bytes.length) :
    exec (.slEnqm bytes) s = .next
      (((s.admitted (.slEnqm bytes)).queued (bytes.take n)).enterMain (.slEnqm (bytes.drop n) false .l1)) := by
  have hw := hready.ring_wf .tx
  have hlen : (bytes.take n).length = n := List.length_take_of_le (Nat.le_of_lt hlt)
  have hfit : (bytes.take n).length ≤ (s.ring .tx).room (s.cap .tx) := by omega
  have hfull : ((s.admitted (.slEnqm bytes)).queued (bytes.take n)).isFull .tx = true := by
    have hleft := Ring.room_pushes hw hfit
    exact (Ring.full_iff_room (Ring.wf_pushes hw (bytes.take n))).2 (by omega)
  have hloop := enqueueBytes_append (s := s.admitted (.slEnqm bytes)) hw hfit (bytes.drop n)
  rw [List.take_append_drop, enqueueBytes_of_full hfull (by simpa using hlt)] at hloop
  rw [hready.exec_slEnqm, hloop, outcomeOf_ok]

end Loop

/-! ## The statements -/

/-- Settles O19: the loop queues all bytes, which fit, and ends. -/
theorem enqmQueuesAMessageThatFits : Obligations.EnqmQueuesAMessageThatFits := by
  unfold Obligations.EnqmQueuesAMessageThatFits
  intro s bytes hready hroom
  have hw := hready.ring_wf .tx
  have hlen : bytes.length ≤ s.cap .tx := by
    simp only [Ring.room] at hroom
    omega
  refine ⟨_, Ring.bytesStored_pushes hw hlen, ?_⟩
  rw [exec_slEnqm_of_room hready hroom, ← Ring.pushes_eq hw]
  rfl

/-- Settles O20: the loop queues as many bytes as there is room for, and the next byte finds `tx` full. -/
theorem enqmIsHeldOnAFullBuffer : Obligations.EnqmIsHeldOnAFullBuffer := by
  unfold Obligations.EnqmIsHeldOnAFullBuffer
  intro s bytes n hready hn hlt
  have hw := hready.ring_wf .tx
  have hlen : (bytes.take n).length = n := List.length_take_of_le (Nat.le_of_lt hlt)
  have hcap : n ≤ s.cap .tx := by
    simp only [Ring.room] at hn
    omega
  have harm : (!(bytes.take n).isEmpty) = decide (0 < n) := by
    rw [Bool.eq_iff_iff, Bool.not_eq_true', List.isEmpty_eq_false_iff, ← List.length_pos_iff, hlen, decide_eq_true_eq]
  refine ⟨_, Ring.bytesStored_pushes hw (hlen.symm ▸ hcap), ?_⟩
  have hring := Ring.pushes_eq hw (bytes.take n)
  rw [hlen] at hring
  rw [exec_slEnqm_of_no_room hready hn hlt, ← hring, ← harm]
  rfl

/-- Settles O21: the first call leaves the state in which the one call goes on with the second part, but for its result. -/
theorem enqmSplitsIntoTwoCalls : Obligations.EnqmSplitsIntoTwoCalls := by
  unfold Obligations.EnqmSplitsIntoTwoCalls
  intro s xs ys hready hroom
  rw [List.length_append] at hroom
  have hw := hready.ring_wf .tx
  have hfirst : Ready s (.slEnqm xs) := hready
  have hxs := exec_slEnqm_of_room hfirst (by omega)
  have hleft := Ring.room_pushes (bytes := xs) hw (by omega)
  have hys : ys.length ≤ ((s.ring .tx).pushes (s.cap .tx) xs).room (s.cap .tx) := by omega
  rw [hfirst.admitted_of_sl rfl] at hxs
  obtain ⟨hwf, ho, hinit, hbegin, -⟩ := hfirst
  have hsecond : Ready _ (.slEnqm ys) := ⟨(stepCase_wf (stepCase_of_exec hxs) hwf).1, ho, hinit, hbegin, rfl⟩
  refine ⟨_, _, exec_slEnqm_of_room hready (by rwa [List.length_append]), hxs, ?_⟩
  rw [exec_slEnqm_of_room hsecond hys, hready.admitted_of_sl rfl, ← State.queued_queued, hsecond.admitted_of_sl rfl]
  rfl

end Sys2Proof.Machine
end

section
/-! PROOFS. The source's end-to-end check (41_seriallink.md R148): one byte queued after reset is transmitted, then the
interrupt is disarmed, and then it is not delivered any more. -/

namespace Sys2Proof.Machine

/-- A condition that is ready but whose gate is closed changes nothing beyond its admission (R196). -/
theorem Ready.exec_closed {s : State} {i : Instr} (h : Ready s i) (hg : gateOpen i s = false) :
    exec i s = .next (s.admitted i) := by
  rw [exec_eq_issue_meaning, issue_closed h.admission.1 hg h.admission.2]

/-- After an operation of a `SerialLink` on single bytes, with nothing in progress, a transmit-ready condition is ready. -/
theorem Ready.slTxrdy_after {s u : State} {i : Instr} (hgood : Good s) (hmain : s.main = none) (hirq : s.irq = [])
    (hi : Ready s i) (hu : usesLink i = true) (hmsg : ∀ bytes, i ≠ .slEnqm bytes) (he : exec i s = .next u) :
    Good u ∧ Ready u .slTxrdy :=
  ⟨stepCase_good (stepCase_of_exec he) hgood, (Ready.after hgood hmain hirq hi he hmsg rfl fun r hr => by
    obtain ⟨-, rfl⟩ := claimRoles_usesLink hu hr
    rfl).1⟩

/-- The bytes resident in `tx` are those written that have not been read. -/
theorem Good.order_tx {s : State} (h : Good s) :
    s.accepted.tx = s.delivered.tx ++ (s.ring .tx).contents (s.cap .tx) := by
  obtain ⟨-, -, -, hfifo, -⟩ := h
  exact (State.fifoOk_iff.1 hfifo).1 .tx

/-- Settles O27: the three operations run one after the other, and FIFO order says which byte is in `tx` between them. -/
theorem enqueueDrainDisarmFromReset : Obligations.EnqueueDrainDisarmFromReset := by
  unfold Obligations.EnqueueDrainDisarmFromReset
  intro p epoch v hp
  have hgood : Good { State.initial p epoch with initDone := true } := initial_good hp epoch [] []
  have hready : Ready { State.initial p epoch with initDone := true } (.slEnqb v) := ⟨hgood.1, rfl, rfl, rfl, rfl⟩
  obtain ⟨-, -, -, hroom, -⟩ := (resetLeavesTheSpecifiedValues p epoch _ rfl hp).1 .tx
  obtain ⟨slots, ⟨-, hslots⟩, he1⟩ := (enqbQueuesAndArmsOrFails _ v hready).1 hroom
  obtain ⟨hgood1, hready1⟩ := hready.slTxrdy_after hgood rfl rfl rfl (by simp) he1
  have hcontents := hgood1.order_tx
  have hbyte : Memory.read slots 0 = some v := hslots 0
  have hempty1 : State.isEmpty _ .tx = false := Bool.eq_false_iff.2 fun he => by
    rw [Ring.contents_of_empty (hready1.ring_wf .tx) he] at hcontents
    cases hcontents
  have he2 := exec_slTxrdy_of_byte hready1 rfl hempty1 hbyte
  obtain ⟨hgood2, hready2⟩ := hready1.slTxrdy_after hgood1 rfl rfl rfl (by simp) he2
  have he3 := exec_slTxrdy_of_empty hready2 rfl (Ring.empty_iff.2 rfl)
  obtain ⟨-, hready3⟩ := hready2.slTxrdy_after hgood2 rfl rfl rfl (by simp) he3
  have he4 := hready3.exec_closed rfl
  rw [hready3.admitted_of_sl rfl] at he4
  exact ⟨_, _, _, he1, rfl, hcontents.symm, he2, rfl, Ring.empty_iff.2 rfl, rfl, he3, rfl, rfl, rfl, he4⟩

end Sys2Proof.Machine
end

section
/-! PROOFS. The pins (20_memory.md R67): what one pin write does to every bit of the `IO` space, and the four pin writes
of `onTick` and `release` one after the other (D15). -/

namespace Sys2Proof.Machine

/-! ## One bit of a space -/

/-- The bit of a space that a pin reference names; none where its location does not exist. -/
def Memory.bitAt (m : Memory) (r : PinRef) : Option Bool := (Memory.read m r.loc).map fun v => v.getLsbD r.bit

theorem State.pinLevel_eq_bitAt (s : State) (i : Fin 4) :
    s.pinLevel i = (Memory.bitAt s.io (s.cfg.pins.get i)).getD false := by
  unfold State.pinLevel Memory.bitAt
  cases Memory.read s.io (s.cfg.pins.get i).loc <;> rfl

/-- A pin that is bound has its level at its bit. -/
theorem bitAt_of_pinBound {s : State} {i : Fin 4} (h : s.pinBound i = true) :
    Memory.bitAt s.io (s.cfg.pins.get i) = some (s.pinLevel i) := by
  obtain ⟨v, hv⟩ := Option.isSome_iff_exists.1 h
  simp [State.pinLevel_eq_bitAt, Memory.bitAt, hv]

theorem getLsbD_pinMask {r : PinRef} (hr : r.bit ≤ 7) (b : Nat) : (pinMask r).getLsbD b = decide (b = r.bit) := by
  rw [pinMask, BitVec.getLsbD_shiftLeft, BitVec.getLsbD_one, Bool.eq_iff_iff]
  simp only [Bool.and_eq_true, Bool.not_eq_true', decide_eq_true_eq, decide_eq_false_iff_not]
  omega

/-- `set_pin` and `clear_pin` write the pin's bit and keep the others (R67). -/
theorem getLsbD_pinByte {r : PinRef} (hr : r.bit ≤ 7) (level : Bool) (v : Byte) (b : Nat) :
    (pinByte r level v).getLsbD b = if b = r.bit then level else v.getLsbD b := by
  have hb : v.getLsbD b = true → b < 8 := BitVec.lt_of_getLsbD
  cases level
  · simp only [pinByte, Bool.false_eq_true, if_false, BitVec.getLsbD_and, BitVec.getLsbD_not, getLsbD_pinMask hr]
    split <;> simp_all
  · simp only [pinByte, if_true, BitVec.getLsbD_or, getLsbD_pinMask hr]
    split <;> simp_all

/-- A pin write changes the pin's bit alone. -/
theorem bitAt_write_pinByte {m io : Memory} {r : PinRef} {v : Byte} {level : Bool} (hr : r.bit ≤ 7)
    (hv : Memory.read m r.loc = some v) (hw : Memory.write m r.loc (pinByte r level v) = some io) (r' : PinRef) :
    Memory.bitAt io r' = if r' = r then some level else Memory.bitAt m r' := by
  obtain ⟨loc, b⟩ := r'
  by_cases hloc : loc = r.loc
  · subst hloc
    have hbit : (⟨r.loc, b⟩ : PinRef) = r ↔ b = r.bit := by cases r; simp
    simp only [Memory.bitAt, Memory.read_write_same hw, hv, Option.map_some, getLsbD_pinByte hr, hbit]
    split <;> rfl
  · have hne : (⟨loc, b⟩ : PinRef) ≠ r := fun h => hloc (congrArg PinRef.loc h)
    simp only [Memory.bitAt, Memory.read_write_other hw hloc, if_neg hne]

/-! ## The four pins in index order -/

/-- What is observed at the pins while the first `k` of them are written, one after the other. -/
def levelsSeen (old new : BitVec 4) (k : Nat) : List (BitVec 4) := (List.range k).map fun j => mixPins old new (j + 1)

/-- The state with another `IO` map, after `seen` was observed at the pins. -/
def State.withPins (s : State) (io : Memory) (seen : List (BitVec 4)) : State :=
  { s with io := io, pinOut := s.pinOut ++ seen }

/-- `io` is the `IO` map of `s` with the pins below `k` at their level of `row`, and nothing else changed. -/
structure PinsBelow (s : State) (row : BitVec 4) (k : Nat) (io : Memory) : Prop where
  addrs : io.map (fun cell => cell.1) = s.io.map (fun cell => cell.1)
  pin : ∀ i, Memory.bitAt io (s.cfg.pins.get i) = some (if i.val < k then row.getLsbD i.val else s.pinLevel i)
  otherLoc : ∀ loc, (∀ i, (s.cfg.pins.get i).loc ≠ loc) → Memory.read io loc = Memory.read s.io loc
  otherBit : ∀ r, (∀ i, s.cfg.pins.get i ≠ r) → Memory.bitAt io r = Memory.bitAt s.io r

section

variable {s : State} {row : BitVec 4} {k : Nat} {io : Memory}

theorem pinsBelow_zero (hs : HardwareOk s) (row : BitVec 4) : PinsBelow s row 0 s.io :=
  ⟨rfl, fun i => by simpa using bitAt_of_pinBound (hs.pins i), fun _ _ => rfl, fun _ _ => rfl⟩

/-- Four levels in one word, pin `i` in bit `i`. -/
theorem getLsbD_fourLevels : ∀ (level : Fin 4 → Bool) (i : Fin 4),
    (BitVec.ofBool (level 3) ++ BitVec.ofBool (level 2) ++ BitVec.ofBool (level 1)
      ++ BitVec.ofBool (level 0)).getLsbD i.val = level i := by
  decide

theorem getLsbD_pinLevels (s : State) (i : Fin 4) : s.pinLevels.getLsbD i.val = s.pinLevel i :=
  getLsbD_fourLevels s.pinLevel i

theorem getLsbD_mixPins (old new : BitVec 4) (k : Nat) (i : Fin 4) :
    (mixPins old new k).getLsbD i.val = if i.val < k then new.getLsbD i.val else old.getLsbD i.val :=
  getLsbD_fourLevels (fun i => if i.val < k then new.getLsbD i.val else old.getLsbD i.val) i

/-- Four levels are known by the level of each pin. -/
theorem levels_ext {x y : BitVec 4} (h : ∀ i : Fin 4, x.getLsbD i.val = y.getLsbD i.val) : x = y :=
  BitVec.eq_of_getLsbD_eq fun i hi => h ⟨i, hi⟩

theorem mixPins_four (old new : BitVec 4) : mixPins old new 4 = new :=
  levels_ext fun i => by rw [getLsbD_mixPins, if_pos i.isLt]

/-- The levels on the way are those of `mixPins`. -/
theorem PinsBelow.pinLevels (h : PinsBelow s row k io) :
    ({ s with io := io } : State).pinLevels = mixPins s.pinLevels row k :=
  levels_ext fun i => by
    rw [getLsbD_mixPins, getLsbD_pinLevels, getLsbD_pinLevels, State.pinLevel_eq_bitAt]
    exact congrArg (Option.getD · false) (h.pin i)

theorem levelsSeen_succ (old new : BitVec 4) (k : Nat) :
    levelsSeen old new (k + 1) = levelsSeen old new k ++ [mixPins old new (k + 1)] := by
  simp [levelsSeen, List.range_succ]

theorem State.writePin_of_bound {i : Fin 4} {level : Bool} {v : Byte}
    (hv : Memory.read s.io (s.cfg.pins.get i).loc = some v)
    (hw : Memory.write s.io (s.cfg.pins.get i).loc (pinByte (s.cfg.pins.get i) level v) = some io) :
    s.writePin i level = .ok ({ s with io := io } : State).showPins := by
  simp only [State.writePin, hv, hw]

theorem State.writePins_cons {i : Fin 4} {is : List (Fin 4)} {s1 : State}
    (h : s.writePin i (row.getLsbD i.val) = .ok s1) : s.writePins row (i :: is) = s1.writePins row is := by
  simp only [State.writePins, h]

/-- The write of pin `k` shows the levels with one pin more at its level of `row`. -/
theorem PinsBelow.writePin {k : Fin 4} (h : PinsBelow s row k.val io) (hs : HardwareOk s) :
    ∃ io', PinsBelow s row (k.val + 1) io'
      ∧ (s.withPins io (levelsSeen s.pinLevels row k.val)).writePin k (row.getLsbD k.val)
        = .ok (s.withPins io' (levelsSeen s.pinLevels row (k.val + 1))) := by
  obtain ⟨-, -, -, hbits, hinj, -⟩ := Params.wf_iff.1 hs.params
  obtain ⟨v, hv⟩ : ∃ v, Memory.read io (s.cfg.pins.get k).loc = some v := by
    rw [← Option.isSome_iff_exists, Memory.read_isSome_iff, h.addrs, ← Memory.read_isSome_iff]
    exact hs.pins k
  obtain ⟨io', hw⟩ : ∃ io', Memory.write io (s.cfg.pins.get k).loc
      (pinByte (s.cfg.pins.get k) (row.getLsbD k.val) v) = some io' := by
    rw [← Option.isSome_iff_exists, Memory.write_isSome, hv]
    rfl
  have hbit := bitAt_write_pinByte (hbits k) hv hw
  have hbelow : PinsBelow s row (k.val + 1) io' := by
    refine ⟨(Memory.write_addrs hw).trans h.addrs, fun i => ?_, fun loc hloc => ?_, fun r hr => ?_⟩
    · rw [hbit, h.pin i]
      by_cases hik : i = k
      · subst hik
        simp
      · have hval : i.val ≠ k.val := fun he => hik (Fin.ext he)
        have hlt : i.val < k.val + 1 ↔ i.val < k.val := by omega
        simp only [if_neg fun he => hik (hinj he), hlt]
    · exact (Memory.read_write_other hw fun he => hloc k he.symm).trans (h.otherLoc loc hloc)
    · rw [hbit, if_neg fun he => hr k he.symm, h.otherBit r hr]
  refine ⟨io', hbelow, ?_⟩
  have hshown : ({ s.withPins io (levelsSeen s.pinLevels row k.val) with io := io' } : State).pinLevels
      = mixPins s.pinLevels row (k.val + 1) := hbelow.pinLevels
  rw [levelsSeen_succ, State.writePin_of_bound (s := s.withPins io _) hv hw, State.showPins, hshown]
  simp only [State.withPins, List.append_assoc]

/-- The four pin writes on well-formed hardware (D15, R67). -/
theorem HardwareOk.writePins (hs : HardwareOk s) (row : BitVec 4) :
    ∃ io seen, PinsWritten s io seen row ∧ s.writePins row pinOrder = .ok (s.withPins io seen) := by
  obtain ⟨io0, h0, hw0⟩ := PinsBelow.writePin (k := 0) (pinsBelow_zero hs row) hs
  obtain ⟨io1, h1, hw1⟩ := PinsBelow.writePin (k := 1) h0 hs
  obtain ⟨io2, h2, hw2⟩ := PinsBelow.writePin (k := 2) h1 hs
  obtain ⟨io3, h3, hw3⟩ := PinsBelow.writePin (k := 3) h2 hs
  have hlast := mixPins_four s.pinLevels row
  have hseen : levelsSeen s.pinLevels row 4
      = [mixPins s.pinLevels row 1, mixPins s.pinLevels row 2, mixPins s.pinLevels row 3, row] := by
    rw [levelsSeen_succ, hlast]
    rfl
  refine ⟨io3, levelsSeen s.pinLevels row 4, ⟨h3.pinLevels.trans hlast, hseen, h3.addrs, h3.otherLoc,
    fun loc bit h => h3.otherBit ⟨loc, bit⟩ h⟩, ?_⟩
  have hstart : s = s.withPins s.io (levelsSeen s.pinLevels row 0) := by simp [State.withPins, levelsSeen]
  calc s.writePins row pinOrder
      = (s.withPins s.io (levelsSeen s.pinLevels row 0)).writePins row [0, 1, 2, 3] := by rw [← hstart]; rfl
    _ = (s.withPins io0 (levelsSeen s.pinLevels row 1)).writePins row [1, 2, 3] := State.writePins_cons hw0
    _ = (s.withPins io1 (levelsSeen s.pinLevels row 2)).writePins row [2, 3] := State.writePins_cons hw1
    _ = (s.withPins io2 (levelsSeen s.pinLevels row 3)).writePins row [3] := State.writePins_cons hw2
    _ = .ok (s.withPins io3 (levelsSeen s.pinLevels row 4)) := State.writePins_cons hw3

end

end Sys2Proof.Machine
end

section
/-! PROOFS. The four operations of the sequencer as whole operations (42_stepsequencer.md R161 to R167, R173). -/

namespace Sys2Proof.Machine

/-! ## Admission -/

/-- The sequencer's operations claim no role, so they run in the state they are issued in. -/
theorem State.withRoles_of_ss {s : State} {i : Instr} {roles : Roles} (hi : componentOf i = .ss)
    (hr : claimRoles s.roles i = some roles) : s.withRoles i roles = s := by
  obtain rfl : s.roles = roles := Option.some.inj ((claimRoles_ss s.roles hi).symm.trans hr)
  cases i with
  | ssStart | ssIsfin | ssRelease | ssTick => exact State.withRoles_self rfl rfl
  | _ => cases hi

theorem State.admitted_of_ss (s : State) {i : Instr} (hi : componentOf i = .ss) : s.admitted i = s := by
  rw [State.admitted, claimRoles_ss s.roles hi]
  exact State.withRoles_of_ss hi (claimRoles_ss s.roles hi)

theorem Ready.exec_ss {s : State} {i : Instr} (h : Ready s i) (hi : componentOf i = .ss) (hg : gateOpen i s = true) :
    exec i s = outcomeOf (meaning i s) := by
  rw [h.exec_eq hg, s.admitted_of_ss hi]

/-- An operation of the sequencer that answers a next state is its meaning, or was not delivered and changed nothing. -/
theorem exec_ss_next {s t : State} {i : Instr} (hi : componentOf i = .ss) (he : exec i s = .next t) :
    (gateOpen i s = false ∧ t = s) ∨ (gateOpen i s = true ∧ meaning i s = .ok t) := by
  obtain ⟨-, roles, hr, h⟩ := exec_next he
  rwa [State.withRoles_of_ss hi hr] at h

/-! ## `SS.START` -/

section

variable (s : State) (distance : Nat) (dir : Direction) (speed : Nat)

/-- S1 to S6 together: S5 compares with the direction that S1 recorded. -/
theorem State.startMotion_eq :
    s.startMotion distance dir speed =
      { s with
        previousDirection := s.direction
        remainingSteps := distance
        tickPeriod := periodOfRate s.cfg (min speed s.cfg.maxRate)
        tmr := some (periodOfRate s.cfg (min speed s.cfg.maxRate))
        tmrOut := s.tmrOut ++ [periodOfRate s.cfg (min speed s.cfg.maxRate)]
        direction := dir
        currentPhase := if dir ≠ s.direction then stepPhase dir s.currentPhase else s.currentPhase
        timerArmed := true } := by
  rw [State.startMotion, State.startS5_eq]
  rfl

@[simp] theorem State.startMotion_remainingSteps :
    (s.startMotion distance dir speed).remainingSteps = distance := by rw [State.startMotion_eq]

@[simp] theorem State.startMotion_timerArmed : (s.startMotion distance dir speed).timerArmed = true := by
  rw [State.startMotion_eq]

end

theorem exec_ssStart {s : State} {distance : Nat} {dir : Direction} {speed : Nat}
    (h : Ready s (.ssStart distance dir speed)) :
    exec (.ssStart distance dir speed) s = .next (s.startMotion distance dir speed) := h.exec_ss rfl rfl

/-- Settles O29: the six micro-steps together are `State.startMotion_eq`. -/
theorem startMotionSetsTheMotion : Obligations.StartMotionSetsTheMotion := by
  unfold Obligations.StartMotionSetsTheMotion
  rintro s distance dir speed period hready rfl
  rw [exec_ssStart hready, State.startMotion_eq, s.admitted_of_ss rfl]
  simp only [ne_eq, ite_not]
  rfl

/-! ## `SS.ISFIN` -/

/-- Settles O30: I1 answers in the very state it is issued in. -/
theorem isFinishedOnlyAnswers : Obligations.IsFinishedOnlyAnswers := by
  unfold Obligations.IsFinishedOnlyAnswers
  intro s hready
  have hfin : s.finished = decide (s.remainingSteps = 0) := rfl
  rw [hready.exec_ss rfl rfl, ← hfin]
  rfl

/-! ## `SS.RELEASE` -/

/-- Settles O31: the meaning is the four pin writes, each to the low level. -/
theorem releaseClearsTheFourPins : Obligations.ReleaseClearsTheFourPins := by
  unfold Obligations.ReleaseClearsTheFourPins
  intro s hready
  obtain ⟨io, seen, hpins, hw⟩ := (State.wf_iff.1 hready.1).1.writePins 0#4
  refine ⟨io, seen, hpins, ?_⟩
  rw [s.admitted_of_ss rfl]
  exact (hready.exec_ss rfl rfl).trans (congrArg outcomeOf hw)

/-! ## `SS.TICK` -/

/-- The state after T1 to T4, with the pins written to `io` and `seen` observed on the way. -/
def State.ticked (s : State) (io : Memory) (seen : List (BitVec 4)) : State :=
  { s with
    tmr := some s.tickPeriod
    tmrOut := s.tmrOut ++ [s.tickPeriod]
    io := io
    pinOut := s.pinOut ++ seen
    currentPhase := stepPhase s.direction s.currentPhase
    remainingSteps := s.remainingSteps - 1
    timerArmed := s.timerArmed && decide (1 < s.remainingSteps) }

theorem decSat_eq (n : Nat) : decSat n = n - 1 := by
  unfold decSat
  split <;> omega

section

variable {s t : State}

theorem tickT4_eq (s : State) :
    s.tickT4 = { s with
      remainingSteps := s.remainingSteps - 1
      timerArmed := s.timerArmed && decide (1 < s.remainingSteps) } := by
  have harm : (if s.remainingSteps - 1 = 0 then false else s.timerArmed)
      = (s.timerArmed && decide (1 < s.remainingSteps)) := by
    by_cases h : 1 < s.remainingSteps
    · simp [h, show ¬ s.remainingSteps - 1 = 0 by omega]
    · simp [h, show s.remainingSteps - 1 = 0 by omega]
  rw [State.tickT4, decSat_eq, harm]

theorem tick_withPins (s : State) (io : Memory) (seen : List (BitVec 4)) :
    (s.tickT1.withPins io seen).tickT3.tickT4 = s.ticked io seen := by
  rw [tickT4_eq]
  rfl

/-- Whatever `onTick` answers, it has counted down, advanced the phase and reloaded the timer. -/
theorem onTick_ticked (h : s.onTick = .ok t) : ∃ io seen, t = s.ticked io seen := by
  obtain ⟨s1, hp, rfl⟩ := onTick_ok h
  obtain ⟨io, seen, rfl, -⟩ := writePins_ok hp
  exact ⟨io, seen, tick_withPins s io seen⟩

/-- On well-formed hardware `onTick` asserts the row of the phase, whether or not the timer is armed. -/
theorem HardwareOk.onTick (hs : HardwareOk s) :
    ∃ io seen, PinsWritten s io seen (s.cfg.phaseTable.get s.currentPhase) ∧ s.onTick = .ok (s.ticked io seen) := by
  have ht1 : HardwareOk s.tickT1 := hs.writeTmr hs.period
  obtain ⟨io, seen, hpins, hw⟩ := ht1.writePins s.tickT1.phaseRow
  refine ⟨io, seen, hpins, ?_⟩
  rw [State.onTick, hw, ← tick_withPins]

/-- A ready tick that its gate delivers. -/
theorem exec_ssTick_of_armed (h : Ready s .ssTick) (harm : s.timerArmed = true) :
    ∃ io seen, PinsWritten s io seen (s.cfg.phaseTable.get s.currentPhase)
      ∧ exec .ssTick s = .next (s.ticked io seen) := by
  obtain ⟨io, seen, hpins, ht⟩ := (State.wf_iff.1 h.1).1.onTick
  refine ⟨io, seen, hpins, ?_⟩
  rw [h.exec_ss rfl harm, meaning, ht, outcomeOf_ok]

/-- A tick raised while the timer is disarmed is not delivered (R196). -/
theorem exec_ssTick_of_disarmed (hw : s.wf = true) (hb : mayBegin s .ssTick = true) (harm : s.timerArmed = false) :
    exec .ssTick s = .next s := by
  have hc : admitContext s .ssTick = .ok () := admitContext_ok.2 ⟨(State.wf_iff.1 hw).1.params, rfl, hb⟩
  have hg : gateOpen .ssTick s = false := harm
  have hr : admitRun s .ssTick = .ok s := by
    have hroles := State.withRoles_of_ss (s := s) (i := .ssTick) rfl rfl
    simp only [admitRun, hg, claimRoles, hroles]
    rfl
  rw [exec_eq_issue_meaning, issue_closed hc hg hr]

end

/-- Settles O32: T1 to T4 are `State.ticked`, with the timer armed beforehand. -/
theorem tickAssertsTheRowAndCountsDown : Obligations.TickAssertsTheRowAndCountsDown := by
  unfold Obligations.TickAssertsTheRowAndCountsDown
  intro s hready harm
  obtain ⟨io, seen, hpins, he⟩ := exec_ssTick_of_armed hready harm
  refine ⟨io, seen, hpins, ?_⟩
  rw [he, s.admitted_of_ss rfl, State.ticked, harm, Bool.true_and]
  rfl

/-- Settles O33: the pins are a row of the phase table, and every row has two bits set (R8). -/
theorem twoPinsAreHighAfterATick : Obligations.TwoPinsAreHighAfterATick := by
  unfold Obligations.TwoPinsAreHighAfterATick
  intro s t hready harm he
  obtain ⟨io, seen, ⟨hlevels, -⟩, ht⟩ := exec_ssTick_of_armed hready harm
  obtain rfl : s.ticked io seen = t := Host.Outcome.next.inj (ht.symm.trans he)
  obtain ⟨-, -, hrows, -⟩ := Params.wf_iff.1 (State.wf_iff.1 hready.1).1.params
  exact (congrArg rowOk hlevels).trans (hrows s.currentPhase)

/-- Settles O34: the closed gate, and the meaning behind it with no step left. -/
theorem tickWithTheTimerDisarmed : Obligations.TickWithTheTimerDisarmed := by
  unfold Obligations.TickWithTheTimerDisarmed
  intro s hw harm
  refine ⟨fun hb => exec_ssTick_of_disarmed hw hb harm, fun hfin => ?_⟩
  obtain ⟨io, seen, ⟨hlevels, -⟩, ht⟩ := (State.wf_iff.1 hw).1.onTick
  exact ⟨s.ticked io seen, ht, rfl, rfl, hlevels, rfl, by simp [State.ticked, hfin], by simp [State.ticked, harm]⟩

end Sys2Proof.Machine
end

section
/-! PROOFS. The phases, the state machine, and motions that nothing disturbs (42_stepsequencer.md R166, R168, R170 to
R174): with no operation in progress an operation of the sequencer is ready, and leaves the next one ready. -/

namespace Sys2Proof.Machine

/-! ## The phases -/

@[simp] theorem prev4_next4 (p : Fin 4) : prev4 (next4 p) = p := by fin_cases p <;> rfl

@[simp] theorem next4_prev4 (p : Fin 4) : next4 (prev4 p) = p := by fin_cases p <;> rfl

/-- Four forward ticks go once round the table. -/
theorem next4_four (p : Fin 4) : next4 (next4 (next4 (next4 p))) = p := by fin_cases p <;> rfl

/-- Settles O28: the two functions are their tables. -/
theorem phaseArithmeticIsModFour : Obligations.PhaseArithmeticIsModFour := by
  unfold Obligations.PhaseArithmeticIsModFour
  refine ⟨fun p => ⟨?_, ?_, next4_prev4 p, prev4_next4 p⟩, rfl, rfl, rfl, rfl, rfl, rfl, rfl, rfl⟩
  all_goals fin_cases p <;> rfl

/-! ## Undisturbed operations of the sequencer -/

/-- The initialisation is done and no operation is in progress. -/
structure Undisturbed (s : State) : Prop where
  wf : s.wf = true
  initDone : s.initDone = true
  main : s.main = none
  irq : s.irq = []

theorem Ready.undisturbed {s : State} {i : Instr} (h : Ready s i) (hi : issuer i = .M) (hirq : s.irq = []) :
    Undisturbed s := by
  obtain ⟨hw, -, hinit, hb, -⟩ := h
  exact ⟨hw, hinit, main_eq_none_of_mayBegin hi hb, hirq⟩

section

variable {s t : State}

theorem Undisturbed.ready {i : Instr} (h : Undisturbed s) (hi : componentOf i = .ss)
    (ho : i.operandsOk s.cfg = true) : Ready s i :=
  ⟨h.wf, ho, h.initDone, mayBegin_of_free i h.main h.irq, by rw [claimRoles_ss s.roles hi]; rfl⟩

/-- Operations of the sequencer leave nothing in progress. -/
theorem Undisturbed.after {i : Instr} (h : Undisturbed s) (hi : componentOf i = .ss) (he : exec i s = .next t) :
    Undisturbed t := by
  obtain ⟨-, ⟨-, -, hinit, -⟩, -, hmain, hirq⟩ := sequencerOperationsKeepTheSerialLink i s t hi he
  exact ⟨(stepCase_wf (stepCase_of_exec he) h.wf).1, hinit.trans h.initDone, hmain.trans h.main, hirq.trans h.irq⟩

theorem Undisturbed.tick_disarmed (h : Undisturbed s) (harm : s.timerArmed = false) : exec .ssTick s = .next s :=
  exec_ssTick_of_disarmed h.wf (mayBegin_of_free _ h.main h.irq) harm

end

/-! ## Motions -/

/-- The six elements of R30, with the periods written to `TMR` so far (R33 (c)). -/
structure Motion where
  currentPhase : Fin 4
  direction : Direction
  previousDirection : Direction
  remainingSteps : Nat
  tickPeriod : Nat
  timerArmed : Bool
  tmrOut : List Nat

def State.motion (s : State) : Motion :=
  ⟨s.currentPhase, s.direction, s.previousDirection, s.remainingSteps, s.tickPeriod, s.timerArmed, s.tmrOut⟩

/-- The period of a target speed (R161 S3). -/
def periodOf (p : Params) (speed : Nat) : Nat := periodOfRate p (min speed p.maxRate)

/-- What `startMotion` makes of it, from a given phase. -/
def Motion.start (m : Motion) (p : Params) (phase : Fin 4) (distance : Nat) (dir : Direction) (speed : Nat) :
    Motion :=
  ⟨phase, dir, m.direction, distance, periodOf p speed, true, m.tmrOut ++ [periodOf p speed]⟩

/-- What `onTick` makes of it. -/
def Motion.tick (m : Motion) : Motion :=
  { m with
    currentPhase := stepPhase m.direction m.currentPhase
    remainingSteps := m.remainingSteps - 1
    timerArmed := m.timerArmed && decide (1 < m.remainingSteps)
    tmrOut := m.tmrOut ++ [m.tickPeriod] }

/-- The undisturbed state `s`, with parameters `p`, is at `m`. -/
structure Moving (p : Params) (m : Motion) (s : State) : Prop where
  undisturbed : Undisturbed s
  cfg : s.cfg = p
  motion : s.motion = m

section

variable {p : Params} {m : Motion} {s : State}

namespace Moving

variable (h : Moving p m s)
include h

theorem currentPhase : s.currentPhase = m.currentPhase := congrArg Motion.currentPhase h.motion
theorem previousDirection : s.previousDirection = m.previousDirection := congrArg Motion.previousDirection h.motion
theorem remainingSteps : s.remainingSteps = m.remainingSteps := congrArg Motion.remainingSteps h.motion
theorem timerArmed : s.timerArmed = m.timerArmed := congrArg Motion.timerArmed h.motion
theorem tmrOut : s.tmrOut = m.tmrOut := congrArg Motion.tmrOut h.motion

end Moving

theorem Undisturbed.moving (h : Undisturbed s) : Moving s.cfg s.motion s := ⟨h, rfl, rfl⟩

theorem Moving.start {distance : Nat} {dir : Direction} {speed : Nat} (h : Moving p m s)
    (ho : Instr.operandsOk p (.ssStart distance dir speed) = true) :
    ∃ t, exec (.ssStart distance dir speed) s = .next t
      ∧ Moving p (m.start p (if dir ≠ m.direction then stepPhase dir m.currentPhase else m.currentPhase)
        distance dir speed) t := by
  obtain ⟨hu, rfl, rfl⟩ := h
  have he := exec_ssStart (hu.ready rfl ho)
  rw [State.startMotion_eq] at he
  exact ⟨_, he, hu.after rfl he, rfl, rfl⟩

/-- A motion in the direction of the one before goes on from its phase (R162 (b)). -/
theorem Moving.start_same {distance : Nat} {dir : Direction} {speed : Nat} (h : Moving p m s)
    (ho : Instr.operandsOk p (.ssStart distance dir speed) = true) (hdir : dir = m.direction) :
    ∃ t, exec (.ssStart distance dir speed) s = .next t
      ∧ Moving p (m.start p m.currentPhase distance dir speed) t := by
  simpa only [hdir, ne_eq, not_true_eq_false, if_false] using h.start ho

/-- A reversal moves the phase by one in the new direction (R162 (c)). -/
theorem Moving.start_reversed {distance : Nat} {dir : Direction} {speed : Nat} (h : Moving p m s)
    (ho : Instr.operandsOk p (.ssStart distance dir speed) = true) (hdir : dir ≠ m.direction) :
    ∃ t, exec (.ssStart distance dir speed) s = .next t
      ∧ Moving p (m.start p (stepPhase dir m.currentPhase) distance dir speed) t := by
  simpa only [if_pos hdir] using h.start ho

/-- A tick that is delivered asserts the row of the phase. -/
theorem Moving.tick (h : Moving p m s) (harm : m.timerArmed = true) :
    ∃ t, exec .ssTick s = .next t ∧ t.pinLevels = p.phaseTable.get m.currentPhase ∧ Moving p m.tick t := by
  obtain ⟨hu, rfl, rfl⟩ := h
  obtain ⟨io, seen, ⟨hlevels, -⟩, he⟩ := exec_ssTick_of_armed (hu.ready rfl rfl) harm
  exact ⟨_, he, hlevels, hu.after rfl he, rfl, rfl⟩

theorem Moving.tick_disarmed (h : Moving p m s) (harm : m.timerArmed = false) : exec .ssTick s = .next s := by
  obtain ⟨hu, rfl, rfl⟩ := h
  exact hu.tick_disarmed harm

end

/-! ## The source's checks -/

/-- Settles O35: each tick is armed by the count the one before has left, and the phases go once round. -/
theorem fourTicksAssertEachRowOnce : Obligations.FourTicksAssertEachRowOnce := by
  unfold Obligations.FourTicksAssertEachRowOnce
  intro s speed hready hirq hdir
  obtain ⟨s0, he0, hm0⟩ := (hready.undisturbed rfl hirq).moving.start_same hready.2.1 hdir.symm
  obtain ⟨s1, he1, hpins1, hm1⟩ := hm0.tick rfl
  obtain ⟨s2, he2, hpins2, hm2⟩ := hm1.tick rfl
  obtain ⟨s3, he3, hpins3, hm3⟩ := hm2.tick rfl
  obtain ⟨s4, he4, hpins4, hm4⟩ := hm3.tick rfl
  have hphase : s4.currentPhase = next4 (next4 (next4 (next4 s.currentPhase))) :=
    hm4.currentPhase
  have hout : s4.tmrOut = s.tmrOut ++ [periodOf s.cfg speed] ++ [periodOf s.cfg speed] ++ [periodOf s.cfg speed]
      ++ [periodOf s.cfg speed] ++ [periodOf s.cfg speed] := hm4.tmrOut
  refine ⟨s0, s1, s2, s3, s4, he0, he1, hpins1, he2, hpins2, he3, hpins3, he4, hpins4,
    hm4.remainingSteps, hm4.timerArmed, hphase.trans (next4_four _), ?_,
    hm4.tick_disarmed rfl⟩
  simp only [hout, List.append_assoc]
  rfl

/-- Settles O36: the reversal takes back the phase that the last tick has advanced. -/
theorem reversalReassertsTheRowOnThePins : Obligations.ReversalReassertsTheRowOnThePins := by
  unfold Obligations.ReversalReassertsTheRowOnThePins
  intro s d1 d2 v1 v2 hready hd1 ho2 hirq hdir
  obtain ⟨s0, he0, hm0⟩ := (hready.undisturbed rfl hirq).moving.start_same hready.2.1 hdir.symm
  obtain ⟨s1, he1, hpins1, hm1⟩ := hm0.tick rfl
  obtain ⟨s2, he2, hpins2, hm2⟩ := hm1.tick (decide_eq_true (p := 1 < d1) hd1)
  obtain ⟨s3, he3, hm3⟩ := hm2.start_reversed ho2 (fun h => by cases h)
  obtain ⟨s4, he4, hpins4, hm4⟩ := hm3.tick rfl
  have hphase3 : s3.currentPhase = prev4 (next4 (next4 s.currentPhase)) := hm3.currentPhase
  have hphase4 : s4.currentPhase = prev4 (prev4 (next4 (next4 s.currentPhase))) :=
    hm4.currentPhase
  have hpins4' : s4.pinLevels = s.cfg.phaseTable.get (prev4 (next4 (next4 s.currentPhase))) := hpins4
  simp only [prev4_next4] at hphase3 hphase4 hpins4'
  exact ⟨s0, s1, s2, s3, s4, he0, he1, hpins1, he2, hpins2, hm2.currentPhase, he3, hphase3,
    hm3.previousDirection, he4, hpins4'.trans hpins2.symm, hphase4⟩

/-! ## The state machine -/

/-- R37: the count says whether the sequencer is finished, the timer whether a tick is still to come. -/
theorem State.seqMode_eq (s : State) :
    s.seqMode = if s.remainingSteps = 0 then (if s.timerArmed then .draining else .idle)
      else (if s.timerArmed then .running else .arming) := by
  have hfin : s.finished = decide (s.remainingSteps = 0) := rfl
  rw [State.seqMode, hfin]
  by_cases h : s.remainingSteps = 0
  · cases s.timerArmed <;> simp [h]
  · cases s.timerArmed <;> simp [h]

theorem State.timerArmed_iff_seqMode (s : State) :
    s.timerArmed = true ↔ s.seqMode = .running ∨ s.seqMode = .draining := by
  rw [State.seqMode_eq]
  by_cases h : s.remainingSteps = 0
  · cases s.timerArmed <;> simp [h]
  · cases s.timerArmed <;> simp [h]

theorem State.remainingSteps_iff_seqMode (s : State) :
    s.remainingSteps = 0 ↔ s.seqMode = .idle ∨ s.seqMode = .draining := by
  rw [State.seqMode_eq]
  by_cases h : s.remainingSteps = 0
  · cases s.timerArmed <;> simp [h]
  · cases s.timerArmed <;> simp [h]

/-- Settles O37: the timer is armed with no step left, which the one tick finds and disarms. -/
theorem zeroDistanceGivesOneTick : Obligations.ZeroDistanceGivesOneTick := by
  unfold Obligations.ZeroDistanceGivesOneTick
  intro s dir speed hready hirq
  obtain ⟨s0, he0, hm0⟩ := (hready.undisturbed rfl hirq).moving.start hready.2.1
  obtain ⟨s1, he1, hpins1, hm1⟩ := hm0.tick rfl
  have hphase0 := hm0.currentPhase
  have hsteps0 : s0.remainingSteps = 0 := hm0.remainingSteps
  have harm0 : s0.timerArmed = true := hm0.timerArmed
  have hsteps1 : s1.remainingSteps = 0 := hm1.remainingSteps
  have harm1 : s1.timerArmed = false := hm1.timerArmed
  exact ⟨s0, s1, he0, by simp [State.seqMode_eq, hsteps0, harm0], by simp [State.finished, hsteps0], he1,
    hpins1.trans (congrArg s.cfg.phaseTable.get hphase0.symm),
    hm1.currentPhase.trans (congrArg (stepPhase dir) hphase0.symm), hsteps1,
    by simp [State.seqMode_eq, hsteps1, harm1], hm1.tick_disarmed rfl⟩

section

variable {s t : State}

theorem exec_ssStart_next {distance : Nat} {dir : Direction} {speed : Nat}
    (h : exec (.ssStart distance dir speed) s = .next t) : t = s.startMotion distance dir speed := by
  obtain ⟨hg, -⟩ | ⟨-, hm⟩ := exec_ss_next rfl h
  · cases hg
  · exact (Except.ok.inj hm).symm

/-- A tick is not delivered, or it is T1 to T4. -/
theorem exec_ssTick_next (h : exec .ssTick s = .next t) :
    (s.timerArmed = false ∧ t = s) ∨ (s.timerArmed = true ∧ ∃ io seen, t = s.ticked io seen) := by
  obtain ⟨hg, ht⟩ | ⟨hg, hm⟩ := exec_ss_next rfl h
  · exact .inl ⟨hg, ht⟩
  · exact .inr ⟨hg, onTick_ticked hm⟩

theorem exec_ssStart_seqMode {distance : Nat} {dir : Direction} {speed : Nat}
    (h : exec (.ssStart distance dir speed) s = .next t) :
    t.seqMode = if distance = 0 then .draining else .running := by
  rw [exec_ssStart_next h]
  simp [State.seqMode_eq]

/-- A delivered tick ends the motion unless more than one step is left. -/
theorem ticked_seqMode (harm : s.timerArmed = true) (io : Memory) (seen : List (BitVec 4)) :
    (s.ticked io seen).seqMode = if 1 < s.remainingSteps then .running else .idle := by
  by_cases h : 1 < s.remainingSteps
  · simp [State.seqMode_eq, State.ticked, harm, h, show s.remainingSteps - 1 ≠ 0 by omega]
  · simp [State.seqMode_eq, State.ticked, h, show s.remainingSteps - 1 = 0 by omega]

theorem exec_ssTick_seqMode (h : exec .ssTick s = .next t) :
    (s.seqMode = .idle → t = s)
      ∧ (s.seqMode = .running → t.seqMode = if 1 < s.remainingSteps then .running else .idle)
      ∧ (s.seqMode = .draining → t.seqMode = .idle) := by
  have hmodes := s.timerArmed_iff_seqMode
  obtain ⟨harm, rfl⟩ | ⟨harm, io, seen, rfl⟩ := exec_ssTick_next h
  · rw [harm] at hmodes
    exact ⟨fun _ => rfl, fun hrun => absurd (hmodes.2 (.inl hrun)) Bool.false_ne_true,
      fun hdrain => absurd (hmodes.2 (.inr hdrain)) Bool.false_ne_true⟩
  · rw [ticked_seqMode harm]
    refine ⟨fun hidle => ?_, fun _ => rfl, fun hdrain => if_neg ?_⟩
    · rw [hidle] at hmodes
      simpa using hmodes.1 harm
    · have hzero := s.remainingSteps_iff_seqMode.2 (.inr hdrain)
      omega

theorem exec_ssIsfin_seqMode (h : exec .ssIsfin s = .next t) : t.seqMode = s.seqMode := by
  obtain ⟨hg, -⟩ | ⟨-, hm⟩ := exec_ss_next rfl h
  · cases hg
  · cases hm
    rfl

theorem exec_ssRelease_seqMode (h : exec .ssRelease s = .next t) : t.seqMode = s.seqMode := by
  obtain ⟨hg, -⟩ | ⟨-, hm⟩ := exec_ss_next rfl h
  · cases hg
  · obtain ⟨io, seen, rfl, -⟩ := writePins_ok hm
    rfl

/-- S2 enters the two transient states, or leaves DRAINING. -/
theorem startS2_seqMode (s : State) (distance : Nat) :
    (s.startS2 distance).seqMode
      = if distance = 0 then (if s.timerArmed then .draining else .idle)
        else (if s.timerArmed then .running else .arming) := State.seqMode_eq _

end

/-- Settles O38: each row of the table is one operation, and the two transient states are those of S2 and S6. -/
theorem sequencerStateMachine : Obligations.SequencerStateMachine := by
  unfold Obligations.SequencerStateMachine
  refine ⟨fun s t d dir v h => exec_ssStart_seqMode h, fun s t h => exec_ssTick_seqMode h,
    fun s t h => h.elim exec_ssIsfin_seqMode exec_ssRelease_seqMode, fun s d => ?_⟩
  rw [startS2_seqMode]
  refine ⟨fun hidle hd => ?_, fun hrun hd => ?_, fun hdrain hd => ?_, fun harming => ?_⟩
  · have hdis : s.timerArmed = false := by simpa [hidle] using s.timerArmed_iff_seqMode
    simp [hdis, hd.ne']
  · have harm : s.timerArmed = true := s.timerArmed_iff_seqMode.2 (.inl hrun)
    simp [harm, hd]
  · have harm : s.timerArmed = true := s.timerArmed_iff_seqMode.2 (.inr hdrain)
    simp [harm, hd.ne']
  · have hleft : s.remainingSteps ≠ 0 := by simpa [harming] using s.remainingSteps_iff_seqMode
    simp [State.seqMode_eq, hleft]

/-! ## The length of a motion -/

theorem runTicks_succ {k : Nat} {s t : State} (h : exec .ssTick s = .next t) : runTicks (k + 1) s = runTicks k t := by
  simp only [runTicks, h]

theorem runTicks_add {j k : Nat} {s t : State} (h : runTicks j s = .next t) : runTicks (j + k) s = runTicks k t := by
  induction j generalizing s with
  | zero =>
    cases h
    rw [Nat.zero_add]
  | succ j ih =>
    rw [Nat.add_right_comm]
    cases he : exec .ssTick s with
    | next u =>
      rw [runTicks_succ he] at h ⊢
      exact ih h
    | fault f => simp only [runTicks, he] at h; cases h
    | refused r => simp only [runTicks, he] at h; cases h

/-- Once the timer is disarmed, ticks change nothing. -/
theorem Undisturbed.runTicks_disarmed {s : State} (h : Undisturbed s) (harm : s.timerArmed = false) (k : Nat) :
    runTicks k s = .next s := by
  induction k with
  | zero => rfl
  | succ k ih => rw [runTicks_succ (h.tick_disarmed harm), ih]

/-- With the timer armed exactly while steps are left, `k` ticks take `k` steps, as far as there are any. -/
theorem Moving.runTicks {p : Params} {m : Motion} {s : State} (h : Moving p m s)
    (harm : m.timerArmed = decide (0 < m.remainingSteps)) (k : Nat) :
    ∃ t m', runTicks k s = .next t ∧ Moving p m' t ∧ m'.remainingSteps = m.remainingSteps - k
      ∧ m'.timerArmed = decide (0 < m'.remainingSteps) := by
  induction k generalizing m s with
  | zero => exact ⟨s, m, rfl, h, rfl, harm⟩
  | succ k ih =>
    by_cases hleft : 0 < m.remainingSteps
    · obtain ⟨s1, he, -, hm1⟩ := h.tick (harm.trans (decide_eq_true hleft))
      have harm1 : m.tick.timerArmed = decide (0 < m.tick.remainingSteps) := by
        simp [Motion.tick, harm, hleft]
      obtain ⟨t, m', hrun, hm', hsteps, harm'⟩ := ih hm1 harm1
      refine ⟨t, m', (runTicks_succ he).trans hrun, hm', ?_, harm'⟩
      have hless : m.tick.remainingSteps = m.remainingSteps - 1 := rfl
      omega
    · have hdis : m.timerArmed = false := harm.trans (decide_eq_false hleft)
      obtain ⟨t, m', hrun, hm', hsteps, harm'⟩ := ih h harm
      exact ⟨t, m', (runTicks_succ (h.tick_disarmed hdis)).trans hrun, hm', by omega, harm'⟩

/-- Settles O39: every tick takes one step while the timer is armed, and the last disarms it. -/
theorem motionIsExactlyItsDistanceInTicks : Obligations.MotionIsExactlyItsDistanceInTicks := by
  unfold Obligations.MotionIsExactlyItsDistanceInTicks
  intro s d dir speed hready hd hirq _
  obtain ⟨s0, he0, hm0⟩ := (hready.undisturbed rfl hirq).moving.start hready.2.1
  have hrun := hm0.runTicks (decide_eq_true hd).symm
  refine ⟨s0, he0, fun k hk => ?_, fun k hk => ?_⟩
  · obtain ⟨t, m', ht, hm', hsteps, harm⟩ := hrun k
    exact ⟨t, ht, hm'.remainingSteps.trans hsteps, by
      rw [hm'.timerArmed, harm, hsteps, decide_eq_true_eq]
      exact Nat.sub_pos_iff_lt⟩
  · obtain ⟨t, m', ht, hm', hsteps, harm⟩ := hrun d
    have hleft : m'.remainingSteps = 0 := hsteps.trans (Nat.sub_self d)
    have hzero : t.remainingSteps = 0 := hm'.remainingSteps.trans hleft
    have hdis : t.timerArmed = false := by
      rw [hm'.timerArmed, harm, hleft]
      rfl
    refine ⟨t, ?_, ht, by simp [State.seqMode_eq, hzero, hdis]⟩
    rw [← Nat.add_sub_of_le hk, runTicks_add ht, hm'.undisturbed.runTicks_disarmed hdis]

end Sys2Proof.Machine
end

section
/-! PROOFS. The count of steps left, under every schedule (42_stepsequencer.md R161, R165): only S2 can raise it. -/

namespace Sys2Proof.Machine

/-- Outside a `startMotion` no update raises the count. -/
theorem Writes.remainingSteps_le {sc : Scope} {s t : State} (h : Writes sc s t) (hne : ∀ d, sc ≠ .start d) :
    t.remainingSteps ≤ s.remainingSteps := by
  refine h.keeps (P := fun u => u.remainingSteps ≤ s.remainingSteps) (fun u v hw hu => ?_) le_rfl
  cases hw with
  | s1 hst | s2 hst | s3 hst | s4 hst | s5 hst | s6 hst => exact absurd hst (hne _)
  | t4 hst => exact (decSat_le _).trans hu
  | _ => exact hu

section

variable {s t : State}

theorem exec_remainingSteps_le {i : Instr} (h : exec i s = .next t) (hi : ∀ d dir v, i ≠ .ssStart d dir v) :
    t.remainingSteps ≤ s.remainingSteps := by
  obtain ⟨roles, u, -, hw, ht⟩ := exec_writes h
  have hle : u.remainingSteps ≤ s.remainingSteps := hw.remainingSteps_le (scopeOf_ne_start hi)
  obtain rfl | ⟨bytes, rest, -, rfl⟩ := ht
  · exact hle
  · exact hle

theorem beginOp_remainingSteps (s : State) (i : Instr) : (beginOp s i).remainingSteps = s.remainingSteps := by
  cases i with
  | slEnqm bytes => cases bytes <;> rfl
  | rbWrite a | rbRead a | rbIsFull a | rbIsEmpty a => cases a <;> rfl
  | _ => rfl

theorem begin_remainingSteps {i : Instr} (h : issue s i (fun s1 => .ok (beginOp s1 i)) = .next t) :
    t.remainingSteps = s.remainingSteps := by
  obtain ⟨-, s1, ha, hb⟩ := issue_next h
  obtain ⟨-, roles, -, rfl⟩ := admitRun_ok ha
  obtain ⟨-, rfl⟩ | ⟨-, hb⟩ := hb
  · rfl
  · cases hb
    exact beginOp_remainingSteps _ i

/-- The interrupt context is in no `startMotion` (R202). -/
theorem advanceIrq_remainingSteps_le (hctx : s.contextsOk = true) (h : advanceIrq s = .next t) :
    t.remainingSteps ≤ s.remainingSteps := by
  obtain ⟨x, rest, hx, hm⟩ := advanceIrq_next h
  have hirq : x.ofIrq = true := (State.contextsOk_iff.1 hctx).2.1 x (by simp [hx])
  have hne : ∀ d dir v pos, x ≠ .ssStart d dir v pos := by
    rintro d dir v pos rfl
    cases hirq
  obtain ⟨s1, hm, rfl⟩ | ⟨s1, x', hm, rfl⟩ := hm
  all_goals exact (microStep_writes hm).remainingSteps_le (Activity.scope_ne_start hne)

/-- The micro-steps of a `startMotion`: S2 sets the count, the others leave it. -/
theorem microStep_ssStart_remainingSteps {a : Agent} {d : Nat} {dir : Direction} {v : Nat} {pos : StartAt}
    {x' : Option Activity} (h : microStep s a (.ssStart d dir v pos) = .ok (t, x')) :
    t.remainingSteps = s.remainingSteps
      ∨ (pos = .s2 ∧ x' = some (.ssStart d dir v .s3) ∧ t.remainingSteps = d) := by
  cases pos with
  | s2 =>
    cases h
    exact .inr ⟨rfl, rfl, rfl⟩
  | s5 =>
    cases h
    rw [State.startS5_eq]
    exact .inl rfl
  | s1 | s3 | s4 | s6 =>
    cases h
    exact .inl rfl

/-- The mainline is at S2 of a `startMotion`, which the step performs. -/
def AtS2 (s t : State) : Prop :=
  ∃ d dir v, s.main = some (.ssStart d dir v .s2) ∧ t.main = some (.ssStart d dir v .s3) ∧ t.remainingSteps = d

theorem advanceMain_remainingSteps (h : advanceMain s = .next t) :
    t.remainingSteps ≤ s.remainingSteps ∨ AtS2 s t := by
  obtain ⟨x, hx, -, hm⟩ := advanceMain_next h
  by_cases hstart : ∃ d dir v pos, x = .ssStart d dir v pos
  · obtain ⟨d, dir, v, pos, rfl⟩ := hstart
    obtain ⟨s1, hm, rfl⟩ | ⟨s1, x', hm, rfl⟩ := hm
    · obtain hsame | ⟨-, hgoes, -⟩ := microStep_ssStart_remainingSteps hm
      · exact .inl hsame.le
      · cases hgoes
    · obtain hsame | ⟨rfl, hgoes, hset⟩ := microStep_ssStart_remainingSteps hm
      · exact .inl hsame.le
      · cases hgoes
        exact .inr ⟨d, dir, v, hx, rfl, hset⟩
  · have hne : ∀ d dir v pos, x ≠ .ssStart d dir v pos := fun d dir v pos he => hstart ⟨d, dir, v, pos, he⟩
    obtain ⟨s1, hm, rfl⟩ | ⟨s1, x', hm, rfl⟩ := hm
    all_goals exact .inl ((microStep_writes hm).remainingSteps_le (Activity.scope_ne_start hne))

theorem handleEvent_remainingSteps {ev : Event} (hctx : s.contextsOk = true) (h : handleEvent s ev = .next t) :
    t.remainingSteps ≤ s.remainingSteps ∨ AtS2 s t := by
  cases ev with
  | init =>
    cases h
    exact .inl le_rfl
  | start i =>
    simp only [handleEvent] at h
    split at h
    · exact .inl (advanceIrq_remainingSteps_le (s := { s with agenda := .start i :: s.agenda }) hctx h)
    · exact .inl (begin_remainingSteps h).le
  | advance a =>
    cases a with
    | M => exact advanceMain_remainingSteps h
    | I => exact .inl (advanceIrq_remainingSteps_le hctx h)
  | wclk b wReq wData =>
    cases wReq with
    | false =>
      cases h
      exact .inl le_rfl
    | true => exact .inl (exec_remainingSteps_le (s := s.samplePortW b true)
        (i := .rbWrite (portProducer b) b wData) h nofun)
  | rclk b rReq =>
    cases rReq with
    | false =>
      cases h
      exact .inl le_rfl
    | true => exact .inl (exec_remainingSteps_le (s := s.samplePortR b true)
        (i := .rbRead (portConsumer b) b) h nofun)
  | rst =>
    cases h
    exact .inl (Nat.zero_le _)

/-- A command that is no `startMotion` does not raise the count, and a `startMotion` sets it. -/
theorem runCommand_remainingSteps (h : runCommand s = .next t) :
    t.remainingSteps ≤ s.remainingSteps
      ∨ ∃ d dir v rest, decode s.cfg s.stream = .ok (.ssStart d dir v, rest) ∧ t.stream = rest
        ∧ t.remainingSteps = d := by
  obtain ⟨-, rfl⟩ | ⟨i, rest, hd, he⟩ := runCommand_next h
  · exact .inl le_rfl
  · by_cases hstart : ∃ d dir v, i = .ssStart d dir v
    · obtain ⟨d, dir, v, rfl⟩ := hstart
      obtain rfl := exec_ssStart_next he
      exact .inr ⟨d, dir, v, rest, hd, by rw [State.startMotion_eq], State.startMotion_remainingSteps _ d dir v⟩
    · have hi : ∀ d dir v, i ≠ .ssStart d dir v := fun d dir v hi => hstart ⟨d, dir, v, hi⟩
      exact .inl (exec_remainingSteps_le (s := { s with stream := rest }) he hi)

end

/-- Settles O40: the four sources of a step, of which only the mainline's S2 and the stream's `startMotion` set the
count. -/
theorem stepsIncreaseOnlyAtS2 : Obligations.StepsIncreaseOnlyAtS2 := by
  unfold Obligations.StepsIncreaseOnlyAtS2
  intro s t hctx h
  obtain ⟨ev, rest, -, hev⟩ | ⟨-, -, hirq⟩ | ⟨-, -, -, hmain⟩ | ⟨ha, hirq, hm, hrun⟩ :=
    stepOnce_next (step_next_wf h).2
  · exact (handleEvent_remainingSteps (s := { s with agenda := rest }) hctx hev).imp_right .inl
  · exact .inl (advanceIrq_remainingSteps_le hctx hirq)
  · exact (advanceMain_remainingSteps hmain).imp_right .inl
  · exact (runCommand_remainingSteps hrun).imp_right fun hset => .inr ⟨⟨hm, hirq, ha⟩, hset⟩

end Sys2Proof.Machine
end

section
/-! PROOFS. Nothing is fatal (60_exceptions.md R190). The three reasons to stop with a fault (log 23), as what a
micro-step meets: a slot or a pin that does not exist (R64, R61), or no byte in `RCREG` (U14). No state that meets the
invariant has any of them. -/

namespace Sys2Proof.Machine

/-! ## Where a fault comes from -/

section Sources

variable {s : State} {f : Fault} {b : BufId} {v : Byte}

theorem storeSlot_error {h : Nat} (he : s.storeSlot b h v = .error f) : Memory.read (s.ring b).slots h = none := by
  rw [← Option.not_isSome_iff_eq_none]
  intro hr
  obtain ⟨slots, -, hok⟩ := storeSlot_of_read v hr
  rw [hok] at he
  cases he

theorem loadSlot_error {t : Nat} (he : s.loadSlot b t = .error f) : Memory.read (s.ring b).slots t = none := by
  unfold State.loadSlot at he
  split at he
  next hr => exact hr
  · cases he

theorem writePin_error {i : Fin 4} {level : Bool} (he : s.writePin i level = .error f) : s.pinBound i = false := by
  unfold State.writePin at he
  split at he
  next hr => simp [State.pinBound, hr]
  next v hr =>
    split at he
    next hw =>
      have hsome := Memory.write_isSome s.io (s.cfg.pins.get i).loc (pinByte (s.cfg.pins.get i) level v)
      simp [hw, hr] at hsome
    · cases he

/-- Of a `write` only W3 can fault, and of a `read` only Q3. -/
theorem microWrite_error {pos : WriteAt} (he : microWrite s b v pos = .error f) :
    ∃ h, pos = .w3 h ∧ Memory.read (s.ring b).slots h = none := by
  cases pos with
  | w1 | w4 => cases he
  | w2 h t =>
    simp only [microWrite] at he
    split at he <;> cases he
  | w3 h =>
    simp only [microWrite] at he
    split at he <;> cases he
    next hs => exact ⟨h, rfl, storeSlot_error hs⟩

theorem microRead_error {pos : ReadAt} (he : microRead s b pos = .error f) :
    ∃ t, pos = .q3 t ∧ Memory.read (s.ring b).slots t = none := by
  cases pos with
  | q1 | q4 => cases he
  | q2 t h =>
    simp only [microRead] at he
    split at he <;> cases he
  | q3 t =>
    simp only [microRead] at he
    split at he <;> cases he
    next hl => exact ⟨t, rfl, loadSlot_error hl⟩

theorem microEnqb_error {pos : EnqAt} (he : microEnqb s v pos = .error f) :
    ∃ w, pos = .write w ∧ microWrite s .tx v w = .error f := by
  cases pos with
  | write w =>
    simp only [microEnqb] at he
    split at he <;> cases he
    next hw => exact ⟨w, rfl, hw⟩
  | a1 => cases he

theorem microEnqm_error {todo : List Byte} {eOut : Bool} {pos : MsgAt} (he : microEnqm s todo eOut pos = .error f) :
    ∃ v rest e, todo = v :: rest ∧ pos = .l2 e ∧ microEnqb s v e = .error f := by
  cases todo with
  | nil => cases he
  | cons v rest =>
    cases pos with
    | l2 e =>
      simp only [microEnqm] at he
      split at he <;> cases he
      next hb => exact ⟨v, rest, e, rfl, rfl, hb⟩
    | l1 | l3 err =>
      simp only [microEnqm] at he
      split at he <;> cases he

theorem microTxrdy_error {pos : TxAt} (he : microTxrdy s pos = .error f) :
    ∃ q, pos = .x2 q ∧ microRead s .tx q = .error f := by
  cases pos with
  | x1 =>
    simp only [microTxrdy] at he
    split at he <;> cases he
  | x2 q =>
    simp only [microTxrdy] at he
    split at he <;> cases he
    next hr => exact ⟨q, rfl, hr⟩
  | x3 | x4 => cases he

theorem consumeRcreg_error (he : s.consumeRcreg = .error f) : s.rcReg = none := by
  unfold State.consumeRcreg at he
  split at he
  next hr => exact hr
  · cases he

theorem microRxrdy_error {pos : RxAt} (he : microRxrdy s pos = .error f) :
    (pos = .v1 ∧ s.rcReg = none) ∨ ∃ r w, pos = .v3 r w ∧ microWrite s .rx r w = .error f := by
  cases pos with
  | v1 =>
    simp only [microRxrdy] at he
    split at he <;> cases he
    next hr => exact .inl ⟨rfl, consumeRcreg_error hr⟩
  | v2 r =>
    simp only [microRxrdy] at he
    split at he <;> cases he
  | v3 r w =>
    simp only [microRxrdy] at he
    split at he <;> cases he
    next hw => exact .inr ⟨r, w, rfl, hw⟩

theorem microTick_error {pos : TickAt} (he : microTick s pos = .error f) : ∃ i, s.pinBound i = false := by
  cases pos with
  | t2 i =>
    simp only [microTick] at he
    split at he
    next hp => exact ⟨i, writePin_error hp⟩
    · split at he <;> cases he
  | t1 | t3 | t4 => cases he

/-- What an operation in progress meets when its next micro-step faults. -/
inductive Fatal (s : State) (x : Activity) : Prop
  | store {b : BufId} {v : Byte} {h : Nat} (hx : x.writing = some (b, v, .w3 h))
      (hr : Memory.read (s.ring b).slots h = none)
  | load {b : BufId} {t : Nat} (hx : x.reading = some (b, .q3 t)) (hr : Memory.read (s.ring b).slots t = none)
  | pin {i : Fin 4} (hp : s.pinBound i = false)
  | rcreg (hx : x = .slRxrdy .v1) (hr : s.rcReg = none)

theorem fatal_of_microWrite {x : Activity} {pos : WriteAt} (hx : x.writing = some (b, v, pos))
    (he : microWrite s b v pos = .error f) : Fatal s x := by
  obtain ⟨h, rfl, hr⟩ := microWrite_error he
  exact .store hx hr

theorem fatal_of_microRead {x : Activity} {pos : ReadAt} (hx : x.reading = some (b, pos))
    (he : microRead s b pos = .error f) : Fatal s x := by
  obtain ⟨t, rfl, hr⟩ := microRead_error he
  exact .load hx hr

/-- A micro-step faults only where its operation meets one of these. -/
theorem microStep_error {a : Agent} {x : Activity} (he : microStep s a x = .error f) : Fatal s x := by
  cases x with
  | rbWrite b v pos =>
    simp only [microStep] at he
    split at he <;> cases he
    next hm => exact fatal_of_microWrite rfl hm
  | rbRead b pos =>
    simp only [microStep] at he
    split at he <;> cases he
    next hm => exact fatal_of_microRead rfl hm
  | slEnqb v pos =>
    simp only [microStep] at he
    split at he <;> cases he
    next hm =>
      obtain ⟨w, rfl, hw⟩ := microEnqb_error hm
      exact fatal_of_microWrite rfl hw
  | slEnqm todo eOut pos =>
    simp only [microStep] at he
    split at he <;> cases he
    next hm =>
      obtain ⟨v, rest, e, rfl, rfl, hb⟩ := microEnqm_error hm
      obtain ⟨w, rfl, hw⟩ := microEnqb_error hb
      exact fatal_of_microWrite rfl hw
  | slDeqb pos =>
    simp only [microStep] at he
    split at he <;> cases he
    next hm => exact fatal_of_microRead rfl hm
  | slTxrdy pos =>
    simp only [microStep] at he
    split at he <;> cases he
    next hm =>
      obtain ⟨q, rfl, hq⟩ := microTxrdy_error hm
      exact fatal_of_microRead rfl hq
  | slRxrdy pos =>
    simp only [microStep] at he
    split at he <;> cases he
    next hm =>
      obtain ⟨rfl, hr⟩ | ⟨r, w, rfl, hw⟩ := microRxrdy_error hm
      · exact .rcreg rfl hr
      · exact fatal_of_microWrite rfl hw
  | ssStart distance dir speed pos =>
    simp only [microStep] at he
    split at he <;> cases he
  | ssRelease i =>
    simp only [microStep] at he
    split at he
    next hp => exact .pin (writePin_error hp)
    · split at he <;> cases he
  | ssTick pos =>
    simp only [microStep] at he
    split at he <;> cases he
    next hm =>
      obtain ⟨i, hp⟩ := microTick_error hm
      exact .pin hp
  | rbIsFull | rbIsEmpty | ssIsfin => cases he

/-- A whole `write` or `read` faults only where the slot at its index does not exist. -/
theorem writeBuf_error (he : s.writeBuf b v = .error f) : Memory.read (s.ring b).slots (s.ring b).head = none := by
  unfold State.writeBuf Ring.writeIndex at he
  split at he
  · cases he
  · split at he <;> cases he
    next hs => exact storeSlot_error hs

theorem readBuf_error (he : s.readBuf b = .error f) : Memory.read (s.ring b).slots (s.ring b).tail = none := by
  unfold State.readBuf Ring.readIndex at he
  split at he
  · cases he
  · split at he <;> cases he
    next hl => exact loadSlot_error hl

theorem enqueueByte_error (he : s.enqueueByte v = .error f) : s.writeBuf .tx v = .error f := by
  unfold State.enqueueByte at he
  split at he <;> cases he
  next hw => exact hw

end Sources

/-! ## Whole operations on well-formed hardware -/

section Hardware

variable {s s' : State} {f : Fault} {b : BufId} {v : Byte} (hs : HardwareOk s)
include hs

theorem HardwareOk.sameCore (hc : SameCore s s') : HardwareOk s' := by
  obtain ⟨_, _, _, _, rfl⟩ := hc
  exact ⟨hs.params, hs.ring, hs.io, hs.pins, hs.steps, hs.period, hs.tmr, hs.tmrOut⟩

theorem HardwareOk.withRoles (i : Instr) (roles : Roles) : HardwareOk (s.withRoles i roles) :=
  ⟨hs.params, hs.ring, hs.io, hs.pins, hs.steps, hs.period, hs.tmr, hs.tmrOut⟩

theorem HardwareOk.read_ne_none {i : Nat} (hi : i < s.cap b) : Memory.read (s.ring b).slots i ≠ none := by
  obtain ⟨v, hv⟩ := Ring.read_of_wf (hs.ring b) hi
  simp [hv]

theorem HardwareOk.writeBuf_ne_error : s.writeBuf b v ≠ .error f :=
  fun he => hs.read_ne_none (Ring.wf_iff.1 (hs.ring b)).2.1 (writeBuf_error he)

theorem HardwareOk.readBuf_ne_error : s.readBuf b ≠ .error f :=
  fun he => hs.read_ne_none (Ring.wf_iff.1 (hs.ring b)).2.2 (readBuf_error he)

theorem HardwareOk.enqueueByte_ne_error : s.enqueueByte v ≠ .error f :=
  fun he => hs.writeBuf_ne_error (enqueueByte_error he)

/-- Each byte of a message is queued on hardware that is still well formed. -/
theorem HardwareOk.enqueueBytes_ne_error {eOut : Bool} {bytes : List Byte} :
    s.enqueueBytes eOut bytes ≠ .error f := by
  induction bytes generalizing s eOut with
  | nil => exact nofun
  | cons v rest ih =>
    intro he
    simp only [State.enqueueBytes] at he
    split at he
    · cases he
    · split at he
      next hq => exact hs.enqueueByte_ne_error hq
      next e s1 hq =>
        have hw : Writes (.link .tx) s (s1.recordErr .M e) :=
          (enqueueByte_writes hq).trans (recordErr_writes rfl s1 .M e)
        exact ih (hw.hardwareOk trivial hs) he

theorem HardwareOk.onTransmitReady_ne_error : s.onTransmitReady ≠ .error f := by
  intro he
  unfold State.onTransmitReady at he
  split at he
  · cases he
  · split at he <;> cases he
    next hr => exact hs.readBuf_ne_error hr

/-- V1 finds the byte just presented. -/
theorem HardwareOk.onReceiveReady_ne_error : (s.presentByte v).onReceiveReady ≠ .error f := by
  have hc : (s.presentByte v).consumeRcreg = .ok (v, { s with rcReg := none }) := rfl
  have hs1 : HardwareOk { s with rcReg := none } := (Write.consume (sc := .link .rx) rfl).hardwareOk trivial hs
  intro he
  simp only [State.onReceiveReady, hc] at he
  split at he
  · cases he
  · split at he <;> cases he
    next hw => exact hs1.writeBuf_ne_error hw

/-- On well-formed hardware no operation that runs as a whole faults. -/
theorem HardwareOk.meaning_ne_error (i : Instr) : meaning i s ≠ .error f := by
  intro he
  cases i with
  | rbWrite a b v =>
    simp only [meaning] at he
    split at he <;> cases he
    next hw => exact hs.writeBuf_ne_error hw
  | rbRead a b =>
    simp only [meaning] at he
    split at he <;> cases he
    next hr => exact hs.readBuf_ne_error hr
  | slEnqb v =>
    simp only [meaning] at he
    split at he <;> cases he
    next hq => exact hs.enqueueByte_ne_error hq
  | slEnqm bytes => exact hs.enqueueBytes_ne_error he
  | slDeqb =>
    simp only [meaning] at he
    split at he <;> cases he
    next hr => exact hs.readBuf_ne_error hr
  | slTxrdy => exact hs.onTransmitReady_ne_error he
  | slRxrdy r => exact hs.onReceiveReady_ne_error he
  | ssRelease =>
    obtain ⟨io, seen, -, hok⟩ := hs.writePins 0#4
    cases hok.symm.trans he
  | ssTick =>
    obtain ⟨io, seen, -, hok⟩ := hs.onTick
    cases hok.symm.trans he
  | rbIsFull | rbIsEmpty | ssStart | ssIsfin => cases he

end Hardware

/-! ## Steps -/

section Steps

variable {s : State} {f : Fault} {i : Instr}

/-- The gate faults only where the operation it admits and delivers does. -/
theorem issue_fault {body : State → Except Fault State} (he : issue s i body = .fault f) :
    ∃ roles, body (s.withRoles i roles) = .error f := by
  unfold issue at he
  split at he
  · cases he
  · split at he
    · cases he
    next s1 hr =>
      obtain ⟨-, roles, -, rfl⟩ := admitRun_ok hr
      split at he
      · refine ⟨roles, ?_⟩
        cases hb : body (s.withRoles i roles) <;> simp_all [outcomeOf]
      · cases he

theorem HardwareOk.exec_ne_fault (hs : HardwareOk s) : exec i s ≠ .fault f := by
  intro he
  rw [exec_eq_issue_meaning] at he
  obtain ⟨roles, hm⟩ := issue_fault he
  exact (hs.withRoles i roles).meaning_ne_error i hm

theorem advanceMain_fault (he : advanceMain s = .fault f) : ∃ x, s.main = some x ∧ microStep s .M x = .error f := by
  unfold advanceMain at he
  split at he
  · cases he
  next x hx =>
    split at he
    · split at he <;> cases he
      next hm => exact ⟨x, hx, hm⟩
    · cases he

theorem advanceIrq_fault (he : advanceIrq s = .fault f) : ∃ x ∈ s.irq, microStep s .I x = .error f := by
  unfold advanceIrq at he
  split at he
  · cases he
  next x rest hx =>
    split at he <;> cases he
    next hm => exact ⟨x, by simp [hx], hm⟩

section

variable (hgood : Good s)
include hgood

/-- An operation in progress finds its slot, for its index is the buffer's (R64), its pin (R61), and its byte in `RCREG`
(U14). -/
theorem Good.not_fatal {x : Activity} (hx : x ∈ s.inProgress) : ¬ Fatal s x := by
  obtain ⟨hw, hc, -, hf, hrc⟩ := hgood
  have hhw := (State.wf_iff.1 hw).1
  have hq : Queues s s.inProgress := (queues_iff hw).1 hf
  rintro (⟨hwriting, hr⟩ | ⟨hreading, hr⟩ | hp | ⟨rfl, hr⟩)
  case store b v h =>
    have hpos := (hq b).writes x hx v _ hwriting
    simp only [writePosOk, Bool.and_eq_true, beq_iff_eq] at hpos
    obtain ⟨rfl, -⟩ := hpos
    exact hhw.read_ne_none (Ring.wf_iff.1 (hhw.ring b)).2.1 hr
  case load b t =>
    have hpos := (hq b).reads x hx _ hreading
    simp only [readPosOk, Bool.and_eq_true, beq_iff_eq] at hpos
    obtain ⟨rfl, -⟩ := hpos
    exact hhw.read_ne_none (Ring.wf_iff.1 (hhw.ring b)).2.2 hr
  case pin i => exact absurd (hhw.pins i) (by simp [hp])
  case rcreg =>
    rcases mem_inProgress.1 hx with hmain | hirq
    · cases (State.contextsOk_iff.1 hc).1 _ hmain
    · exact absurd (State.rcregOk_iff.1 hrc hirq) (by simp [hr])

theorem Good.advanceMain_ne_fault : advanceMain s ≠ .fault f := by
  intro he
  obtain ⟨x, hx, hm⟩ := advanceMain_fault he
  exact hgood.not_fatal (mem_inProgress.2 (.inl hx)) (microStep_error hm)

theorem Good.advanceIrq_ne_fault : advanceIrq s ≠ .fault f := by
  intro he
  obtain ⟨x, hx, hm⟩ := advanceIrq_fault he
  exact hgood.not_fatal (mem_inProgress.2 (.inr hx)) (microStep_error hm)

theorem Good.handleEvent_ne_fault (ev : Event) : handleEvent s ev ≠ .fault f := by
  have hs := (State.wf_iff.1 hgood.1).1
  intro he
  cases ev with
  | init | rst => cases he
  | start i =>
    simp only [handleEvent] at he
    split at he
    · exact Good.advanceIrq_ne_fault (s := { s with agenda := .start i :: s.agenda }) hgood he
    · obtain ⟨roles, hb⟩ := issue_fault he
      cases hb
  | advance a =>
    cases a with
    | M => exact hgood.advanceMain_ne_fault he
    | I => exact hgood.advanceIrq_ne_fault he
  | wclk b wReq wData =>
    cases wReq with
    | false => cases he
    | true =>
      have hport : SameCore s (s.samplePortW b true) := ⟨_, _, _, _, rfl⟩
      exact (hs.sameCore hport).exec_ne_fault (i := .rbWrite (portProducer b) b wData) he
  | rclk b rReq =>
    cases rReq with
    | false => cases he
    | true =>
      have hport : SameCore s (s.samplePortR b true) := ⟨_, _, _, _, rfl⟩
      exact (hs.sameCore hport).exec_ne_fault (i := .rbRead (portConsumer b) b) he

theorem Good.runCommand_ne_fault : runCommand s ≠ .fault f := by
  have hs := (State.wf_iff.1 hgood.1).1
  intro he
  unfold runCommand at he
  split at he
  · cases he
  · split at he
    · cases he
    next i rest hd =>
      have hrest : SameCore s { s with stream := rest } := ⟨_, _, _, _, rfl⟩
      exact (hs.sameCore hrest).exec_ne_fault he

end

end Steps

/-- Settles O57: whichever of the four sources a step has, a whole operation runs on well-formed hardware, and a
micro-step finds what its locals say. -/
theorem noStepFaults : Obligations.NoStepFaults := by
  unfold Obligations.NoStepFaults
  intro s f hgood he
  rw [step_of_wf (State.wf_iff.1 hgood.1).1.params] at he
  unfold stepOnce at he
  split at he
  next ev rest ha => exact Good.handleEvent_ne_fault (s := { s with agenda := rest }) hgood ev he
  · split at he
    · exact hgood.advanceIrq_ne_fault he
    · exact hgood.advanceMain_ne_fault he
    · exact hgood.runCommand_ne_fault he

end Sys2Proof.Machine
end

section
/-! PROOFS. Conditions raised from outside (60_exceptions.md R196, R201): one that its gate does not deliver, one that
has to wait, and one that nests (20_memory.md R73). -/

namespace Sys2Proof.Machine

section

variable {s : State} {i : Instr} {roles : Roles} {rest : List Event}

/-- A handler on its admission only takes its roles: it is no direct access of `tx`. -/
theorem State.withRoles_of_handler (s : State) (hi : handlerOf i ≠ none) (roles : Roles) :
    s.withRoles i roles = { s with roles := roles } := by
  cases i with
  | slTxrdy | slRxrdy | ssTick => simp [State.withRoles, writesTxDirectly, readsTxDirectly]
  | _ => exact absurd rfl hi

theorem issuer_of_handler (hi : handlerOf i ≠ none) : issuer i = .I := by
  cases i with
  | slTxrdy | slRxrdy | ssTick => rfl
  | _ => exact absurd rfl hi

theorem operandsOk_of_handler (p : Params) (hi : handlerOf i ≠ none) : i.operandsOk p = true := by
  cases i with
  | slTxrdy | slRxrdy | ssTick => rfl
  | _ => exact absurd rfl hi

/-- What can claim its roles and, if it is delivered, comes after `InitDone`, passes the second half of admission. -/
theorem admitRun_of_claim (hinit : gateOpen i s = true → s.initDone = true) (hr : claimRoles s.roles i = some roles) :
    admitRun s i = .ok (s.withRoles i roles) := by
  cases hg : gateOpen i s with
  | false => simp [admitRun, hg, hr]
  | true => simp [admitRun, hinit hg, hr]

/-! ## A closed gate -/

/-- Only a handler's condition can find its gate closed (R195, R196). -/
theorem handlerOf_of_closed (hg : gateOpen i s = false) : handlerOf i ≠ none := by
  cases i with
  | slTxrdy | slRxrdy | ssTick => exact nofun
  | _ => cases hg

/-- A condition raised with its gate closed only takes its roles, by `exec` and as an event. -/
theorem undelivered_of_closed (hc : admitContext s i = .ok ()) (hg : gateOpen i s = false)
    (hr : claimRoles s.roles i = some roles) :
    exec i s = .next { s with roles := roles }
      ∧ (s.agenda = .start i :: rest → step s = .next { s with roles := roles, agenda := rest }) := by
  have hadmit : ∀ agenda, admitRun { s with agenda := agenda } i = .ok { s with roles := roles, agenda := agenda } := by
    intro agenda
    rw [admitRun_of_claim (s := { s with agenda := agenda }) (fun h => absurd h (Bool.eq_false_iff.1 hg)) hr,
      State.withRoles_of_handler _ (handlerOf_of_closed hg)]
  refine ⟨?_, fun hagenda => ?_⟩
  · rw [exec_eq_issue_meaning]
    exact issue_closed hc hg (hadmit s.agenda)
  · obtain ⟨hw, -, hb⟩ := admitContext_ok.1 hc
    rw [step_start_of_mayBegin hw hb hagenda]
    exact issue_closed (s := { s with agenda := rest }) hc hg (hadmit rest)

/-! ## During a handler -/

/-- An operation of the interrupt context that may not begin stays on the agenda while the one in progress goes on. -/
theorem step_start_waits (hw : s.cfg.wf = true) (hi : issuer i = .I) (hb : mayBegin s i = false)
    (hagenda : s.agenda = .start i :: rest) : step s = advanceIrq s := by
  have hwait : mustWait { s with agenda := rest } i = true := by
    have hb' : mayBegin { s with agenda := rest } i = false := hb
    simp [mustWait, hi, hb']
  rw [step_event hw hagenda]
  simp only [handleEvent, hwait, if_true, ← hagenda]

/-- An operation that may begin and that its gate delivers is entered in the state it is admitted in. -/
theorem step_start_begins (hc : admitContext s i = .ok ()) (hg : gateOpen i s = true) (hinit : s.initDone = true)
    (hr : claimRoles s.roles i = some roles) (hagenda : s.agenda = .start i :: rest) :
    step s = .next (beginOp ({ s with agenda := rest }.withRoles i roles) i) := by
  obtain ⟨hw, -, hb⟩ := admitContext_ok.1 hc
  rw [step_start_of_mayBegin hw hb hagenda]
  exact issue_admitted (s := { s with agenda := rest }) hc hg
    (admitRun_of_claim (s := { s with agenda := rest }) (fun _ => hinit) hr)

end

/-! ## The statements -/

/-- Settles O25: neither condition is delivered; transmit-ready claims the roles of R25, a tick none. -/
theorem closedGateDeliversNothing : Obligations.ClosedGateDeliversNothing := by
  unfold Obligations.ClosedGateDeliversNothing
  intro s rest hw
  have hp := (State.wf_iff.1 hw).1.params
  refine ⟨fun hb harm hlink => ?_, fun hb harm => ?_⟩
  · exact undelivered_of_closed (admitContext_ok.2 ⟨hp, rfl, hb⟩) harm (Roles.link_eq_some.2 ⟨hlink, rfl⟩)
  · exact undelivered_of_closed (admitContext_ok.2 ⟨hp, rfl, hb⟩) harm (claimRoles_ss s.roles rfl)

/-- Settles O10: with an operation in progress below it a handler may begin exactly when it may nest, and `mayNest_cons`
says when that is. -/
theorem raiseDuringAHandlerWaits : Obligations.RaiseDuringAHandlerWaits := by
  unfold Obligations.RaiseDuringAHandlerWaits
  intro s i x xs rest hw hagenda hirq
  refine ⟨fun hi hnest => ?_, fun hnested hi hcomp hothers hinit hg hclaim => ?_⟩
  · exact step_start_waits hw hi (by simp [mayBegin, hi, hirq, hnest]) hagenda
  · have hnest : mayNest s i = true := (mayNest_cons hirq).2 ⟨hnested, hi, hcomp.symm, hothers⟩
    have hb : mayBegin s i = true := by simp [mayBegin, issuer_of_handler hi, hnest]
    obtain ⟨roles, hr⟩ := Option.isSome_iff_exists.1 hclaim
    have hstep := step_start_begins (admitContext_ok.2 ⟨hw, operandsOk_of_handler _ hi, hb⟩) hg hinit hr hagenda
    have hadmitted : State.admitted { s with agenda := rest } i
        = State.withRoles { s with agenda := rest } i roles := by
      simp [State.admitted, hr]
    rw [← hadmitted] at hstep
    refine ⟨?_, fun r => ?_, ?_⟩
    all_goals
      rintro rfl
      exact hstep

end Sys2Proof.Machine
end

section
/-! PROOFS. Results and error slots (60_exceptions.md R191, R192): what ends an operation returns one result and writes
the slot exactly when that is a failure; nothing before it touches either. -/

namespace Sys2Proof.Machine

/-- From `s` to `t` agent `a` has been returned the one result `r`, and its slot is written on failure only. -/
structure Returned (s t : State) (a : Agent) (r : Reply) : Prop where
  replies : t.replies = s.replies ++ [(a, r)]
  errSlot : t.errSlot = r.failCode.elim s.errSlot (s.errSlot.set a)

/-- From `s` to `t` nothing has been returned and no slot written. -/
structure NotReturned (s t : State) : Prop where
  replies : t.replies = s.replies
  errSlot : t.errSlot = s.errSlot

section

variable {s t u : State} {a : Agent} {r : Reply} {b : BufId} {v : Byte}

theorem NotReturned.trans (h1 : NotReturned s t) (h2 : NotReturned t u) : NotReturned s u :=
  ⟨h2.replies.trans h1.replies, h2.errSlot.trans h1.errSlot⟩

theorem NotReturned.then (h1 : NotReturned s t) (h2 : Returned t u a r) : Returned s u a r :=
  ⟨by rw [h2.replies, h1.replies], by rw [h2.errSlot, h1.errSlot]⟩

/-! ## Before the end -/

theorem writeBuf_notReturned {o : Bool} (h : s.writeBuf b v = .ok (o, t)) : NotReturned s t := by
  obtain ⟨-, -, rfl⟩ | ⟨-, -, s1, hs, rfl⟩ := writeBuf_ok h
  · exact ⟨rfl, rfl⟩
  · obtain ⟨slots, -, rfl⟩ := storeSlot_ok hs
    exact ⟨rfl, rfl⟩

theorem readBuf_notReturned {x : Option Byte} (h : s.readBuf b = .ok (x, t)) : NotReturned s t := by
  obtain ⟨-, -, rfl⟩ | ⟨-, w, -, -, rfl⟩ := readBuf_ok h
  · exact ⟨rfl, rfl⟩
  · exact ⟨rfl, rfl⟩

theorem enqueueByte_notReturned {e : Bool} (h : s.enqueueByte v = .ok (e, t)) : NotReturned s t := by
  obtain ⟨s1, hw, rfl⟩ := enqueueByte_ok h
  obtain ⟨hr, he⟩ := writeBuf_notReturned hw
  cases e
  · exact ⟨hr, he⟩
  · exact ⟨hr, he⟩

/-! ## The end -/

theorem returnWrite_returned (s : State) (a : Agent) (o : Bool) : ∃ r, Returned s (s.returnWrite a o) a r := by
  cases o
  · exact ⟨.status .ok, rfl, rfl⟩
  · exact ⟨.status .overflow, rfl, rfl⟩

theorem returnRead_returned (s : State) (a : Agent) (x : Option Byte) : ∃ r, Returned s (s.returnRead a x) a r := by
  cases x with
  | none => exact ⟨.statusByte .underflow 0#8, rfl, rfl⟩
  | some v => exact ⟨.statusByte .ok v, rfl, rfl⟩

theorem returnErr_returned (s : State) (a : Agent) (e : Bool) : ∃ r, Returned s (s.returnErr a e) a r := by
  cases e
  · exact ⟨.err false, rfl, rfl⟩
  · exact ⟨.err true, rfl, rfl⟩

theorem returnDeq_returned (s : State) (a : Agent) (x : Option Byte) : ∃ r, Returned s (s.returnDeq a x) a r := by
  cases x with
  | none => exact ⟨.errByte true 0#8, rfl, rfl⟩
  | some v => exact ⟨.errByte false v, rfl, rfl⟩

/-- The loop of `enqueueMessage` returns `err` = 0 at its end, or is held and has returned nothing: after the poll of L1
no byte fails. -/
theorem enqueueBytes_returned {bytes : List Byte} (h : s.enqueueBytes false bytes = .ok t) :
    (∃ r, Returned s t .M r) ∨ ∃ rest, t.main = some (.slEnqm rest false .l1) ∧ NotReturned s t := by
  induction bytes generalizing s with
  | nil =>
    cases h
    exact .inl ⟨.err false, rfl, rfl⟩
  | cons w ws ih =>
    obtain ⟨hn, -⟩ | ⟨w, ws, hc, ⟨-, rfl⟩ | ⟨s1, hw, hrest⟩⟩ := enqueueBytes_ok h
    · cases hn
    · exact .inr ⟨_, rfl, rfl, rfl⟩
    · cases hc
      have harmed : NotReturned s s1.armTx := (writeBuf_notReturned hw).trans ⟨rfl, rfl⟩
      obtain ⟨r, hret⟩ | ⟨rest, hmain, hnot⟩ := ih hrest
      · exact .inl ⟨r, harmed.then hret⟩
      · exact .inr ⟨rest, hmain, harmed.trans hnot⟩

end

/-- The operations that can fail (R192). -/
def canFail : Instr → Bool
  | .rbWrite _ _ _ => true
  | .rbRead _ _ => true
  | .slEnqb _ => true
  | .slEnqm _ => true
  | .slDeqb => true
  | _ => false

theorem gateOpen_of_canFail {i : Instr} (hi : canFail i = true) (s : State) : gateOpen i s = true := by
  cases i with
  | rbWrite | rbRead | slEnqb | slEnqm | slDeqb => rfl
  | _ => cases hi

/-- An operation that can fail returns one result, unless it is a message that is held. -/
theorem meaning_returned {i : Instr} {s t : State} (hi : canFail i = true) (h : meaning i s = .ok t) :
    (∃ r, Returned s t (issuer i) r)
      ∨ ∃ bs rest, i = .slEnqm bs ∧ t.main = some (.slEnqm rest false .l1) ∧ NotReturned s t := by
  cases i with
  | rbWrite a b v =>
    obtain ⟨o, s1, hw, rfl⟩ := meaning_rbWrite_ok h
    obtain ⟨r, hr⟩ := returnWrite_returned s1 a o
    exact .inl ⟨r, (writeBuf_notReturned hw).then hr⟩
  | rbRead a b =>
    obtain ⟨x, s1, hx, rfl⟩ := meaning_rbRead_ok h
    obtain ⟨r, hr⟩ := returnRead_returned s1 a x
    exact .inl ⟨r, (readBuf_notReturned hx).then hr⟩
  | slEnqb v =>
    obtain ⟨e, s1, hq, rfl⟩ := meaning_slEnqb_ok h
    obtain ⟨r, hr⟩ := returnErr_returned s1 .M e
    exact .inl ⟨r, (enqueueByte_notReturned hq).then hr⟩
  | slEnqm bytes =>
    obtain hret | ⟨rest, hmain, hnot⟩ := enqueueBytes_returned h
    · exact .inl hret
    · exact .inr ⟨bytes, rest, rfl, hmain, hnot⟩
  | slDeqb =>
    obtain ⟨x, s1, hx, rfl⟩ := meaning_slDeqb_ok h
    obtain ⟨r, hr⟩ := returnDeq_returned s1 .M x
    exact .inl ⟨r, (readBuf_notReturned hx).then hr⟩
  | _ => cases hi

/-- Settles O44: the gate of these operations is never closed, admission returns nothing, and their meanings end by
returning one result. -/
theorem errorSlotIsWrittenOnFailureOnly : Obligations.ErrorSlotIsWrittenOnFailureOnly := by
  unfold Obligations.ErrorSlotIsWrittenOnFailureOnly
  intro i s t hi he
  have hfail : canFail i = true := by
    obtain ⟨a, b, v, rfl⟩ | ⟨a, b, rfl⟩ | ⟨v, rfl⟩ | ⟨bs, rfl⟩ | rfl := hi <;> rfl
  obtain ⟨-, roles, -, ⟨hg, -⟩ | ⟨-, hm⟩⟩ := exec_next he
  · simp [gateOpen_of_canFail hfail] at hg
  obtain ⟨r, hreplies, herr⟩ | ⟨bs, rest, rfl, hmain, hreplies, herr⟩ := meaning_returned hfail hm
  · refine .inl ⟨r, hreplies, herr.trans ?_⟩
    cases r.failCode <;> rfl
  · exact .inr ⟨bs, rest, rfl, hmain, hreplies, herr⟩

end Sys2Proof.Machine
end

section
/-! PROOFS. The three handlers touch disjoint state (60_exceptions.md R199). Each has a part of the state of its own:
with that part put into any other state of the same parameters it does the same, and leaves the rest as it is there. Two
handlers with different parts can then be run in either order. -/

namespace Sys2Proof.Machine

/-! ## The part of a handler -/

/-- `s` with the part of a handler taken from `p`: the transmitter and the reader's end of `tx`, `RCREG` and the
writer's end of `rx`, or the sequencer with its timer and pins. -/
def State.withPart (s : State) (h : Handler) (p : State) : State :=
  match h with
  | .transmitReady =>
    { s with
      rings := ⟨p.rings.tx, s.rings.rx⟩, delivered := ⟨p.delivered.tx, s.delivered.rx⟩
      txArmed := p.txArmed, txReg := p.txReg, txOut := p.txOut }
  | .receiveReady =>
    { s with
      rings := ⟨s.rings.tx, p.rings.rx⟩, accepted := ⟨s.accepted.tx, p.accepted.rx⟩, rcReg := p.rcReg }
  | .tick =>
    { s with
      currentPhase := p.currentPhase, direction := p.direction, remainingSteps := p.remainingSteps
      tickPeriod := p.tickPeriod, timerArmed := p.timerArmed, tmr := p.tmr, tmrOut := p.tmrOut
      io := p.io, pinOut := p.pinOut }

/-- The model's record of roles replaced (log 13). -/
def State.setRoles (s : State) (roles : Roles) : State := { s with roles := roles }

section Parts

variable {s p q : State} {h h' : Handler} {r r' : Roles}

theorem State.withPart_self (s : State) (h : Handler) : s.withPart h s = s := by cases h <;> rfl

/-- Parts of different handlers do not overlap. -/
theorem State.withPart_comm (hne : h ≠ h') : (s.withPart h p).withPart h' q = (s.withPart h' q).withPart h p := by
  cases h <;> cases h' <;> first | rfl | exact absurd rfl hne

theorem State.withPart_of_other (hne : h ≠ h') : s.withPart h' (q.withPart h p) = s.withPart h' q := by
  cases h <;> cases h' <;> first | rfl | exact absurd rfl hne

@[simp] theorem State.setRoles_setRoles : (s.setRoles r).setRoles r' = s.setRoles r' := rfl

@[simp] theorem State.setRoles_self (s : State) : s.setRoles s.roles = s := rfl

@[simp] theorem State.withPart_setRoles : s.withPart h (p.setRoles r) = s.withPart h p := by cases h <;> rfl

@[simp] theorem State.setRoles_withPart : (s.setRoles r).withPart h p = (s.withPart h p).setRoles r := by
  cases h <;> rfl

end Parts

/-! ## A handler works on its part -/

section Local

variable {s p t : State} (hcfg : s.cfg = p.cfg)
include hcfg

theorem onTransmitReady_withPart (hm : p.onTransmitReady = .ok t) :
    (s.withPart .transmitReady p).onTransmitReady = .ok (s.withPart .transmitReady t) := by
  cases he : p.isEmpty .tx with
  | true =>
    cases (onTransmitReady_of_empty he).symm.trans hm
    exact onTransmitReady_of_empty (s := s.withPart .transmitReady p) he
  | false =>
    obtain ⟨he', -⟩ | ⟨x, s1, hr, rfl⟩ := onTransmitReady_ok hm
    · cases he'.symm.trans he
    obtain ⟨he', -⟩ | ⟨-, v, rfl, hv, rfl⟩ := readBuf_ok hr
    · cases he'.symm.trans he
    have hcap : (s.withPart .transmitReady p).cap .tx = p.cap .tx := congrArg (Params.cap · .tx) hcfg
    rw [onTransmitReady_of_readBuf (s := s.withPart .transmitReady p) he
      (readBuf_of_byte (s := s.withPart .transmitReady p) he hv), hcap]
    rfl

theorem onReceiveReady_withPart (v : Byte) (hm : meaning (.slRxrdy v) p = .ok t) :
    meaning (.slRxrdy v) (s.withPart .receiveReady p) = .ok (s.withPart .receiveReady t) := by
  have hcap : ({ s.withPart .receiveReady p with rcReg := none } : State).cap .rx = p.cap .rx :=
    congrArg (Params.cap · .rx) hcfg
  have hfull : (s.withPart .receiveReady p).isFull .rx = p.isFull .rx :=
    congrArg ((p.ring .rx).full ·) hcap
  cases hf : p.isFull .rx with
  | true =>
    cases (meaning_slRxrdy_of_full v hf).symm.trans hm
    exact meaning_slRxrdy_of_full v (hfull.trans hf)
  | false =>
    obtain ⟨r, s1, hc, hrest⟩ := onReceiveReady_ok (s := p.presentByte v) hm
    obtain ⟨hr, rfl⟩ := consumeRcreg_ok hc
    cases hr
    obtain ⟨hf', -⟩ | ⟨o, hw⟩ := hrest
    · cases hf'.symm.trans hf
    obtain ⟨hf', -⟩ | ⟨-, rfl, s2, hs, rfl⟩ := writeBuf_ok hw
    · cases hf'.symm.trans hf
    obtain ⟨slots, hslots, rfl⟩ := storeSlot_ok hs
    rw [meaning_slRxrdy_of_writeBuf (hfull.trans hf)
      (writeBuf_of_room (s := { s.withPart .receiveReady p with rcReg := none }) (hfull.trans hf) hslots)]
    rw [hcap]
    rfl

theorem writePin_withPart {i : Fin 4} {level : Bool} (hm : p.writePin i level = .ok t) :
    (s.withPart .tick p).writePin i level = .ok (s.withPart .tick t) := by
  obtain ⟨v, io, hv, hw, rfl⟩ := writePin_ok hm
  have hlevels : ({ s.withPart .tick p with io := io } : State).pinLevels
      = ({ p with io := io } : State).pinLevels := by
    simp only [State.pinLevels, State.pinLevel, State.withPart, hcfg]
  rw [← hcfg] at hv hw
  rw [State.writePin_of_bound (s := s.withPart .tick p) hv hw, State.showPins, hlevels]
  rfl

theorem writePins_withPart {row : BitVec 4} {is : List (Fin 4)} (hm : p.writePins row is = .ok t) :
    (s.withPart .tick p).writePins row is = .ok (s.withPart .tick t) := by
  induction is generalizing p with
  | nil =>
    cases hm
    rfl
  | cons i rest ih =>
    obtain ⟨p1, h1, hrest⟩ := writePins_cons_ok hm
    rw [State.writePins_cons (writePin_withPart hcfg h1)]
    exact ih (hcfg.trans (Writes.sameControl (.single (writePin_write h1))).cfg.symm) hrest

theorem onTick_withPart (hm : p.onTick = .ok t) : (s.withPart .tick p).onTick = .ok (s.withPart .tick t) := by
  obtain ⟨p1, hp, rfl⟩ := onTick_ok hm
  have hrow : (s.withPart .tick p).tickT1.phaseRow = p.tickT1.phaseRow :=
    congrArg (fun c : Params => c.phaseTable.get p.currentPhase) hcfg
  have hpins : (s.withPart .tick p).tickT1.writePins p.tickT1.phaseRow pinOrder = .ok (s.withPart .tick p1) :=
    writePins_withPart (p := p.tickT1) hcfg hp
  simp only [State.onTick, hrow, hpins]
  rfl

/-- What a handler does once it is delivered, it does to its part. -/
theorem meaning_withPart {i : Instr} {h : Handler} (hi : handlerOf i = some h) (hm : meaning i p = .ok t) :
    meaning i (s.withPart h p) = .ok (s.withPart h t) := by
  cases i with
  | slTxrdy =>
    cases hi
    exact onTransmitReady_withPart hcfg hm
  | slRxrdy r =>
    cases hi
    exact onReceiveReady_withPart hcfg r hm
  | ssTick =>
    cases hi
    exact onTick_withPart hcfg hm
  | _ => cases hi

end Local

/-! ## A handler behind its gate -/

section Gate

variable {s p t : State} {i j : Instr} {h : Handler} {roles : Roles}

/-- An enable is in the part of the handler it is for. -/
theorem gateOpen_withPart (hi : handlerOf i = some h) : gateOpen i (s.withPart h p) = gateOpen i p := by
  cases i with
  | slTxrdy | slRxrdy | ssTick =>
    cases hi
    rfl
  | _ => cases hi

/-- What admission reads besides the record of roles is the same. -/
structure SameGate (s p : State) : Prop where
  cfg : s.cfg = p.cfg
  initDone : s.initDone = p.initDone
  irq : s.irq = p.irq

theorem SameGate.symm (hgate : SameGate s p) : SameGate p s :=
  ⟨hgate.cfg.symm, hgate.initDone.symm, hgate.irq.symm⟩

theorem sameGate_withPart (s p : State) (h : Handler) (roles : Roles) :
    SameGate s ((s.withPart h p).setRoles roles) := by
  cases h <;> exact ⟨rfl, rfl, rfl⟩

theorem admitContext_of_sameGate (hgate : SameGate s p) (hi : handlerOf i ≠ none) :
    admitContext s i = admitContext p i := by
  simp only [admitContext, mayBegin, mayNest, whyNotBegin, issuer_of_handler hi, hgate.cfg, hgate.irq]

/-- A handler that runs in `p` does the same to its part in a state that has this part of `p`, where admission reads the
same and the roles can be claimed. -/
theorem exec_of_samePart (hi : handlerOf i = some h) (hgate : SameGate s p) (hpart : s.withPart h p = s)
    (he : exec i p = .next t) (hr : claimRoles s.roles i = some roles) :
    exec i s = .next ((s.withPart h t).setRoles roles) := by
  have hne : handlerOf i ≠ none := by simp [hi]
  rw [exec_eq_issue_meaning] at he ⊢
  obtain ⟨hc, p1, hrun, hend⟩ := issue_next he
  obtain ⟨hinit, rp, -, rfl⟩ := admitRun_ok hrun
  have hwith : p.withRoles i rp = p.setRoles rp := p.withRoles_of_handler hne rp
  have hopen : gateOpen i s = gateOpen i p := (congrArg (gateOpen i) hpart).symm.trans (gateOpen_withPart hi)
  have hc' : admitContext s i = .ok () := (admitContext_of_sameGate hgate hne).trans hc
  have hrun' : admitRun s i = .ok (s.setRoles roles) := by
    rw [admitRun_of_claim (fun hg => hgate.initDone.trans (hinit (hopen.symm.trans hg))) hr,
      s.withRoles_of_handler hne, State.setRoles]
  rw [hwith] at hend
  obtain ⟨hg, rfl⟩ | ⟨hg, hm⟩ := hend
  · rw [issue_closed hc' (hopen.trans hg) hrun', State.withPart_setRoles, hpart]
  · have hm' := meaning_withPart (s := s.setRoles roles) (p := p.setRoles rp) hgate.cfg hi hm
    rw [State.setRoles_withPart, State.setRoles_withPart, State.withPart_setRoles, hpart] at hm'
    rw [issue_admitted hc' (hopen.trans hg) hrun', hm', outcomeOf_ok]

/-- A handler changes its part and the record of roles. -/
theorem exec_handler_frame (hi : handlerOf i = some h) (he : exec i s = .next t) :
    t = (s.withPart h t).setRoles t.roles := by
  have hself := exec_of_samePart hi ⟨rfl, rfl, rfl⟩ (s.withPart_self h) he (claimRoles_of_exec he)
  rw [he] at hself
  injection hself

/-- Two handlers can claim their roles in either order, and the record is the same in the end. -/
theorem claimRoles_handlers_swap {r r1 r2 : Roles} (hi : handlerOf i ≠ none) (hj : handlerOf j ≠ none)
    (h1 : claimRoles r i = some r1) (h2 : claimRoles r1 j = some r2) :
    ∃ r', claimRoles r j = some r' ∧ claimRoles r' i = some r2 := by
  have hkind : ∀ k, handlerOf k ≠ none → (∀ r, claimRoles r k = r.link) ∨ ∀ r, claimRoles r k = some r := by
    intro k hk
    cases k with
    | slTxrdy | slRxrdy => exact .inl fun _ => rfl
    | ssTick => exact .inr fun _ => rfl
    | _ => exact absurd rfl hk
  rcases hkind i hi with hi | hi <;> rcases hkind j hj with hj | hj <;> rw [hi] at h1 <;> rw [hj] at h2
  · exact ⟨r1, (hj r).trans h1, (hi r1).trans h2⟩
  · cases h2
    exact ⟨r, hj r, (hi r).trans h1⟩
  · cases h1
    exact ⟨r2, (hj r).trans h2, hi r2⟩
  · cases h1
    exact ⟨r, hj r, (hi r).trans h2⟩

/-- Handlers with different parts commute: each finds its own part as the other has left it, which is as it was. -/
theorem exec_handlers_swap {u : State} {h' : Handler} (hi : handlerOf i = some h) (hj : handlerOf j = some h')
    (hne : h ≠ h') (he : exec i s = .next t) (he' : exec j t = .next u) :
    ∃ t', exec j s = .next t' ∧ exec i t' = .next u := by
  obtain ⟨r', hr', hr⟩ := claimRoles_handlers_swap (by simp [hi]) (by simp [hj]) (claimRoles_of_exec he)
    (claimRoles_of_exec he')
  have ht := exec_handler_frame hi he
  have hu := exec_handler_frame hj he'
  have hgate : SameGate s t := by
    rw [ht]
    exact sameGate_withPart s t h t.roles
  have hpart : s.withPart h' t = s := by
    rw [ht, State.withPart_setRoles, State.withPart_of_other hne, State.withPart_self]
  refine ⟨(s.withPart h' u).setRoles r', exec_of_samePart hj hgate hpart he' hr', ?_⟩
  have hpart' : ((s.withPart h' u).setRoles r').withPart h s = (s.withPart h' u).setRoles r' := by
    rw [State.setRoles_withPart, ← State.withPart_comm hne, State.withPart_self]
  rw [exec_of_samePart hi (sameGate_withPart s u h' r').symm hpart' he hr]
  congr 1
  calc (((s.withPart h' u).setRoles r').withPart h t).setRoles u.roles
      = ((s.withPart h t).withPart h' u).setRoles u.roles := by
        rw [State.setRoles_withPart, State.setRoles_setRoles, State.withPart_comm hne]
    _ = (((s.withPart h t).setRoles t.roles).withPart h' u).setRoles u.roles := by
        rw [State.setRoles_withPart, State.setRoles_setRoles]
    _ = u := by rw [← ht, ← hu]

end Gate

/-! ## The statement -/

theorem handlerOf_eq_some {i : Instr} (hi : i ∈ [.slTxrdy, .ssTick] ∨ ∃ r, i = .slRxrdy r) :
    ∃ h, handlerOf i = some h := by
  obtain hi | ⟨r, rfl⟩ := hi
  · obtain rfl | rfl : i = .slTxrdy ∨ i = .ssTick := by simpa using hi
    · exact ⟨_, rfl⟩
    · exact ⟨_, rfl⟩
  · exact ⟨_, rfl⟩

/-- The mnemonic of a handler (R96, R195). -/
def handlerMnemonic : Handler → String
  | .transmitReady => "SL.TXRDY"
  | .receiveReady => "SL.RXRDY"
  | .tick => "SS.TICK"

theorem mnemonic_of_handlerOf {i : Instr} {h : Handler} (hi : handlerOf i = some h) :
    i.mnemonic = handlerMnemonic h := by
  cases i with
  | slTxrdy | slRxrdy | ssTick =>
    cases hi
    rfl
  | _ => cases hi

/-- Settles O45: handlers of different mnemonics have different parts. -/
theorem handlersCommute : Obligations.HandlersCommute := by
  unfold Obligations.HandlersCommute
  intro i j s t u hi hj hne he he'
  obtain ⟨h, hi⟩ := handlerOf_eq_some hi
  obtain ⟨h', hj⟩ := handlerOf_eq_some hj
  have hdiff : h ≠ h' := by
    rintro rfl
    exact hne ((mnemonic_of_handlerOf hi).trans (mnemonic_of_handlerOf hj).symm)
  exact exec_handlers_swap hi hj hdiff he he'

end Sys2Proof.Machine
end

section
/-! PROOFS. The two hazards of reset (60_exceptions.md R220, R221, R226; U13): an operation that is delivered before
`InitDone` is refused at the gate, and the reset input starts a new run from the reset state. -/

namespace Sys2Proof.Machine

/-! ## Before `InitDone` -/

/-- The second half of admission refuses what is delivered before `InitDone`, whatever roles it claims (R226). -/
theorem admitRun_of_not_initDone {s : State} {i : Instr} (hg : gateOpen i s = true) (hinit : s.initDone = false) :
    admitRun s i = .error .initNotDone := by
  simp [admitRun, hg, hinit]

/-- The gate refuses an admissible operation that it would deliver before `InitDone`. -/
theorem issue_of_not_initDone {s : State} {i : Instr} (body : State → Except Fault State)
    (hc : admitContext s i = .ok ()) (hg : gateOpen i s = true) (hinit : s.initDone = false) :
    issue s i body = .refused .initNotDone := by
  simp [issue, hc, admitRun_of_not_initDone hg hinit]

/-- Settles O12: `exec` and the start event both go through the gate, which refuses before either body is run. -/
theorem operationBeforeInitIsRefused : Obligations.OperationBeforeInitIsRefused := by
  unfold Obligations.OperationBeforeInitIsRefused
  intro s i rest hw hops hb hg hinit
  have hc : admitContext s i = .ok () := admitContext_ok.2 ⟨hw, hops, hb⟩
  refine ⟨?_, fun hagenda => ?_⟩
  · rw [exec_eq_issue_meaning]
    exact issue_of_not_initDone _ hc hg hinit
  · rw [step_start_of_mayBegin hw hb hagenda]
    exact issue_of_not_initDone (s := { s with agenda := rest }) _ hc hg hinit

/-! ## The reset input -/

/-- Settles O50: a reset event is handled by `State.restart` of the state with the event taken off the agenda. -/
theorem resetEventStartsANewRun : Obligations.ResetEventStartsANewRun := by
  unfold Obligations.ResetEventStartsANewRun
  intro s rest hw hagenda
  calc step s
      = handleEvent { s with agenda := rest } .rst := step_event hw hagenda
    _ = .next (State.restart { s with agenda := rest }) := rfl

end Sys2Proof.Machine
end
